-- ==== Sys2Proof/Word.lean ====
section
/-! DEFINITION. The word types of the machine (R5, R8, R219). -/

namespace Sys2Proof

/-- One byte of memory (R5). -/
abbrev Byte := BitVec 8

/-- One 32-bit register word (R8). -/
abbrev Word := BitVec 32

/-- A 64-bit value: a register pair, an address, a mask over beats (R44). -/
abbrev Dword := BitVec 64

/-- A set of threads of one fibre, bit `b` for `%beat` = `b` (R163). -/
abbrev BeatMask := BitVec 64

/-- The largest fibre width (R161). -/
def maxWidth : Nat := 64

end Sys2Proof
end

