-- ==== Sys2Proof/Syntax.lean ====
section
/-! DEFINITION. The instructions and device steps of the table, as syntax: one constructor of `Instr` per row. -/

namespace Sys2Proof

/-- Instruction length (R231). -/
inductive Len where
  | b64 | b96 | b128
  deriving DecidableEq, Repr, Inhabited

/-- The length in bytes (R231). -/
def Len.bytes : Len → Nat
  | .b64 => 8 | .b96 => 12 | .b128 => 16

/-- The fields every instruction word begins with (R234, R237). -/
structure Hdr where
  len : Len
  sw : Bool
  stall : BitVec 4
  guard : BitVec 3
  neg : Bool
  deriving DecidableEq, Repr, Inhabited

/-- The special values of R149. -/
inductive Special where
  | beat | tid | fib | lidx | stage | cohortX | cohortY | cohortZ
  | ncohortX | ncohortY | ncohortZ | width | nfib | lane | core | die | slot | det
  deriving DecidableEq, Repr, Inhabited

/-- A decoded operand field (R148). Macro parameters never reach here: they are substituted before decode (R243). -/
inductive Opd where
  | v (n : BitVec 10)
  | s (n : BitVec 7)
  | sp (x : Special)
  | sz
  deriving DecidableEq, Repr, Inhabited

/-- A permute code with its parameter (R156). -/
inductive Perm where
  | id
  | rot (q : BitVec 6)
  | bc (q : BitVec 6)
  | bfly (q : BitVec 6)
  | mir
  | shd (q : BitVec 6)
  | shu (q : BitVec 6)
  deriving DecidableEq, Repr, Inhabited

/-- A source: a register operand, perhaps permuted (R156), or the immediate of a 128-bit form (R236). -/
inductive Src where
  | reg (o : Opd) (p : Perm)
  | imm (x : BitVec 64)
  deriving DecidableEq, Repr, Inhabited

/-- Type suffixes, codes 0 to 14 of R238. -/
inductive Ty where
  | i32 | n32 | i64 | n64 | i16 | n16 | i8 | n8 | f32 | f64 | f16 | bf16 | e4m3 | e5m2 | b32
  deriving DecidableEq, Repr, Inhabited

/-- Memory scopes, narrowest first (R11, R238). -/
inductive Scope where
  | fib | core | clu | die | pkg | sys
  deriving DecidableEq, Repr, Inhabited

/-- Ordering qualifiers (R238). -/
inductive MemOrd where
  | none | acq | rel | ar
  deriving DecidableEq, Repr, Inhabited

/-- Scope, ordering and the X bit of a memory instruction (R264, R265). -/
structure Qual where
  scope : Option Scope
  ord : MemOrd
  x : Bool
  deriving DecidableEq, Repr, Inhabited

/-- Rounding modes (R63, R238). -/
inductive Rm where
  | rn | rz | ru | rd | rs
  deriving DecidableEq, Repr, Inhabited

/-- Integer comparisons (R316). -/
inductive ICmp where
  | eq | ne | lt | le | gt | ge
  deriving DecidableEq, Repr, Inhabited

/-- Floating-point comparisons (R326). -/
inductive FCmp where
  | eq | ne | lt | le | gt | ge | num | nan
  deriving DecidableEq, Repr, Inhabited

/-- Atomic operations by MODX code (R274); `add` with type `.n32` is `.inc`. -/
inductive AOp where
  | add | min | max | and | or | xor | xchg | cas
  deriving DecidableEq, Repr, Inhabited

/-- Scan, reduction and staging operations (R347). -/
inductive ROp where
  | add | min | max | and | or | xor
  deriving DecidableEq, Repr, Inhabited

/-- Completion kinds of a copy (R285). -/
inductive Ck where
  | fe | stamp | bar
  deriving DecidableEq, Repr, Inhabited

/-- Paths of ACOPY (R285). -/
inductive CopyPath where
  | m2s | s2m | m2m | p2s | p2m | s2p | m2p
  deriving DecidableEq, Repr, Inhabited

/-- The fields ASID and VA of a write of TLBINV (R82). -/
structure InvTarget where
  asid : BitVec 16
  va : BitVec 56
  deriving DecidableEq, Repr, Inhabited

/-- A write of TLBINV without its KIND: the field BOTH and the target (R82). -/
structure InvWrite where
  both : Bool
  target : InvTarget
  deriving DecidableEq, Repr, Inhabited

/-- A write TLP of a register: its data, and its EP bit (R23). -/
structure RegData where
  value : BitVec 64
  poisoned : Bool
  deriving DecidableEq, Repr, Inhabited

/-- A write of PRECTL without its KIND: CLUSTER, SCORE, SSLOT and TCORE (R439). -/
structure PreWrite where
  cluster : BitVec 6
  score : BitVec 2
  sslot : BitVec 5
  tcore : BitVec 2
  deriving DecidableEq, Repr, Inhabited

/-- What CINV invalidates (R277). -/
inductive CinvKind where
  | l1 | const | all
  deriving DecidableEq, Repr, Inhabited

/-- Vote modes (R341, R345). -/
inductive VoteMode where
  | every | some | same | most
  deriving DecidableEq, Repr, Inhabited

/-- Word counts of RAND (R341). -/
inductive RandCount where
  | x1 | x2 | x4
  deriving DecidableEq, Repr, Inhabited

/-- Destinations of a drain (R354). -/
inductive DrainDst where
  | v | s | g
  deriving DecidableEq, Repr, Inhabited

/-- Texture addressing modes (R354, R369). -/
inductive TxwMode where
  | wrap | clamp | border
  deriving DecidableEq, Repr, Inhabited

/-- The bit-exact fields of an instruction word, before any meaning (R234 to R236). -/
structure Raw where
  len : Len
  sw : Bool
  stall : BitVec 4
  guard : BitVec 3
  neg : Bool
  opcode : BitVec 10
  d : BitVec 11
  a : BitVec 11
  b : BitVec 11
  mod : BitVec 10
  c : BitVec 11
  pca : BitVec 3
  pqa : BitVec 6
  pcb : BitVec 3
  pqb : BitVec 6
  modx : BitVec 3
  imm : BitVec 64
  deriving DecidableEq, Repr, Inhabited

/-- What the boot steps of R39 meet: whether each succeeds, and whether the link of the port trains. -/
structure BootOutcome where
  firmwareOk : Bool
  dramOk : Bool
  bridgeOk : Bool
  portsOk : Bool
  linkUp : Bool
  deriving DecidableEq, Repr, Inhabited

/-- The links on which a response travels (R15). -/
inductive LinkKind where
  | bridge | pcie | ethernet
  deriving DecidableEq, Repr, Inhabited

/-- Where a soft error strikes (R87, R128, R159, R184). Indices are those of the state's tables. `path`: not the stored word but the way of an operand
from it, by register number, so that its next read alone mismatches; `xbuf`: the words that the exchange buffer will hold for a beat (R159);
`carry`: the carry word as a beat meets it (R172); `alu`: bits that the ALU flips in the next predicted result. `flip` and `code` say which bits of
a stored word and of its residue code change. -/
inductive ErrSite where
  | dram (pa : Nat)
  | l2 (pa : Nat)
  | copyLine (die line : Nat)
  | spad (cluster granule : Nat)
  | tile (cluster t byte : Nat)
  | acc (cluster bank row col : Nat)
  | vreg (fibre index beat : Nat) (flip : BitVec 32) (code : BitVec 5)
  | sreg (fibre n : Nat) (flip : BitVec 32) (code : BitVec 5)
  | shreg (slot index beat : Nat) (flip : BitVec 32) (code : BitVec 5)
  | l1 (core line : Nat)
  | const (cluster line : Nat)
  | path (fibre : Nat) (o : Opd) (beat : Nat)
  | xbuf (fibre beat : Nat)
  | carry (fibre beat : Nat)
  | alu (fibre : Nat) (flip : BitVec 32)
  deriving DecidableEq, Repr, Inhabited

/-- One row of spec/opcode_table.json each: first the instructions in the table's order, then the device steps.

Device steps carry what the outside or an engine brings: numbers of dies (0, 1), clusters (0 to 95 in the package), cores (0 to 383), lanes (core · 16 + lane), fibres ((core · 32 + slot) · 4 + stage), and positions in a list of the state. -/
inductive Instr where
  -- control flow and fibres (R383)
  | nop (h : Hdr)
  | bra (h : Hdr) (off : BitVec 32)
  | brx (h : Hdr) (a : Opd)
  | call (h : Hdr) (d : Opd) (sl : BitVec 7) (off : BitVec 32)
  | callx (h : Hdr) (d a : Opd) (sl : BitVec 7)
  | ret (h : Hdr) (a : Opd)
  | join (h : Hdr) (n : BitVec 3) (off : BitVec 32)
  | joinPush (h : Hdr) (off : BitVec 32)
  | jdrop (h : Hdr) (n : BitVec 3)
  | wait (h : Hdr) (n : BitVec 3)
  | waitPop (h : Hdr)
  | exit (h : Hdr)
  | yield (h : Hdr)
  | mcall (h : Hdr) (n : BitVec 6) (p0 p1 p2 p3 p4 p5 p6 p7 : BitVec 11)
  | mdef (h : Hdr) (a : Opd) (n c : BitVec 6)
  | fbar (h : Hdr) (b : BitVec 2) (mask : BitVec 4) (p : BitVec 3)
  | fwinGet (h : Hdr) (d : Opd)
  | fwinSet (h : Hdr) (a : Opd)
  -- memory (R261 to R282)
  | ldg (h : Hdr) (q : Qual) (ty : Ty) (qw touch : Bool) (d : Opd) (a b : Src) (off : BitVec 32)
  | stg (h : Hdr) (q : Qual) (ty : Ty) (qw : Bool) (d : Opd) (a b : Src) (off : BitVec 32)
  | lde (h : Hdr) (q : Qual) (ty : Ty) (touch : Bool) (d : Opd) (a b : Src) (c : Option Opd) (off : BitVec 32)
  | lds (h : Hdr) (q : Qual) (ty : Ty) (qw touch : Bool) (d : Opd) (a b : Src) (off : BitVec 32)
  | sts (h : Hdr) (q : Qual) (ty : Ty) (qw : Bool) (d : Opd) (a b : Src) (off : BitVec 32)
  | ldc (h : Hdr) (ty : Ty) (qw touch : Bool) (d : Opd) (a b : Src) (off : BitVec 32)
  | ldfe (h : Hdr) (clr : Bool) (ty : Ty) (qw : Bool) (d : Opd) (a b : Src) (off : BitVec 32)
  | stfe (h : Hdr) (ty : Ty) (qw : Bool) (d : Opd) (a b : Src) (off : BitVec 32)
  | feset (h : Hdr) (full : Bool) (a b : Opd) (off : BitVec 32)
  | atomg (h : Hdr) (q : Qual) (op : AOp) (ty : Ty) (d : Opd) (a b : Src) (c : Option Opd)
  | atoms (h : Hdr) (q : Qual) (op : AOp) (ty : Ty) (d : Opd) (a b : Src) (c : Option Opd)
  | redg (h : Hdr) (q : Qual) (op : AOp) (ty : Ty) (a b : Src)
  | pref (h : Hdr) (l1 touch : Bool) (a b : Opd) (off : BitVec 32)
  | fence (h : Hdr) (ord : MemOrd) (scope : Scope)
  | icinv (h : Hdr) (scope : Scope) (a b : Opd)
  | cinv (h : Hdr) (kind : CinvKind)
  | cwb (h : Hdr) (a b : Opd)
  | marm (h : Hdr) (a b : Src)
  | mwait (h : Hdr) (d a : Opd)
  -- asynchronous (R285)
  | tcopy (h : Hdr) (ck : Ck) (d a : Opd) (b : Option Opd) (tb tnm1 : BitVec 4)
  | acopy (h : Hdr) (ck : Ck) (path : CopyPath) (d : Option Opd) (a : Opd) (b : Option Opd) (entry : BitVec 12)
  | barinit (h : Hdr) (a : Opd) (n : Src)
  | barexp (h : Hdr) (a : Opd) (n : Src)
  | bararv (h : Hdr) (d a : Opd) (p : BitVec 3)
  | barwt (h : Hdr) (a b : Opd)
  | barcont (h : Hdr) (a b : Opd) (off : BitVec 32)
  | subs (h : Hdr) (d a b : Opd) (logn : BitVec 4) (dir : Bool)
  | rrel (h : Hdr) (a : Opd) (n : Src)
  | rfin (h : Hdr) (a : Opd) (n : Src)
  | wqry (h : Hdr) (a b : Opd)
  | rmtw (h : Hdr) (ty : Ty) (d a : Opd) (entry : BitVec 12) (off : BitVec 40)
  | rmtr (h : Hdr) (ty : Ty) (d a : Opd) (entry : BitVec 12) (off : BitVec 40)
  -- integer, logic and address (R301)
  | iadd (h : Hdr) (ty : Ty) (co ci : BitVec 3) (d : Opd) (a b : Src)
  | isub (h : Hdr) (ty : Ty) (co ci : BitVec 3) (d : Opd) (a b : Src)
  | iadd3 (h : Hdr) (ty : Ty) (d : Opd) (a b : Src) (c : Opd)
  | imul (h : Hdr) (ty : Ty) (d : Opd) (a b : Src)
  | imulh (h : Hdr) (ty : Ty) (d : Opd) (a b : Src)
  | imad (h : Hdr) (ty : Ty) (d : Opd) (a b : Src) (c : Opd)
  | imadw (h : Hdr) (ty : Ty) (d : Opd) (a b : Src) (c : Opd)
  | ineg (h : Hdr) (ty : Ty) (d : Opd) (a : Src)
  | iabs (h : Hdr) (ty : Ty) (d : Opd) (a : Src)
  | imin (h : Hdr) (ty : Ty) (d : Opd) (a b : Src)
  | imax (h : Hdr) (ty : Ty) (d : Opd) (a b : Src)
  | ishl (h : Hdr) (ty : Ty) (d : Opd) (a b : Src)
  | ishr (h : Hdr) (ty : Ty) (d : Opd) (a b : Src)
  | isar (h : Hdr) (ty : Ty) (d : Opd) (a b : Src)
  | rot (h : Hdr) (ty : Ty) (d : Opd) (a b : Src)
  | land (h : Hdr) (ty : Ty) (d : Opd) (a b : Src)
  | lor (h : Hdr) (ty : Ty) (d : Opd) (a b : Src)
  | lxor (h : Hdr) (ty : Ty) (d : Opd) (a b : Src)
  | lnot (h : Hdr) (ty : Ty) (d : Opd) (a : Src)
  | bfn3 (h : Hdr) (lut : BitVec 8) (d : Opd) (a b : Src) (c : Opd)
  | popc (h : Hdr) (ty : Ty) (d : Opd) (a : Src)
  | clz (h : Hdr) (ty : Ty) (d : Opd) (a : Src)
  | ctz (h : Hdr) (ty : Ty) (d : Opd) (a : Src)
  | brev (h : Hdr) (ty : Ty) (d : Opd) (a : Src)
  | bfe (h : Hdr) (ty : Ty) (d : Opd) (a b : Src)
  | bfi (h : Hdr) (d : Opd) (a b : Src) (c : Opd)
  | bysel (h : Hdr) (d : Opd) (a b : Src) (sel : Option Src)
  | iset (h : Hdr) (ty : Ty) (cmp : ICmp) (p : BitVec 3) (a b : Src)
  | isel (h : Hdr) (ty : Ty) (p : BitVec 3) (neg : Bool) (d : Opd) (a b : Src)
  | lea (h : Hdr) (ty : Ty) (sh : BitVec 4) (d : Opd) (a b : Src)
  | mov (h : Hdr) (ty : Ty) (d : Opd) (a : Src)
  | movi (h : Hdr) (ty : Ty) (d : Opd) (x : BitVec 64)
  | pset (h : Hdr) (lut : BitVec 8) (pd pa pb pc : BitVec 3)
  -- floating point (R321)
  | fadd (h : Hdr) (rm : Rm) (na nb : Bool) (d : Opd) (a b : Src)
  | fmul (h : Hdr) (rm : Rm) (na nb : Bool) (d : Opd) (a b : Src)
  | ffma (h : Hdr) (rm : Rm) (na nb nc : Bool) (d : Opd) (a b : Src) (c : Opd)
  | fmin (h : Hdr) (d : Opd) (a b : Src)
  | fmax (h : Hdr) (d : Opd) (a b : Src)
  | fset (h : Hdr) (cmp : FCmp) (p : BitVec 3) (a b : Src)
  | frcp (h : Hdr) (rm : Rm) (d : Opd) (a : Src)
  | frsq (h : Hdr) (d : Opd) (a : Src)
  | fsqrt (h : Hdr) (rm : Rm) (d : Opd) (a : Src)
  | fex2 (h : Hdr) (d : Opd) (a : Src)
  | flg2 (h : Hdr) (d : Opd) (a : Src)
  | fsin (h : Hdr) (d : Opd) (a : Src)
  | fcos (h : Hdr) (d : Opd) (a : Src)
  | frnd (h : Hdr) (rm : Rm) (d : Opd) (a : Src)
  | fclass (h : Hdr) (ty : Ty) (d : Opd) (a : Src)
  | dadd (h : Hdr) (rm : Rm) (na nb : Bool) (d : Opd) (a b : Src)
  | dmul (h : Hdr) (rm : Rm) (na nb : Bool) (d : Opd) (a b : Src)
  | dfma (h : Hdr) (rm : Rm) (na nb nc : Bool) (d : Opd) (a b : Src) (c : Opd)
  | dset (h : Hdr) (cmp : FCmp) (p : BitVec 3) (a b : Src)
  | hadd2 (h : Hdr) (ty : Ty) (rm : Rm) (na nb : Bool) (d : Opd) (a b : Src)
  | hmul2 (h : Hdr) (ty : Ty) (rm : Rm) (na nb : Bool) (d : Opd) (a b : Src)
  | hfma2 (h : Hdr) (ty : Ty) (rm : Rm) (na nb nc : Bool) (d : Opd) (a b : Src) (c : Opd)
  | cvt (h : Hdr) (rm : Rm) (dfmt sfmt : BitVec 5) (d : Opd) (a : Src) (rs : Option (BitVec 6 × Opd))
  | pack (h : Hdr) (rm : Rm) (fmt lm1 : BitVec 5) (d : Opd) (a : Opd) (rs : Option (BitVec 6 × Opd))
  | fstk (h : Hdr) (d a : Opd)
  -- exchange (R341)
  | xch (h : Hdr) (ty : Ty) (wrap : Bool) (d : Opd) (a b : Src)
  | vote (h : Hdr) (mode : VoteMode) (na : Bool) (pd pa : BitVec 3)
  | ballot (h : Hdr) (ty : Ty) (na : Bool) (d : Opd) (pa : BitVec 3)
  | scan (h : Hdr) (ty : Ty) (op : ROp) (exc : Bool) (d : Opd) (a : Src) (b : Option Opd)
  | redx (h : Hdr) (ty : Ty) (op : ROp) (d : Opd) (a : Src) (b : Option Opd)
  | matchB (h : Hdr) (ty : Ty) (d : Opd) (a : Src)
  | first (h : Hdr) (ty : Ty) (d : Opd) (a : Option Src)
  | rand (h : Hdr) (count : RandCount) (inc : Bool) (d b c : Opd)
  -- matrix engine and graphics helpers (R354)
  | mxcfg (h : Hdr) (x : Src)
  | mxpre (h : Hdr) (x : Src)
  | mxpost (h : Hdr) (w : Bool) (x : Src)
  | unf (h : Hdr) (w : Bool) (x : Src)
  | kset (h : Hdr) (k : BitVec 4) (fibSet : Bool) (d a b : Opd) (count : BitVec 8)
  | sign (h : Hdr) (k : BitVec 4) (a : Opd)
  | mxwait (h : Hdr) (k : BitVec 4) (scope : Option Scope)
  | mxdrain (h : Hdr) (k : BitVec 4) (dst : DrainDst) (rel : Bool) (d a : Option Opd) (ctl : Src)
  | mxclr (h : Hdr) (k : BitVec 4)
  | mxstat (h : Hdr) (k : BitVec 4) (d : Opd)
  | tlds (h : Hdr) (t : BitVec 4) (a : Opd) (ctl : Src)
  | edgec (h : Hdr) (d a b : Opd)
  | txw (h : Hdr) (mode : TxwMode) (tb : BitVec 2) (d a b : Opd)
  -- tasks, determinism, traps and system (R446)
  | emit (h : Hdr) (a b : Opd)
  | tspawn (h : Hdr) (a : Opd) (off : BitVec 32)
  | condw (h : Hdr) (a : Opd) (x : Src)
  | grun (h : Hdr) (a : Opd) (off : BitVec 32)
  | rstg (h : Hdr) (ty : Ty) (op : ROp) (a b : Src)
  | rcmb (h : Hdr) (ty : Ty) (op : ROp) (a b : Opd)
  | dgstr (h : Hdr) (d : Opd)
  | trap (h : Hdr) (code : BitVec 10)
  | rett (h : Hdr)
  | prdone (h : Hdr)
  | csrr (h : Hdr) (d : Opd) (n : BitVec 8)
  | csrw (h : Hdr) (n : BitVec 8) (x : Src)
  | clock (h : Hdr) (dieClock : Bool) (d : Opd)
  | featr (h : Hdr) (hw : Bool) (d a : Opd)
  -- an extension opcode met at issue (R246, R466)
  | unimpDispatch (w : Raw)
  -- package, dies, host and links
  | powerOnBoot (die : Nat) (o : BootOutcome)
  | dieReset (die : Nat)
  | bridgeTrained
  | peerAbsent (die : Nat)
  | inflightHomeAbsent (fibre index : Nat)
  | responseArrival (die : Nat) (link : LinkKind) (inc : BitVec 8) (tag : Nat) (poisoned : Bool) (data : BitVec 128)
  | hostApertureWrite (die : Nat) (pa : Nat) (data : List Byte) (poisoned : Bool)
  | hostApertureRead (die : Nat) (pa n : Nat)
  | hostFeedWindowWrite (die : Nat) (off : Nat) (data : List Byte) (poisoned : Bool)
  | hostFeedDoorbell (die : Nat) (window : Nat) (value : BitVec 64) (poisoned : Bool)
  | hostLinkDown (die : Nat)
  | hostWriteAccept (die : Nat)
  | hostWriteAbandon (die : Nat)
  | rcError (die : Nat) (port : BitVec 3) (qpn : BitVec 24)
  | incomingRdmaWrite (die : Nat) (pa : Nat) (data : List Byte)
  | attestRequest (die : Nat)
  | irqenWrite (die : Nat) (x : BitVec 32)
  | irqstatClear (die : Nat) (x : BitVec 32)
  | thermRefresh (die : Nat) (temp : BitVec 8)
  | thermWarnWrite (die : Nat) (warn : BitVec 8)
  | peerWindowWrite (die : Nat) (entry : BitVec 12) (dword : BitVec 2) (x : BitVec 64)
  | quarantineClear (die : Nat) (q : BitVec 6)
  | scrub (die : Nat) (pa : Nat)
  | ownchgGo
  | ownchgComplete
  | tlbinvPage (die : Nat) (both : Bool) (asid : BitVec 16) (va : BitVec 56)
  | tlbinvAsid (die : Nat) (both : Bool) (target : InvTarget)
  | tlbinvAll (die : Nat) (w : InvWrite)
  | tlbinvDone (die : Nat)
  | fqsizeWrite (die : Nat) (x : BitVec 16)
  | fqreplyRetry (die : Nat) (index : BitVec 16)
  | fqreplyFail (die : Nat) (index : BitVec 16)
  | featreqWrite (die : Nat) (x : BitVec 512)
  | registerWrite (die : Nat) (priv : Bool) (off : Nat) (x : RegData)
  -- memory system
  | walkComplete (die index : Nat)
  | faultRecordAppend (die index : Nat)
  | loadComplete (fibre index : Nat)
  | wtRecordAtHome (die index : Nat)
  | wtAck (die index : Nat)
  | remoteAtomicResponse (fibre index : Nat)
  | monitorArmRegistered (die index : Nat)
  | mwaitWake (fibre : Nat)
  | mwaitTimeout (fibre : Nat)
  -- Moraine engines and the copy engine
  | moraineGranulePush (cluster ring granule : Nat)
  | moraineSlotPulled (cluster ring : Nat)
  | ringTailRead (cluster ring : Nat)
  | ringError (cluster ring : Nat)
  | ringPause (cluster ring : Nat)
  | copyStart (cluster : Nat)
  | copyChunk (cluster index : Nat)
  | copyComplete (cluster index : Nat)
  | copyFail (cluster index : Nat)
  -- registers and lanes
  | regFillComplete (fibre : Nat)
  | regSpillComplete (fibre block : Nat)
  | laneQuantumExpiry (lane : Nat)
  -- matrix engine
  | passPost (cluster k : Nat)
  | passGrant (cluster : Nat)
  | passEnd (cluster : Nat)
  | drainComplete (cluster : Nat)
  -- answers
  | wqryAnswer (cluster index : Nat)
  | rmtrResponse (fibre index : Nat) (ok : Bool) (data : BitVec 64)
  | rmtwAck (die index : Nat) (ok : Bool)
  -- task walker and bins
  | twsub (die : Nat) (node : BitVec 64) (asid : BitVec 16)
  | cohortPlace (die : Nat)
  | cohortComplete (index : Nat)
  | nodeRetire (die index : Nat)
  | conditionNodeEval (die index : Nat)
  | loopNodeRun (die index : Nat)
  | binTimerExpiry (die index ring : Nat)
  | groupComplete (die index : Nat)
  | idemReexec (index : Nat)
  | dgstMmSpawn (index : Nat)
  -- traps and pre-emption
  | trapEntry (fibre : Nat)
  | timerExpiry (fibre : Nat)
  | prectlSave (die : Nat) (w : PreWrite)
  | prectlMigrate (die : Nat) (cluster : BitVec 6) (score : BitVec 2) (sslot : BitVec 5) (tcore : BitVec 2)
  | prectlRestore (die : Nat) (w : PreWrite)
  | preemptTaken (fibre : Nat)
  | forcedSave (fibre : Nat)
  | saveComplete (die : Nat)
  | restoreComplete (die : Nat)
  | freezeActExit (die : Nat)
  | freezeActAbort (die : Nat)
  | freezeActPop (die : Nat)
  -- links, errors, performing and submission
  | pcieLinkTrained (die : Nat)
  | connectionReestablished (die : Nat) (port : BitVec 3) (qpn : BitVec 24)
  | softError (site : ErrSite) (correctable : Bool)
  | accessPerformedAtHome (fibre index : Nat)
  | submissionStart (die : Nat)
  deriving DecidableEq, Repr, Inhabited

/-- What moves next: a lane issues, a device step happens, or the surroundings change something no row names.

`issueSome`: the lane issues, and the instruction pauses after some of its beats (R125, R127); `cycle`: one cycle of a core, with the arbitration of R180.
`hostStore` is the host writing its own memory; `hostPoison`: reads of a byte of host memory complete with EP until it is written (R23); `sendRecord`: a
write-through record leaves the buffer for home (R94); the evictions are the victims of R89, R119, R132 and the instruction cache, the write-back of a Home line (R278), and the end of a host-feed node's reading of its batch (R413). -/
inductive Choice where
  | issue (lane : Nat)
  | issueSome (lane beats : Nat)
  | cycle (core : Nat)
  | event (i : Instr)
  | hostStore (pa : Nat) (data : List Byte)
  | hostPoison (pa : Nat)
  | sendRecord (die index : Nat)
  | evictL1 (core line : Nat)
  | evictConst (cluster line : Nat)
  | evictCopy (die line : Nat)
  | evictCode (core line : Nat)
  | evictTlb (core asid : Nat) (va : Nat)
  | writeBack (line : Nat)
  | feedBatch (die window : Nat)
  | idle
  deriving DecidableEq, Repr, Inhabited

end Sys2Proof
end

