-- ==== Sys2Proof/Config.lean ====
section
/-! DEFINITION. What the spec leaves open: constants without a body, so that no proof can use a value of theirs. -/

namespace Sys2Proof

/-- What moves at a step when the agenda is empty (R2, R175, R180 to R182 bound it, no rule fixes it). -/
opaque Config.freeChoice : Nat → Choice

/-- A free bit for each number: which of two allowed values a short stall count gives (R169). -/
opaque Config.freeBit : Nat → Bool

/-- A free word for each number. -/
opaque Config.freeWord : Nat → BitVec 64

/-- Whether a fixed-latency result that an instruction waits for is still not readable as its lane comes to it: by step, fibre and first beat (R168,
R372). -/
opaque Config.latencyHeld : Nat → Nat → Nat → Bool

/-- Whether the holder of a lane still waits on its stall count as the lane comes to it: by step and lane (R166, R175). -/
opaque Config.stallHeld : Nat → Nat → Bool

/-- Cycles that a counter moves on by during a step: the counter of a core by its number, that of a die by 384 and its number (R32, R460). -/
opaque Config.elapsed : Nat → Nat → Nat

/-- How many one-time keys a die's attestation state holds (R40). -/
opaque Config.attestKeys : Nat

end Sys2Proof
end

