-- ==== Sys2Proof/WellFormed.lean ====
section
/-! DEFINITION. Which instruction terms have a word: the length its opcode letter admits (R245), a source of the kind that length carries (R235, R236), an immediate that fits (R300), and device steps whose numbers name a part that exists (R3, R4). -/

namespace Sys2Proof

/-- The length letters of R245. -/
inductive Letter where
  | a | b | c | d | e | f
  deriving DecidableEq, Repr

/-- The lengths a letter admits (R245). -/
def Letter.admits : Letter → Len → Bool
  | .a, .b64 => true
  | .b, .b64 => true | .b, .b96 => true
  | .c, _ => true
  | .d, .b96 => true
  | .e, .b128 => true
  | .f, .b64 => true | .f, .b128 => true
  | _, _ => false

/-- A source that is a register operand; only a 96-bit form permutes it (R235). -/
def Src.regIn (l : Len) : Src → Bool
  | .reg _ p => l == .b96 || p == .id
  | .imm _ => false

/-- A source that the 128-bit form takes from IMM (R236): 32 bits wide there unless `wide`. -/
def Src.orImm (l : Len) (wide : Bool) : Src → Bool
  | .reg _ p => l != .b128 && (l == .b96 || p == .id)
  | .imm x => l == .b128 && (wide || x.toNat < 2 ^ 32)

/-- A source read from a field of the 128-bit form as well (its IMM holds something else). -/
def Src.plain : Src → Bool
  | .reg _ p => p == .id
  | .imm _ => false

/-- An offset field exists only in the 128-bit form (R261). -/
def offIn {n : Nat} (l : Len) (x : BitVec n) : Bool := l == .b128 || x == 0

/-- The selector of BYSEL: none, operand C, or IMM, by length (R300). -/
def selIn : Len → Option Src → Bool
  | .b64, none => true
  | .b96, some s => s.plain
  | .b128, some (.imm x) => x.toNat < 2 ^ 32
  | _, _ => false

/-- 64-bit types (R44). -/
def Ty.is64 : Ty → Bool
  | .i64 | .n64 | .f64 => true
  | _ => false

/-- The never guard (R237). -/
def Hdr.never (h : Hdr) : Bool := h.guard == 7 && h.neg

/-- A die number. -/
def dieOk (d : Nat) : Bool := d < 2
/-- A package cluster number (R4). -/
def clusterOk (c : Nat) : Bool := c < 96
/-- A package core number (R4). -/
def coreOk (c : Nat) : Bool := c < 384
/-- A lane of the package (R4). -/
def laneOk (l : Nat) : Bool := l < 384 * 16
/-- A slot of the package (R4). -/
def slotOk (s : Nat) : Bool := s < 384 * 32
/-- A fibre position of the package (R161). -/
def fibreOk (f : Nat) : Bool := f < 384 * 32 * 4

/-- Where a soft error may strike. -/
def ErrSite.inRange : ErrSite → Bool
  | .dram _ | .l2 _ => true
  | .copyLine d _ => dieOk d
  | .spad c g => clusterOk c && g < 65536
  | .tile c t b => clusterOk c && t < 16 && b < 16384
  | .acc c b r k => clusterOk c && b < 2 && r < 128 && k < 128
  | .vreg f _ b _ _ => fibreOk f && b < 64
  | .sreg f n _ _ => fibreOk f && n < 128
  | .shreg s i b _ _ => slotOk s && i < 256 && b < 64
  | .l1 c _ => coreOk c
  | .const c _ => clusterOk c
  | .path f _ b | .xbuf f b | .carry f b => fibreOk f && b < 64
  | .alu f _ => fibreOk f

/-- Whether an instruction term has a word, or a device step names parts that exist. -/
def Instr.wf : Instr → Bool
  | .nop h => Letter.b.admits h.len || h.never
  | .bra h _ => Letter.e.admits h.len && !h.never
  | .brx h _ => Letter.a.admits h.len && !h.never
  | .call h _ _ _ => Letter.e.admits h.len && !h.never
  | .callx h _ _ _ => Letter.a.admits h.len && !h.never
  | .ret h _ => Letter.a.admits h.len && !h.never
  | .join h _ _ => Letter.e.admits h.len && !h.never
  | .joinPush h _ => Letter.e.admits h.len && !h.never
  | .jdrop h _ => Letter.a.admits h.len && !h.never
  | .wait h _ => Letter.a.admits h.len && !h.never
  | .waitPop h => Letter.a.admits h.len && !h.never
  | .exit h => Letter.a.admits h.len && !h.never
  | .yield h => Letter.a.admits h.len && !h.never
  | .mcall h _ _ _ _ _ _ _ _ _ => Letter.e.admits h.len && !h.never
  | .mdef h _ _ _ => Letter.e.admits h.len && !h.never
  | .fbar h _ _ _ => Letter.a.admits h.len && !h.never
  | .fwinGet h _ => Letter.a.admits h.len && !h.never
  | .fwinSet h _ => Letter.a.admits h.len && !h.never
  | .ldg h _ _ qw touch _ a b off => !h.never && a.regIn h.len && b.regIn h.len && offIn h.len off && (h.len == .b128 || (!qw && !touch))
  | .stg h _ _ qw _ a b off => !h.never && a.regIn h.len && b.regIn h.len && offIn h.len off && (h.len == .b128 || !qw)
  | .lde h _ _ touch _ a b c off => !h.never && a.regIn h.len && b.regIn h.len && offIn h.len off && (h.len == .b128 || !touch)
      && (h.len == .b96 || c.isNone)
  | .lds h _ _ qw touch _ a b off => !h.never && a.regIn h.len && b.regIn h.len && offIn h.len off && (h.len == .b128 || (!qw && !touch))
  | .sts h _ _ qw _ a b off => !h.never && a.regIn h.len && b.regIn h.len && offIn h.len off && (h.len == .b128 || !qw)
  | .ldc h _ qw touch _ a b off => !h.never && a.regIn h.len && b.regIn h.len && offIn h.len off && (h.len == .b128 || (!qw && !touch))
  | .ldfe h _ _ qw _ a b off => !h.never && a.regIn h.len && b.regIn h.len && offIn h.len off && (h.len == .b128 || !qw)
  | .stfe h _ qw _ a b off => !h.never && a.regIn h.len && b.regIn h.len && offIn h.len off && (h.len == .b128 || !qw)
  | .feset h _ _ _ off => Letter.f.admits h.len && !h.never && offIn h.len off
  | .atomg h _ op _ _ a b c => Letter.b.admits h.len && !h.never && a.regIn h.len && b.regIn h.len && (h.len == .b96 || op == .add)
      && (c.isSome == (op == .cas))
  | .atoms h _ op _ _ a b c => Letter.b.admits h.len && !h.never && a.regIn h.len && b.regIn h.len && (h.len == .b96 || op == .add)
      && (c.isSome == (op == .cas))
  | .redg h _ op _ a b => Letter.b.admits h.len && !h.never && a.regIn h.len && b.regIn h.len && (h.len == .b96 || op == .add)
  | .pref h _ touch _ _ off => Letter.f.admits h.len && !h.never && offIn h.len off && (h.len == .b128 || !touch)
  | .fence h _ _ => Letter.a.admits h.len && !h.never
  | .icinv h _ _ _ => Letter.a.admits h.len && !h.never
  | .cinv h _ => Letter.a.admits h.len && !h.never
  | .cwb h _ _ => Letter.a.admits h.len && !h.never
  | .marm h a b => Letter.b.admits h.len && !h.never && a.regIn h.len && b.regIn h.len
  | .mwait h _ _ => Letter.a.admits h.len && !h.never
  | .tcopy h ck _ _ b _ _ => Letter.e.admits h.len && !h.never && (b.isSome == (ck == .stamp))
  | .acopy h ck _ d _ b _ => Letter.e.admits h.len && !h.never && (b.isSome == (ck == .stamp)) && (d.isSome == (ck != .fe))
  | .barinit h _ n => Letter.f.admits h.len && !h.never && n.orImm h.len false
  | .barexp h _ n => Letter.f.admits h.len && !h.never && n.orImm h.len false
  | .bararv h _ _ _ => Letter.a.admits h.len && !h.never
  | .barwt h _ _ => Letter.a.admits h.len && !h.never
  | .barcont h _ _ _ => Letter.e.admits h.len && !h.never
  | .subs h _ _ _ _ _ => Letter.e.admits h.len && !h.never
  | .rrel h _ n => Letter.f.admits h.len && !h.never && n.orImm h.len false
  | .rfin h _ n => Letter.f.admits h.len && !h.never && n.orImm h.len false
  | .wqry h _ _ => Letter.a.admits h.len && !h.never
  | .rmtw h _ _ _ _ _ => Letter.e.admits h.len && !h.never
  | .rmtr h _ _ _ _ _ => Letter.e.admits h.len && !h.never
  | .iadd h ty _ _ _ a b => !h.never && a.regIn h.len && b.orImm h.len ty.is64
  | .isub h ty _ _ _ a b => !h.never && a.regIn h.len && b.orImm h.len ty.is64
  | .iadd3 h _ _ a b _ => Letter.d.admits h.len && !h.never && a.regIn h.len && b.regIn h.len
  | .imul h ty _ a b => !h.never && a.regIn h.len && b.orImm h.len ty.is64
  | .imulh h ty _ a b => !h.never && a.regIn h.len && b.orImm h.len ty.is64
  | .imad h _ _ a b _ => Letter.d.admits h.len && !h.never && a.regIn h.len && b.regIn h.len
  | .imadw h _ _ a b _ => Letter.d.admits h.len && !h.never && a.regIn h.len && b.regIn h.len
  | .ineg h _ _ a => Letter.b.admits h.len && !h.never && a.regIn h.len
  | .iabs h _ _ a => Letter.b.admits h.len && !h.never && a.regIn h.len
  | .imin h ty _ a b => !h.never && a.regIn h.len && b.orImm h.len ty.is64
  | .imax h ty _ a b => !h.never && a.regIn h.len && b.orImm h.len ty.is64
  | .ishl h _ _ a b => !h.never && a.regIn h.len && b.orImm h.len false
  | .ishr h _ _ a b => !h.never && a.regIn h.len && b.orImm h.len false
  | .isar h _ _ a b => !h.never && a.regIn h.len && b.orImm h.len false
  | .rot h _ _ a b => !h.never && a.regIn h.len && b.orImm h.len false
  | .land h ty _ a b => !h.never && a.regIn h.len && b.orImm h.len ty.is64
  | .lor h ty _ a b => !h.never && a.regIn h.len && b.orImm h.len ty.is64
  | .lxor h ty _ a b => !h.never && a.regIn h.len && b.orImm h.len ty.is64
  | .lnot h _ _ a => Letter.b.admits h.len && !h.never && a.regIn h.len
  | .bfn3 h _ _ a b _ => Letter.d.admits h.len && !h.never && a.regIn h.len && b.regIn h.len
  | .popc h _ _ a => Letter.b.admits h.len && !h.never && a.regIn h.len
  | .clz h _ _ a => Letter.b.admits h.len && !h.never && a.regIn h.len
  | .ctz h _ _ a => Letter.b.admits h.len && !h.never && a.regIn h.len
  | .brev h _ _ a => Letter.b.admits h.len && !h.never && a.regIn h.len
  | .bfe h _ _ a b => !h.never && a.regIn h.len && b.orImm h.len false
  | .bfi h _ a b _ => Letter.d.admits h.len && !h.never && a.regIn h.len && b.regIn h.len
  | .bysel h _ a b sel => !h.never && a.regIn h.len && b.regIn h.len && selIn h.len sel
  | .iset h ty _ _ a b => !h.never && a.regIn h.len && b.orImm h.len ty.is64
  | .isel h ty _ _ _ a b => !h.never && a.regIn h.len && b.orImm h.len ty.is64
  | .lea h _ _ _ a b => !h.never && a.regIn h.len && b.orImm h.len false
  | .mov h _ _ a => Letter.b.admits h.len && !h.never && a.regIn h.len
  | .movi h ty _ x => Letter.e.admits h.len && !h.never && (ty.is64 || x.toNat < 2 ^ 32)
  | .pset h _ _ _ _ _ => Letter.a.admits h.len && !h.never
  | .fadd h _ _ _ _ a b => !h.never && a.regIn h.len && b.orImm h.len false
  | .fmul h _ _ _ _ a b => !h.never && a.regIn h.len && b.orImm h.len false
  | .ffma h _ _ _ _ _ a b _ => Letter.d.admits h.len && !h.never && a.regIn h.len && b.regIn h.len
  | .fmin h _ a b => !h.never && a.regIn h.len && b.orImm h.len false
  | .fmax h _ a b => !h.never && a.regIn h.len && b.orImm h.len false
  | .fset h _ _ a b => !h.never && a.regIn h.len && b.orImm h.len false
  | .frcp h _ _ a => Letter.b.admits h.len && !h.never && a.regIn h.len
  | .frsq h _ a => Letter.b.admits h.len && !h.never && a.regIn h.len
  | .fsqrt h _ _ a => Letter.b.admits h.len && !h.never && a.regIn h.len
  | .fex2 h _ a => Letter.b.admits h.len && !h.never && a.regIn h.len
  | .flg2 h _ a => Letter.b.admits h.len && !h.never && a.regIn h.len
  | .fsin h _ a => Letter.b.admits h.len && !h.never && a.regIn h.len
  | .fcos h _ a => Letter.b.admits h.len && !h.never && a.regIn h.len
  | .frnd h _ _ a => Letter.b.admits h.len && !h.never && a.regIn h.len
  | .fclass h _ _ a => Letter.b.admits h.len && !h.never && a.regIn h.len
  | .dadd h _ _ _ _ a b => !h.never && a.regIn h.len && b.orImm h.len true
  | .dmul h _ _ _ _ a b => !h.never && a.regIn h.len && b.orImm h.len true
  | .dfma h _ _ _ _ _ a b _ => Letter.d.admits h.len && !h.never && a.regIn h.len && b.regIn h.len
  | .dset h _ _ a b => !h.never && a.regIn h.len && b.orImm h.len true
  | .hadd2 h _ _ _ _ _ a b => !h.never && a.regIn h.len && b.orImm h.len false
  | .hmul2 h _ _ _ _ _ a b => !h.never && a.regIn h.len && b.orImm h.len false
  | .hfma2 h _ _ _ _ _ _ a b _ => Letter.d.admits h.len && !h.never && a.regIn h.len && b.regIn h.len
  | .cvt h rm _ _ _ a rs => Letter.b.admits h.len && !h.never && a.regIn h.len && (rs.isSome == (rm == .rs)) && (h.len == .b96 || rs.isNone)
  | .pack h rm _ _ _ _ rs => Letter.d.admits h.len && !h.never && (rs.isSome == (rm == .rs))
  | .fstk h _ _ => Letter.a.admits h.len && !h.never
  | .xch h _ _ _ a b => Letter.b.admits h.len && !h.never && a.regIn h.len && b.regIn h.len
  | .vote h _ _ _ _ => Letter.b.admits h.len && !h.never
  | .ballot h _ _ _ _ => Letter.b.admits h.len && !h.never
  | .scan h _ _ _ _ a _ => Letter.b.admits h.len && !h.never && a.regIn h.len
  | .redx h _ _ _ a _ => Letter.b.admits h.len && !h.never && a.regIn h.len
  | .matchB h _ _ a => Letter.b.admits h.len && !h.never && a.regIn h.len
  | .first h _ _ a => Letter.b.admits h.len && !h.never && a.all (Src.regIn h.len)
  | .rand h _ _ _ _ _ => Letter.d.admits h.len && !h.never
  | .mxcfg h x => Letter.f.admits h.len && !h.never && x.orImm h.len true
  | .mxpre h x => Letter.f.admits h.len && !h.never && x.orImm h.len true
  | .mxpost h _ x => Letter.f.admits h.len && !h.never && x.orImm h.len true
  | .unf h _ x => Letter.f.admits h.len && !h.never && x.orImm h.len true
  | .kset h _ _ _ _ _ _ => Letter.e.admits h.len && !h.never
  | .sign h _ _ => Letter.a.admits h.len && !h.never
  | .mxwait h _ _ => Letter.a.admits h.len && !h.never
  | .mxdrain h _ dst _ d a x => Letter.f.admits h.len && !h.never && x.orImm h.len true && (d.isSome == (dst == .v)) && (a.isSome == (dst != .v))
  | .mxclr h _ => Letter.a.admits h.len && !h.never
  | .mxstat h _ _ => Letter.a.admits h.len && !h.never
  | .tlds h _ _ x => Letter.f.admits h.len && !h.never && x.orImm h.len true
  | .edgec h _ _ _ => Letter.d.admits h.len && !h.never
  | .txw h _ _ _ _ _ => Letter.d.admits h.len && !h.never
  | .emit h _ _ => Letter.a.admits h.len && !h.never
  | .tspawn h _ _ => Letter.e.admits h.len && !h.never
  | .condw h _ x => Letter.f.admits h.len && !h.never && x.orImm h.len false
  | .grun h _ off => Letter.f.admits h.len && !h.never && offIn h.len off
  | .rstg h _ _ a b => Letter.b.admits h.len && !h.never && a.regIn h.len && b.regIn h.len
  | .rcmb h _ _ _ _ => Letter.a.admits h.len && !h.never
  | .dgstr h _ => Letter.a.admits h.len && !h.never
  | .trap h _ => Letter.a.admits h.len && !h.never
  | .rett h => Letter.a.admits h.len && !h.never
  | .prdone h => Letter.a.admits h.len && !h.never
  | .csrr h _ _ => Letter.a.admits h.len && !h.never
  | .csrw h _ x => Letter.f.admits h.len && !h.never && x.orImm h.len false
  | .clock h _ _ => Letter.a.admits h.len && !h.never
  | .featr h _ _ _ => Letter.a.admits h.len && !h.never
  | .unimpDispatch w => w.opcode.toNat ≥ 512 && !(w.guard == 7 && w.neg)
  | .powerOnBoot die _ | .dieReset die | .peerAbsent die => dieOk die
  | .bridgeTrained | .ownchgGo | .ownchgComplete => true
  | .inflightHomeAbsent f _ | .loadComplete f _ | .remoteAtomicResponse f _ | .mwaitWake f | .mwaitTimeout f | .regFillComplete f
  | .regSpillComplete f _ | .rmtrResponse f _ _ _ | .trapEntry f | .timerExpiry f | .preemptTaken f | .forcedSave f
  | .accessPerformedAtHome f _ => fibreOk f
  | .responseArrival die _ _ _ _ _ => dieOk die
  | .hostApertureWrite die _ _ _ | .hostApertureRead die _ _ | .hostFeedWindowWrite die _ _ _ | .hostFeedDoorbell die _ _ _
  | .hostLinkDown die | .hostWriteAccept die | .hostWriteAbandon die | .rcError die _ _ | .incomingRdmaWrite die _ _
  | .attestRequest die | .irqenWrite die _ | .irqstatClear die _ | .thermRefresh die _ | .thermWarnWrite die _
  | .peerWindowWrite die _ _ _ | .quarantineClear die _ | .scrub die _ | .tlbinvPage die _ _ _ | .tlbinvAsid die _ _
  | .tlbinvAll die _ | .tlbinvDone die | .fqsizeWrite die _ | .fqreplyRetry die _ | .fqreplyFail die _ | .featreqWrite die _
  | .registerWrite die _ _ _ | .walkComplete die _ | .faultRecordAppend die _ | .wtRecordAtHome die _ | .wtAck die _
  | .monitorArmRegistered die _ | .rmtwAck die _ _ | .twsub die _ _ | .cohortPlace die | .nodeRetire die _
  | .conditionNodeEval die _ | .loopNodeRun die _ | .binTimerExpiry die _ _ | .groupComplete die _ | .prectlSave die _
  | .prectlMigrate die _ _ _ _ | .prectlRestore die _ | .saveComplete die | .restoreComplete die | .freezeActExit die
  | .freezeActAbort die | .freezeActPop die | .pcieLinkTrained die | .connectionReestablished die _ _ | .submissionStart die => dieOk die
  | .moraineGranulePush c _ _ | .moraineSlotPulled c _ | .ringTailRead c _ | .ringError c _ | .ringPause c _ | .copyStart c
  | .copyChunk c _ | .copyComplete c _ | .copyFail c _ | .passPost c _ | .passGrant c | .passEnd c | .drainComplete c
  | .wqryAnswer c _ => clusterOk c
  | .laneQuantumExpiry l => laneOk l
  | .cohortComplete _ | .idemReexec _ | .dgstMmSpawn _ => true
  | .softError site _ => site.inRange

/-- The checks as a proposition. -/
abbrev WellFormed (i : Instr) : Prop := i.wf = true

/-- Whether a term stands for words of the instruction stream; the device steps of the table do not. -/
def Instr.encoded : Instr → Bool
  | .powerOnBoot .. | .dieReset .. | .bridgeTrained | .peerAbsent .. | .inflightHomeAbsent .. | .responseArrival .. | .hostApertureWrite ..
  | .hostApertureRead .. | .hostFeedWindowWrite .. | .hostFeedDoorbell .. | .hostLinkDown .. | .hostWriteAccept .. | .hostWriteAbandon ..
  | .rcError .. | .incomingRdmaWrite .. | .attestRequest .. | .irqenWrite .. | .irqstatClear .. | .thermRefresh .. | .thermWarnWrite ..
  | .peerWindowWrite .. | .quarantineClear .. | .scrub .. | .ownchgGo | .ownchgComplete | .tlbinvPage .. | .tlbinvAsid .. | .tlbinvAll ..
  | .tlbinvDone .. | .fqsizeWrite .. | .fqreplyRetry .. | .fqreplyFail .. | .featreqWrite .. | .registerWrite .. | .walkComplete ..
  | .faultRecordAppend .. | .loadComplete .. | .wtRecordAtHome .. | .wtAck .. | .remoteAtomicResponse .. | .monitorArmRegistered ..
  | .mwaitWake .. | .mwaitTimeout .. | .moraineGranulePush .. | .moraineSlotPulled .. | .ringTailRead .. | .ringError .. | .ringPause ..
  | .copyStart .. | .copyChunk .. | .copyComplete .. | .copyFail .. | .regFillComplete .. | .regSpillComplete .. | .laneQuantumExpiry ..
  | .passPost .. | .passGrant .. | .passEnd .. | .drainComplete .. | .wqryAnswer .. | .rmtrResponse .. | .rmtwAck .. | .twsub ..
  | .cohortPlace .. | .cohortComplete .. | .nodeRetire .. | .conditionNodeEval .. | .loopNodeRun .. | .binTimerExpiry .. | .groupComplete ..
  | .idemReexec .. | .dgstMmSpawn .. | .trapEntry .. | .timerExpiry .. | .prectlSave .. | .prectlMigrate .. | .prectlRestore ..
  | .preemptTaken .. | .forcedSave .. | .saveComplete .. | .restoreComplete .. | .freezeActExit .. | .freezeActAbort .. | .freezeActPop ..
  | .pcieLinkTrained .. | .connectionReestablished .. | .softError .. | .accessPerformedAtHome .. | .submissionStart .. => false
  | _ => true

end Sys2Proof
end

