-- ==== Sys2Proof/Decode.lean ====
section
/-! DEFINITION. From bytes to an instruction or the name of a decode fault, in the order of R239, and the encoder that writes the same fields. -/

namespace Sys2Proof

/-! ## Fields of a word (R234 to R236) -/

/-- The length code of bits [1:0] (R231). -/
def Len.code : Len → BitVec 2
  | .b64 => 0 | .b96 => 1 | .b128 => 2

/-- The length a code names; 0b11 names none (R231). -/
def Len.ofCode (x : BitVec 2) : Option Len :=
  if x = 0 then some .b64 else if x = 1 then some .b96 else if x = 2 then some .b128 else none

/-- The fields of a word whose lowest bytes are those of the instruction; none where LEN is 0b11 (R231). -/
def Raw.ofWord (x : BitVec 128) : Option Raw := do
  let len ← Len.ofCode (x.extractLsb' 0 2)
  let mid := len == .b96
  some {
    len := len
    sw := x.getLsbD 2
    stall := x.extractLsb' 3 4
    guard := x.extractLsb' 7 3
    neg := x.getLsbD 10
    opcode := x.extractLsb' 11 10
    d := x.extractLsb' 21 11
    a := x.extractLsb' 32 11
    b := x.extractLsb' 43 11
    mod := x.extractLsb' 54 10
    c := if mid then x.extractLsb' 64 11 else 0
    pca := if mid then x.extractLsb' 75 3 else 0
    pqa := if mid then x.extractLsb' 78 6 else 0
    pcb := if mid then x.extractLsb' 84 3 else 0
    pqb := if mid then x.extractLsb' 87 6 else 0
    modx := if mid then x.extractLsb' 93 3 else 0
    imm := if len == .b128 then x.extractLsb' 64 64 else 0 }

/-- The upper 64 bits of the word: the third granule's fields, or IMM (R235, R236). -/
def Raw.upper (r : Raw) : BitVec 64 :=
  match r.len with
  | .b64 => 0
  | .b96 => (0 : BitVec 32) ++ (r.modx ++ r.pqb ++ r.pcb ++ r.pqa ++ r.pca ++ r.c)
  | .b128 => r.imm

/-- The word of a record of fields, zero above the instruction's length. -/
def Raw.toWord (r : Raw) : BitVec 128 :=
  r.upper ++ (r.mod ++ r.b ++ r.a ++ r.d ++ r.opcode ++ (BitVec.ofBool r.neg ++ r.guard ++ r.stall ++ BitVec.ofBool r.sw ++ r.len.code))

/-- The fields every word begins with. -/
def Raw.hdr (r : Raw) : Hdr := ⟨r.len, r.sw, r.stall, r.guard, r.neg⟩

/-- A word with a header and an opcode and every other field zero. -/
def Hdr.raw (h : Hdr) (op : BitVec 10) : Raw :=
  { len := h.len, sw := h.sw, stall := h.stall, guard := h.guard, neg := h.neg, opcode := op,
    d := 0, a := 0, b := 0, mod := 0, c := 0, pca := 0, pqa := 0, pcb := 0, pqb := 0, modx := 0, imm := 0 }

/-- Whether the fields a length does not carry are zero, as `Raw.ofWord` leaves them. -/
def Raw.tidy (r : Raw) : Bool :=
  (r.len == .b96 || (r.c == 0 && r.pca == 0 && r.pqa == 0 && r.pcb == 0 && r.pqb == 0 && r.modx == 0)) && (r.len == .b128 || r.imm == 0)

/-! ## Operand fields (R148, R149, R156) -/

/-- The number of a special value (R149). -/
def Special.code : Special → BitVec 10
  | .beat => 128 | .tid => 129 | .fib => 130 | .lidx => 131 | .stage => 132 | .cohortX => 133 | .cohortY => 134 | .cohortZ => 135
  | .ncohortX => 136 | .ncohortY => 137 | .ncohortZ => 138 | .width => 139 | .nfib => 140 | .lane => 141 | .core => 142 | .die => 143
  | .slot => 144 | .det => 145

/-- The special value of a number (R149). -/
def Special.ofCode (x : BitVec 10) : Option Special :=
  match x.toNat with
  | 128 => some .beat | 129 => some .tid | 130 => some .fib | 131 => some .lidx | 132 => some .stage | 133 => some .cohortX
  | 134 => some .cohortY | 135 => some .cohortZ | 136 => some .ncohortX | 137 => some .ncohortY | 138 => some .ncohortZ
  | 139 => some .width | 140 => some .nfib | 141 => some .lane | 142 => some .core | 143 => some .die | 144 => some .slot
  | 145 => some .det | _ => none

/-- The 11 bits of an operand (R148). -/
def Opd.bits : Opd → BitVec 11
  | .v n => (0 : BitVec 1) ++ n
  | .s n => (8 : BitVec 4) ++ n
  | .sp x => (1 : BitVec 1) ++ x.code
  | .sz => 0x7FF

/-- The operand of an 11-bit field; macro parameters and reserved numbers name none (R148; R239, checks 10 and 12). -/
def Opd.ofBits (x : BitVec 11) : Option Opd :=
  if x.extractLsb' 10 1 = 0 then some (.v (x.extractLsb' 0 10))
  else if x.extractLsb' 7 3 = 0 then some (.s (x.extractLsb' 0 7))
  else if x = 0x7FF then some .sz
  else (Special.ofCode (x.extractLsb' 0 10)).map .sp

/-- The permute code (R156). -/
def Perm.code : Perm → BitVec 3
  | .id => 0 | .rot _ => 1 | .bc _ => 2 | .bfly _ => 3 | .mir => 4 | .shd _ => 5 | .shu _ => 6

/-- The permute parameter (R156). -/
def Perm.q : Perm → BitVec 6
  | .id => 0 | .rot q => q | .bc q => q | .bfly q => q | .mir => 0 | .shd q => q | .shu q => q

/-- The permutation of a code and parameter; a parameter where none is used, and code 7, name none (R156). -/
def Perm.ofCode (c : BitVec 3) (q : BitVec 6) : Option Perm :=
  match c.toNat with
  | 0 => if q = 0 then some .id else none
  | 1 => some (.rot q)
  | 2 => some (.bc q)
  | 3 => some (.bfly q)
  | 4 => if q = 0 then some .mir else none
  | 5 => some (.shd q)
  | 6 => some (.shu q)
  | _ => none

/-- The A source of a word. -/
def Raw.srcA (r : Raw) : Option Src := do
  some (.reg (← Opd.ofBits r.a) (← Perm.ofCode r.pca r.pqa))

/-- The B source of a word. -/
def Raw.srcB (r : Raw) : Option Src := do
  some (.reg (← Opd.ofBits r.b) (← Perm.ofCode r.pcb r.pqb))

/-- The B source, or the immediate that takes its place in the 128-bit form (R236). -/
def Raw.srcBI (r : Raw) : Option Src :=
  if r.len = .b128 then some (.imm r.imm) else r.srcB

/-- The A source, or the immediate that takes its place in the 128-bit form (R236). -/
def Raw.srcAI (r : Raw) : Option Src :=
  if r.len = .b128 then some (.imm r.imm) else r.srcA

/-- A word with its A source placed. -/
def Raw.putA (r : Raw) : Src → Raw
  | .reg o p => { r with a := o.bits, pca := p.code, pqa := p.q }
  | .imm x => { r with imm := x }

/-- A word with its B source placed. -/
def Raw.putB (r : Raw) : Src → Raw
  | .reg o p => { r with b := o.bits, pcb := p.code, pqb := p.q }
  | .imm x => { r with imm := x }

/-- A word with an A source that may be absent. -/
def Raw.putOpt (r : Raw) : Option Src → Raw
  | none => r
  | some a => r.putA a

/-- A word with BYSEL's selector placed: operand C, or IMM (R300). -/
def Raw.putSel (r : Raw) : Option Src → Raw
  | none => r
  | some (.reg o _) => { r with c := o.bits }
  | some (.imm x) => { r with imm := x }

/-! ## Codes of modifiers (R238 and the instructions' tables) -/

/-- Type codes (R238). -/
def Ty.code : Ty → BitVec 4
  | .i32 => 0 | .n32 => 1 | .i64 => 2 | .n64 => 3 | .i16 => 4 | .n16 => 5 | .i8 => 6 | .n8 => 7 | .f32 => 8 | .f64 => 9 | .f16 => 10
  | .bf16 => 11 | .e4m3 => 12 | .e5m2 => 13 | .b32 => 14

/-- The type of a code; 15 names none (R238). -/
def Ty.ofCode (x : BitVec 4) : Option Ty :=
  match x.toNat with
  | 0 => some .i32 | 1 => some .n32 | 2 => some .i64 | 3 => some .n64 | 4 => some .i16 | 5 => some .n16 | 6 => some .i8 | 7 => some .n8
  | 8 => some .f32 | 9 => some .f64 | 10 => some .f16 | 11 => some .bf16 | 12 => some .e4m3 | 13 => some .e5m2 | 14 => some .b32
  | _ => none

/-- Scope codes; 0 is no scope (R238). -/
def Scope.code : Option Scope → BitVec 3
  | none => 0 | some .fib => 1 | some .core => 2 | some .clu => 3 | some .die => 4 | some .pkg => 5 | some .sys => 6

/-- The scope of a code: `some none` where there is none, `none` where the code is refused (R238). -/
def Scope.ofCode (x : BitVec 3) : Option (Option Scope) :=
  match x.toNat with
  | 0 => some none | 1 => some (some .fib) | 2 => some (some .core) | 3 => some (some .clu) | 4 => some (some .die)
  | 5 => some (some .pkg) | 6 => some (some .sys) | _ => none

/-- Ordering codes (R238). -/
def MemOrd.code : MemOrd → BitVec 2
  | .none => 0 | .acq => 1 | .rel => 2 | .ar => 3

/-- The ordering of a code (R238). -/
def MemOrd.ofCode (x : BitVec 2) : MemOrd :=
  match x.toNat with
  | 0 => .none | 1 => .acq | 2 => .rel | _ => .ar

/-- The qualifier bits MOD [9:4] of a memory instruction (R264). -/
def Qual.code (q : Qual) : BitVec 6 := BitVec.ofBool q.x ++ q.ord.code ++ Scope.code q.scope

/-- The qualifier of MOD [9:4] (R264). -/
def Qual.ofCode (x : BitVec 6) : Option Qual := do
  some ⟨← Scope.ofCode (x.extractLsb' 0 3), MemOrd.ofCode (x.extractLsb' 3 2), x.getLsbD 5⟩

/-- Rounding mode codes (R238). -/
def Rm.code : Rm → BitVec 3
  | .rn => 0 | .rz => 1 | .ru => 2 | .rd => 3 | .rs => 4

/-- The rounding mode of a code (R238). -/
def Rm.ofCode (x : BitVec 3) : Option Rm :=
  match x.toNat with
  | 0 => some .rn | 1 => some .rz | 2 => some .ru | 3 => some .rd | 4 => some .rs | _ => none

/-- Integer comparison codes (R316). -/
def ICmp.code : ICmp → BitVec 3
  | .eq => 0 | .ne => 1 | .lt => 2 | .le => 3 | .gt => 4 | .ge => 5

/-- The integer comparison of a code (R316). -/
def ICmp.ofCode (x : BitVec 3) : Option ICmp :=
  match x.toNat with
  | 0 => some .eq | 1 => some .ne | 2 => some .lt | 3 => some .le | 4 => some .gt | 5 => some .ge | _ => none

/-- Floating-point comparison codes (R326). -/
def FCmp.code : FCmp → BitVec 3
  | .eq => 0 | .ne => 1 | .lt => 2 | .le => 3 | .gt => 4 | .ge => 5 | .num => 6 | .nan => 7

/-- The floating-point comparison of a code (R326). -/
def FCmp.ofCode (x : BitVec 3) : FCmp :=
  match x.toNat with
  | 0 => .eq | 1 => .ne | 2 => .lt | 3 => .le | 4 => .gt | 5 => .ge | 6 => .num | _ => .nan

/-- Atomic operation codes (R274). -/
def AOp.code : AOp → BitVec 3
  | .add => 0 | .min => 1 | .max => 2 | .and => 3 | .or => 4 | .xor => 5 | .xchg => 6 | .cas => 7

/-- The atomic operation of a code (R274). -/
def AOp.ofCode (x : BitVec 3) : AOp :=
  match x.toNat with
  | 0 => .add | 1 => .min | 2 => .max | 3 => .and | 4 => .or | 5 => .xor | 6 => .xchg | _ => .cas

/-- Scan and reduction operation codes (R347). -/
def ROp.code : ROp → BitVec 3
  | .add => 0 | .min => 1 | .max => 2 | .and => 3 | .or => 4 | .xor => 5

/-- The scan or reduction operation of a code (R347). -/
def ROp.ofCode (x : BitVec 3) : Option ROp :=
  match x.toNat with
  | 0 => some .add | 1 => some .min | 2 => some .max | 3 => some .and | 4 => some .or | 5 => some .xor | _ => none

/-- Completion kind codes (R285). -/
def Ck.code : Ck → BitVec 2
  | .fe => 0 | .stamp => 1 | .bar => 2

/-- The completion kind of a code (R285). -/
def Ck.ofCode (x : BitVec 2) : Option Ck :=
  match x.toNat with
  | 0 => some .fe | 1 => some .stamp | 2 => some .bar | _ => none

/-- Path codes (R285). -/
def CopyPath.code : CopyPath → BitVec 3
  | .m2s => 0 | .s2m => 1 | .m2m => 2 | .p2s => 3 | .p2m => 4 | .s2p => 5 | .m2p => 6

/-- The path of a code (R285). -/
def CopyPath.ofCode (x : BitVec 3) : Option CopyPath :=
  match x.toNat with
  | 0 => some .m2s | 1 => some .s2m | 2 => some .m2m | 3 => some .p2s | 4 => some .p2m | 5 => some .s2p | 6 => some .m2p | _ => none

/-- CINV codes (R277). -/
def CinvKind.code : CinvKind → BitVec 2
  | .l1 => 0 | .const => 1 | .all => 2

/-- What a CINV code invalidates (R277). -/
def CinvKind.ofCode (x : BitVec 2) : Option CinvKind :=
  match x.toNat with
  | 0 => some .l1 | 1 => some .const | 2 => some .all | _ => none

/-- Vote mode codes (R341). -/
def VoteMode.code : VoteMode → BitVec 2
  | .every => 0 | .some => 1 | .same => 2 | .most => 3

/-- The vote mode of a code (R341). -/
def VoteMode.ofCode (x : BitVec 2) : VoteMode :=
  match x.toNat with
  | 0 => .every | 1 => .some | 2 => .same | _ => .most

/-- Count codes of RAND (R341). -/
def RandCount.code : RandCount → BitVec 2
  | .x1 => 0 | .x2 => 1 | .x4 => 2

/-- The count of a RAND code (R341). -/
def RandCount.ofCode (x : BitVec 2) : Option RandCount :=
  match x.toNat with
  | 0 => some .x1 | 1 => some .x2 | 2 => some .x4 | _ => none

/-- Drain destination codes (R354). -/
def DrainDst.code : DrainDst → BitVec 2
  | .v => 0 | .s => 1 | .g => 2

/-- The drain destination of a code (R354). -/
def DrainDst.ofCode (x : BitVec 2) : Option DrainDst :=
  match x.toNat with
  | 0 => some .v | 1 => some .s | 2 => some .g | _ => none

/-- Texture mode codes (R354). -/
def TxwMode.code : TxwMode → BitVec 2
  | .wrap => 0 | .clamp => 1 | .border => 2

/-- The texture mode of a code (R354). -/
def TxwMode.ofCode (x : BitVec 2) : Option TxwMode :=
  match x.toNat with
  | 0 => some .wrap | 1 => some .clamp | 2 => some .border | _ => none

/-! ## The encoder's placement of fields -/

/-- MOD with a type in [3:0] and six further bits (R238). -/
def modTy (ty : Ty) (x : BitVec 6) : BitVec 10 := x ++ ty.code

/-- MOD of a floating-point instruction: type, mode, negations (R321). -/
def modF (ty : Ty) (rm : Rm) (na nb nc : Bool) : BitVec 10 :=
  BitVec.ofBool nc ++ BitVec.ofBool nb ++ BitVec.ofBool na ++ rm.code ++ ty.code

/-- IMM of a load or store: TOUCH, Q and OFF (R262). -/
def immOff (touch qw : Bool) (off : BitVec 32) : BitVec 64 := (0 : BitVec 30) ++ BitVec.ofBool touch ++ BitVec.ofBool qw ++ off

/-- An operand field that may be absent. -/
def optBits : Option Opd → BitVec 11
  | none => 0
  | some o => o.bits

/-- The fields of a control-flow instruction's word (R383). -/
def rawControl : Instr → Raw
  | .nop h => h.raw 0x001
  | .bra h off => { h.raw 0x002 with imm := off.zeroExtend 64 }
  | .brx h a => { h.raw 0x003 with a := a.bits }
  | .call h d sl off => { h.raw 0x004 with d := d.bits, mod := sl.zeroExtend 10, imm := off.zeroExtend 64 }
  | .callx h d a sl => { h.raw 0x005 with d := d.bits, a := a.bits, mod := sl.zeroExtend 10 }
  | .ret h a => { h.raw 0x006 with a := a.bits }
  | .join h n off => { h.raw 0x007 with mod := n.zeroExtend 10, imm := off.zeroExtend 64 }
  | .joinPush h off => { h.raw 0x007 with mod := 8, imm := off.zeroExtend 64 }
  | .jdrop h n => { h.raw 0x008 with mod := n.zeroExtend 10 }
  | .wait h n => { h.raw 0x009 with mod := n.zeroExtend 10 }
  | .waitPop h => { h.raw 0x009 with mod := 8 }
  | .exit h => h.raw 0x00A
  | .yield h => h.raw 0x00B
  | .mcall h n p0 p1 p2 p3 p4 p5 p6 p7 =>
    { h.raw 0x00C with d := p0, a := p1, b := p2, mod := n.zeroExtend 10, imm := (0 : BitVec 9) ++ p7 ++ p6 ++ p5 ++ p4 ++ p3 }
  | .mdef h a n c => { h.raw 0x00D with a := a.bits, mod := n.zeroExtend 10, imm := c.zeroExtend 64 }
  | .fbar h b mask p => { h.raw 0x00E with mod := (0 : BitVec 1) ++ p ++ mask ++ b }
  | .fwinGet h d => { h.raw 0x00F with d := d.bits }
  | .fwinSet h a => { h.raw 0x00F with a := a.bits, mod := 1 }
  | _ => default

/-- The fields of a memory instruction's word (R261 to R282). -/
def rawMemory : Instr → Raw
  | .ldg h q ty qw touch d a b off => { ((h.raw 0x040).putA a).putB b with d := d.bits, mod := modTy ty q.code, imm := immOff touch qw off }
  | .stg h q ty qw d a b off => { ((h.raw 0x041).putA a).putB b with d := d.bits, mod := modTy ty q.code, imm := immOff false qw off }
  | .lde h q ty touch d a b c off =>
    { ((h.raw 0x042).putA a).putB b with d := d.bits, mod := modTy ty q.code, c := optBits c, imm := immOff touch false off }
  | .lds h q ty qw touch d a b off => { ((h.raw 0x043).putA a).putB b with d := d.bits, mod := modTy ty q.code, imm := immOff touch qw off }
  | .sts h q ty qw d a b off => { ((h.raw 0x044).putA a).putB b with d := d.bits, mod := modTy ty q.code, imm := immOff false qw off }
  | .ldc h ty qw touch d a b off => { ((h.raw 0x045).putA a).putB b with d := d.bits, mod := modTy ty 0, imm := immOff touch qw off }
  | .ldfe h clr ty qw d a b off =>
    { ((h.raw 0x046).putA a).putB b with d := d.bits, mod := modTy ty (BitVec.ofBool clr ++ (0 : BitVec 5)), imm := immOff false qw off }
  | .stfe h ty qw d a b off => { ((h.raw 0x047).putA a).putB b with d := d.bits, mod := modTy ty 0, imm := immOff false qw off }
  | .feset h full a b off => { h.raw 0x048 with a := a.bits, b := b.bits, mod := BitVec.ofBool full ++ (0 : BitVec 9), imm := off.zeroExtend 64 }
  | .atomg h q op ty d a b c =>
    { ((h.raw 0x049).putA a).putB b with d := d.bits, mod := modTy ty q.code, c := optBits c, modx := op.code }
  | .atoms h q op ty d a b c =>
    { ((h.raw 0x04A).putA a).putB b with d := d.bits, mod := modTy ty q.code, c := optBits c, modx := op.code }
  | .redg h q op ty a b => { ((h.raw 0x04B).putA a).putB b with mod := modTy ty q.code, modx := op.code }
  | .pref h l1 touch a b off => { h.raw 0x04C with a := a.bits, b := b.bits, mod := (BitVec.ofBool l1).zeroExtend 10, imm := immOff touch false off }
  | .fence h ord scope => { h.raw 0x04D with mod := (0 : BitVec 1) ++ ord.code ++ Scope.code (some scope) ++ (0 : BitVec 4) }
  | .icinv h scope a b => { h.raw 0x04E with a := a.bits, b := b.bits, mod := (0 : BitVec 3) ++ Scope.code (some scope) ++ (0 : BitVec 4) }
  | .cinv h kind => { h.raw 0x04F with mod := kind.code.zeroExtend 10 }
  | .cwb h a b => { h.raw 0x050 with a := a.bits, b := b.bits }
  | .marm h a b => ((h.raw 0x051).putA a).putB b
  | .mwait h d a => { h.raw 0x052 with d := d.bits, a := a.bits }
  | _ => default

/-- The fields of an asynchronous instruction's word (R285). -/
def rawAsync : Instr → Raw
  | .tcopy h ck d a b tb tnm1 =>
    { h.raw 0x080 with d := d.bits, a := a.bits, b := optBits b, mod := ck.code.zeroExtend 10, imm := (tnm1 ++ tb).zeroExtend 64 }
  | .acopy h ck path d a b entry =>
    { h.raw 0x081 with d := optBits d, a := a.bits, b := optBits b, mod := (path.code ++ ck.code).zeroExtend 10, imm := entry.zeroExtend 64 }
  | .barinit h a n => { (h.raw 0x082).putB n with a := a.bits }
  | .barexp h a n => { (h.raw 0x083).putB n with a := a.bits }
  | .bararv h d a p => { h.raw 0x084 with d := d.bits, a := a.bits, mod := p.zeroExtend 10 }
  | .barwt h a b => { h.raw 0x085 with a := a.bits, b := b.bits }
  | .barcont h a b off => { h.raw 0x086 with a := a.bits, b := b.bits, imm := off.zeroExtend 64 }
  | .subs h d a b logn dir => { h.raw 0x087 with d := d.bits, a := a.bits, b := b.bits, imm := (BitVec.ofBool dir ++ logn).zeroExtend 64 }
  | .rrel h a n => { (h.raw 0x088).putB n with a := a.bits }
  | .rfin h a n => { (h.raw 0x089).putB n with a := a.bits }
  | .wqry h a b => { h.raw 0x08A with a := a.bits, b := b.bits }
  | .rmtw h ty d a entry off => { h.raw 0x08B with d := d.bits, a := a.bits, mod := modTy ty 0, imm := (0 : BitVec 12) ++ off ++ entry }
  | .rmtr h ty d a entry off => { h.raw 0x08C with d := d.bits, a := a.bits, mod := modTy ty 0, imm := (0 : BitVec 12) ++ off ++ entry }
  | _ => default

/-- A two-source word with a type and further MOD bits. -/
def rawDAB (h : Hdr) (op : BitVec 10) (mod : BitVec 10) (d : Opd) (a b : Src) : Raw :=
  { ((h.raw op).putA a).putB b with d := d.bits, mod := mod }

/-- A one-source word. -/
def rawDA (h : Hdr) (op : BitVec 10) (mod : BitVec 10) (d : Opd) (a : Src) : Raw :=
  { (h.raw op).putA a with d := d.bits, mod := mod }

/-- The fields of an integer instruction's word (R301). -/
def rawInteger : Instr → Raw
  | .iadd h ty co ci d a b => rawDAB h 0x0C0 (ci ++ co ++ ty.code) d a b
  | .isub h ty co ci d a b => rawDAB h 0x0C1 (ci ++ co ++ ty.code) d a b
  | .iadd3 h ty d a b c => { rawDAB h 0x0C2 (modTy ty 0) d a b with c := c.bits }
  | .imul h ty d a b => rawDAB h 0x0C3 (modTy ty 0) d a b
  | .imulh h ty d a b => rawDAB h 0x0C4 (modTy ty 0) d a b
  | .imad h ty d a b c => { rawDAB h 0x0C5 (modTy ty 0) d a b with c := c.bits }
  | .imadw h ty d a b c => { rawDAB h 0x0C6 (modTy ty 0) d a b with c := c.bits }
  | .ineg h ty d a => rawDA h 0x0C7 (modTy ty 0) d a
  | .iabs h ty d a => rawDA h 0x0C8 (modTy ty 0) d a
  | .imin h ty d a b => rawDAB h 0x0C9 (modTy ty 0) d a b
  | .imax h ty d a b => rawDAB h 0x0CA (modTy ty 0) d a b
  | .ishl h ty d a b => rawDAB h 0x0CB (modTy ty 0) d a b
  | .ishr h ty d a b => rawDAB h 0x0CC (modTy ty 0) d a b
  | .isar h ty d a b => rawDAB h 0x0CD (modTy ty 0) d a b
  | .rot h ty d a b => rawDAB h 0x0CE (modTy ty 0) d a b
  | .land h ty d a b => rawDAB h 0x0CF (modTy ty 0) d a b
  | .lor h ty d a b => rawDAB h 0x0D0 (modTy ty 0) d a b
  | .lxor h ty d a b => rawDAB h 0x0D1 (modTy ty 0) d a b
  | .lnot h ty d a => rawDA h 0x0D2 (modTy ty 0) d a
  | .bfn3 h lut d a b c =>
    { rawDAB h 0x0D3 (modTy .b32 (lut.extractLsb' 0 6)) d a b with c := c.bits, modx := (lut.extractLsb' 6 2).zeroExtend 3 }
  | .popc h ty d a => rawDA h 0x0D4 (modTy ty 0) d a
  | .clz h ty d a => rawDA h 0x0D5 (modTy ty 0) d a
  | .ctz h ty d a => rawDA h 0x0D6 (modTy ty 0) d a
  | .brev h ty d a => rawDA h 0x0D7 (modTy ty 0) d a
  | .bfe h ty d a b => rawDAB h 0x0D8 (modTy ty 0) d a b
  | .bfi h d a b c => { rawDAB h 0x0D9 (modTy .b32 0) d a b with c := c.bits }
  | .bysel h d a b sel => (rawDAB h 0x0DA (modTy .b32 0) d a b).putSel sel
  | .iset h ty cmp p a b => { ((h.raw 0x0DB).putA a).putB b with mod := p ++ cmp.code ++ ty.code }
  | .isel h ty p neg d a b => rawDAB h 0x0DC ((0 : BitVec 2) ++ BitVec.ofBool neg ++ p ++ ty.code) d a b
  | .lea h ty sh d a b => rawDAB h 0x0DD ((0 : BitVec 2) ++ sh ++ ty.code) d a b
  | .mov h ty d a => rawDA h 0x0DE (modTy ty 0) d a
  | .movi h ty d x => { h.raw 0x0DF with d := d.bits, mod := modTy ty 0, imm := x }
  | .pset h lut pd pa pb pc => { h.raw 0x0E0 with d := lut ++ pd, a := pa.zeroExtend 11, b := pb.zeroExtend 11, mod := pc.zeroExtend 10 }
  | _ => default

/-- The seed field of a conversion under RS (R336, R338). -/
def Raw.putRs (r : Raw) : Option (BitVec 6 × Opd) → Raw
  | none => r
  | some (q, c) => { r with c := c.bits, pqb := q }

/-- The fields of a floating-point instruction's word (R321, R336, R338). -/
def rawFloat : Instr → Raw
  | .fadd h rm na nb d a b => rawDAB h 0x100 (modF .f32 rm na nb false) d a b
  | .fmul h rm na nb d a b => rawDAB h 0x101 (modF .f32 rm na nb false) d a b
  | .ffma h rm na nb nc d a b c => { rawDAB h 0x102 (modF .f32 rm na nb nc) d a b with c := c.bits }
  | .fmin h d a b => rawDAB h 0x103 (modTy .f32 0) d a b
  | .fmax h d a b => rawDAB h 0x104 (modTy .f32 0) d a b
  | .fset h cmp p a b => { ((h.raw 0x105).putA a).putB b with mod := p ++ cmp.code ++ Ty.code .f32 }
  | .frcp h rm d a => rawDA h 0x106 (modF .f32 rm false false false) d a
  | .frsq h d a => rawDA h 0x107 (modTy .f32 0) d a
  | .fsqrt h rm d a => rawDA h 0x108 (modF .f32 rm false false false) d a
  | .fex2 h d a => rawDA h 0x109 (modTy .f32 0) d a
  | .flg2 h d a => rawDA h 0x10A (modTy .f32 0) d a
  | .fsin h d a => rawDA h 0x10B (modTy .f32 0) d a
  | .fcos h d a => rawDA h 0x10C (modTy .f32 0) d a
  | .frnd h rm d a => rawDA h 0x10D (modF .f32 rm false false false) d a
  | .fclass h ty d a => rawDA h 0x10E (modTy ty 0) d a
  | .dadd h rm na nb d a b => rawDAB h 0x10F (modF .f64 rm na nb false) d a b
  | .dmul h rm na nb d a b => rawDAB h 0x110 (modF .f64 rm na nb false) d a b
  | .dfma h rm na nb nc d a b c => { rawDAB h 0x111 (modF .f64 rm na nb nc) d a b with c := c.bits }
  | .dset h cmp p a b => { ((h.raw 0x112).putA a).putB b with mod := p ++ cmp.code ++ Ty.code .f64 }
  | .hadd2 h ty rm na nb d a b => rawDAB h 0x113 (modF ty rm na nb false) d a b
  | .hmul2 h ty rm na nb d a b => rawDAB h 0x114 (modF ty rm na nb false) d a b
  | .hfma2 h ty rm na nb nc d a b c => { rawDAB h 0x115 (modF ty rm na nb nc) d a b with c := c.bits }
  | .cvt h rm dfmt sfmt d a rs =>
    { (rawDA h 0x116 ((0 : BitVec 3) ++ rm.code ++ (0 : BitVec 4)) d a).putRs rs with b := (0 : BitVec 1) ++ sfmt ++ dfmt }
  | .pack h rm fmt lm1 d a rs =>
    { (h.raw 0x117).putRs rs with d := d.bits, a := a.bits, b := (0 : BitVec 1) ++ lm1 ++ fmt, mod := (0 : BitVec 3) ++ rm.code ++ (0 : BitVec 4) }
  | .fstk h d a => { h.raw 0x118 with d := d.bits, a := a.bits }
  | _ => default

/-- MOD of SCAN and REDX: type, operation, EXC, CIN (R341). -/
def modScan (ty : Ty) (op : ROp) (exc cin : Bool) : BitVec 10 :=
  (0 : BitVec 1) ++ BitVec.ofBool cin ++ BitVec.ofBool exc ++ op.code ++ ty.code

/-- The fields of an exchange instruction's word (R341). -/
def rawExchange : Instr → Raw
  | .xch h ty wrap d a b => rawDAB h 0x140 ((0 : BitVec 5) ++ BitVec.ofBool wrap ++ ty.code) d a b
  | .vote h mode na pd pa =>
    { h.raw 0x141 with d := pd.zeroExtend 11, a := pa.zeroExtend 11, mod := (0 : BitVec 3) ++ BitVec.ofBool na ++ mode.code ++ (0 : BitVec 4) }
  | .ballot h ty na d pa =>
    { h.raw 0x142 with d := d.bits, a := pa.zeroExtend 11, mod := (0 : BitVec 3) ++ BitVec.ofBool na ++ (0 : BitVec 2) ++ ty.code }
  | .scan h ty op exc d a b => { rawDA h 0x143 (modScan ty op exc b.isSome) d a with b := optBits b }
  | .redx h ty op d a b => { rawDA h 0x144 (modScan ty op false b.isSome) d a with b := optBits b }
  | .matchB h ty d a => rawDA h 0x145 (modTy ty 0) d a
  | .first h ty d a => { (h.raw 0x146).putOpt a with d := d.bits, mod := modTy ty (if a.isSome then 0 else 1) }
  | .rand h count inc d b c =>
    { h.raw 0x147 with d := d.bits, b := b.bits, c := c.bits, mod := (BitVec.ofBool inc ++ count.code).zeroExtend 10 }
  | _ => default

/-- The fields of a matrix or graphics instruction's word (R354). -/
def rawMatrix : Instr → Raw
  | .mxcfg h x => (h.raw 0x180).putA x
  | .mxpre h x => (h.raw 0x181).putA x
  | .mxpost h w x => { (h.raw 0x182).putA x with mod := (BitVec.ofBool w).zeroExtend 10 }
  | .unf h w x => { (h.raw 0x183).putA x with mod := (BitVec.ofBool w).zeroExtend 10 }
  | .kset h k fibSet d a b count =>
    { h.raw 0x184 with d := d.bits, a := a.bits, b := b.bits, mod := (BitVec.ofBool fibSet ++ k).zeroExtend 10, imm := count.zeroExtend 64 }
  | .sign h k a => { h.raw 0x185 with a := a.bits, mod := k.zeroExtend 10 }
  | .mxwait h k scope => { h.raw 0x186 with mod := (0 : BitVec 2) ++ BitVec.ofBool scope.isSome ++ Scope.code scope ++ k }
  | .mxdrain h k dst rel d a x =>
    { (h.raw 0x187).putB x with d := optBits d, a := optBits a, mod := (0 : BitVec 3) ++ BitVec.ofBool rel ++ dst.code ++ k }
  | .mxclr h k => { h.raw 0x188 with mod := k.zeroExtend 10 }
  | .mxstat h k d => { h.raw 0x189 with d := d.bits, mod := k.zeroExtend 10 }
  | .tlds h t a x => { (h.raw 0x18A).putB x with a := a.bits, mod := t.zeroExtend 10 }
  | .edgec h d a b => { h.raw 0x18B with d := d.bits, a := a.bits, b := b.bits }
  | .txw h mode tb d a b => { h.raw 0x18C with d := d.bits, a := a.bits, b := b.bits, mod := (tb ++ mode.code).zeroExtend 10 }
  | _ => default

/-- The fields of a task or system instruction's word (R446). -/
def rawSystem : Instr → Raw
  | .emit h a b => { h.raw 0x1C0 with a := a.bits, b := b.bits }
  | .tspawn h a off => { h.raw 0x1C1 with a := a.bits, imm := off.zeroExtend 64 }
  | .condw h a x => { (h.raw 0x1C2).putB x with a := a.bits }
  | .grun h a off => { h.raw 0x1C3 with a := a.bits, imm := off.zeroExtend 64 }
  | .rstg h ty op a b => { ((h.raw 0x1C4).putA a).putB b with mod := (0 : BitVec 3) ++ op.code ++ ty.code }
  | .rcmb h ty op a b => { h.raw 0x1C5 with a := a.bits, b := b.bits, mod := (0 : BitVec 3) ++ op.code ++ ty.code }
  | .dgstr h d => { h.raw 0x1C6 with d := d.bits }
  | .trap h code => { h.raw 0x1C7 with mod := code }
  | .rett h => h.raw 0x1C8
  | .prdone h => h.raw 0x1C9
  | .csrr h d n => { h.raw 0x1CA with d := d.bits, mod := n.zeroExtend 10 }
  | .csrw h n x => { (h.raw 0x1CB).putA x with mod := n.zeroExtend 10 }
  | .clock h dieClock d => { h.raw 0x1CC with d := d.bits, mod := (BitVec.ofBool dieClock).zeroExtend 10 }
  | .featr h hw d a => { h.raw 0x1CD with d := d.bits, a := a.bits, mod := (BitVec.ofBool hw).zeroExtend 10 }
  | _ => default

/-- The fields of an instruction's word; an instruction of no word has the default fields. -/
def Instr.toRaw (i : Instr) : Raw :=
  match i with
  | .nop .. | .bra .. | .brx .. | .call .. | .callx .. | .ret .. | .join .. | .joinPush .. | .jdrop .. | .wait .. | .waitPop .. | .exit ..
  | .yield .. | .mcall .. | .mdef .. | .fbar .. | .fwinGet .. | .fwinSet .. => rawControl i
  | .ldg .. | .stg .. | .lde .. | .lds .. | .sts .. | .ldc .. | .ldfe .. | .stfe .. | .feset .. | .atomg .. | .atoms .. | .redg .. | .pref ..
  | .fence .. | .icinv .. | .cinv .. | .cwb .. | .marm .. | .mwait .. => rawMemory i
  | .tcopy .. | .acopy .. | .barinit .. | .barexp .. | .bararv .. | .barwt .. | .barcont .. | .subs .. | .rrel .. | .rfin .. | .wqry ..
  | .rmtw .. | .rmtr .. => rawAsync i
  | .iadd .. | .isub .. | .iadd3 .. | .imul .. | .imulh .. | .imad .. | .imadw .. | .ineg .. | .iabs .. | .imin .. | .imax .. | .ishl ..
  | .ishr .. | .isar .. | .rot .. | .land .. | .lor .. | .lxor .. | .lnot .. | .bfn3 .. | .popc .. | .clz .. | .ctz .. | .brev .. | .bfe ..
  | .bfi .. | .bysel .. | .iset .. | .isel .. | .lea .. | .mov .. | .movi .. | .pset .. => rawInteger i
  | .fadd .. | .fmul .. | .ffma .. | .fmin .. | .fmax .. | .fset .. | .frcp .. | .frsq .. | .fsqrt .. | .fex2 .. | .flg2 .. | .fsin ..
  | .fcos .. | .frnd .. | .fclass .. | .dadd .. | .dmul .. | .dfma .. | .dset .. | .hadd2 .. | .hmul2 .. | .hfma2 .. | .cvt .. | .pack ..
  | .fstk .. => rawFloat i
  | .xch .. | .vote .. | .ballot .. | .scan .. | .redx .. | .matchB .. | .first .. | .rand .. => rawExchange i
  | .mxcfg .. | .mxpre .. | .mxpost .. | .unf .. | .kset .. | .sign .. | .mxwait .. | .mxdrain .. | .mxclr .. | .mxstat .. | .tlds ..
  | .edgec .. | .txw .. => rawMatrix i
  | .emit .. | .tspawn .. | .condw .. | .grun .. | .rstg .. | .rcmb .. | .dgstr .. | .trap .. | .rett .. | .prdone .. | .csrr .. | .csrw ..
  | .clock .. | .featr .. => rawSystem i
  | .unimpDispatch w => w
  | _ => default

/-! ## Reading fields -/

/-- An operand field that an instruction uses only when `used`. -/
def optOpd (used : Bool) (x : BitVec 11) : Option (Option Opd) :=
  if used then (Opd.ofBits x).map some else some none

/-- Bits [3:0] of MOD as a type. -/
def Raw.ty (r : Raw) : Option Ty := Ty.ofCode (r.mod.extractLsb' 0 4)

/-- MOD [9:4] as a qualifier. -/
def Raw.qual (r : Raw) : Option Qual := Qual.ofCode (r.mod.extractLsb' 4 6)

/-- MOD [6:4] as a rounding mode. -/
def Raw.rm (r : Raw) : Option Rm := Rm.ofCode (r.mod.extractLsb' 4 3)

/-- MOD [6:4] as a scan operation. -/
def Raw.rop (r : Raw) : Option ROp := ROp.ofCode (r.mod.extractLsb' 4 3)

/-- IMM [31:0]. -/
def Raw.imm32 (r : Raw) : BitVec 32 := r.imm.extractLsb' 0 32

/-- The seed field of a conversion under RS (R336, R338). -/
def Raw.rs (r : Raw) (rm : Rm) : Option (Option (BitVec 6 × Opd)) :=
  if rm = .rs then (Opd.ofBits r.c).map fun c => some (r.pqb, c) else some none

/-- Control-flow words (R383). -/
def parseControl (r : Raw) : Option Instr :=
  match r.opcode.toNat % 64 with
  | 1 => some (.nop r.hdr)
  | 2 => some (.bra r.hdr r.imm32)
  | 3 => do some (.brx r.hdr (← Opd.ofBits r.a))
  | 4 => do some (.call r.hdr (← Opd.ofBits r.d) (r.mod.extractLsb' 0 7) r.imm32)
  | 5 => do some (.callx r.hdr (← Opd.ofBits r.d) (← Opd.ofBits r.a) (r.mod.extractLsb' 0 7))
  | 6 => do some (.ret r.hdr (← Opd.ofBits r.a))
  | 7 => if r.mod.getLsbD 3 then some (.joinPush r.hdr r.imm32) else some (.join r.hdr (r.mod.extractLsb' 0 3) r.imm32)
  | 8 => some (.jdrop r.hdr (r.mod.extractLsb' 0 3))
  | 9 => if r.mod.getLsbD 3 then some (.waitPop r.hdr) else some (.wait r.hdr (r.mod.extractLsb' 0 3))
  | 10 => some (.exit r.hdr)
  | 11 => some (.yield r.hdr)
  | 12 => some (.mcall r.hdr (r.mod.extractLsb' 0 6) r.d r.a r.b (r.imm.extractLsb' 0 11) (r.imm.extractLsb' 11 11)
      (r.imm.extractLsb' 22 11) (r.imm.extractLsb' 33 11) (r.imm.extractLsb' 44 11))
  | 13 => do some (.mdef r.hdr (← Opd.ofBits r.a) (r.mod.extractLsb' 0 6) (r.imm.extractLsb' 0 6))
  | 14 => some (.fbar r.hdr (r.mod.extractLsb' 0 2) (r.mod.extractLsb' 2 4) (r.mod.extractLsb' 6 3))
  | 15 => if r.mod.getLsbD 0 then do some (.fwinSet r.hdr (← Opd.ofBits r.a)) else do some (.fwinGet r.hdr (← Opd.ofBits r.d))
  | _ => none

/-- Memory words (R261 to R282). -/
def parseMemory (r : Raw) : Option Instr :=
  let qw := r.imm.getLsbD 32
  let touch := r.imm.getLsbD 33
  match r.opcode.toNat % 64 with
  | 0 => do some (.ldg r.hdr (← r.qual) (← r.ty) qw touch (← Opd.ofBits r.d) (← r.srcA) (← r.srcB) r.imm32)
  | 1 => do some (.stg r.hdr (← r.qual) (← r.ty) qw (← Opd.ofBits r.d) (← r.srcA) (← r.srcB) r.imm32)
  | 2 => do some (.lde r.hdr (← r.qual) (← r.ty) touch (← Opd.ofBits r.d) (← r.srcA) (← r.srcB) (← optOpd (r.c != 0) r.c) r.imm32)
  | 3 => do some (.lds r.hdr (← r.qual) (← r.ty) qw touch (← Opd.ofBits r.d) (← r.srcA) (← r.srcB) r.imm32)
  | 4 => do some (.sts r.hdr (← r.qual) (← r.ty) qw (← Opd.ofBits r.d) (← r.srcA) (← r.srcB) r.imm32)
  | 5 => do some (.ldc r.hdr (← r.ty) qw touch (← Opd.ofBits r.d) (← r.srcA) (← r.srcB) r.imm32)
  | 6 => do some (.ldfe r.hdr (r.mod.getLsbD 9) (← r.ty) qw (← Opd.ofBits r.d) (← r.srcA) (← r.srcB) r.imm32)
  | 7 => do some (.stfe r.hdr (← r.ty) qw (← Opd.ofBits r.d) (← r.srcA) (← r.srcB) r.imm32)
  | 8 => do some (.feset r.hdr (r.mod.getLsbD 9) (← Opd.ofBits r.a) (← Opd.ofBits r.b) r.imm32)
  | 9 => do
    let op := AOp.ofCode r.modx
    some (.atomg r.hdr (← r.qual) op (← r.ty) (← Opd.ofBits r.d) (← r.srcA) (← r.srcB) (← optOpd (op == .cas) r.c))
  | 10 => do
    let op := AOp.ofCode r.modx
    some (.atoms r.hdr (← r.qual) op (← r.ty) (← Opd.ofBits r.d) (← r.srcA) (← r.srcB) (← optOpd (op == .cas) r.c))
  | 11 => do some (.redg r.hdr (← r.qual) (AOp.ofCode r.modx) (← r.ty) (← r.srcA) (← r.srcB))
  | 12 => do some (.pref r.hdr (r.mod.getLsbD 0) touch (← Opd.ofBits r.a) (← Opd.ofBits r.b) r.imm32)
  | 13 => do
    let scope ← (← Scope.ofCode (r.mod.extractLsb' 4 3))
    some (.fence r.hdr (MemOrd.ofCode (r.mod.extractLsb' 7 2)) scope)
  | 14 => do
    let scope ← (← Scope.ofCode (r.mod.extractLsb' 4 3))
    some (.icinv r.hdr scope (← Opd.ofBits r.a) (← Opd.ofBits r.b))
  | 15 => do some (.cinv r.hdr (← CinvKind.ofCode (r.mod.extractLsb' 0 2)))
  | 16 => do some (.cwb r.hdr (← Opd.ofBits r.a) (← Opd.ofBits r.b))
  | 17 => do some (.marm r.hdr (← r.srcA) (← r.srcB))
  | 18 => do some (.mwait r.hdr (← Opd.ofBits r.d) (← Opd.ofBits r.a))
  | _ => none

/-- Asynchronous words (R285). -/
def parseAsync (r : Raw) : Option Instr :=
  match r.opcode.toNat % 64 with
  | 0 => do
    let ck ← Ck.ofCode (r.mod.extractLsb' 0 2)
    some (.tcopy r.hdr ck (← Opd.ofBits r.d) (← Opd.ofBits r.a) (← optOpd (ck == .stamp) r.b) (r.imm.extractLsb' 0 4) (r.imm.extractLsb' 4 4))
  | 1 => do
    let ck ← Ck.ofCode (r.mod.extractLsb' 0 2)
    some (.acopy r.hdr ck (← CopyPath.ofCode (r.mod.extractLsb' 2 3)) (← optOpd (ck != .fe) r.d) (← Opd.ofBits r.a)
      (← optOpd (ck == .stamp) r.b) (r.imm.extractLsb' 0 12))
  | 2 => do some (.barinit r.hdr (← Opd.ofBits r.a) (← r.srcBI))
  | 3 => do some (.barexp r.hdr (← Opd.ofBits r.a) (← r.srcBI))
  | 4 => do some (.bararv r.hdr (← Opd.ofBits r.d) (← Opd.ofBits r.a) (r.mod.extractLsb' 0 3))
  | 5 => do some (.barwt r.hdr (← Opd.ofBits r.a) (← Opd.ofBits r.b))
  | 6 => do some (.barcont r.hdr (← Opd.ofBits r.a) (← Opd.ofBits r.b) r.imm32)
  | 7 => do some (.subs r.hdr (← Opd.ofBits r.d) (← Opd.ofBits r.a) (← Opd.ofBits r.b) (r.imm.extractLsb' 0 4) (r.imm.getLsbD 4))
  | 8 => do some (.rrel r.hdr (← Opd.ofBits r.a) (← r.srcBI))
  | 9 => do some (.rfin r.hdr (← Opd.ofBits r.a) (← r.srcBI))
  | 10 => do some (.wqry r.hdr (← Opd.ofBits r.a) (← Opd.ofBits r.b))
  | 11 => do some (.rmtw r.hdr (← r.ty) (← Opd.ofBits r.d) (← Opd.ofBits r.a) (r.imm.extractLsb' 0 12) (r.imm.extractLsb' 12 40))
  | 12 => do some (.rmtr r.hdr (← r.ty) (← Opd.ofBits r.d) (← Opd.ofBits r.a) (r.imm.extractLsb' 0 12) (r.imm.extractLsb' 12 40))
  | _ => none

/-- A word of shape type, D, A, B. -/
def parseTDAB (r : Raw) (f : Hdr → Ty → Opd → Src → Src → Instr) : Option Instr := do
  some (f r.hdr (← r.ty) (← Opd.ofBits r.d) (← r.srcA) (← r.srcBI))

/-- A word of shape type, D, A, B, C. -/
def parseTDABC (r : Raw) (f : Hdr → Ty → Opd → Src → Src → Opd → Instr) : Option Instr := do
  some (f r.hdr (← r.ty) (← Opd.ofBits r.d) (← r.srcA) (← r.srcB) (← Opd.ofBits r.c))

/-- A word of shape type, D, A. -/
def parseTDA (r : Raw) (f : Hdr → Ty → Opd → Src → Instr) : Option Instr := do
  some (f r.hdr (← r.ty) (← Opd.ofBits r.d) (← r.srcA))

/-- Integer words (R301). -/
def parseInteger (r : Raw) : Option Instr :=
  match r.opcode.toNat % 64 with
  | 0 => parseTDAB r fun h ty => .iadd h ty (r.mod.extractLsb' 4 3) (r.mod.extractLsb' 7 3)
  | 1 => parseTDAB r fun h ty => .isub h ty (r.mod.extractLsb' 4 3) (r.mod.extractLsb' 7 3)
  | 2 => parseTDABC r .iadd3
  | 3 => parseTDAB r .imul
  | 4 => parseTDAB r .imulh
  | 5 => parseTDABC r .imad
  | 6 => parseTDABC r .imadw
  | 7 => parseTDA r .ineg
  | 8 => parseTDA r .iabs
  | 9 => parseTDAB r .imin
  | 10 => parseTDAB r .imax
  | 11 => parseTDAB r .ishl
  | 12 => parseTDAB r .ishr
  | 13 => parseTDAB r .isar
  | 14 => parseTDAB r .rot
  | 15 => parseTDAB r .land
  | 16 => parseTDAB r .lor
  | 17 => parseTDAB r .lxor
  | 18 => parseTDA r .lnot
  | 19 => parseTDABC r fun h _ => .bfn3 h (r.modx.extractLsb' 0 2 ++ r.mod.extractLsb' 4 6)
  | 20 => parseTDA r .popc
  | 21 => parseTDA r .clz
  | 22 => parseTDA r .ctz
  | 23 => parseTDA r .brev
  | 24 => parseTDAB r .bfe
  | 25 => parseTDABC r fun h _ => .bfi h
  | 26 => do
    let sel ← match r.len with
      | .b64 => some none
      | .b96 => (Opd.ofBits r.c).map fun o => some (Src.reg o .id)
      | .b128 => some (some (Src.imm r.imm))
    some (.bysel r.hdr (← Opd.ofBits r.d) (← r.srcA) (← r.srcB) sel)
  | 27 => do some (.iset r.hdr (← r.ty) (← ICmp.ofCode (r.mod.extractLsb' 4 3)) (r.mod.extractLsb' 7 3) (← r.srcA) (← r.srcBI))
  | 28 => parseTDAB r fun h ty => .isel h ty (r.mod.extractLsb' 4 3) (r.mod.getLsbD 7)
  | 29 => parseTDAB r fun h ty => .lea h ty (r.mod.extractLsb' 4 4)
  | 30 => parseTDA r .mov
  | 31 => do some (.movi r.hdr (← r.ty) (← Opd.ofBits r.d) r.imm)
  | 32 => some (.pset r.hdr (r.d.extractLsb' 3 8) (r.d.extractLsb' 0 3) (r.a.extractLsb' 0 3) (r.b.extractLsb' 0 3) (r.mod.extractLsb' 0 3))
  | _ => none

/-- A floating-point word of shape mode, NA, NB, D, A, B. -/
def parseFDAB (r : Raw) (f : Hdr → Ty → Rm → Bool → Bool → Opd → Src → Src → Instr) : Option Instr := do
  some (f r.hdr (← r.ty) (← r.rm) (r.mod.getLsbD 7) (r.mod.getLsbD 8) (← Opd.ofBits r.d) (← r.srcA) (← r.srcBI))

/-- A floating-point word of shape mode, NA, NB, NC, D, A, B, C. -/
def parseFDABC (r : Raw) (f : Hdr → Ty → Rm → Bool → Bool → Bool → Opd → Src → Src → Opd → Instr) : Option Instr := do
  some (f r.hdr (← r.ty) (← r.rm) (r.mod.getLsbD 7) (r.mod.getLsbD 8) (r.mod.getLsbD 9) (← Opd.ofBits r.d) (← r.srcA) (← r.srcB)
    (← Opd.ofBits r.c))

/-- A floating-point word of shape mode, D, A. -/
def parseFDA (r : Raw) (f : Hdr → Rm → Opd → Src → Instr) : Option Instr := do
  some (f r.hdr (← r.rm) (← Opd.ofBits r.d) (← r.srcA))

/-- Floating-point words (R321, R336, R338). -/
def parseFloat (r : Raw) : Option Instr :=
  match r.opcode.toNat % 64 with
  | 0 => parseFDAB r fun h _ => .fadd h
  | 1 => parseFDAB r fun h _ => .fmul h
  | 2 => parseFDABC r fun h _ => .ffma h
  | 3 => parseTDAB r fun h _ => .fmin h
  | 4 => parseTDAB r fun h _ => .fmax h
  | 5 => do some (.fset r.hdr (FCmp.ofCode (r.mod.extractLsb' 4 3)) (r.mod.extractLsb' 7 3) (← r.srcA) (← r.srcBI))
  | 6 => parseFDA r .frcp
  | 7 => parseTDA r fun h _ => .frsq h
  | 8 => parseFDA r .fsqrt
  | 9 => parseTDA r fun h _ => .fex2 h
  | 10 => parseTDA r fun h _ => .flg2 h
  | 11 => parseTDA r fun h _ => .fsin h
  | 12 => parseTDA r fun h _ => .fcos h
  | 13 => parseFDA r .frnd
  | 14 => parseTDA r .fclass
  | 15 => parseFDAB r fun h _ => .dadd h
  | 16 => parseFDAB r fun h _ => .dmul h
  | 17 => parseFDABC r fun h _ => .dfma h
  | 18 => do some (.dset r.hdr (FCmp.ofCode (r.mod.extractLsb' 4 3)) (r.mod.extractLsb' 7 3) (← r.srcA) (← r.srcBI))
  | 19 => parseFDAB r .hadd2
  | 20 => parseFDAB r .hmul2
  | 21 => parseFDABC r .hfma2
  | 22 => do
    let rm ← r.rm
    some (.cvt r.hdr rm (r.b.extractLsb' 0 5) (r.b.extractLsb' 5 5) (← Opd.ofBits r.d) (← r.srcA) (← r.rs rm))
  | 23 => do
    let rm ← r.rm
    some (.pack r.hdr rm (r.b.extractLsb' 0 5) (r.b.extractLsb' 5 5) (← Opd.ofBits r.d) (← Opd.ofBits r.a) (← r.rs rm))
  | 24 => do some (.fstk r.hdr (← Opd.ofBits r.d) (← Opd.ofBits r.a))
  | _ => none

/-- Exchange words (R341). -/
def parseExchange (r : Raw) : Option Instr :=
  match r.opcode.toNat % 64 with
  | 0 => do some (.xch r.hdr (← r.ty) (r.mod.getLsbD 4) (← Opd.ofBits r.d) (← r.srcA) (← r.srcB))
  | 1 => some (.vote r.hdr (VoteMode.ofCode (r.mod.extractLsb' 4 2)) (r.mod.getLsbD 6) (r.d.extractLsb' 0 3) (r.a.extractLsb' 0 3))
  | 2 => do some (.ballot r.hdr (← r.ty) (r.mod.getLsbD 6) (← Opd.ofBits r.d) (r.a.extractLsb' 0 3))
  | 3 => do some (.scan r.hdr (← r.ty) (← r.rop) (r.mod.getLsbD 7) (← Opd.ofBits r.d) (← r.srcA) (← optOpd (r.mod.getLsbD 8) r.b))
  | 4 => do some (.redx r.hdr (← r.ty) (← r.rop) (← Opd.ofBits r.d) (← r.srcA) (← optOpd (r.mod.getLsbD 8) r.b))
  | 5 => parseTDA r .matchB
  | 6 => do
    let a ← if r.mod.getLsbD 4 then some none else r.srcA.map some
    some (.first r.hdr (← r.ty) (← Opd.ofBits r.d) a)
  | 7 => do some (.rand r.hdr (← RandCount.ofCode (r.mod.extractLsb' 0 2)) (r.mod.getLsbD 2) (← Opd.ofBits r.d) (← Opd.ofBits r.b) (← Opd.ofBits r.c))
  | _ => none

/-- Matrix and graphics words (R354). -/
def parseMatrix (r : Raw) : Option Instr :=
  let k := r.mod.extractLsb' 0 4
  match r.opcode.toNat % 64 with
  | 0 => do some (.mxcfg r.hdr (← r.srcAI))
  | 1 => do some (.mxpre r.hdr (← r.srcAI))
  | 2 => do some (.mxpost r.hdr (r.mod.getLsbD 0) (← r.srcAI))
  | 3 => do some (.unf r.hdr (r.mod.getLsbD 0) (← r.srcAI))
  | 4 => do some (.kset r.hdr k (r.mod.getLsbD 4) (← Opd.ofBits r.d) (← Opd.ofBits r.a) (← Opd.ofBits r.b) (r.imm.extractLsb' 0 8))
  | 5 => do some (.sign r.hdr k (← Opd.ofBits r.a))
  | 6 => do some (.mxwait r.hdr k (← Scope.ofCode (r.mod.extractLsb' 4 3)))
  | 7 => do
    let dst ← DrainDst.ofCode (r.mod.extractLsb' 4 2)
    some (.mxdrain r.hdr k dst (r.mod.getLsbD 6) (← optOpd (dst == .v) r.d) (← optOpd (dst != .v) r.a) (← r.srcBI))
  | 8 => some (.mxclr r.hdr k)
  | 9 => do some (.mxstat r.hdr k (← Opd.ofBits r.d))
  | 10 => do some (.tlds r.hdr k (← Opd.ofBits r.a) (← r.srcBI))
  | 11 => do some (.edgec r.hdr (← Opd.ofBits r.d) (← Opd.ofBits r.a) (← Opd.ofBits r.b))
  | 12 => do
    some (.txw r.hdr (← TxwMode.ofCode (r.mod.extractLsb' 0 2)) (r.mod.extractLsb' 2 2) (← Opd.ofBits r.d) (← Opd.ofBits r.a) (← Opd.ofBits r.b))
  | _ => none

/-- Task and system words (R446). -/
def parseSystem (r : Raw) : Option Instr :=
  match r.opcode.toNat % 64 with
  | 0 => do some (.emit r.hdr (← Opd.ofBits r.a) (← Opd.ofBits r.b))
  | 1 => do some (.tspawn r.hdr (← Opd.ofBits r.a) r.imm32)
  | 2 => do some (.condw r.hdr (← Opd.ofBits r.a) (← r.srcBI))
  | 3 => do some (.grun r.hdr (← Opd.ofBits r.a) r.imm32)
  | 4 => do some (.rstg r.hdr (← r.ty) (← r.rop) (← r.srcA) (← r.srcB))
  | 5 => do some (.rcmb r.hdr (← r.ty) (← r.rop) (← Opd.ofBits r.a) (← Opd.ofBits r.b))
  | 6 => do some (.dgstr r.hdr (← Opd.ofBits r.d))
  | 7 => some (.trap r.hdr r.mod)
  | 8 => some (.rett r.hdr)
  | 9 => some (.prdone r.hdr)
  | 10 => do some (.csrr r.hdr (← Opd.ofBits r.d) (r.mod.extractLsb' 0 8))
  | 11 => do some (.csrw r.hdr (r.mod.extractLsb' 0 8) (← r.srcAI))
  | 12 => do some (.clock r.hdr (r.mod.getLsbD 0) (← Opd.ofBits r.d))
  | 13 => do some (.featr r.hdr (r.mod.getLsbD 0) (← Opd.ofBits r.d) (← Opd.ofBits r.a))
  | _ => none

/-- The instruction of a word's opcode (R245), its fields read but not yet checked; none where the opcode is not assigned. -/
def parse (r : Raw) : Option Instr :=
  match r.opcode.toNat / 64 with
  | 0 => parseControl r
  | 1 => parseMemory r
  | 2 => parseAsync r
  | 3 => parseInteger r
  | 4 => parseFloat r
  | 5 => parseExchange r
  | 6 => parseMatrix r
  | 7 => parseSystem r
  | _ => some (.unimpDispatch r)

/-! ## Operand checks (R239, checks 8, 10 and 11) -/

/-- Scalar-class operands (R150). -/
def Opd.scalar : Opd → Bool
  | .v _ => false
  | .s _ => true
  | .sp .beat => false
  | .sp .tid => false
  | .sp _ => true
  | .sz => true

/-- A single register operand as a destination (R148). -/
def Opd.dst1 : Opd → Bool
  | .sp _ => false
  | _ => true

/-- A group of `n` registers at a multiple of `n`, v or s (R44, R261, R263, R383). -/
def Opd.group (n : Nat) : Opd → Bool
  | .v k => k.toNat % n == 0
  | .s k => k.toNat % n == 0
  | .sz | .sp _ => false

/-- A datum of `n` registers: a group, or sz standing for as many zeros (R148); any operand is one word. -/
def Opd.groupZ (n : Nat) (o : Opd) : Bool := o == .sz || n == 1 || o.group n

/-- A destination group, or sz. -/
def Opd.dst (n : Nat) (o : Opd) : Bool := o.dst1 && o.groupZ n

/-- A group of `n` scalar registers at a multiple of `n` (R284, R446). -/
def Opd.sgroup (n : Nat) : Opd → Bool
  | .s k => k.toNat % n == 0
  | _ => false

/-- A scalar pair, or sz, where the description admits both (R278, R279, R365, R446). -/
def Opd.spair (o : Opd) : Bool := o == .sz || o.sgroup 2

/-- A group of `n` vector registers at a multiple of `n`. -/
def Opd.vgroup (n : Nat) : Opd → Bool
  | .v k => k.toNat % n == 0
  | _ => false

/-- A group of `g` registers from v`N`, anywhere in the file (R354). -/
def Opd.vrun (g : Nat) : Opd → Bool
  | .v k => k.toNat + g ≤ 1024
  | _ => false

/-- A scalar-class destination. -/
def Opd.sdst (o : Opd) : Bool := o.scalar && o.dst1

/-- Whether a source carries a permutation (R156). -/
def Src.permuted : Src → Bool
  | .reg _ .id => false
  | .reg _ _ => true
  | .imm _ => false

/-- Whether a source gives every beat the same value. -/
def Src.scalar : Src → Bool
  | .reg o _ => o.scalar
  | .imm _ => true

/-- A source of `n` registers: its group, its class and its permutation (R44, R148, R156, R157). -/
def Src.ok (n : Nat) : Src → Bool
  | .reg o p => o.groupZ n && (p == .id || (!o.scalar && n ≤ 2))
  | .imm _ => true

/-- A source that must be a v or s pair (R261). -/
def Src.pairVS : Src → Bool
  | .reg o p => o.group 2 && (p == .id || !o.scalar)
  | .imm _ => false

/-- Two sources, not both permuted when either is 64 bits wide (R157). -/
def permOk (a b : Src) (wide : Bool) : Bool := !(wide && a.permuted && b.permuted)

/-- A scalar-class destination has no v and no Thread-class source (R150). -/
def uniOk (d : Opd) (scalarSrcs : Bool) : Bool := !d.scalar || scalarSrcs

/-- The same rule for a load or an atomic, whose sz destination is exempt (R150). -/
def uniOkSz (d : Opd) (scalarSrcs : Bool) : Bool := d == .sz || uniOk d scalarSrcs

/-- Registers of a value of a type: 2 for 64-bit types (R44). -/
def Ty.regs (ty : Ty) : Nat := if ty.is64 then 2 else 1

/-- Registers of a load or store (R263). -/
def memRegs (ty : Ty) (qw : Bool) : Nat := if qw then 4 else ty.regs

/-- Types of a load or store other than LDE, with `.b128` only under code 14 (R262, R263). -/
def memTy (ty : Ty) (qw : Bool) : Bool :=
  (match ty with | .f16 | .bf16 | .e4m3 | .e5m2 => false | _ => true) && (!qw || ty == .b32)

/-- Whether a memory scope is `.die` or wider. -/
def Scope.wide : Option Scope → Bool
  | some .die => true | some .pkg => true | some .sys => true | _ => false

/-- Ordering and scope together: a scope exactly when there is an ordering (R215, R265). -/
def Qual.paired (q : Qual) : Bool := (q.ord != .none) == q.scope.isSome

/-- LDG and LDE: none or `.acq`; X is `.bp` or `.rmt` (R265, R268). -/
def Qual.load (q : Qual) : Bool :=
  q.paired && (q.ord == .none || q.ord == .acq) && (!(q.ord == .acq && q.x) || Scope.wide q.scope)

/-- LDS: none or `.acq`, X zero (R265). -/
def Qual.lds (q : Qual) : Bool := q.paired && (q.ord == .none || q.ord == .acq) && !q.x

/-- Stores and reducing writes: none or `.rel`, X zero (R265). -/
def Qual.store (q : Qual) : Bool := q.paired && (q.ord == .none || q.ord == .rel) && !q.x

/-- ATOMG: any ordering; X is `.rmt`, which needs an acquire at `.die` or wider, or `.b128` on CAS (R215, R273). -/
def Qual.atomg (q : Qual) (op : AOp) (ty : Ty) : Bool :=
  q.paired && (if op == .cas then !q.x || ty == .b32 else !q.x || ((q.ord == .acq || q.ord == .ar) && Scope.wide q.scope))

/-- Types of an atomic operation (R274). -/
def AOp.tyOk : AOp → Ty → Bool
  | .add, .i32 | .add, .i64 | .add, .n32 => true
  | .min, .i32 | .min, .n32 | .min, .i64 | .min, .n64 => true
  | .max, .i32 | .max, .n32 | .max, .i64 | .max, .n64 => true
  | .and, .b32 | .and, .i64 | .and, .n64 => true
  | .or, .b32 | .or, .i64 | .or, .n64 => true
  | .xor, .b32 | .xor, .i64 | .xor, .n64 => true
  | .xchg, .b32 | .xchg, .i64 | .xchg, .n64 => true
  | .cas, .b32 | .cas, .i64 | .cas, .n64 => true
  | _, _ => false

/-- Types of a scan, reduction or staging operation (R347). -/
def ROp.tyOk : ROp → Ty → Bool
  | .add, .i32 | .add, .n32 | .add, .i64 | .add, .n64 | .add, .f32 => true
  | .min, .i32 | .min, .n32 | .min, .i64 | .min, .n64 | .min, .f32 => true
  | .max, .i32 | .max, .n32 | .max, .i64 | .max, .n64 | .max, .f32 => true
  | .and, .b32 | .and, .n64 => true
  | .or, .b32 | .or, .n64 => true
  | .xor, .b32 | .xor, .n64 => true
  | _, _ => false

/-- A type among a row's list. -/
def Ty.among (ty : Ty) (l : List Ty) : Bool := l.contains ty

/-- The common integer row: types, D, A, B (R301, R303, R304). -/
def legalInt (l : List Ty) (ty : Ty) (nd na nb : Nat) (d : Opd) (a b : Src) : Bool :=
  ty.among l && d.dst nd && a.ok na && b.ok nb && uniOk d (a.scalar && b.scalar) && permOk a b (na == 2 || nb == 2)

/-- The common one-source row. -/
def legalInt1 (l : List Ty) (ty : Ty) (nd na : Nat) (d : Opd) (a : Src) : Bool :=
  ty.among l && d.dst nd && a.ok na && uniOk d a.scalar

/-- Rounding modes of FP32 and FP64 arithmetic (R63). -/
def Rm.arith (rm : Rm) : Bool := rm != .rs

/-- A floating-point two-source row of `n` registers. -/
def legalF (n : Nat) (rm : Rm) (d : Opd) (a b : Src) : Bool :=
  rm.arith && d.dst n && a.ok n && b.ok n && uniOk d (a.scalar && b.scalar) && permOk a b (n == 2)

/-- A floating-point one-source row of single registers. -/
def legalF1 (rm : Rm) (d : Opd) (a : Src) : Bool := rm.arith && d.dst 1 && a.ok 1 && uniOk d a.scalar

/-- The four integer types. -/
def tyInt : List Ty := [.i32, .n32, .i64, .n64]

/-- Formats of CVT (R336). -/
def cvtFmt (x : BitVec 5) : Bool := (1 ≤ x.toNat && x.toNat ≤ 14) || x.toNat == 23 || x.toNat == 24

/-- Registers of a CVT operand (R337). -/
def cvtRegs (x : BitVec 5) : Nat := if x.toNat == 7 || x.toNat == 8 || x.toNat == 12 then 2 else 1

/-- The seed pair and counter of RS (R336). -/
def rsOk : Option (BitVec 6 × Opd) → Bool
  | none => true
  | some (_, c) => c.vgroup 2

/-- CSR numbers that R457 assigns. -/
def csrOk (n : BitVec 8) : Bool := n.toNat ≤ 6 || (0x20 ≤ n.toNat && n.toNat < 0x20 + 48)

/-- Checks 8, 10 and 11 of R239: codes, operand classes and numbers, groups, uniform rules and permutations. Check 9 and the reserved
bits of check 8 are the comparison of `decodeRaw`; a group that mixes shared and private registers (R151) is refused at issue, where the
launch's window is known. -/
def Instr.legal : Instr → Bool
  | .nop _ => true
  | .bra _ off => off.extractLsb' 0 2 == 0
  | .brx _ a => a.group 2
  | .call _ d _ off => d.dst 2 && off.extractLsb' 0 2 == 0
  | .callx _ d a _ => d.dst 2 && a.group 2
  | .ret _ a => a.group 2
  | .join _ _ off => off.extractLsb' 0 2 == 0
  | .joinPush _ off => off.extractLsb' 0 2 == 0
  | .jdrop _ _ | .wait _ _ | .waitPop _ | .exit _ | .yield _ => true
  | .mcall h _ p0 p1 p2 p3 p4 p5 p6 p7 =>
    !h.sw && h.stall == 0 && [p0, p1, p2, p3, p4, p5, p6, p7].all fun p => p.getLsbD 10 == false || p.extractLsb' 6 4 == 0 || p.extractLsb' 6 4 == 1
      || p.extractLsb' 6 4 == 2 || p == 0x7FF
  | .mdef _ a _ c => a.sgroup 2 && c.toNat ≤ 32
  | .fbar _ _ mask _ => mask != 0
  | .fwinGet _ d => d.sdst
  | .fwinSet _ a => a.scalar
  | .ldg _ q ty qw touch d a b _ =>
    q.load && memTy ty qw && d.dst (memRegs ty qw) && a.pairVS && b.ok 1 && permOk a b true && uniOkSz d (a.scalar && b.scalar) && (!touch || d == .sz)
  | .stg _ q ty qw d a b _ => q.store && memTy ty qw && d.groupZ (memRegs ty qw) && a.pairVS && b.ok 1 && permOk a b true
  | .lde _ q ty touch d a b c _ =>
    q.load && ty.among [.i32, .n32, .i64, .n64, .f32, .f64] && d.dst ty.regs && a.pairVS && b.ok 1 && permOk a b true
      && uniOkSz d (a.scalar && b.scalar) && c.all (fun o => o.sgroup 4) && (!touch || d == .sz)
  | .lds _ q ty qw touch d a b _ =>
    q.lds && memTy ty qw && d.dst (memRegs ty qw) && a.ok 1 && b.ok 1 && uniOkSz d (a.scalar && b.scalar) && (!touch || d == .sz)
  | .sts _ q ty qw d a b _ => q.store && memTy ty qw && d.groupZ (memRegs ty qw) && a.ok 1 && b.ok 1
  | .ldc _ ty qw touch d a b _ =>
    memTy ty qw && d.dst (memRegs ty qw) && a.pairVS && b.ok 1 && permOk a b true && uniOkSz d (a.scalar && b.scalar) && (!touch || d == .sz)
  | .ldfe _ _ ty qw d a b _ => memTy ty qw && d.dst (memRegs ty qw) && a.ok 1 && b.ok 1 && uniOkSz d (a.scalar && b.scalar)
  | .stfe _ ty qw d a b _ => memTy ty qw && d.groupZ (memRegs ty qw) && a.ok 1 && b.ok 1
  | .feset _ _ _ _ _ => true
  | .atomg _ q op ty d a b c =>
    let n := if op == .cas && q.x then 4 else ty.regs
    op.tyOk ty && q.atomg op ty && d.dst n && a.pairVS && b.ok n && permOk a b true
      && c.all (fun o => o.groupZ n)
      && uniOkSz d (a.scalar && b.scalar && c.all (fun o => o.scalar))
  | .atoms _ q op ty d a b c =>
    op.tyOk ty && q.paired && !q.x && d.dst ty.regs && a.ok 1 && b.ok ty.regs && permOk a b ty.is64
      && c.all (fun o => o.groupZ ty.regs)
      && uniOkSz d (a.scalar && b.scalar && c.all (fun o => o.scalar))
  | .redg _ q op ty a b => op.tyOk ty && op != .xchg && op != .cas && q.store && a.pairVS && b.ok ty.regs && permOk a b true
  | .pref _ _ _ a _ _ => a.group 2
  | .fence _ ord _ => ord != .none
  | .icinv _ scope a b => (scope == .core || scope == .clu || scope == .die || scope == .pkg) && a.spair && b.scalar
  | .cinv _ _ => true
  | .cwb _ a b => a.spair && b.scalar
  | .marm _ a b => a.pairVS && b.ok 1 && permOk a b true
  | .mwait _ d a => d.sdst && a.scalar
  | .tcopy _ ck d a b tb tnm1 =>
    tb.toNat + tnm1.toNat ≤ 15 && a.sgroup 8 && (match ck with | .fe => true | .stamp => d.sgroup 2 | .bar => d.scalar)
      && b.all (fun o => o.sgroup 2)
  | .acopy _ ck _ d a b _ =>
    a.sgroup 8 && (match ck, d with | .fe, _ => true | .stamp, some o => o.sgroup 2 | .bar, some o => o.scalar | _, none => false)
      && b.all (fun o => o.sgroup 2)
  | .barinit _ a n => a.scalar && n.scalar && (match n with | .imm x => x.toNat < 2 ^ 16 | _ => true)
  | .barexp _ a n => a.scalar && n.scalar
  | .bararv _ d a _ => d.sdst && a.scalar
  | .barwt _ a b => a.scalar && b.scalar
  | .barcont _ a b off => a.scalar && b.sgroup 8 && off.extractLsb' 0 2 == 0
  | .subs _ d a b logn _ => d.sdst && a.scalar && b.sgroup 8 && logn.toNat ≤ 8
  | .rrel _ a n | .rfin _ a n => a.scalar && n.scalar
  | .wqry _ a b => a.scalar && b.scalar
  | .rmtw _ ty d a _ _ => ty.among [.b32, .i64, .n64] && d.groupZ ty.regs && a.group 2
  | .rmtr _ ty d a _ _ => ty.among [.b32, .i64, .n64] && d.dst ty.regs && a.group 2 && uniOkSz d a.scalar
  | .iadd _ ty co ci d a b | .isub _ ty co ci d a b =>
    legalInt tyInt ty ty.regs ty.regs ty.regs d a b && (!d.scalar || (co == 0 && ci == 0))
  | .iadd3 _ ty d a b c => legalInt [.i32, .n32] ty 1 1 1 d a b && uniOk d c.scalar
  | .imul _ ty d a b | .imulh _ ty d a b => legalInt tyInt ty ty.regs ty.regs ty.regs d a b
  | .imad _ ty d a b c => legalInt [.i32, .n32] ty 1 1 1 d a b && uniOk d c.scalar
  | .imadw _ ty d a b c => legalInt [.i32, .n32] ty 2 1 1 d a b && c.groupZ 2 && uniOk d c.scalar
  | .ineg _ ty d a | .iabs _ ty d a => legalInt1 [.i32, .i64] ty ty.regs ty.regs d a
  | .imin _ ty d a b | .imax _ ty d a b => legalInt tyInt ty ty.regs ty.regs ty.regs d a b
  | .ishl _ ty d a b | .ishr _ ty d a b | .rot _ ty d a b => legalInt [.b32, .n64] ty ty.regs ty.regs 1 d a b
  | .isar _ ty d a b => legalInt [.i32, .i64] ty ty.regs ty.regs 1 d a b
  | .land _ ty d a b | .lor _ ty d a b | .lxor _ ty d a b => legalInt [.b32, .n64] ty ty.regs ty.regs ty.regs d a b
  | .lnot _ ty d a | .brev _ ty d a | .mov _ ty d a => legalInt1 [.b32, .n64] ty ty.regs ty.regs d a
  | .bfn3 _ _ d a b c => legalInt [.b32] .b32 1 1 1 d a b && uniOk d c.scalar
  | .popc _ ty d a | .clz _ ty d a | .ctz _ ty d a => legalInt1 [.b32, .n64] ty 1 ty.regs d a
  | .bfe _ ty d a b => legalInt [.i32, .n32] ty 1 1 1 d a b
  | .bfi _ d a b c => legalInt [.b32] .b32 1 1 1 d a b && uniOk d c.scalar
  | .bysel _ d a b sel => legalInt [.b32] .b32 1 1 1 d a b && uniOk d (sel.all Src.scalar)
  | .iset _ ty _ _ a b => ty.among tyInt && a.ok ty.regs && b.ok ty.regs && permOk a b ty.is64
  | .isel _ ty p _ d a b => legalInt [.b32, .n64] ty ty.regs ty.regs ty.regs d a b && (!d.scalar || p == 7)
  | .lea _ ty _ d a b => legalInt [.n32, .i32] ty 2 2 1 d a b
  | .movi _ ty d _ => ty.among [.b32, .n64] && d.dst ty.regs
  | .pset _ _ _ _ _ _ => true
  | .fadd _ rm _ _ d a b | .fmul _ rm _ _ d a b => legalF 1 rm d a b
  | .ffma _ rm _ _ _ d a b c => legalF 1 rm d a b && uniOk d c.scalar
  | .fmin _ d a b | .fmax _ d a b => legalF 1 .rn d a b
  | .fset _ _ _ a b => a.ok 1 && b.ok 1
  | .frcp _ rm d a | .fsqrt _ rm d a | .frnd _ rm d a => legalF1 rm d a
  | .frsq _ d a | .fex2 _ d a | .flg2 _ d a | .fsin _ d a | .fcos _ d a => legalF1 .rn d a
  | .fclass _ ty d a => legalInt1 [.f32, .f64, .f16, .bf16] ty 1 ty.regs d a
  | .dadd _ rm _ _ d a b | .dmul _ rm _ _ d a b => legalF 2 rm d a b
  | .dfma _ rm _ _ _ d a b c => legalF 2 rm d a b && c.groupZ 2 && uniOk d c.scalar
  | .dset _ _ _ a b => a.ok 2 && b.ok 2 && permOk a b true
  | .hadd2 _ ty rm _ _ d a b | .hmul2 _ ty rm _ _ d a b => ty.among [.f16, .bf16] && legalF 1 rm d a b
  | .hfma2 _ ty rm _ _ _ d a b c => ty.among [.f16, .bf16] && legalF 1 rm d a b && uniOk d c.scalar
  | .cvt _ rm dfmt sfmt d a rs =>
    cvtFmt dfmt && cvtFmt sfmt && (rm != .rs || dfmt == 9 || dfmt == 10 || dfmt == 13 || dfmt == 14) && rsOk rs
      && d.dst (cvtRegs dfmt) && a.ok (cvtRegs sfmt) && uniOk d (a.scalar && rs.isNone)
  | .pack _ _ fmt _ d a rs => 15 ≤ fmt.toNat && fmt.toNat ≤ 22 && d.vgroup 2 && (match a with | .v _ => true | _ => false) && rsOk rs
  | .fstk _ d a => d.sdst && a.scalar
  | .xch _ ty _ d a b =>
    ty.among [.b32, .n64] && d.vgroup ty.regs && (match a with | .reg o _ => o.vgroup ty.regs | _ => false) && a.ok ty.regs && b.ok 1
      && !(ty.is64 && b.permuted)
  | .vote _ _ _ _ _ => true
  | .ballot _ ty _ d _ => ty.among [.b32, .n64] && d.dst ty.regs
  | .scan _ ty op _ d a b =>
    op.tyOk ty && d.vgroup ty.regs && (match a with | .reg o _ => o.vgroup ty.regs | _ => false)
      && b.all (fun o => o.scalar && o.groupZ ty.regs)
  | .redx _ ty op d a b =>
    op.tyOk ty && d.dst ty.regs && (match a with | .reg o _ => o.vgroup ty.regs | _ => false)
      && b.all (fun o => o.scalar && o.groupZ ty.regs)
  | .matchB _ ty d a => ty.among [.b32, .n64] && d.vgroup 2 && (match a with | .reg o _ => o.vgroup ty.regs | _ => false)
  | .first _ ty d a =>
    ty.among [.b32, .n64] && d.dst ty.regs && (match a with | none => ty == .b32 | some (.reg o _) => o.vgroup ty.regs | _ => false)
  | .rand _ count _ d b c =>
    let n := match count with | .x1 => 1 | .x2 => 2 | .x4 => 4
    d.vgroup n && b.sgroup 2 && c.vgroup 2 && (match d, c with | .v x, .v y => x.toNat + n ≤ y.toNat || y.toNat + 2 ≤ x.toNat | _, _ => false)
  | .mxcfg _ x | .mxpre _ x | .mxpost _ _ x | .unf _ _ x => (match x with | .reg o _ => o.sgroup 2 | .imm _ => true)
  | .kset _ _ fibSet d a b count => d.scalar && b.scalar && (if fibSet then a.scalar && count.toNat < 128 else a.sgroup 2 && count == 0)
  | .sign _ _ a => a == .sz || a.vgroup 4
  | .mxwait _ _ _ => true
  | .mxdrain _ _ dst _ d a x =>
    d.all (fun o => o.vrun 1)
      && (match x with | .reg o _ => o.sgroup 2 | .imm _ => true)
      && a.all (fun o => if dst == .s then o.scalar else o.sgroup 2)
  | .mxclr _ _ => true
  | .mxstat _ _ d => d.spair
  | .tlds _ _ a x => a.scalar && (match x with | .reg o _ => o.sgroup 2 | .imm _ => true)
  | .edgec _ d a b => d.vrun 11 && a.vrun 6 && (b.scalar || b.vrun 1)
  | .txw _ _ _ d a b => d.vrun 7 && a.vrun 2 && b.sgroup 2
  | .emit _ a b => a.group 2 && (match b with | .v _ => true | .s _ => true | _ => false)
  | .tspawn _ a _ => a.sgroup 2
  | .condw _ a x => a.sgroup 2 && x.scalar
  | .grun _ a _ => a.sgroup 2
  | .rstg _ ty op a b => op.tyOk ty && a.pairVS && b.ok ty.regs && permOk a b true
  | .rcmb _ ty op a b => op.tyOk ty && a.sgroup 2 && b.sgroup 4
  | .dgstr _ d => d.spair
  | .trap _ _ | .rett _ | .prdone _ => true
  | .csrr _ d n => d.sdst && csrOk n
  | .csrw _ n x => x.scalar && csrOk n && n.toNat != 2 && n.toNat != 6 && n.toNat < 0x20
  | .clock _ _ d => d.sgroup 2
  | .featr _ _ d a => d.sdst && a.scalar
  | .unimpDispatch w => w.tidy
  | _ => true

/-! ## Decoding in the order of R239 -/

/-- The fates of the decode checks (R239). -/
inductive DecodeFault where
  | illen | illfb | illop | unimp
  deriving DecidableEq, Repr

/-- What a word decodes to: the never guard is a NOP whatever else it holds (R237, check 4), an extension opcode is named with its word
(check 6), and any other word must be exactly the fields of the instruction it names (checks 5, 7 to 12). -/
def decodeRaw (r : Raw) : Option Instr :=
  if r.hdr.never then some (.nop r.hdr)
  else
    match parse r with
    | some i => if i.toRaw = r ∧ i.wf ∧ i.legal then some i else none
    | none => none

/-- The little-endian number of a list of bytes (R5). -/
def leNat : List Byte → Nat
  | [] => 0
  | b :: t => b.toNat + 256 * leNat t

/-- `n` bytes of a number, least significant first (R5). -/
def leBytes : Nat → Nat → List Byte
  | 0, _ => []
  | n + 1, x => BitVec.ofNat 8 x :: leBytes n (x / 256)

/-- Decoding of the bytes from an address whose lowest five bits are `at32`: the instruction and its length, or the fate of the first
check that fails (R231, R232, R239). -/
def decodeAt (at32 : Nat) (bytes : List Byte) : Except DecodeFault Instr :=
  match Raw.ofWord (BitVec.ofNat 128 (leNat bytes)) with
  | none => .error .illen
  | some r =>
    if at32 + r.len.bytes > 32 then .error .illfb
    else match decodeRaw r with
      | some i => .ok i
      | none => .error .illop

/-- Decoding of the bytes at the start of a fetch block. -/
def decode (bytes : List Byte) : Except DecodeFault Instr := decodeAt 0 bytes

/-- The bytes of an instruction, lowest address first; a device step has none. -/
def encode (i : Instr) : List Byte :=
  if i.encoded then leBytes i.toRaw.len.bytes i.toRaw.toWord.toNat else []

/-- What the decoder reads from an instruction whose bits are `w`, numbered as the opcode table numbers them; bits above `nbits` are
zero. -/
def decodeTableWord (nbits w : Nat) : Option Instr :=
  match decode (leBytes 16 (w % 2 ^ nbits)) with
  | .ok i => some i
  | .error _ => none

end Sys2Proof
end

