-- ==== Sys2Proof/Machine/Table.lean ====
section
/-! DEFINITION. Sparse tables: lists of key and value in one canonical form, keys strictly rising and no entry equal to what an unlisted key reads as. -/

namespace Sys2Proof.Machine

/-- The value at a key; an unlisted key reads as `d`. -/
def tget {α : Type} (d : α) : List (Nat × α) → Nat → α
  | [], _ => d
  | (k, v) :: t, i => if i = k then v else tget d t i

/-- The entry at a key. -/
def tfind {α : Type} : List (Nat × α) → Nat → Option α
  | [], _ => none
  | (k, v) :: t, i => if i = k then some v else tfind t i

/-- Insert or replace an entry, keeping the keys rising. -/
def tput {α : Type} : List (Nat × α) → Nat → α → List (Nat × α)
  | [], i, x => [(i, x)]
  | (k, v) :: t, i, x => if i < k then (i, x) :: (k, v) :: t else if i = k then (i, x) :: t else (k, v) :: tput t i x

/-- Remove an entry. -/
def tdel {α : Type} : List (Nat × α) → Nat → List (Nat × α)
  | [], _ => []
  | (k, v) :: t, i => if i = k then tdel t i else (k, v) :: tdel t i

/-- Write a value: storing what an unlisted key reads as removes the entry. -/
def tset {α : Type} [DecidableEq α] (d : α) (l : List (Nat × α)) (i : Nat) (x : α) : List (Nat × α) :=
  if x = d then tdel l i else tput l i x

/-- Every key of a table is above a bound, and the keys rise. -/
def tsorted {α : Type} : Option Nat → List (Nat × α) → Bool
  | _, [] => true
  | none, (k, _) :: t => tsorted (some k) t
  | some b, (k, _) :: t => decide (b < k) && tsorted (some k) t

/-- The canonical form of a table whose unlisted keys read as `d`. -/
def twf {α : Type} [DecidableEq α] (d : α) (l : List (Nat × α)) : Bool :=
  tsorted none l && l.all fun e => decide (e.2 ≠ d)

/-- The element of a list at a position, or a default. -/
def nth {α : Type} (d : α) (l : List α) (i : Nat) : α := l.getD i d

/-- A list with one position replaced; nothing happens past its end. -/
def setNth {α : Type} (l : List α) (i : Nat) (x : α) : List α := l.set i x

/-- A list without the element at a position. -/
def dropNth {α : Type} (l : List α) (i : Nat) : List α := l.eraseIdx i

/-- A list of which at most `n` elements meet a test: the first ones stay. -/
def keepFirst {α : Type} (f : α → Bool) : Nat → List α → List α
  | _, [] => []
  | 0, x :: t => if f x then keepFirst f 0 t else x :: keepFirst f 0 t
  | n + 1, x :: t => if f x then x :: keepFirst f n t else x :: keepFirst f (n + 1) t

/-- The positions 0 to n − 1. -/
def upTo (n : Nat) : List Nat := List.range n

/-- The position of the first element that meets a test. -/
def posOf {α : Type} (f : α → Bool) : List α → Option Nat
  | [] => none
  | x :: t => if f x then some 0 else (posOf f t).map (· + 1)

end Sys2Proof.Machine
end

