-- ==== Sys2Proof/Machine/State.lean ====
section
/-! DEFINITION. The state of the package as plain data, why a step can stop, and the state at power-on. Tables are keyed by numbers of the package: die 0 or 1, cluster 0 to 95, core 0 to 383, lane `core * 16 + lane`, slot `core * 32 + slot`, fibre `slot * 4 + stage` (R4, R161, R162). -/

namespace Sys2Proof.Machine

/-! ## Causes (R431) -/

/-- Trap causes (R431). -/
inductive Cause where
  | illop | illen | illfb | unimp | mnest | stallShort | regOvf | resErr | resUnrec | vaBad | xlFault | xlPerm | pteBad | homeAbsent | ueData
  | spadUe | spadOob | memAlign | feSpan | hostatomAbsent | rmtErr | monBad | monFull | ringBad | ringErr | copyBad | copyErr | barErr | satTrap
  | fmtBad | scaleShort | wqBad | mxBad | mxProto | mxUe | jnBad | jnOvf | winBad | binBad | redBad | dgstMm | preempt | timer | user | double
  deriving DecidableEq, Repr, Inhabited

/-! ## Threads, divergence and a fibre's private state -/

/-- The state of a PC-table entry (R371). -/
inductive TState where
  | ready | parked | held | exited
  deriving DecidableEq, Repr, Inhabited

/-- A macro call in progress: the definition it runs, its parameters, the length of the word it stands for, and its entry (R242 to R244, R467). -/
structure Call where
  ops : List Raw
  prm : List (BitVec 11)
  len : Nat
  entry : Nat := 0
  deriving DecidableEq, Repr, Inhabited

/-- One entry of the PC table: the address, the operation index inside a macro call, the state (R371, R243). `call` is the definition the call
runs; RETT leaves it to be read again at the next issue (R244). -/
structure Thread where
  pc : BitVec 56
  op : Option Nat
  st : TState
  call : Option Call
  deriving DecidableEq, Repr, Inhabited

/-- A rejoin register, or an overflow level of it (R374, R379). -/
structure JReg where
  mask : BeatMask
  park : BeatMask
  addr : BitVec 56
  v : Bool
  stk : Bool
  deriving DecidableEq, Repr, Inhabited

/-- The staging words (R186). -/
structure Staging where
  cfg : Dword
  pre : Dword
  post0 : Dword
  post1 : Dword
  unf0 : Dword
  unf1 : Dword
  deriving DecidableEq, Repr, Inhabited

/-- Where a register number leads (R151): a private index, an index of the slot's shared window, a scalar register, or nowhere (sz). -/
inductive Ref where
  | priv (i : Nat)
  | shared (i : Nat)
  | scal (n : Nat)
  | none
  deriving DecidableEq, Repr, Inhabited

/-- An instruction in progress: where it stands, the beat it goes on at, the exchange buffer and the carry (R157, R158, R172). `resumed`: RETT
has put it back, and it has not issued again; `lost`: it is an MWAIT whose sleep a trap has ended (R282). `blocks`: the register blocks it uses
(R155); `t0`: when its first beat started, by the counts (R166); `began`: the step of its first beat; `lines`: what an LDC has read so far of other
dies or of the host, by physical line (R133). -/
structure Mid where
  pc : BitVec 56
  op : Option Nat
  beat : Nat
  xbuf : Option (List (Word × Word))
  carry : Option Dword
  resumed : Bool
  lost : Bool
  blocks : List Nat := []
  t0 : Option Nat := none
  began : Nat := 0
  lines : List (Nat × List Byte) := []
  deriving DecidableEq, Repr, Inhabited

/-- What an outstanding access does when it is performed. -/
inductive AccKind where
  | load
  | const
  | store
  | atomic (op : AOp) (ty : Ty)
  | red (op : AOp) (ty : Ty)
  | rstg (op : ROp) (ty : Ty)
  | rmtr
  deriving DecidableEq, Repr, Inhabited

/-- What LDE decodes when its bytes arrive (R269): the page's format code, the delivery type, the place of the element in the bytes read (first
bit and width), and how many bytes of scale or header follow them. -/
structure LdeInfo where
  fmt : Nat
  ty : Ty
  bit : Nat
  width : Nat
  scale : Nat
  deriving DecidableEq, Repr, Inhabited

/-- A part of an access that lies in one page: physical address, bytes, cacheability, home die, and whether it is host memory. -/
structure Seg where
  pa : Nat
  n : Nat
  ca : BitVec 2
  home : Nat
  host : Bool
  deriving DecidableEq, Repr, Inhabited

/-- An access a fibre has issued and that is not yet finished (R211 to R213). `uni`: it stands for every thread of `act`, the threads active in its
issue. `plain`: it may be served by the L1 (R119); `l1ev`: how many invalidation events the arrays of its cluster had had (R121). `acq`: the scope of its acquire. `reply`: the value it returns, once it has been performed; `home`: that value is still on its
way from the other die (R100). `block`: the fibre waits for it at its beat. `waits`: the write-through records, by die and number, that its
acquire waits for (R98), and host writes by die + 2 and number + 1 (R222); number 0 stands for one that was lost (R99). `keep`: words of its result that
a short stall count keeps from being written (R169). `group`: the step in which its instruction began (R133). `failed`: it is a remote read that has
failed, and faults the beat that waits for it (R298). -/
structure Access where
  kind : AccKind
  beat : Nat
  uni : Bool
  va : Nat
  segs : List Seg
  n : Nat
  plain : Bool
  l1ev : List Nat
  acq : Option Scope
  rmt : Bool
  data : List Byte
  cmp : List Byte
  dst : Ref
  regs : Nat
  ty : Ty
  lde : Option LdeInfo
  seq : Nat
  reply : Option (List Byte)
  home : Bool
  block : Bool
  waits : List (Nat × Nat)
  act : BeatMask := 0
  keep : List Nat := []
  group : Nat := 0
  failed : Bool := false
  deriving DecidableEq, Repr, Inhabited

/-- A fixed-latency result not yet readable by the counts (R166 to R169): the register, its beat (none: uniform), when it can be read, the producer, the value before it, the set of threads it was active for. -/
structure PendRes where
  ref : Ref
  pred : Bool
  beat : Option Nat
  avail : Nat
  pc : BitVec 56
  old : Word
  active : BeatMask
  deriving DecidableEq, Repr, Inhabited

/-- Why a fibre sleeps (R175). -/
inductive Sleep where
  | awake
  | fe (granule : Nat)
  | walk (die : Nat) (asid page : Nat)
  | replay (die : Nat) (asid page : Nat) (kind : Nat)
  | mwait (deadline : Nat)
  | mxwait (k : Nat)
  | barwt (phys : Nat) (token : Word)
  | bararv (phys : Nat)
  | fill (blocks : List Nat)
  | copyQueue
  | failTable
  | wqry
  | spawnLimit
  | grun
  | binFull (node : Nat) (ring : Nat)
  | reply
  deriving DecidableEq, Repr, Inhabited

/-- A line of a fibre's monitor set (R101): registered at home, or recorded there as an overflow waiter (R104). `gone`: its home has become absent since
(R17, R103). -/
structure MonLine where
  line : Nat
  registered : Bool
  overflow : Bool
  gone : Bool := false
  deriving DecidableEq, Repr, Inhabited

/-- What an ordering at package scope waits for since its issue (R98): its place and run, the write-through records of the die and the host writes of
the fibre then outstanding, and whether one of the records was lost (R99). -/
structure Note where
  pc : BitVec 56
  op : Option Nat
  run : BeatMask
  wt : List Nat
  port : List Nat
  lost : Bool
  deriving DecidableEq, Repr, Inhabited

/-- An MXDRAIN by rows that is not complete: its place, the row it goes on at, counted from its first, and the bytes its rows have written to memory, by
address (R363, R423). -/
structure Draining where
  pc : BitVec 56
  op : Option Nat
  row : Nat
  cells : List (Nat × Byte)
  deriving DecidableEq, Repr, Inhabited

/-- A trap whose entry waits for earlier results (R435, step 1). -/
structure TrapReq where
  cause : Cause
  addr : Dword
  beat : Nat
  fpc : BitVec 56
  op : Option Nat
  run : BeatMask
  xbuf : Option (List (Word × Word))
  carry : Option Dword
  word : BitVec 128
  entry : Option (BitVec 56)
  deriving DecidableEq, Repr, Inhabited

/-- How far a fibre is in a save (R440). -/
inductive PreState where
  | none | requested | entered | done | forced
  deriving DecidableEq, Repr, Inhabited

/-- Where a fibre stands in its work: launch, cohort, indices and ordering key (R149, R161, R418). -/
structure Position where
  launch : Nat
  cohort : Nat
  fib : Nat
  lidx : Nat
  stage : Nat
  width : Nat
  key : List Nat
  bsbase : Nat
  plim : Nat
  shlo : Nat
  shn : Nat
  det : Bool
  deriving DecidableEq, Repr, Inhabited

/-- Registers of a fibre: `ttimer` is COUNT as it was at cycle `tbase` of its core (R459). They are vector private registers (key: index · 64 + beat), blocks that live in the backing store, blocks written since they were last filled, blocks that have been filled, scalar registers, predicates, flags, control registers, the stored residue codes of words whose code is not the residue of the word, words of which the next read alone will mismatch (`none` for those of the exchange buffer), beats at which the carry word mismatches, and bits that the ALU will flip in its next result (R8, R68, R151, R154, R159, R170, R172, R186, R457). -/
structure Regs where
  v : List (Nat × Word)
  spilled : List Nat
  dirty : List Nat
  filled : List Nat
  s : List (Nat × Word)
  p : List (Nat × BeatMask)
  flags : BitVec 7
  satarm : Bool
  sbchk : Bool
  woff : Nat
  tvec : BitVec 56
  ttimer : Word
  tbase : Nat
  timp : Bool
  inh : Bool
  prep : Bool
  hcause : BitVec 6
  stg : Staging
  badV : List (Nat × BitVec 5)
  badS : List (Nat × BitVec 5)
  badPath : List (Ref × Nat)
  badCarry : List Nat := []
  aluErr : Option Word := none
  deriving DecidableEq, Repr, Inhabited

/-- Divergence of a fibre: the PC table, the rejoin registers, DIVST, the thread of serial mode (R371, R374, R375, R381), and the FBAR its Held
threads stand at (R393). The last six hold, while a handler runs, the threads that exited in it and what RETT takes up again beside the
frame: the operation of a call that trapped, the thread of serial mode, the FBAR and the calls of Held threads (R244, R382, R436). -/
structure Diverge where
  threads : List Thread
  j : List JReg
  depth : Nat
  ser : Bool
  ovd : Nat
  base : Nat
  cur : Nat
  curLive : Bool
  heldBar : Option (Nat × BitVec 3)
  hexit : BeatMask
  sop : Option Nat
  scur : Nat
  scurLive : Bool
  sheld : Option (Nat × BitVec 3)
  scall : List (BitVec 56 × Option Call) := []
  deriving DecidableEq, Repr, Inhabited

/-- A fibre resident on a core. `lostWait`: the trap its handler runs for has ended an MWAIT (R282). `preAt`: the cycle from which its 20,000
cycles count (R440). `rettDue`: a restore owes it the RETT of its handler (R440). `passed`: once it has issued YIELD, the fibres of its lane that have
since reached a switch point (R176). `stalled`: its stall count reaches past the end of its last instruction (R166). `used`: when each of its register
blocks was last used (R155). `levels`: overflow levels whose write to memory waits for a fault, by number (R155, R379); `settleDue`: the levels that RETT
tests could not be read yet (R377). `doneAt`: an atomic that was performed before its beat ended with HOME_ABSENT: its place, its beat and the value it read;
its re-issue is that same access (R212, R222). `drained`: its drains by rows in progress (R363). -/
structure Fibre where
  pos : Position
  div : Diverge
  regs : Regs
  mid : Option Mid
  out : List Access
  pend : List PendRes
  nom : Nat
  lastRun : BeatMask
  chained : Bool
  sleep : Sleep
  mon : List MonLine
  monEvent : Bool
  mwaitCode : Option Nat
  lostWait : Bool
  trap : Option TrapReq
  frozen : Bool
  dgst : Bool
  pre : PreState
  preAt : Nat
  rettDue : Bool
  yielded : Bool
  atSwitch : Bool
  nspawn : Nat
  queries : List (Nat × Nat)
  emits : List (Nat × Nat)
  wait : List Note
  failure : Option (Cause × Nat)
  rmtBad : Bool
  onFail : Option TrapReq
  passed : List Nat := []
  stalled : Bool := false
  used : List (Nat × Nat) := []
  levels : List (Nat × JReg) := []
  settleDue : Bool := false
  doneAt : Option (BitVec 56 × Option Nat × Nat × List Byte) := none
  drained : List Draining := []
  deriving DecidableEq, Repr, Inhabited

/-! ## Slots, lanes and cores -/

/-- A fibre-local barrier (R178): its phase's mask, the stages that have arrived, the last arrival, and the predicate due to fibres in a handler. -/
structure FBarrier where
  isOpen : Bool
  mask : BitVec 4
  arrived : BitVec 4
  last : Nat
  owed : List (Nat × Nat × Bool)
  deriving DecidableEq, Repr, Inhabited

/-- A physical slot: its shared window (key: index · 64 + beat) and its barriers (R151, R178). -/
structure Slot where
  shared : List (Nat × Word)
  bars : List FBarrier
  bad : List (Nat × BitVec 5)
  deriving DecidableEq, Repr, Inhabited

/-- A lane: its holder, since which cycle of the core, whether the holder's 256 cycles are over, and whether the last holder ran in deterministic mode
(R175, R176); for how many cycles its instruction has been ready without starting, and how many arbitrations it has lost in a row (R180). -/
structure Lane where
  holder : Option Nat
  since : Nat
  expired : Bool
  det : Bool := false
  age : Nat := 0
  losses : Nat := 0
  deriving DecidableEq, Repr, Inhabited

/-- A cached line of 128 bytes, by physical line number; `bad`: its parity is wrong, which the next access that meets it finds (R128). -/
structure Line where
  line : Nat
  bytes : List Byte
  bad : Bool := false
  deriving DecidableEq, Repr, Inhabited

/-- A translation held by a TLB (R80): the context, the first address and size of the page, and its leaf entry. -/
structure TlbEntry where
  asid : Nat
  base : Nat
  size : Nat
  entry : Dword
  deriving DecidableEq, Repr, Inhabited

/-- A core: L1 and how many invalidation events it has had, instruction cache, core TLB, control store (R119, R279, R80, R240). -/
structure Core where
  l1 : List Line
  l1ev : Nat
  icache : List Line
  tlb : List TlbEntry
  cstore : List (Nat × List Raw)
  deriving DecidableEq, Repr, Inhabited

/-! ## Clusters -/

/-- The registers a member bound at its signature: rank in the set order, the four registers, and their words at the signature (R200, R207). -/
structure ColBind where
  fibre : Nat
  beat : Nat
  rank : Nat
  refs : List Ref
  words : List Word
  deriving DecidableEq, Repr, Inhabited

/-- A convergence register (R201 to R205). `was`: the configuration it held when it was armed from Done (R202). `members` and `signed`: fibre and
threads, in set order. `since`: the step of its last change of place, `postAt`: the cycle of its post, `signAt`: the step of its last signature (R204).
`spad0`, `tiles0`: the operands without what has touched them since a member signed (R207). `fail`: the cause a running pass has met; `free0`: the number of
the first free bit of the pass. -/
structure KReg where
  state : Nat
  bank : Bool
  hold : Bool
  remain : Nat
  err : BitVec 8
  entry : Nat
  cohort : Nat
  stg : Staging
  p0 : Word
  coff : BitVec 16
  was : Option (Staging × Word × BitVec 16)
  fibSet : Bool
  members : List (Nat × BeatMask)
  signed : List (Nat × BeatMask)
  anySigned : Bool
  cols : List ColBind
  colData : List (Nat × Word)
  events : BitVec 7
  since : Nat
  postAt : Nat
  prio : Nat
  spad0 : List (Nat × Byte)
  tiles0 : List (Nat × Byte)
  fail : Nat
  signAt : Nat := 0
  free0 : Nat := 0
  deriving DecidableEq, Repr, Inhabited

/-- An entry of the peer-window table (R37). -/
structure PeerWin where
  rbase : Dword
  len : BitVec 41
  rkey : Word
  qpn : BitVec 24
  port : BitVec 3
  v : Bool
  deriving DecidableEq, Repr, Inhabited

/-- A copy in the engine's queue (R134). TCOPY uses no `path`, and `len` for its columns. `layout`: format and geometry of a TCOPY's pages once
they are checked (R136). `unacked` and `ports`: records and host writes its payload waits for, by die and number (R138). `sent`: bytes written to
memory so far, by address (R147). `target`: the stamp's address, or the barrier object's location. -/
structure Copy where
  id : Nat
  fibre : Nat
  lidx : Nat
  cohort : Nat
  asid : Nat
  tcopy : Bool
  path : CopyPath
  ck : Ck
  src : Nat
  dst : Nat
  len : Nat
  rows : Nat
  srcPitch : Nat
  dstPitch : Nat
  tb : Nat
  tn : Nat
  k : Nat
  scale : Nat
  scaleN : Nat
  win : PeerWin
  target : Nat
  stampPa : Nat
  stampCa : BitVec 2
  seq : BitVec 56
  winBase : Nat
  winSize : Nat
  started : Bool
  pos : Nat
  layout : Option (Nat × Nat)
  err : Option Nat
  held : Bool
  unacked : List (Nat × Nat)
  ports : List (Nat × Nat)
  sent : List (Nat × Byte)
  failIx : Option Nat
  deriving DecidableEq, Repr, Inhabited

/-- An entry of the failure table: a full-empty copy has taken it, or it holds a failed range (R139). `ranges`: first granule and count of each
row. -/
structure FailEntry where
  cohort : Nat
  failed : Bool
  ranges : List (Nat × Nat)
  deriving DecidableEq, Repr, Inhabited

/-- A ring as its engine holds it (R106 to R117): its number in the cluster, its place, its tensor region, the counts, the granules of the slot in
flight that are pushed, and the position whose RFIN finished each slot (R423). `parts`, `cells`: how much of an output ring's slot in flight has been
written, and what. -/
structure Ring where
  sub : Nat
  cohort : Nat
  lidx : Nat
  asid : Nat
  die : Nat
  engine : Nat
  base : Nat
  logn : Nat
  dir : Bool
  slotG : Nat
  region : Nat
  pitch : Nat
  tw : Nat
  th : Nat
  tx : Nat
  ty : Nat
  state : Nat
  head : Nat
  tail : Nat
  pushed : List Nat
  finishers : List (Nat × Nat)
  xlw : Bool
  err : Nat
  parts : Nat := 0
  cells : List (Nat × Byte) := []
  deriving DecidableEq, Repr, Inhabited

/-- A waiter on a full-empty granule (R131): the fibre, the beat, what it waits for, and what it does. `keep`: words of its result that a short stall
count keeps from being written (R169). -/
structure FeWait where
  fibre : Nat
  beat : Nat
  granule : Nat
  wantFull : Bool
  clr : Bool
  off : Nat
  n : Nat
  data : List Byte
  dst : Ref
  ty : Ty
  uni : Bool
  query : Option (List Byte)
  keep : List Nat := []
  deriving DecidableEq, Repr, Inhabited

/-- An arrival at a barrier object in deterministic mode (R292): the object's location, the fibre and where it stands, its ordering key and token,
whether it waits for its predicate, and the predicate once the phase's last arrival is in. -/
structure Arrival where
  phys : Nat
  fibre : Nat
  pc : BitVec 56
  op : Option Nat
  key : List Nat
  token : Word
  waits : Bool
  verdict : Option Bool
  deriving DecidableEq, Repr, Inhabited

/-- A registered continuation (R143, R294): the barrier object's offset and location, the position it takes, and what goes with that position.
`due`: its phase completed during a save (R146). -/
structure Cont where
  off : Nat
  phys : Nat
  fibre : Nat
  pos : Position
  tvec : BitVec 56
  nspawn : Nat
  queries : List (Nat × Nat)
  emits : List (Nat × Nat)
  due : Bool
  deriving DecidableEq, Repr, Inhabited

/-- A work query in flight (R297). -/
structure Query where
  fibre : Nat
  granule : Nat
  launch : Nat
  dist : Nat
  q : Nat
  lidx : Nat
  det : Bool
  deriving DecidableEq, Repr, Inhabited

/-- A drain whose rows have been read (R361 to R364): the step it was issued in, the convergence register, whether it ends the hold, the events
of its post-operator, the registers still to be written, the fibre's stores that carry its rows. -/
structure Drain where
  fibre : Nat
  step : Nat
  k : Nat
  rel : Bool
  events : BitVec 7
  regs : List (Ref × Nat × Word)
  stores : List Nat
  deriving DecidableEq, Repr, Inhabited

/-- A cluster: scratchpad and full-empty bits, constant cache, L1 mode, tile registers, accumulators, convergence registers, copy engine, rings, cluster TLB (chapters 5 to 7 and 10). Granules are physical, 0 to 65,535. -/
structure Cluster where
  spad : List (Nat × Byte)
  full : List Nat
  spadBad : List Nat
  spadCe : List Nat
  waiters : List FeWait
  const : List Line
  fused : Bool
  tiles : List (Nat × Byte)
  tileBad : List Nat
  tileCe : List Nat
  acc : List (Nat × Word)
  accBad : List Nat
  accCe : List Nat
  k : List (Nat × KReg)
  copies : List Copy
  fails : List (Nat × FailEntry)
  rings : List (Nat × Ring)
  arrivals : List Arrival
  lastCopy : Nat
  conts : List Cont
  queries : List Query
  drains : List Drain
  tlb : List TlbEntry
  saving : Bool
  deriving DecidableEq, Repr, Inhabited

/-! ## Tasks -/

/-- A launch descriptor (R403). -/
structure Desc where
  pc : Nat
  width : Nat
  stages : Nat
  slots : Nat
  kcnt : Nat
  prio : Nat
  fuse : Bool
  sbchk : Bool
  det : Bool
  dgm : Nat
  idem : Bool
  place : Nat
  z : Nat
  plim : Nat
  shlo : Nat
  shn : Nat
  bsbase : Nat
  gx : Nat
  gy : Nat
  gz : Nat
  ndist : Nat
  args : List Word
  dists : List (Nat × Nat × Nat)
  deriving DecidableEq, Repr, Inhabited

/-- A launch, a task or a bin group while it runs (R400, R405, R412). `die`: the die of the walker that owns the node; `node`: that node's number in
its table. `key`: the first values of the ordering key of its fibres (R418). `spawner`: the die in whose count a spawned task stands (R449).
`group`: the number of a bin's group. `regions`: first and last line of what its node's incoming edges list, to be invalidated where it is placed
(R227). -/
structure Launch where
  die : Nat
  node : Nat
  asid : Nat
  desc : Desc
  key : List Nat
  left : Nat
  spawner : Option Nat
  group : Option Nat
  last : Option Nat
  dist : List Nat
  td : List (Nat × Dword)
  placedOn : List Nat
  cores : List Nat
  regions : List (Nat × Nat)
  deriving DecidableEq, Repr, Inhabited

/-- How a cohort runs: first time, re-executed in isolation (R426), or its mismatch report (R427). -/
inductive RunMode where
  | first | again | report
  deriving DecidableEq, Repr, Inhabited

/-- A cohort placed on a cluster (R162, R414, R424). `pending`: the computed and the recorded digest of a mismatch not yet dealt with (R426, R427). -/
structure Cohort where
  launch : Nat
  index : Nat
  cx : Nat
  cy : Nat
  cz : Nat
  cluster : Nat
  win : Nat
  z : Nat
  kbase : List Nat
  slots : List Nat
  fds : List (Nat × Dword)
  tvec0 : BitVec 56
  mode : RunMode
  pending : Option (Dword × Dword)
  deriving DecidableEq, Repr, Inhabited

/-- An entry of a placement queue (R414): when it became ready, by the die's counter, and for a spawned task the VA of its descriptor, not yet
read (R449). -/
structure PlaceEntry where
  launch : Nat
  index : Nat
  readyAt : Nat
  again : Bool
  desc : Option Nat
  deriving DecidableEq, Repr, Inhabited

/-- A node under a walker, by its STATE and KIND (R397 to R400). `left`: launches, tasks and groups of it that have not retired; `err`: the error it
ends with in place of retirement (R449); `condw`: lines its CONDWs write (R450); `launch`: the launch of a launch or task node; `window`: the window
of a host-feed node. -/
structure Node where
  va : Nat
  asid : Nat
  kind : Nat
  state : Nat
  left : Nat
  err : Nat
  condw : List Nat
  launch : Option Nat
  window : Option Nat
  deriving DecidableEq, Repr, Inhabited

/-- One ring of a bin's record store (R408, R409): the next slot, the pending records before it, and since when the countdown runs. -/
structure BinRing where
  next : Nat
  pending : Nat
  since : Option Nat
  deriving DecidableEq, Repr, Inhabited

/-- A group of a bin that is formed and has not completed (R409, R412): its number, its ring, its first record in the store and its record count. -/
structure BinGroup where
  g : Nat
  ring : Nat
  first : Nat
  count : Nat
  launched : Bool
  deriving DecidableEq, Repr, Inhabited

/-- A record that a bin in deterministic mode holds: its ring and slot, and the emitter's ordering key and sequence (R411). -/
structure BinRecord where
  ring : Nat
  slot : Nat
  key : List Nat
  seq : Nat
  deriving DecidableEq, Repr, Inhabited

/-- A bin (R408 to R412). `desc`: the descriptor of its group fibres. -/
structure Bin where
  closed : Bool
  desc : Desc
  store : Nat
  cap : Nat
  rsize : Nat
  ord : Bool
  coal : Nat
  nkey : Nat
  timer : Nat
  rings : List BinRing
  groups : List BinGroup
  nextG : Nat
  emitted : List BinRecord
  td : List (Nat × Dword)
  regions : List (Nat × Nat)
  deriving DecidableEq, Repr, Inhabited

/-- A host-feed window (R22, R413): its node, the SEQ last accepted, the doorbell held, the doorbell whose batch is being read, with the bytes of the
records as the node reads them. -/
structure Feed where
  node : Nat
  last : Nat
  held : Option Dword
  reading : Option Dword
  ack : Nat
  desc : Nat
  closing : Bool
  bytes : List (Nat × Byte)
  snap : List (Nat × Byte)
  deriving DecidableEq, Repr, Inhabited

/-- Lines that an edge lists for a successor that is not yet ready (R227). -/
structure EdgeLines where
  asid : Nat
  va : Nat
  lo : Nat
  hi : Nat
  deriving DecidableEq, Repr, Inhabited

/-! ## Dies -/

/-- An entry of the quarantine table (R38). -/
structure Quar where
  v : Bool
  frame : BitVec 36
  deriving DecidableEq, Repr, Inhabited

/-- A Copy of a peer's line with its epoch (R90). -/
structure CopyLine where
  line : Nat
  epoch : BitVec 6
  bytes : List Byte
  bad : Bool
  deriving DecidableEq, Repr, Inhabited

/-- A write-through record (R94): its bytes by offset in the line, whether home keeps them in its L2, whether home has performed it, and whether it
has left the buffer. -/
structure WtRec where
  id : Nat
  line : Nat
  inc : BitVec 8
  bytes : List (Nat × Byte)
  cached : Bool
  atHome : Bool
  sent : Bool := false
  deriving DecidableEq, Repr, Inhabited

/-- A posted host write at a port (R24, R230). -/
structure HostWrite where
  id : Nat
  fibre : Option Nat
  pa : Nat
  data : List Byte
  deriving DecidableEq, Repr, Inhabited

/-- A waiter on a translation; `spill` is a fibre one of whose blocks could not be spilled (R84, R86, R155). -/
inductive XlWaiter where
  | fibre (f : Nat)
  | copy (cluster index : Nat)
  | ring (cluster ring : Nat)
  | spill (f : Nat)
  deriving DecidableEq, Repr, Inhabited

/-- A walk asked for (R80, R81), in the order of age: the access of the first requester, and every requester. `stage`: 0 it waits in its cluster, 1 it
holds an entry of the miss queue, 2 a walk engine has taken it. -/
structure Walk where
  cluster : Nat
  asid : Nat
  page : Nat
  va : Nat
  write : Bool
  fetch : Bool
  cls : Nat
  core : Nat
  waiters : List XlWaiter
  stage : Nat := 0
  deriving DecidableEq, Repr, Inhabited

/-- A replayable fault, waiting for a slot of the ring or recorded in it (R84 to R86). -/
structure PFault where
  asid : Nat
  page : Nat
  va : Nat
  kind : Nat
  cls : Nat
  cluster : Nat
  core : Nat
  source : Nat
  waiters : List XlWaiter
  count : Nat
  slot : Option Nat
  deriving DecidableEq, Repr, Inhabited

/-- A non-leaf entry in the walk cache (R80). -/
structure WcEntry where
  asid : Nat
  level : Nat
  index : Nat
  entry : Dword
  deriving DecidableEq, Repr, Inhabited

/-- An arm at home (R101, R104): `live` once the home slice has registered it; `inc`: the incarnation of the die that armed it (R105). -/
structure Arm where
  fibre : Nat
  line : Nat
  overflow : Bool
  live : Bool
  inc : BitVec 8 := 0
  deriving DecidableEq, Repr, Inhabited

/-- A record of the freeze queue; a fibre that is saved in an image goes by the image's number · 2^20 + its own (R438). -/
structure Freeze where
  c1 : BitVec 6
  c2 : BitVec 6
  clu : BitVec 6
  core : BitVec 2
  slot : BitVec 5
  stg : BitVec 2
  pc : BitVec 56
  fibre : Nat
  deriving DecidableEq, Repr, Inhabited

/-- A cluster image (R442): the free bytes that mark it in memory, its number, the cluster it was saved from, and what a restore puts back.
`ended`: fibres of it that system software has ended since (R438). -/
structure Image where
  tag : List Byte
  id : Nat
  home : Nat
  clu : Cluster
  cohorts : List (Nat × Cohort)
  slots : List (Nat × Slot)
  fibres : List (Nat × Fibre)
  ended : List Nat
  deriving DecidableEq, Repr, Inhabited

/-- The pre-emption request in progress (R439). -/
inductive PreReq where
  | none
  | save (cluster : Nat)
  | migrate (cluster fromSlot toSlot : Nat)
  | restore (cluster : Nat)
  deriving DecidableEq, Repr, Inhabited

/-- A submission not yet started (R396); `grun`: a fibre made it (R451). -/
structure Submission where
  node : Nat
  asid : Nat
  grun : Bool
  deriving DecidableEq, Repr, Inhabited

/-- A request in a die's tracker (R14, R15): a host read or atomic under its PCI Express tag, or an operation on a peer window under its queue pair and
packet number, with its port, remote address and bytes (R28, R298); and the die's incarnation when it was sent. `seq`: the access it belongs to. `write`: nothing but its acknowledgement comes back; `copy`: the copy it belongs to, by cluster and number. -/
structure Track where
  link : LinkKind
  tag : Nat
  fibre : Nat
  write : Bool
  port : BitVec 3
  qpn : BitVec 24
  addr : Nat
  data : List Byte
  copy : Option (Nat × Nat)
  seq : Nat := 0
  inc : BitVec 8 := 0
  deriving DecidableEq, Repr, Inhabited

/-- Registers of the die controller's views (R31 to R38, R82, R85, R87, R160, R396, R428, R438, R439, R463). -/
structure DieRegs where
  peer : Bool
  inc : BitVec 8
  pinc : BitVec 8
  step : BitVec 3
  ready : Bool
  halt : Bool
  hcause : BitVec 3
  hlink : Bool
  ownbusy : Bool
  stalecnt : Word
  lostcnt : Word
  feeddrop : Word
  ctxbase : BitVec 52
  irqstat : BitVec 8
  irqen : BitVec 8
  msixMask : BitVec 8
  msixPend : BitVec 8
  temp : BitVec 8
  warn : BitVec 8
  crit : BitVec 8
  hot : Bool
  invKind : BitVec 2
  invBoth : Bool
  invDone : Bool
  invAsid : BitVec 16
  invVa : BitVec 56
  fqbase : BitVec 52
  fqsize : BitVec 16
  fqtail : BitVec 16
  fqhead : BitVec 16
  fqerr : Word
  cecnt : Word
  uecnt : Word
  qovf : Word
  rescnt : Word
  twerrcnt : Word
  dgrexcnt : Word
  dgmmcnt : Word
  preClu : BitVec 6
  preScore : BitVec 2
  preSslot : BitVec 5
  preTcore : BitVec 2
  preBusy : Bool
  preForced : Bool
  preRefused : Bool
  prearea : BitVec 52
  feathw : BitVec 512
  featreq : BitVec 512
  featen : BitVec 512
  emubase : BitVec 52
  featerr : Word
  deriving DecidableEq, Repr, Inhabited

/-- A die. `since`: the step of its last reset, from which its counters count (R460). `sent` and `completion`: the interrupt messages its port has sent
and the bytes of the last read it has completed for the host (R21, R35). `msix`: the MSI-X table by 8-byte word (R35). `tagNext`, `psn`: the next PCI Express tag, and the next packet
number of each queue pair (R14). `boot`: it waits at boot step 3 for its peer, with the outcomes of its other steps (R39). `nextKey`: one-time keys used
(R40). `resetSince`: it has been reset since the bridge last trained (R240). -/
structure Die where
  since : Nat
  r : DieRegs
  sent : List Nat
  completion : List Byte
  msix : List (Nat × Dword)
  peerWin : List (Nat × PeerWin)
  rcBad : List (Nat × Nat)
  quar : List (Nat × Quar)
  tracker : List Track
  tagNext : Nat := 0
  psn : List (Nat × Nat) := []
  boot : Option BootOutcome := none
  nextKey : Nat
  cepoch : BitVec 6
  copies : List CopyLine
  wt : List WtRec
  wtNext : Nat
  arms : List Arm
  dirty : List (Nat × List Byte)
  wcache : List WcEntry
  walks : List Walk
  faults : List PFault
  port : List HostWrite
  portNext : Nat
  subs : List Submission
  edges : List EdgeLines
  nodes : List (Nat × Node)
  bins : List (Nat × Bin)
  feeds : List (Nat × Feed)
  queue : List PlaceEntry
  lastPlaced : Option Nat
  spawned : Nat
  freeze : List Freeze
  freezeWait : List Freeze
  req : PreReq
  resetSince : Bool
  deriving DecidableEq, Repr, Inhabited

/-! ## Why a step can stop, and the issue in progress -/

/-- Faults of the model. -/
inductive Fault where
  /-- Raised by `step` when the agenda names a device step for a die, cluster, core, lane or fibre that no package has; safe: no hardware does it. -/
  | noSuchPart
  deriving DecidableEq, Repr, Inhabited

/-- Refusals of the model. -/
inductive Refusal where
  /-- Raised by `exec` for an instruction that has no meaning yet; safe: nothing is claimed of it. -/
  | notModelled (mnemonic : String)
  deriving DecidableEq, Repr, Inhabited

/-- The issue an instruction executes for: fibre, run, address, operation index in a call, length in bytes, whether it ends its call, whether it found that it cannot start yet, and after how many beats it pauses. -/
structure Issue where
  fibre : Nat
  run : BeatMask
  pc : BitVec 56
  op : Option Nat
  len : Nat
  last : Bool
  held : Bool
  limit : Option Nat := none
  deriving DecidableEq, Repr, Inhabited

/-- The package. `epoch`: the cycles that had passed before its first step; `tick`: its steps so far. `mem` holds device DRAM as its home L2 gives it, and host memory, by physical address; an unlisted byte reads 0. -/
structure State where
  epoch : Nat
  tick : Nat
  free : Nat
  agenda : List Choice
  iss : Issue
  half : Bool
  mem : List Host.Cell
  memBad : List Nat
  memCe : List Nat
  dies : List (Nat × Die)
  clusters : List (Nat × Cluster)
  cores : List (Nat × Core)
  lanes : List (Nat × Lane)
  slots : List (Nat × Slot)
  fibres : List (Nat × Fibre)
  launches : List (Nat × Launch)
  cohorts : List (Nat × Cohort)
  images : List Image
  nextId : Nat
  deriving DecidableEq, Repr, Inhabited

/-! ## Reset -/

/-- The registers of a die at power-on (R31 to R38, R82, R85, R396, R428, R438, R439, R463). -/
def DieRegs.reset : DieRegs :=
  { peer := false, inc := 0, pinc := 0, step := 0, ready := false, halt := false, hcause := 0, hlink := false, ownbusy := false,
    stalecnt := 0, lostcnt := 0, feeddrop := 0, ctxbase := 0, irqstat := 0, irqen := 0, msixMask := 0xFF, msixPend := 0, temp := 0, warn := 95,
    crit := 105, hot := false, invKind := 0, invBoth := false, invDone := true, invAsid := 0, invVa := 0, fqbase := 0, fqsize := 0,
    fqtail := 0, fqhead := 0, fqerr := 0, cecnt := 0, uecnt := 0, qovf := 0, rescnt := 0, twerrcnt := 0, dgrexcnt := 0, dgmmcnt := 0,
    preClu := 0, preScore := 0, preSslot := 0, preTcore := 0, preBusy := false, preForced := false, preRefused := false, prearea := 0,
    feathw := 0, featreq := 0, featen := 1, emubase := 0, featerr := 0 }

/-- A die at power-on: nothing cached, nothing queued, no key used (R40). -/
def Die.reset : Die :=
  { since := 0, r := .reset, sent := [], completion := [], msix := [], peerWin := [], rcBad := [], quar := [], tracker := [], nextKey := 0,
    cepoch := 0, copies := [], wt := [], wtNext := 1, arms := [], dirty := [], wcache := [], walks := [], faults := [], port := [], portNext := 0,
    subs := [], edges := [], nodes := [], bins := [], feeds := [], queue := [], lastPlaced := none, spawned := 0, freeze := [],
    freezeWait := [], req := .none, resetSince := true }

/-- A cluster at power-on. -/
def Cluster.reset : Cluster :=
  { spad := [], full := [], spadBad := [], spadCe := [], waiters := [], const := [], fused := false, tiles := [], tileBad := [], tileCe := [],
    acc := [], accBad := [], accCe := [], k := [], copies := [], fails := [], rings := [], arrivals := [], lastCopy := 0, conts := [], queries := [], drains := [], tlb := [],
    saving := false }

/-- A core at power-on. -/
def Core.reset : Core := { l1 := [], l1ev := 0, icache := [], tlb := [], cstore := [] }

/-- A slot with no phase open (R178). -/
def Slot.reset : Slot := { shared := [], bars := [], bad := [] }

/-- A lane that serves no fibre. -/
def Lane.reset : Lane := { holder := none, since := 0, expired := false }

/-- No issue in progress. -/
def Issue.idle : Issue := { fibre := 0, run := 0, pc := 0, op := Option.none, len := 0, last := true, held := false }

/-- The package at power-on: both dies present and unbooted (R14, R33), every memory byte unlisted, no fibre anywhere. -/
def State.reset : State :=
  { epoch := 0, tick := 0, free := 0, agenda := [], iss := .idle, half := false, mem := [], memBad := [], memCe := [],
    dies := [(0, .reset), (1, .reset)], clusters := [], cores := [], lanes := [], slots := [], fibres := [], launches := [], cohorts := [],
    images := [], nextId := 1 }

end Sys2Proof.Machine
end

