-- ==== Sys2Proof/Machine/Access.lean ====
section
/-! DEFINITION. Reading and replacing the parts of the state, and the numbers of parts within parts (R4, R162). -/

namespace Sys2Proof.Machine

/-! ## Numbers of parts -/

/-- The die of a cluster (R4). -/
def dieOfCluster (c : Nat) : Nat := c / 48
/-- The cluster of a core (R4). -/
def clusterOfCore (c : Nat) : Nat := c / 4
/-- The core of a slot. -/
def coreOfSlot (k : Nat) : Nat := k / 32
/-- The slot of a fibre. -/
def slotOfFibre (f : Nat) : Nat := f / 4
/-- The core of a fibre. -/
def coreOfFibre (f : Nat) : Nat := f / 128
/-- The cluster of a fibre. -/
def clusterOfFibre (f : Nat) : Nat := f / 512
/-- The die of a fibre. -/
def dieOfFibre (f : Nat) : Nat := f / (512 * 48)
/-- The lane that serves a fibre: slot n is served by lane n mod 16 (R162). -/
def laneOfFibre (f : Nat) : Nat := coreOfFibre f * 16 + slotOfFibre f % 16
/-- The other die. -/
def otherDie (d : Nat) : Nat := if d = 0 then 1 else 0
/-- The cores of a cluster. -/
def coresOf (c : Nat) : List Nat := [4 * c, 4 * c + 1, 4 * c + 2, 4 * c + 3]
/-- The clusters of a die. -/
def clustersOf (d : Nat) : List Nat := (upTo 48).map (· + 48 * d)

/-! ## Parts of the state -/

/-- A die. -/
def State.die (s : State) (d : Nat) : Die := tget .reset s.dies d
/-- The state with a die replaced. -/
def State.setDie (s : State) (d : Nat) (x : Die) : State := { s with dies := tput s.dies d x }
/-- A die changed by a function. -/
def State.modDie (s : State) (d : Nat) (f : Die → Die) : State := s.setDie d (f (s.die d))
/-- A die's registers changed by a function. -/
def State.modDieRegs (s : State) (d : Nat) (f : DieRegs → DieRegs) : State := s.modDie d fun x => { x with r := f x.r }
/-- Whether a die takes part in nothing: it has halted, or it is fused off (R3, R18, R33, R39). -/
def State.off (s : State) (die : Nat) : Bool := (s.die die).r.halt || (s.half && die == 1)
/-- Whether a die takes no request from outside: it is off, or an ownership change holds it in reset (R34, R79). -/
def State.shut (s : State) (die : Nat) : Bool := s.off die || (s.die die).r.ownbusy
/-- A change made through a die's registers; a halted die presents only DIEINFO and DCSTAT (R33, R39). -/
def State.register (s : State) (die : Nat) (g : Die → Die) : State := if s.shut die then s else s.modDie die g

/-- A cluster. -/
def State.clu (s : State) (c : Nat) : Cluster := tget .reset s.clusters c
/-- The state with a cluster replaced. -/
def State.setClu (s : State) (c : Nat) (x : Cluster) : State := { s with clusters := tput s.clusters c x }
/-- A cluster changed by a function. -/
def State.modClu (s : State) (c : Nat) (f : Cluster → Cluster) : State := s.setClu c (f (s.clu c))
/-- A core. -/
def State.core (s : State) (c : Nat) : Core := tget .reset s.cores c
/-- The state with a core replaced. -/
def State.setCore (s : State) (c : Nat) (x : Core) : State := { s with cores := tput s.cores c x }
/-- A core changed by a function. -/
def State.modCore (s : State) (c : Nat) (f : Core → Core) : State := s.setCore c (f (s.core c))
/-- A lane. -/
def State.lane (s : State) (l : Nat) : Lane := tget .reset s.lanes l
/-- The state with a lane replaced. -/
def State.setLane (s : State) (l : Nat) (x : Lane) : State := { s with lanes := tput s.lanes l x }
/-- A slot. -/
def State.slot (s : State) (k : Nat) : Slot := tget .reset s.slots k
/-- The state with a slot replaced. -/
def State.setSlot (s : State) (k : Nat) (x : Slot) : State := { s with slots := tput s.slots k x }
/-- A resident fibre. -/
def State.fib? (s : State) (f : Nat) : Option Fibre := tfind s.fibres f
/-- The state with a fibre replaced. -/
def State.setFib (s : State) (f : Nat) (x : Fibre) : State := { s with fibres := tput s.fibres f x }
/-- A fibre changed by a function; nothing happens where none is resident. -/
def State.modFib (s : State) (f : Nat) (g : Fibre → Fibre) : State :=
  match s.fib? f with
  | some x => s.setFib f (g x)
  | none => s
/-- The state without a fibre. -/
def State.delFib (s : State) (f : Nat) : State := { s with fibres := tdel s.fibres f }
/-- A launch, if it still runs. -/
def State.launch? (s : State) (l : Nat) : Option Launch := tfind s.launches l
/-- A launch changed by a function. -/
def State.modLaunch (s : State) (l : Nat) (g : Launch → Launch) : State :=
  match s.launch? l with
  | some x => { s with launches := tput s.launches l (g x) }
  | none => s
/-- A cohort, if it is placed. -/
def State.cohort? (s : State) (c : Nat) : Option Cohort := tfind s.cohorts c
/-- A cohort changed by a function. -/
def State.modCohort (s : State) (c : Nat) (g : Cohort → Cohort) : State :=
  match s.cohort? c with
  | some x => { s with cohorts := tput s.cohorts c (g x) }
  | none => s

/-- The launch a fibre belongs to; a fibre of no launch runs as one of die 0's with no descriptor. -/
def State.launchOf (s : State) (x : Fibre) : Launch := (s.launch? x.pos.launch).getD default

/-- The address-space identifier every access of a fibre translates under (R79). -/
def State.asidOf (s : State) (x : Fibre) : Nat := (s.launchOf x).asid

/-- A free bit, and the state that has drawn it. -/
def State.freeBit (s : State) : Bool × State := (Config.freeBit s.free, { s with free := s.free + 1 })

/-- A free word, and the state that has drawn it. -/
def State.freeWord (s : State) : Dword × State := (Config.freeWord s.free, { s with free := s.free + 1 })

/-- Cycles that have passed on a counter after `n` steps (R460): a sum of amounts that no rule fixes. -/
def cyclesAt (k : Nat) : Nat → Nat
  | 0 => 0
  | n + 1 => cyclesAt k n + Config.elapsed k n

/-- The cycles of a counter by now: of a core by its number, of a die by 384 and its number. -/
def State.now (s : State) (k : Nat) : Nat := s.epoch + cyclesAt k s.tick

/-- The cycles of a fibre's core by now (R103, R459). -/
def State.nowOf (s : State) (f : Nat) : Nat := s.now (coreOfFibre f)

/-- The cycles of a die by now. -/
def State.dieNow (s : State) (d : Nat) : Nat := s.now (384 + d)

/-- What a counter of a die reads: it counts from 0 at the die's reset (R460). -/
def State.clock (s : State) (d k : Nat) : Nat := cyclesAt k s.tick - cyclesAt k (s.die d).since

/-! ## Saturating counters and interrupts -/

/-- A 32-bit counter that saturates (R32). -/
def satInc (x : Word) : Word := if x = 0xFFFFFFFF then x else x + 1

/-- A vector's message goes out; that of a masked vector is left pending (R35). -/
def Die.message (d : Die) (bit : Nat) : Die :=
  if d.r.msixMask.getLsbD bit then { d with r := { d.r with msixPend := d.r.msixPend ||| BitVec.ofNat 8 (2 ^ bit) } } else { d with sent := d.sent ++ [bit] }

/-- An interrupt event (R35): its bit is set, and a message goes out when the bit was 0 and IRQEN is set. -/
def Die.raise (d : Die) (bit : Nat) : Die :=
  let e := { d with r := { d.r with irqstat := d.r.irqstat ||| BitVec.ofNat 8 (2 ^ bit) } }
  if !d.r.irqstat.getLsbD bit && d.r.irqen.getLsbD bit then e.message bit else e

/-- IRQSTAT.PEERLOSS (R17, R35). -/
def irqPeerloss : Nat := 0
/-- IRQSTAT.THERMW (R36). -/
def irqThermw : Nat := 1
/-- IRQSTAT.UENOTE (R87). -/
def irqUenote : Nat := 2
/-- IRQSTAT.QFULL (R88). -/
def irqQfull : Nat := 3
/-- IRQSTAT.NODEERR (R402). -/
def irqNodeerr : Nat := 4
/-- IRQSTAT.FREEZE (R438). -/
def irqFreeze : Nat := 5
/-- IRQSTAT.FAULTQ (R85). -/
def irqFaultq : Nat := 6
/-- IRQSTAT.HOSTLOSS (R99). -/
def irqHostloss : Nat := 7

/-- A quarantined frame of its home die (R88). -/
def Die.quarantined (d : Die) (pa : Nat) : Bool := d.quar.any fun e => e.2.v && e.2.frame.toNat == pa / 65536

/-- The lowest free entry of the quarantine table (R38). -/
def Die.freeQuar (d : Die) : Option Nat := (upTo 64).find? fun i => !(tget { v := false, frame := 0 } d.quar i).v

/-- Quarantine of a frame at its home die (R88): the lowest free entry, or QOVF and the interrupt when the table is full; a frame already held is not entered twice. -/
def Die.quarantine (d : Die) (pa : Nat) : Die :=
  if d.quarantined pa then d
  else match d.freeQuar with
    | some i => { d with quar := tput d.quar i { v := true, frame := BitVec.ofNat 36 (pa / 65536) } }
    | none => { d with r := { d.r with qovf := satInc d.r.qovf } }.raise irqQfull

/-- Adds one to UECNT (R87). -/
def Die.countUe (d : Die) : Die := { d with r := { d.r with uecnt := satInc d.r.uecnt } }

/-- Adds one to CECNT (R87). -/
def Die.countCe (d : Die) : Die := { d with r := { d.r with cecnt := satInc d.r.cecnt } }

/-- Adds one to RESCNT for each of `n` mismatches (R160). -/
def Die.countRes (d : Die) (n : Nat) : Die := { d with r := { d.r with rescnt := (upTo n).foldl (fun c _ => satInc c) d.r.rescnt } }

/-- Adds one to LOSTCNT (R32). -/
def Die.countLost (d : Die) : Die := { d with r := { d.r with lostcnt := satInc d.r.lostcnt } }

/-- A host write is lost (R24, R99): counted, and the interrupt raised. -/
def Die.loseHostWrite (d : Die) : Die := d.countLost.raise irqHostloss

/-- A retired store to the peer is lost (R17): counted, and the interrupt raised. -/
def Die.losePeerStore (d : Die) : Die := d.countLost.raise irqPeerloss

/-- An uncorrectable error at a frame's home die (R87): counted there and quarantined there; with no requester the die controller is notified too. -/
def Die.uncorrectable (d : Die) (pa : Nat) (requester : Bool) : Die :=
  let d := (d.countUe).quarantine pa
  if requester then d else d.raise irqUenote

end Sys2Proof.Machine
end

