-- ==== Sys2Proof/Machine/Memory.lean ====
section
/-! DEFINITION. Physical memory: bytes at home, uncorrectable bytes, monitors, Copies of peer lines, the write-through buffer and the L1 (R71, R87 to R97, R101, R102, R119, R120). -/

namespace Sys2Proof.Machine

/-! ## Addresses -/

/-- Whether an address is host memory (R71). -/
def isHost (pa : Nat) : Bool := 2 ^ 51 ≤ pa
/-- Whether an address is device DRAM (R71). -/
def isDram (pa : Nat) : Bool := pa < 2 ^ 39
/-- The die whose DRAM holds an address: bit 38 (R71). -/
def homeOf (pa : Nat) : Nat := pa / 2 ^ 38 % 2
/-- The 128-byte line of an address. -/
def lineOf (pa : Nat) : Nat := pa / 128
/-- The L2 slice of a line (R89). -/
def sliceOf (line : Nat) : Nat :=
  (line % 64) ^^^ (line / 2 ^ 6 % 64) ^^^ (line / 2 ^ 12 % 64) ^^^ (line / 2 ^ 18 % 64) ^^^ (line / 2 ^ 24 % 64)

/-! ## Memory as a table of bytes -/

/-- What an unlisted byte of memory reads as: an ownership change leaves device DRAM zero (R79). -/
def memDefault : Byte := 0

/-- One byte of memory. -/
def memByte (m : List Host.Cell) (pa : Nat) : Byte := tget memDefault m pa

/-- `n` bytes of memory. -/
def memBytes (m : List Host.Cell) (pa : Nat) : Nat → List Byte
  | 0 => []
  | n + 1 => memByte m pa :: memBytes m (pa + 1) n

/-- Memory with one byte written. -/
def memSet (m : List Host.Cell) (pa : Nat) (x : Byte) : List Host.Cell := tset memDefault m pa x

/-- Memory with bytes written from an address. -/
def memWrite (m : List Host.Cell) (pa : Nat) : List Byte → List Host.Cell
  | [] => m
  | b :: t => memWrite (memSet m pa b) (pa + 1) t

/-- The canonical form of memory: addresses strictly rising, no entry equal to what an unlisted address reads as. -/
def Memory.wf (m : List Host.Cell) : Bool := twf memDefault m

/-- `n` bytes of a table of bytes. -/
def tblBytes (m : List (Nat × Byte)) (a : Nat) : Nat → List Byte
  | 0 => []
  | n + 1 => tget 0 m a :: tblBytes m (a + 1) n

/-- A table of bytes with bytes written. -/
def tblWrite (m : List (Nat × Byte)) (a : Nat) : List Byte → List (Nat × Byte)
  | [] => m
  | b :: t => tblWrite (tset 0 m a b) (a + 1) t

/-- Bytes of a list, in place of those from an offset on. -/
def patch (bytes : List Byte) (off : Nat) : List Byte → List Byte
  | [] => bytes
  | b :: t => patch (bytes.set off b) (off + 1) t

/-- Whether any of `n` bytes from an address stands in a list of addresses. -/
def anyIn (l : List Nat) (a n : Nat) : Bool := l.any fun x => a ≤ x && x < a + n

/-- A list of addresses without the `n` from an address on. -/
def without (l : List Nat) (a n : Nat) : List Nat := l.filter fun x => !(a ≤ x && x < a + n)

/-! ## Monitors (R101, R102) -/

/-- Latches an event for every fibre that armed a line, and for every overflow waiter of its slice (R102, R104); one for an earlier incarnation of its
die is dropped there and counted (R15, R105). -/
def State.latch (s : State) (home line : Nat) : State :=
  (s.die home).arms.foldl (fun s a =>
    if a.live && (a.line == line || (a.overflow && sliceOf a.line == sliceOf line)) then
      if a.inc == (s.die (dieOfFibre a.fibre)).r.inc then s.modFib a.fibre fun x => { x with monEvent := true }
      else s.modDieRegs (dieOfFibre a.fibre) fun r => { r with stalecnt := satInc r.stalecnt }
    else s) s

/-- Latches for every line that a range touches. -/
def State.latchRange (s : State) (home pa n : Nat) : State :=
  if n = 0 then s
  else (upTo (lineOf (pa + n - 1) - lineOf pa + 1)).foldl (fun s i => s.latch home (lineOf pa + i)) s

/-! ## Access at home (R89, R90, R95, R212) -/

/-- Whether two lines lie in one set of the L2 (R89). -/
def sameSet (a b : Nat) : Bool := sliceOf a == sliceOf b && a / 64 % 1024 == b / 64 % 1024

/-- Room for one more line in a set of a die's L2, of 16 ways: where Home lines that differ from DRAM and Copies fill it, a Home line is written back
(R89, R90, R278). -/
def Die.makeRoom (d : Die) (line : Nat) : Die :=
  let mine := d.dirty.filter fun e => sameSet e.1 line
  if mine.length + (d.copies.filter fun c => sameSet c.line line).length < 16 then d else { d with dirty := tdel d.dirty ((mine.map (·.1)).headD line) }

/-- Keeps what DRAM holds of a line that its L2 Home line is about to differ from (R90, R278). -/
def State.keepDram (s : State) (line : Nat) : State :=
  s.modDie (homeOf (line * 128)) fun d =>
    if (tfind d.dirty line).isSome then d
    else let d := d.makeRoom line; { d with dirty := tput d.dirty line (memBytes s.mem (line * 128) 128) }

/-- A die installs a Copy under its epoch: of a set's lines at most four are Copies; where a fifth comes, the one installed longest ago leaves (R90,
R92). -/
def Die.install (d : Die) (line : Nat) (bytes : List Byte) : Die :=
  let d := { d with copies := keepFirst (fun c => sameSet c.line line) 3 (d.copies.filter (·.line != line)) }
  let d := d.makeRoom line
  { d with copies := { line := line, epoch := d.cepoch, bytes := bytes, bad := false } :: d.copies }

/-- A write performed at home: the bytes, their errors gone, monitors latched (R95, R102). An uncached write reaches DRAM itself; any other leaves the L2 line different from DRAM. -/
def State.homeWrite (s : State) (pa : Nat) (data : List Byte) (cached : Bool) : State :=
  let n := data.length
  if isHost pa then { s with mem := memWrite s.mem pa data, memBad := without s.memBad pa n }
  else
    let s := if cached then s.keepDram (lineOf pa) else s
    let s := if cached && lineOf (pa + n - 1) != lineOf pa then s.keepDram (lineOf (pa + n - 1)) else s
    let s := { s with mem := memWrite s.mem pa data, memBad := without s.memBad pa n, memCe := without s.memCe pa n }
    s.latchRange (homeOf pa) pa n

/-- Whether a line that bytes of device memory lie in holds an uncorrectable error (R87): home checks whole lines. -/
def State.badLines (s : State) (pa n : Nat) : Bool := n != 0 && anyIn s.memBad (lineOf pa * 128) (128 * (lineOf (pa + n - 1) + 1 - lineOf pa))

/-- Enters a frame into quarantine at its home die; the peer's Copies of its lines are invalidated (R88). -/
def State.uncorrectable (s : State) (pa : Nat) (requester : Bool) : State :=
  let s := s.modDie (homeOf pa) fun d => d.uncorrectable pa requester
  s.modDie (otherDie (homeOf pa)) fun d => { d with copies := d.copies.filter fun c => c.line * 128 / 65536 != pa / 65536 }

/-- Whether a read of host memory completes with EP (R23). -/
def State.poisoned (s : State) (pa n : Nat) : Bool := anyIn s.memBad pa n

/-- A read at home by an engine, a walk or a hint meets an error or a quarantined frame: the state with the error counted and the frame
quarantined, or none where the bytes are sound; a host read that completes with EP is an error too (R23, R87, R88). -/
def State.homeError (s : State) (pa n : Nat) (requester : Bool) : Option State :=
  if isHost pa then (if s.poisoned pa n then some s else none)
  else if (s.die (homeOf pa)).quarantined pa || (s.die (homeOf (pa + n - 1))).quarantined (pa + n - 1) then some s
  else if s.badLines pa n then some (s.uncorrectable pa requester)
  else none

/-- A demand load, an atomic, a fetch or a fill of a fibre meets an error or a quarantined frame at home: the error is counted and the frame is
not quarantined; a host read that completes with EP is an error too (R23, R87, R88). -/
def State.demandError (s : State) (pa n : Nat) : Option State :=
  if isHost pa then (if s.poisoned pa n then some s else none)
  else if (s.die (homeOf pa)).quarantined pa || (s.die (homeOf (pa + n - 1))).quarantined (pa + n - 1) then some s
  else if s.badLines pa n then some (s.modDie (homeOf pa) Die.countUe)
  else none

/-- Corrects the single-bit errors of a range and counts them (R87). -/
def State.homeCorrect (s : State) (pa n : Nat) : State :=
  if isHost pa then s
  else
    let hit := s.memCe.filter fun x => pa ≤ x && x < pa + n
    if hit.isEmpty then s
    else hit.foldl (fun s _ => s.modDie (homeOf pa) Die.countCe) { s with memCe := without s.memCe pa n }

/-! ## A die's view (R90 to R97) -/

/-- Bytes with a die's pending write-through bytes laid over them (R97). Once home has performed a record its bytes stand in home's data, so they are no
longer laid over what home returns while the acknowledgement is on its way: the spec does not say (assumption 124). -/
def Die.overlay (d : Die) (pa : Nat) (bytes : List Byte) : List Byte :=
  d.wt.foldl (fun bytes r =>
    if r.atHome then bytes
    else r.bytes.foldl (fun bytes e =>
      let a := r.line * 128 + e.1
      if pa ≤ a && a < pa + bytes.length then bytes.set (a - pa) e.2 else bytes) bytes) bytes

/-- The current Copy of a line, if the die holds one (R92, R96). -/
def Die.copyOf (d : Die) (line : Nat) : Option CopyLine := d.copies.find? fun c => c.line == line && c.epoch == d.cepoch && !c.bad

/-- A line as a die reads it from home, its pending bytes merged (R97). -/
def State.lineView (s : State) (die line : Nat) : List Byte := (s.die die).overlay (line * 128) (memBytes s.mem (line * 128) 128)

/-- The line a die reads under a page's cacheability: a current Copy, or the home line, installed as a Copy under CA 0b00 (R92, R77); home corrects
single-bit errors of the line and counts them (R87). -/
def State.fetchLine (s : State) (die line : Nat) (ca : BitVec 2) : List Byte × State :=
  let pa := line * 128
  if isHost pa || homeOf pa == die then (memBytes s.mem pa 128, s.homeCorrect pa 128)
  else if ca == 0 then
    match (s.die die).copyOf line with
    | some c => (c.bytes, s)
    | none =>
      let bytes := s.lineView die line
      (bytes, (s.homeCorrect pa 128).modDie die fun d => d.install line bytes)
  else (s.lineView die line, s.homeCorrect pa 128)

/-- `n` bytes as a die reads them, line by line. -/
def State.dieRead (s : State) (die pa : Nat) (ca : BitVec 2) : Nat → List Byte × State
  | 0 => ([], s)
  | n + 1 =>
    let (l, s) := s.fetchLine die (lineOf pa) ca
    let (t, s) := s.dieRead die (pa + 1) ca n
    (nth 0 l (pa % 128) :: t, s)

/-- A Copy found uncorrectable is discarded and counted by its own die (R87). -/
def State.dropBadCopies (s : State) (die line : Nat) : State :=
  s.modDie die fun d =>
    if d.copies.any fun c => c.line == line && c.bad then
      { d with copies := d.copies.filter fun c => !(c.line == line && c.bad) }.countUe
    else d

/-- Bytes of one line that a die writes to a peer-homed line: its own Copy is updated and the bytes enter the write-through buffer, merged into a record
that has not been sent and whose number is at least `after` (R94). -/
def Die.writeThrough (d : Die) (line : Nat) (bytes : List (Nat × Byte)) (cached : Bool) (after : Nat) : Die :=
  let copies := d.copies.map fun c =>
    if c.line == line then { c with bytes := bytes.foldl (fun l e => l.set e.1 e.2) c.bytes } else c
  match posOf (fun r => r.line == line && !r.sent && !r.atHome && after ≤ r.id) d.wt with
  | some i =>
    match d.wt[i]? with
    | some r => { d with copies := copies, wt := d.wt.set i { r with bytes := bytes.foldl (fun l e => tput l e.1 e.2) r.bytes } }
    | none => d
  | none =>
    { d with
      copies := copies
      wt := d.wt ++ [{ id := d.wtNext, line := line, inc := d.r.inc, bytes := bytes.foldl (fun l e => tput l e.1 e.2) [], cached := cached, atHome := false }]
      wtNext := d.wtNext + 1 }

/-- The bytes of a write by line: pairs of line and (offset, byte). -/
def byLine (pa : Nat) (data : List Byte) : List (Nat × List (Nat × Byte)) :=
  let cells := (upTo data.length).map fun i => (pa + i, nth 0 data i)
  (upTo (lineOf (pa + data.length - 1) - lineOf pa + 1)).map fun i =>
    (lineOf pa + i, (cells.filter fun e => lineOf e.1 == lineOf pa + i).map fun e => (e.1 % 128, e.2))

/-- The numbers of the atomics and reducing writes to a line that a die has sent and home has not performed (R95). -/
def State.remoteRmws (s : State) (die line : Nat) : List Nat :=
  s.fibres.flatMap fun e => if dieOfFibre e.1 != die then [] else
    (e.2.out.filter fun a =>
      a.reply.isNone && (match a.kind with | .atomic _ _ | .red _ _ | .rstg _ _ => true | _ => false)
        && a.segs.any fun g => !g.host && g.home != die && lineOf g.pa == line).map (·.seq)

/-- A write by a die to device memory: at home if homed here, else through the write-through buffer (R94, R212). The record numbers the write waits for follow. -/
def State.dieWrite (s : State) (die pa : Nat) (data : List Byte) (ca : BitVec 2) : List Nat × State :=
  if data.isEmpty then ([], s)
  else if isHost pa || homeOf pa == die then ([], s.homeWrite pa data (ca != 2))
  else
    let lines := byLine pa data
    let s := lines.foldl (fun s e =>
      let after := (s.remoteRmws die e.1).foldl (fun m x => max m (x + 1)) 0
      s.modDie die fun d => d.writeThrough e.1 e.2 (ca != 2) after) s
    (((s.die die).wt.filter fun r => !r.atHome && lines.any fun e => e.1 == r.line).map (·.id), s)

/-- A die discards its Copy of a line (R100, R101, R226). -/
def State.dropCopy (s : State) (die line : Nat) : State := s.modDie die fun d => { d with copies := d.copies.filter (·.line != line) }

/-- An increment of a die's copy epoch; a wrap invalidates every Copy at once (R96). -/
def Die.newEpoch (d : Die) : Die :=
  if d.cepoch = 63 then { d with cepoch := 0, copies := [] } else { d with cepoch := d.cepoch + 1 }

/-! ## L1 and constant cache (R119 to R121, R132) -/

/-- The core whose array holds a line: its own, or in fused mode that of PA[8:7] (R123). -/
def State.l1Home (s : State) (core line : Nat) : Nat :=
  if (s.clu (clusterOfCore core)).fused then 4 * clusterOfCore core + line % 4 else core

/-- An L1 invalidation event of a core empties its L1; in fused mode it is an event of every core of the cluster (R120, R121, R123). -/
def State.l1Event (s : State) (core : Nat) : State :=
  let cs := if (s.clu (clusterOfCore core)).fused then coresOf (clusterOfCore core) else [core]
  cs.foldl (fun s c => s.modCore c fun x => { x with l1 := [], l1ev := x.l1ev + 1 }) s

/-- The set of a core's L1 that a line lies in: 128 sets of 16 ways (R119); of a fused L1 each array holds the lines of its own PA[8:7] (R123). -/
def l1Set (fused : Bool) (line : Nat) : Nat := (if fused then line / 4 else line) % 128

/-- A line enters a core's L1; of a full set the line installed longest ago leaves (R119). -/
def Core.installL1 (c : Core) (fused : Bool) (line : Nat) (bytes : List Byte) : Core :=
  { c with l1 := { line := line, bytes := bytes } :: keepFirst (fun l => l1Set fused l.line == l1Set fused line) 15 c.l1 }

/-- How many invalidation events the arrays of a core's cluster have had. -/
def State.l1Events (s : State) (core : Nat) : List Nat := (coresOf (clusterOfCore core)).map fun c => (s.core c).l1ev

/-- Removes a line from a core's L1. -/
def State.dropL1 (s : State) (core line : Nat) : State := s.modCore core fun x => { x with l1 := x.l1.filter (·.line != line) }

/-- A line of a core's L1 that an access meets with a parity error is a miss, and counted (R128). -/
def State.checkL1 (s : State) (core line : Nat) : State :=
  if (s.core core).l1.any fun l => l.line == line && l.bad then (s.dropL1 core line).modDie (dieOfCluster (clusterOfCore core)) Die.countCe else s

/-- A line of a constant cache that an access meets with a parity error is a miss, and counted (R128). -/
def State.checkConst (s : State) (cluster line : Nat) : State :=
  if (s.clu cluster).const.any fun l => l.line == line && l.bad then
    (s.modClu cluster fun c => { c with const := c.const.filter (·.line != line) }).modDie (dieOfCluster cluster) Die.countCe
  else s

/-- A plain load's bytes: a hit in the L1, else the line as the die reads it, installed unless an invalidation event came since the load was issued (R119, R121). -/
def State.l1Read (s : State) (core pa n : Nat) (ca : BitVec 2) (ev : List Nat) : List Byte × State :=
  let line := lineOf pa
  let h := s.l1Home core line
  let s := s.checkL1 h line
  match (s.core h).l1.find? (·.line == line) with
  | some l => ((upTo n).map fun i => nth 0 l.bytes (pa % 128 + i), s)
  | none =>
    let (l, s) := s.fetchLine (dieOfCluster (clusterOfCore core)) line ca
    let s := if (s.core h).l1ev == nth 0 ev (h % 4) then s.modCore h fun x => x.installL1 (s.clu (clusterOfCore core)).fused line l else s
    ((upTo n).map fun i => nth 0 l (pa % 128 + i), s)

/-- A constant-cache read (R132): a hit, else the line as a plain load would read it, installed; of 512 lines the one installed longest ago leaves. -/
def State.constRead (s : State) (cluster pa n : Nat) (ca : BitVec 2) : List Byte × State :=
  let line := lineOf pa
  let s := s.checkConst cluster line
  match (s.clu cluster).const.find? (·.line == line) with
  | some l => ((upTo n).map fun i => nth 0 l.bytes (pa % 128 + i), s)
  | none =>
    let (l, s) := s.fetchLine (dieOfCluster cluster) line ca
    ((upTo n).map fun i => nth 0 l (pa % 128 + i), s.modClu cluster fun x => { x with const := { line := line, bytes := l } :: x.const.take 511 })

/-- Removes the lines of a range from every L1 and constant cache of a cluster (R227). -/
def State.edgeInvalidate (s : State) (cluster lo hi : Nat) : State :=
  let keep := fun (l : Line) => !(lo ≤ l.line && l.line ≤ hi)
  let s := (coresOf cluster).foldl (fun s c => s.modCore c fun x => { x with l1 := x.l1.filter keep }) s
  s.modClu cluster fun x => { x with const := x.const.filter keep }

end Sys2Proof.Machine
end

