-- ==== Sys2Proof/Machine/Translate.lean ====
section
/-! DEFINITION. Translation: contexts, the four-level walk, the TLBs, replayable faults and their queue (R73 to R88). -/

namespace Sys2Proof.Machine

/-! ## Reading page tables (R78, R87) -/

/-- How a walk ends. -/
inductive WalkEnd where
  | leaf (base size : Nat) (e : Dword)
  | invalid
  | bad
  | noContext
  | ue (pa : Nat)
  | absent
  deriving DecidableEq, Repr

/-- Whether a die can reach a home: itself, or the peer while it is present (R13, R17). -/
def State.reaches (s : State) (die home : Nat) : Bool := die == home || (s.die die).r.peer

/-- A 64-bit entry of a table in device DRAM, read at home; an error stops the walk (R78, R87, R88). -/
def State.readEntry (s : State) (die pa : Nat) : Except WalkEnd Dword :=
  if !s.reaches die (homeOf pa) then .error .absent
  else if (s.homeError pa 8 true).isSome then .error (.ue pa)
  else .ok (BitVec.ofNat 64 (leNat (memBytes s.mem pa 8)))

/-- The levels of a context: lowest index bit and number of index bits (R73). -/
def levels : List (Nat × Nat) := [(38, 18), (29, 9), (21, 8), (16, 5)]

/-- A leaf entry that keeps every rule of R74, R77 and R71, for a page of `2 ^ shift` bytes. -/
def leafOk (e : Dword) (shift : Nat) : Bool :=
  let frame := (e.extractLsb' 16 36).toNat * 65536
  let ca := e.extractLsb' 5 2
  !e.getLsbD 4 && !e.getLsbD 15 && e.extractLsb' 52 12 == 0 && ca != 3 && frame % 2 ^ shift == 0
    && (if isHost frame then ca == 2 else isDram frame && e.getLsbD 7 == (homeOf frame == 1))

/-- A non-leaf entry that keeps R75, for a next table of `2 ^ align` bytes. -/
def tableOk (e : Dword) (align : Nat) : Bool :=
  let pa := (e.extractLsb' 8 44).toNat * 256
  e.extractLsb' 2 6 == 0 && e.extractLsb' 52 12 == 0 && isDram pa && pa % 2 ^ align == 0

/-- The table an entry names. -/
def nextTable (e : Dword) : Nat := (e.extractLsb' 8 44).toNat * 256

/-- The walk from a table down the remaining levels; the entries it read at non-leaf levels come with the result (R73 to R75, R80). -/
def State.walkFrom (s : State) (die asid va table : Nat) : List (Nat × Nat) → List WcEntry × WalkEnd
  | [] => ([], .bad)
  | (shift, bits) :: rest =>
    let pa := table + 8 * (va / 2 ^ shift % 2 ^ bits)
    let cached := (s.die die).wcache.find? fun w => w.asid == asid && w.level == shift && w.index == va / 2 ^ shift
    match (match cached with | some w => Except.ok w.entry | none => s.readEntry die pa) with
    | .error x => ([], x)
    | .ok e =>
      if !e.getLsbD 0 then ([], .invalid)
      else if e.getLsbD 1 then
        if shift == 38 then ([], .bad)
        else if leafOk e shift then ([], .leaf (va / 2 ^ shift * 2 ^ shift) (2 ^ shift) e)
        else ([], .bad)
      else match rest with
        | [] => ([], .bad)
        | (_, nb) :: _ =>
          if tableOk e (nb + 3) then
            let (ws, r) := s.walkFrom die asid va (nextTable e) rest
            ({ asid := asid, level := shift, index := va / 2 ^ shift, entry := e } :: ws, r)
          else ([], .bad)

/-- The address of the context entry of an address space (R79). -/
def State.contextAt (s : State) (die asid : Nat) : Nat := (s.die die).r.ctxbase.toNat + 16 * asid

/-- The context entry of an address space (R79); a CTXBASE of 0 names no table (R34). -/
def State.context (s : State) (die asid : Nat) : Except WalkEnd (BitVec 128) :=
  let pa := s.contextAt die asid
  if (s.die die).r.ctxbase = 0 then .error .noContext
  else match s.readEntry die pa, s.readEntry die (pa + 8) with
  | .ok lo, .ok hi => .ok (hi ++ lo)
  | .error x, _ => .error x
  | _, .error x => .error x

/-- A whole walk under a context (R79). -/
def State.walk (s : State) (die asid va : Nat) : List WcEntry × WalkEnd :=
  match s.context die asid with
  | .error x => ([], x)
  | .ok c =>
    if !c.getLsbD 0 then ([], .noContext)
    else
      let root := (c.extractLsb' 21 31).toNat * 2 ^ 21
      if c.extractLsb' 2 19 != 0 || c.extractLsb' 52 76 != 0 || !isDram root then ([], .bad)
      else s.walkFrom die asid va root levels

/-- The addresses of the entries that a walk from a table reads. -/
def State.readsFrom (s : State) (die asid va table : Nat) : List (Nat × Nat) → List Nat
  | [] => []
  | (shift, bits) :: rest =>
    let pa := table + 8 * (va / 2 ^ shift % 2 ^ bits)
    match (s.die die).wcache.find? fun w => w.asid == asid && w.level == shift && w.index == va / 2 ^ shift with
    | some w => s.readsFrom die asid va (nextTable w.entry) rest
    | none => match s.readEntry die pa with
      | .ok e => pa :: if e.getLsbD 0 && !e.getLsbD 1 then s.readsFrom die asid va (nextTable e) rest else []
      | .error _ => []

/-- Single-bit errors in the entries that a walk reads are corrected and counted (R87). -/
def State.walkCorrect (s : State) (die asid va : Nat) : State :=
  match s.context die asid with
  | .error _ => s
  | .ok c =>
    let root := (c.extractLsb' 21 31).toNat * 2 ^ 21
    let reads := s.contextAt die asid :: (s.contextAt die asid + 8) :: if c.getLsbD 0 && isDram root then s.readsFrom die asid va root levels else []
    reads.foldl (fun s pa => s.homeCorrect pa 8) s

/-- Whether translation faults of a context are replayable now (R79, R85). -/
def State.replays (s : State) (die asid : Nat) : Bool :=
  (s.die die).r.fqsize != 0 && (match s.context die asid with | .ok c => c.getLsbD 0 && c.getLsbD 1 | .error _ => false)

/-! ## TLBs (R80) -/

/-- The entry of a TLB that maps an address. -/
def tlbFind (l : List TlbEntry) (asid va : Nat) : Option TlbEntry :=
  l.find? fun e => e.asid == asid && e.base ≤ va && va < e.base + e.size

/-- What a leaf entry says of an address. -/
structure Page where
  pa : Nat
  ca : BitVec 2
  home : Nat
  fmt : Nat
  geo : Nat
  w : Bool
  x : Bool
  deriving DecidableEq, Repr, Inhabited

/-- A page and the bytes in it, as a part of an access. -/
def Page.seg (p : Page) (n : Nat) : Seg := { pa := p.pa, n := n, ca := p.ca, home := p.home, host := isHost p.pa }

/-- Whether a die can present an access to a part's home: the home die is there, and for host memory its link is up (R17, R24). -/
def State.segThere (s : State) (die : Nat) (g : Seg) : Bool := s.reaches die g.home && (!g.host || (s.die g.home).r.hlink)

/-- The page of an address under a leaf entry (R74). -/
def TlbEntry.page (e : TlbEntry) (va : Nat) : Page :=
  { pa := (e.entry.extractLsb' 16 36).toNat * 65536 + (va - e.base), ca := e.entry.extractLsb' 5 2
    home := (e.entry.extractLsb' 7 1).toNat, fmt := (e.entry.extractLsb' 8 5).toNat, geo := (e.entry.extractLsb' 13 2).toNat
    w := e.entry.getLsbD 2, x := e.entry.getLsbD 3 }

/-- How a translation without a walk ends (R76, R80). `denied` carries the kind of R85. -/
inductive Xlate where
  | ok (p : Page)
  | denied (kind : Nat)
  | miss
  deriving DecidableEq, Repr

/-- The check of R76 on a page. -/
def Page.check (p : Page) (write fetch : Bool) : Xlate :=
  if write && !p.w then .denied 1 else if fetch && !p.x then .denied 2 else .ok p

/-- Translation through the core and cluster TLBs (R80). -/
def State.lookup (s : State) (core asid va : Nat) (write fetch : Bool) : Xlate :=
  match tlbFind (s.core core).tlb asid va with
  | some e => (e.page va).check write fetch
  | none =>
    match tlbFind (s.clu (clusterOfCore core)).tlb asid va with
    | some e => (e.page va).check write fetch
    | none => .miss

/-- A translation enters a cluster TLB of 4,096 entries in 8 ways; of a full set the entry filled longest ago leaves (R80). -/
def Cluster.fillTlb (c : Cluster) (t : TlbEntry) : Cluster :=
  let set := fun (e : TlbEntry) => e.base / e.size % 512
  { c with tlb := t :: keepFirst (fun e => set e == set t) 7 (c.tlb.filter fun x => !(x.asid == t.asid && x.base == t.base)) }

/-- A translation enters a core TLB of 128 entries, fully associative; where it is full the entry filled longest ago leaves (R80). -/
def Core.fillTlb (c : Core) (t : TlbEntry) : Core :=
  { c with tlb := t :: (c.tlb.filter fun x => !(x.asid == t.asid && x.base == t.base)).take 127 }

/-- Non-leaf entries enter a die's walk cache of 1,024 (R80). -/
def Die.fillWalkCache (d : Die) (ws : List WcEntry) : Die :=
  { d with wcache := (ws ++ d.wcache.filter fun w => !ws.any fun v => v.asid == w.asid && v.level == w.level && v.index == w.index).take 1024 }

/-- Adds a translation to a cluster's TLB and the walk's non-leaf entries to the walk cache (R80). -/
def State.fillTlb (s : State) (cluster asid base size : Nat) (e : Dword) (ws : List WcEntry) : State :=
  let s := s.modClu cluster fun c => c.fillTlb { asid := asid, base := base, size := size, entry := e }
  s.modDie (dieOfCluster cluster) fun d => d.fillWalkCache ws

/-- Adds a translation to a core's TLB. -/
def State.fillCoreTlb (s : State) (core asid base size : Nat) (e : Dword) : State :=
  s.modCore core fun c => c.fillTlb { asid := asid, base := base, size := size, entry := e }

/-- Drops what TLBs of a cluster hold of a page, before a fresh walk (R86). -/
def State.dropPage (s : State) (cluster asid va : Nat) : State :=
  let keep := fun (e : TlbEntry) => !(e.asid == asid && e.base ≤ va && va < e.base + e.size)
  let s := (coresOf cluster).foldl (fun s c => s.modCore c fun x => { x with tlb := x.tlb.filter keep }) s
  let s := s.modClu cluster fun x => { x with tlb := x.tlb.filter keep }
  s.modDie (dieOfCluster cluster) fun d => { d with wcache := d.wcache.filter fun w => !(w.asid == asid && w.index == va / 2 ^ w.level) }

/-- The result of a translation an engine or a fill makes at once: the page, or the cause with the kind of a fault that can be replayed. -/
inductive XlDone where
  | ok (p : Page)
  | fail (c : Cause) (kind : Option Nat)
  deriving DecidableEq, Repr

/-- How a walk that did not end in a leaf is reported (R79, R84, R87). -/
def WalkEnd.cause : WalkEnd → Cause
  | .leaf _ _ _ => .xlFault
  | .invalid => .xlFault
  | .bad => .pteBad
  | .noContext => .xlFault
  | .ue _ => .ueData
  | .absent => .homeAbsent

/-- The kind of R85 of a walk's end, where it can be replayed. -/
def WalkEnd.kind : WalkEnd → Option Nat
  | .invalid => some 0
  | _ => none

/-- The effects of a walk's end on the die: an uncorrectable table read is counted and quarantined (R87). -/
def State.walkEffect (s : State) : WalkEnd → State
  | .ue pa => (s.homeError pa 8 true).getD s
  | _ => s

/-- Translation with the walk made within the step: TLB first, else walk and fill; kinds are kept only where the context replays. -/
def State.translate (s : State) (cluster asid va : Nat) (write fetch : Bool) : XlDone × State :=
  let die := dieOfCluster cluster
  let keep := fun (k : Option Nat) => if s.replays die asid then k else none
  if 2 ^ 56 ≤ va then (.fail .vaBad none, s)
  else
    match tlbFind (s.clu cluster).tlb asid va with
    | some e =>
      match (e.page va).check write fetch with
      | .ok p => (.ok p, s)
      | .denied k => (.fail .xlPerm (keep (some k)), s)
      | .miss => (.fail .xlFault none, s)
    | none =>
      let s := s.walkCorrect die asid va
      match s.walk die asid va with
      | (ws, .leaf base size e) =>
        let t : TlbEntry := { asid := asid, base := base, size := size, entry := e }
        let s' := s.fillTlb cluster asid base size e ws
        match (t.page va).check write fetch with
        | .ok p => (.ok p, s')
        | .denied k => (.fail .xlPerm (keep (some k)), s')
        | .miss => (.fail .xlFault none, s')
      | (_, r) => (.fail r.cause (keep r.kind), s.walkEffect r)

/-! ## Walks asked for and replayable faults (R81, R84 to R86) -/

/-- Whether two misses are of one address space and one page: they merge into one walk, whatever their requesters (R81). No page size is known before
the walk, so the page is that of 64 KiB: two misses in one page of 2 MiB make two walks (assumption 122). -/
def Walk.same (a b : Walk) : Bool := a.asid == b.asid && a.page == b.page

/-- The walks of a stage. -/
def walksAt (l : List Walk) (stage : Nat) : List Walk := l.filter (·.stage == stage)

/-- Moves the oldest walk that can move: a walk engine of the 64 takes the oldest queued miss; else a cluster that holds fewer than 16 entries of the
miss queue admits its oldest (R80, R81). -/
def pumpWalk (l : List Walk) : List Walk :=
  let move := fun (i stage : Nat) => match l[i]? with | some w => l.set i { w with stage := stage } | none => l
  match (if (walksAt l 2).length < 64 then posOf (·.stage == 1) l else none) with
  | some i => move i 2
  | none => match posOf (fun w => w.stage == 0 && ((walksAt l 1).filter (·.cluster == w.cluster)).length < 16) l with
    | some i => move i 1
    | none => l

/-- Walks moved until none can. -/
def pumpWalks : Nat → List Walk → List Walk
  | 0, l => l
  | n + 1, l => pumpWalks n (pumpWalk l)

/-- The walks of a die after a change among them (R81). -/
def Die.setWalks (d : Die) (l : List Walk) : Die := { d with walks := pumpWalks (2 * l.length) l }

/-- Asks for a walk, merging it with one already asked for (R81). -/
def State.askWalk (s : State) (w : Walk) : State :=
  s.modDie (dieOfCluster w.cluster) fun d =>
    match posOf (Walk.same w) d.walks with
    | some i => match d.walks[i]? with
      | some v => { d with walks := d.walks.set i { v with waiters := v.waiters ++ w.waiters } }
      | none => d
    | none => d.setWalks (d.walks ++ [w])

/-- The number of waiters of a record, as R85 writes it. -/
def PFault.waiting (p : PFault) : Nat := min 65535 p.count

/-- The bytes of a fault record (R85). -/
def PFault.bytes (p : PFault) : List Byte :=
  leBytes 8 (p.va % 2 ^ 56) ++ leBytes 2 p.asid ++ leBytes 1 p.kind ++ leBytes 1 p.cls
    ++ leBytes 2 (p.cluster % 48 + 64 * p.core + 256 * p.source) ++ leBytes 2 p.waiting ++ leBytes 16 0

/-- Records a replayable fault, merging equal ones (R86); a later waiter is counted in the record already written (R85). -/
def State.raiseFault (s : State) (die : Nat) (p : PFault) : State :=
  match posOf (fun q => q.asid == p.asid && q.page == p.page && q.kind == p.kind) (s.die die).faults with
  | some i =>
    match (s.die die).faults[i]? with
    | some q =>
      let q := { q with waiters := q.waiters ++ p.waiters, count := q.count + 1 }
      let s := s.modDie die fun d => { d with faults := d.faults.set i q }
      match q.slot with
      | some k => s.homeWrite ((s.die die).r.fqbase.toNat + 32 * k + 14) (leBytes 2 q.waiting) true
      | none => s
    | none => s
  | none => s.modDie die fun d => { d with faults := d.faults ++ [p] }

/-- A waiter leaves every walk and fault of a die that it waits on (R86, R440): an abandoned sleep is re-issued at resume. The spec does not say what
becomes of the count of a fault not yet appended, or of a fault without a waiter: the count stays and the fault is appended (assumption 123). -/
def State.leaveWalks (s : State) (die : Nat) (w : XlWaiter) : State :=
  s.modDie die fun d =>
    { d with
      walks := d.walks.map fun x => { x with waiters := x.waiters.filter (· != w) }
      faults := d.faults.map fun x => { x with waiters := x.waiters.filter (· != w) } }

end Sys2Proof.Machine
end

