-- ==== Sys2Proof/Machine/Operands.lean ====
section
/-! DEFINITION. Operands: the mapping of register numbers, reads and writes of registers and predicates, special values, permuted reads (R44, R148 to R157). -/

namespace Sys2Proof.Machine

/-- The registers an instruction reaches: those of its fibre and the shared window of its slot. -/
structure RF where
  regs : Regs
  slot : Slot
  deriving DecidableEq, Repr, Inhabited

/-- What stands still while one instruction executes: where the fibre is, its active threads, the exchange buffer, and the words a short
stall count makes it read as they were before their producer (R169). -/
structure Env where
  f : Nat
  pos : Position
  woff : Nat
  cohort : Nat × Nat × Nat
  ncohort : Nat × Nat × Nat
  nfib : Nat
  act : BeatMask
  beats : List Nat
  xb : List (Word × Word)
  both : Bool
  stale : List (Ref × Nat × Word)
  pstale : List (Nat × Nat × Bool)
  deriving DecidableEq, Repr, Inhabited

/-! ## Register numbers (R151) -/

/-- Storage of a virtual register number; `none` is REG_OVF (R151). -/
def mapReg (pos : Position) (woff n : Nat) : Ref :=
  if pos.shlo ≤ n && n < pos.shlo + pos.shn then .shared (n - pos.shlo)
  else if woff + n < pos.plim then .priv (woff + n)
  else .none

/-- The storage after this one, in a pair or a longer group. -/
def Ref.next : Ref → Nat → Ref
  | .priv i, k => .priv (i + k)
  | .shared i, k => .shared (i + k)
  | .scal n, k => .scal (n + k)
  | .none, _ => .none

end Sys2Proof.Machine

namespace Sys2Proof

open Machine

/-- The storage of the `i`-th register of an operand. -/
def Opd.ref (pos : Position) (woff : Nat) (o : Opd) (i : Nat) : Ref :=
  match o with
  | .v n => mapReg pos woff (n.toNat + i)
  | .s n => .scal (n.toNat + i)
  | .sp _ | .sz => .none

/-- The storages of a group of registers. -/
def Opd.refs (pos : Position) (woff : Nat) (o : Opd) (n : Nat) : List Ref :=
  match o with
  | .v _ | .s _ => (upTo n).map (o.ref pos woff)
  | .sp _ | .sz => []

/-- A group that mixes shared and private registers (R151, check 10 of R239). -/
def Opd.mixes (pos : Position) (o : Opd) (n : Nat) : Bool :=
  match o with
  | .v k =>
    let inside := fun i => pos.shlo ≤ k.toNat + i && k.toNat + i < pos.shlo + pos.shn
    (upTo n).any fun i => inside i != inside 0
  | _ => false

end Sys2Proof

namespace Sys2Proof.Machine

/-! ## Reads and writes -/

/-- The key of a register word in a table: index · 64 + beat. -/
def regKey (i b : Nat) : Nat := i * 64 + b

/-- A register word. -/
def RF.read (rf : RF) (r : Ref) (b : Nat) : Word :=
  match r with
  | .priv i => tget 0 rf.regs.v (regKey i b)
  | .shared i => tget 0 rf.slot.shared (regKey i b)
  | .scal n => tget 0 rf.regs.s n
  | .none => 0

/-- A register word written: its residue is made anew (R159). -/
def RF.write (rf : RF) (r : Ref) (b : Nat) (x : Word) : RF :=
  match r with
  | .priv i =>
    { rf with
      regs := { rf.regs with
        v := tset 0 rf.regs.v (regKey i b) x, badV := rf.regs.badV.filter (·.1 != regKey i b)
        dirty := if rf.regs.dirty.contains (i / 8) then rf.regs.dirty else i / 8 :: rf.regs.dirty } }
  | .shared i => { rf with slot := { rf.slot with shared := tset 0 rf.slot.shared (regKey i b) x, bad := rf.slot.bad.filter (·.1 != regKey i b) } }
  | .scal n => { rf with regs := { rf.regs with s := tset 0 rf.regs.s n x, badS := rf.regs.badS.filter (·.1 != n) } }
  | .none => rf

/-- The residue of a word (R159). -/
def rho (x : Word) : BitVec 5 := BitVec.ofNat 5 (x.toNat % 31)

/-- Whether the code stored with a word is not the residue of the word, among the codes of a table that lists no others. -/
def mismatch (codes : List (Nat × BitVec 5)) (k : Nat) (x : Word) : Bool := (tfind codes k).elim false (· != rho x)

/-- Whether a word's residue mismatches as it is read: that of the stored word, or on the way from it (R159). -/
def RF.bad (rf : RF) (r : Ref) (b : Nat) : Bool :=
  rf.regs.badPath.contains (r, b) ||
  match r with
  | .priv i => mismatch rf.regs.badV (regKey i b) (rf.read r b)
  | .shared i => mismatch rf.slot.bad (regKey i b) (rf.read r b)
  | .scal n => mismatch rf.regs.badS n (rf.read r b)
  | .none => false

/-- A word as an instruction reads it: as it was before its producer where a short stall count makes it so (R169). -/
def RF.get (rf : RF) (env : Env) (r : Ref) (b : Nat) : Word :=
  match env.stale.find? fun o => o.1 == r && o.2.1 == b with
  | some o => o.2.2
  | none => rf.read r b

/-- Predicate `p` at a beat; 7 is pt (R148). -/
def Regs.pred (r : Regs) (p : BitVec 3) (b : Nat) : Bool :=
  if p = 7 then true else (tget 0 r.p p.toNat).getLsbD b

/-- A predicate of a thread as an instruction reads it (R169). -/
def RF.getPred (rf : RF) (env : Env) (p : BitVec 3) (b : Nat) : Bool :=
  match env.pstale.find? fun o => o.1 == p.toNat && o.2.1 == b with
  | some o => o.2.2
  | none => rf.regs.pred p b

/-- One bit of a mask replaced. -/
def maskSet (m : BeatMask) (b : Nat) (x : Bool) : BeatMask :=
  if x then m ||| (1#64 <<< b) else m &&& ~~~(1#64 <<< b)

/-- A predicate of a thread written; a write to pt is discarded (R148). -/
def Regs.setPred (r : Regs) (p : BitVec 3) (b : Nat) (x : Bool) : Regs :=
  if p = 7 then r else { r with p := tset 0 r.p p.toNat (maskSet (tget 0 r.p p.toNat) b x) }

/-- A predicate of a thread written. -/
def RF.setPred (rf : RF) (p : BitVec 3) (b : Nat) (x : Bool) : RF := { rf with regs := rf.regs.setPred p b x }

/-! ## Special values (R149) -/

/-- `%lidx` (R9). -/
def Env.lidx (e : Env) : Nat := e.pos.lidx

/-- A special value at a beat. -/
def Env.special (e : Env) (x : Special) (b : Nat) : Word :=
  BitVec.ofNat 32 <| match x with
    | .beat => b
    | .tid => e.pos.fib * e.pos.width + b
    | .fib => e.pos.fib
    | .lidx => e.pos.lidx
    | .stage => e.pos.stage
    | .cohortX => e.cohort.1
    | .cohortY => e.cohort.2.1
    | .cohortZ => e.cohort.2.2
    | .ncohortX => e.ncohort.1
    | .ncohortY => e.ncohort.2.1
    | .ncohortZ => e.ncohort.2.2
    | .width => e.pos.width
    | .nfib => e.nfib
    | .lane => laneOfFibre e.f % 16
    | .core => coreOfFibre e.f
    | .die => dieOfFibre e.f
    | .slot => slotOfFibre e.f % 32
    | .det => e.pos.det.toNat

end Sys2Proof.Machine

namespace Sys2Proof

open Machine

/-- Whether a special value differs between beats (R149). -/
def Special.perThread : Special → Bool
  | .beat | .tid => true
  | _ => false

/-- Whether an operand is read per thread: a v register or a Thread-class special value (R150). -/
def Opd.perThread : Opd → Bool
  | .v _ => true
  | .sp x => x.perThread
  | .s _ | .sz => false

/-- Whether a source is read per thread (R150). -/
def Src.perThread : Src → Bool
  | .reg o _ => o.perThread
  | .imm _ => false

/-! ## Operand values -/

/-- Word `i` of an operand at a beat. -/
def Opd.word (o : Opd) (env : Env) (rf : RF) (i b : Nat) : Word :=
  match o with
  | .v _ | .s _ => rf.get env (o.ref env.pos env.woff i) b
  | .sp x => if i = 0 then env.special x b else 0
  | .sz => 0

/-- A 64-bit operand at a beat: the lower register holds bits 31 to 0 (R44). -/
def Opd.dword (o : Opd) (env : Env) (rf : RF) (b : Nat) : Dword := o.word env rf 1 b ++ o.word env rf 0 b

/-- The beat a permuted read takes (R156). -/
def Perm.from (p : Perm) (w b : Nat) : Option Nat :=
  match p with
  | .id => some b
  | .rot q => some ((b + q.toNat) % w)
  | .bc q => some (q.toNat % w)
  | .bfly q => some (b ^^^ (q.toNat % w))
  | .mir => some (w - 1 - b)
  | .shd q => if b < q.toNat then none else some (b - q.toNat)
  | .shu q => if w ≤ b + q.toNat then none else some (b + q.toNat)

/-- Word `i` of a source at a beat; a permuted source comes from the exchange buffer, whose second words hold B where both sources are
permuted (R157). -/
def Src.word (x : Src) (env : Env) (rf : RF) (second : Bool) (i b : Nat) : Word :=
  match x with
  | .imm v => if i = 0 then v.extractLsb' 0 32 else v.extractLsb' 32 32
  | .reg o .id => o.word env rf i b
  | .reg _ _ =>
    let e := nth (0, 0) env.xb b
    if second && env.both then e.2 else if i = 0 then e.1 else e.2

/-- A 64-bit source at a beat. -/
def Src.dword (x : Src) (env : Env) (rf : RF) (second : Bool) (b : Nat) : Dword := x.word env rf second 1 b ++ x.word env rf second 0 b

/-- Word `i` of a destination written. -/
def Opd.put (o : Opd) (env : Env) (rf : RF) (i b : Nat) (x : Word) : RF :=
  match o with
  | .v _ | .s _ => rf.write (o.ref env.pos env.woff i) b x
  | .sp _ | .sz => rf

/-- A 64-bit destination written. -/
def Opd.putD (o : Opd) (env : Env) (rf : RF) (b : Nat) (x : Dword) : RF :=
  o.put env (o.put env rf 0 b (x.extractLsb' 0 32)) 1 b (x.extractLsb' 32 32)

/-- The words of a permuted source, one entry per beat, as the read phase collects them (R157). -/
def Opd.gather (o : Opd) (env : Env) (rf : RF) (p : Perm) (i : Nat) : List Word :=
  (upTo env.pos.width).map fun b =>
    match p.from env.pos.width b with
    | some q => o.word env rf i q
    | none => 0

end Sys2Proof

namespace Sys2Proof.Machine

/-! ## Masks of threads -/

/-- The beats of a mask below a width, ascending. -/
def maskBeats (w : Nat) (m : BeatMask) : List Nat := (upTo w).filter fun b => m.getLsbD b

/-- The mask of a list of beats. -/
def maskOf (l : List Nat) : BeatMask := l.foldl (fun m b => m ||| (1#64 <<< b)) 0

/-- Every beat of a width. -/
def allBeats (w : Nat) : BeatMask := maskOf (upTo w)

/-- The threads of a run whose guard is true (R163, R237). -/
def Regs.guarded (r : Regs) (h : Hdr) (w : Nat) (run : BeatMask) : BeatMask :=
  maskOf ((maskBeats w run).filter fun b => r.pred h.guard b != h.neg)


end Sys2Proof.Machine
end

