-- ==== Sys2Proof/Machine/Flags.lean ====
section
/-! DEFINITION. The sticky flags and SATARM (R67 to R70). -/

namespace Sys2Proof.Machine

/-- Events of an operation, one bit per flag of R68. -/
abbrev Events := BitVec 7

/-- FLAGS.NV (R68). -/
def evNV : Events := 0x01
/-- FLAGS.DZ (R68). -/
def evDZ : Events := 0x02
/-- FLAGS.OF (R68). -/
def evOF : Events := 0x04
/-- FLAGS.UF (R68). -/
def evUF : Events := 0x08
/-- FLAGS.IX (R68). -/
def evIX : Events := 0x10
/-- FLAGS.SAT (R68). -/
def evSAT : Events := 0x20
/-- FLAGS.RNGWRAP (R68). -/
def evWRAP : Events := 0x40

/-- An event that happens under a condition. -/
def evIf (c : Bool) (e : Events) : Events := if c then e else 0

/-- Events ORed into a fibre's flags (R69). -/
def Regs.raise (r : Regs) (e : Events) : Regs := { r with flags := r.flags ||| e }

/-- Events ORed into the flags. -/
def RF.raise (rf : RF) (e : Events) : RF := { rf with regs := rf.regs.raise e }

/-- The FLAGS word (R68). -/
def Regs.flagsWord (r : Regs) : Word := (BitVec.ofBool r.satarm).setWidth 32 <<< 16 ||| r.flags.setWidth 32

/-- A write to FLAGS: ones clear the sticky bits, bit 16 is SATARM (R68). -/
def Regs.writeFlags (r : Regs) (x : Word) : Regs := { r with flags := r.flags &&& ~~~(x.setWidth 7), satarm := x.getLsbD 16 }

/-- Whether a barrier instruction traps SAT_TRAP (R70). -/
def Regs.satTrap (r : Regs) : Bool := r.satarm && r.flags.getLsbD 5

end Sys2Proof.Machine
end

