-- ==== Sys2Proof/Machine/Ops.lean ====
section
/-! DEFINITION. The operations every instruction shares: moving threads on, taking a trap and returning from one, filling registers, and the
issue of an instruction with its checks before the first beat (R155, R160, R163 to R172, R371, R431 to R438). -/

namespace Sys2Proof.Machine

/-! ## Causes and the trap frame (R431 to R434) -/

/-- The code of a cause (R431). -/
def Cause.code : Cause → Nat
  | .illop => 1 | .illen => 2 | .illfb => 3 | .unimp => 4 | .mnest => 5 | .stallShort => 6 | .regOvf => 7 | .resErr => 8 | .resUnrec => 9
  | .vaBad => 10 | .xlFault => 11 | .xlPerm => 12 | .pteBad => 13 | .homeAbsent => 14 | .ueData => 15 | .spadUe => 16 | .spadOob => 17
  | .memAlign => 18 | .feSpan => 19 | .hostatomAbsent => 20 | .rmtErr => 21 | .monBad => 22 | .monFull => 23 | .ringBad => 24 | .ringErr => 25
  | .copyBad => 26 | .copyErr => 27 | .barErr => 28 | .satTrap => 29 | .fmtBad => 30 | .scaleShort => 31 | .wqBad => 32 | .mxBad => 33
  | .mxProto => 34 | .mxUe => 35 | .jnBad => 36 | .jnOvf => 37 | .winBad => 38 | .binBad => 39 | .redBad => 40 | .dgstMm => 41 | .preempt => 42
  | .timer => 43 | .user => 44 | .double => 63

/-- `k` words of a number, least significant first. -/
def natWords : Nat → Nat → List Word
  | 0, _ => []
  | k + 1, x => BitVec.ofNat 32 x :: natWords k (x / 2 ^ 32)

/-- The number that words hold, least significant first. -/
def wordsNat : List Word → Nat
  | [] => 0
  | w :: t => w.toNat + 2 ^ 32 * wordsNat t

/-- The state code of a thread (R434). -/
def TState.code : TState → Nat
  | .ready => 0 | .parked => 1 | .held => 2 | .exited => 3

/-- The state a code names (R434). -/
def TState.ofCode (n : Nat) : TState :=
  if n = 0 then .ready else if n = 1 then .parked else if n = 2 then .held else .exited

/-- A PC-table entry as the frame holds it (R434). -/
def Thread.toNat (t : Thread) : Nat :=
  t.pc.toNat + 2 ^ 56 * t.st.code + (match t.op with | some j => 2 ^ 58 * j + 2 ^ 63 | none => 0)

/-- A PC-table entry read from a frame (R434, R437). -/
def Thread.ofNat (n : Nat) : Thread :=
  { pc := BitVec.ofNat 56 n, st := .ofCode (n / 2 ^ 56 % 4), op := if n / 2 ^ 63 % 2 = 1 then some (n / 2 ^ 58 % 32) else none, call := none }

/-- A rejoin register in the layout of R374. -/
def JReg.toNat (j : JReg) : Nat := j.mask.toNat + 2 ^ 64 * j.park.toNat + 2 ^ 128 * j.addr.toNat + 2 ^ 184 * j.v.toNat + 2 ^ 185 * j.stk.toNat

/-- A rejoin register read from the layout of R374. -/
def JReg.ofNat (n : Nat) : JReg :=
  { mask := BitVec.ofNat 64 n, park := BitVec.ofNat 64 (n / 2 ^ 64), addr := BitVec.ofNat 56 (n / 2 ^ 128), v := n / 2 ^ 184 % 2 == 1
    stk := n / 2 ^ 185 % 2 == 1 }

/-- A rejoin register at reset (R374). -/
def JReg.reset : JReg := { mask := 0, park := 0, addr := 0, v := false, stk := false }

/-- DIVST (R375). -/
def Diverge.divst (d : Diverge) : Word := BitVec.ofNat 32 (d.depth + 16 * d.ser.toNat + 32 * d.ovd)

/-- EXCTL (R170): DETM follows the launch. -/
def Fibre.exctl (x : Fibre) : Word := BitVec.ofNat 32 (x.regs.sbchk.toNat + 2 * x.pos.det.toNat)

/-- HSTAT (R457). -/
def Regs.hstat (r : Regs) : Word := BitVec.ofNat 32 (r.inh.toNat + 2 * r.prep.toNat + 4 * r.timp.toNat + 8 * r.hcause.toNat)

/-- STATUS of a frame (R434). -/
def TrapReq.status (r : TrapReq) : Word :=
  BitVec.ofNat 32 (r.cause.code + 64 * (r.beat % 64) + 2 ^ 12 * r.xbuf.isSome.toNat + 2 ^ 13 * r.carry.isSome.toNat + 2 ^ 14 * (r.cause == .resUnrec).toNat)

/-- The staging words in the order of R434. -/
def Staging.words (g : Staging) : List Word :=
  [g.cfg, g.pre, g.post0, g.post1, g.unf0, g.unf1].flatMap fun d => natWords 2 d.toNat

/-- The 512 words of a trap frame (R434). -/
def Fibre.frame (x : Fibre) (r : TrapReq) : List Word :=
  (upTo 64).flatMap (fun b => natWords 2 ((x.div.threads[b]?).elim 0 Thread.toNat))
    ++ (upTo 8).flatMap (fun n => natWords 6 ((x.div.j[n]?).elim 0 JReg.toNat))
    ++ [x.div.divst, x.regs.flagsWord, x.exctl, BitVec.ofNat 32 x.regs.woff, r.status, 0]
    ++ natWords 2 r.addr.toNat ++ natWords 2 r.fpc.toNat ++ natWords 2 (if r.op.isSome then r.run.toNat else 0) ++ natWords 4 r.word.toNat
    ++ natWords 2 ((r.carry.getD 0).toNat) ++ x.regs.stg.words ++ [0, 0]
    ++ (upTo 64).flatMap (fun b => let e := nth (0, 0) (r.xbuf.getD []) b; [e.1, e.2])
    ++ List.replicate 176 0

/-- The first private index of a fibre's frame area (R433). -/
def Position.frameIndex (p : Position) : Nat := p.plim - 512 / p.width

/-- Where word `j` of the frame is held (R433). -/
def Position.frameAt (p : Position) (j : Nat) : Ref × Nat := (.priv (p.frameIndex + j / p.width), j % p.width)

/-- Word `j` of a fibre's frame area. -/
def Fibre.frameWord (x : Fibre) (j : Nat) : Word :=
  let (r, b) := x.pos.frameAt j
  { regs := x.regs, slot := .reset : RF }.read r b

/-- `k` words of a fibre's frame as a number. -/
def Fibre.frameNat (x : Fibre) (j k : Nat) : Nat := wordsNat ((upTo k).map fun i => x.frameWord (j + i))

/-- Writes a frame as register writes (R433). -/
def Fibre.writeFrame (x : Fibre) (ws : List Word) : Fibre :=
  let rf := (upTo ws.length).foldl (fun (rf : RF) j => let (r, b) := x.pos.frameAt j; rf.write r b (nth 0 ws j)) { regs := x.regs, slot := .reset }
  { x with regs := rf.regs }

/-! ## Threads -/

/-- The threads of a fibre that have not exited. -/
def Diverge.live (d : Diverge) : BeatMask := maskOf ((upTo d.threads.length).filter fun b => (nth default d.threads b).st != .exited)

/-- The threads in a state. -/
def Diverge.inState (d : Diverge) (t : TState) : BeatMask := maskOf ((upTo d.threads.length).filter fun b => (nth default d.threads b).st == t)

/-- Every thread of a mask changed by a function of its beat. -/
def Diverge.mapThreads (d : Diverge) (m : BeatMask) (g : Nat → Thread → Thread) : Diverge :=
  { d with threads := d.threads.mapIdx fun b t => if m.getLsbD b then g b t else t }

/-- Where the threads of an issue stand after it: the next instruction, the next operation of a call, or the word after the call (R243, R384). -/
def Issue.step (i : Issue) (t : Thread) : Thread :=
  match i.op with
  | none => { t with pc := i.pc + BitVec.ofNat 56 i.len }
  | some j => if i.last then { t with pc := i.pc + BitVec.ofNat 56 i.len, op := none, call := none } else { t with op := some (j + 1) }

/-- A thread inside a call whose operations are read again from the control store as it stands (R244): at the next issue, and at once for a Held one,
which goes on without one. -/
def Thread.reread (store : Nat → List Raw) (t : Thread) : Thread :=
  { t with call := if t.st == .held then t.call.map fun c => { c with ops := store c.entry } else none }

/-- Whether the checking scoreboard watches a fibre: always in deterministic mode (R169, R417). -/
def Fibre.checking (x : Fibre) : Bool := x.regs.sbchk || x.pos.det

/-- Threads of a mask take the next PC. -/
def Fibre.advance (x : Fibre) (i : Issue) (m : BeatMask) : Fibre := { x with div := x.div.mapThreads m fun _ => i.step }

/-- A fibre just created: every thread Ready at its entry, registers zero (R152, R374, R458). -/
def Fibre.fresh (pos : Position) (pc : BitVec 56) : Fibre :=
  { pos := pos
    div := { threads := List.replicate pos.width { pc := pc, op := none, st := .ready, call := none }, j := List.replicate 8 .reset, depth := 0
             ser := false, ovd := 0, base := 0, cur := pos.width - 1, curLive := false, heldBar := none, hexit := 0, sop := Option.none, scur := 0, scurLive := false, sheld := none }
    regs := { v := [], spilled := [], dirty := [], filled := [], s := [], p := [], flags := 0, satarm := false, sbchk := false, woff := 0, tvec := 0, ttimer := 0, tbase := 0, timp := false
              inh := false, prep := false, hcause := 0, stg := { cfg := 0, pre := 0, post0 := 0, post1 := 0, unf0 := 0, unf1 := 0 }, badV := [], badS := [], badPath := [] }
    mid := none, out := [], pend := [], nom := 0, lastRun := 0, chained := false, sleep := .awake, mon := [], monEvent := false,
    mwaitCode := none, lostWait := false, trap := none, frozen := false, dgst := false, pre := .none, preAt := 0, rettDue := false, yielded := false, atSwitch := false, nspawn := 0
    queries := [], emits := [], wait := [], failure := none, rmtBad := false, onFail := none }

/-! ## The trap timer (R459) -/

/-- Whether COUNT stands still: in the handler, frozen, or saved. -/
def Fibre.timerStands (x : Fibre) : Bool := x.regs.inh || x.frozen || x.pre == .done || x.pre == .forced

/-- COUNT of a fibre at a cycle of its core. -/
def Fibre.count (x : Fibre) (now : Nat) : Word :=
  if x.timerStands then x.regs.ttimer else BitVec.ofNat 32 (x.regs.ttimer.toNat - (now - x.regs.tbase))

/-- COUNT brought up to a cycle; a count that has reached 0 makes TIMER pending. -/
def Fibre.stopTimer (x : Fibre) (now : Nat) : Fibre :=
  let c := x.count now
  { x with regs := { x.regs with ttimer := c, tbase := now, timp := x.regs.timp || (x.regs.ttimer != 0 && c == 0) } }

/-! ## Freezing and trap entry (R435, R438) -/

/-- A freeze record enters the die's queue and the interrupt is raised; with the queue full it waits (R438). -/
def Die.pushFreeze (d : Die) (r : Freeze) : Die :=
  if d.freeze.length < 64 then { d with freeze := d.freeze ++ [r] }.raise irqFreeze else { d with freezeWait := d.freezeWait ++ [r] }

/-- A double fault freezes a fibre (R438). -/
def State.freeze (s : State) (f : Nat) (x : Fibre) (c1 c2 : Nat) (pc : BitVec 56) : State :=
  let r : Freeze :=
    { c1 := BitVec.ofNat 6 c1, c2 := BitVec.ofNat 6 c2, clu := BitVec.ofNat 6 (clusterOfFibre f % 48), core := BitVec.ofNat 2 (coreOfFibre f)
      slot := BitVec.ofNat 5 (slotOfFibre f), stg := BitVec.ofNat 2 f, pc := pc, fibre := f }
  (s.setFib f { x.stopTimer (s.nowOf f) with frozen := true, trap := none, sleep := .awake, onFail := none }).modDie (dieOfFibre f) fun d => d.pushFreeze r

/-- A fibre's monitor set is dropped: its lines are released at every home (R105). -/
def State.dropMonitor (s : State) (f : Nat) : State :=
  let s := [0, 1].foldl (fun s d => s.modDie d fun x => { x with arms := x.arms.filter (·.fibre != f) }) s
  s.modFib f fun x => { x with mon := [], monEvent := false }

/-- The address of a byte of a fibre's backing store (R154). -/
def Position.backing (p : Position) (i b : Nat) : Nat := p.bsbase + (i * p.width + b) * 4

/-- How a fill or a spill ends (R155). -/
inductive FillOut where
  | ok (s : State)
  | fault (c : Cause) (s : State)
  | replay (die asid va kind : Nat) (s : State)

/-- Bytes of a fibre's backing store or overflow area, reached at home (R155, R379). -/
def State.backRead (s : State) (f : Nat) (x : Fibre) (va n : Nat) : Except FillOut (List Byte × State) :=
  let die := dieOfFibre f
  match s.translate (clusterOfFibre f) (s.asidOf x) va false false with
  | (.fail c none, s) => .error (.fault c s)
  | (.fail _ (some k), s) => .error (.replay die (s.asidOf x) va k s)
  | (.ok p, s) =>
    if !s.segThere die (p.seg n) then .error (.fault .homeAbsent s)
    else match s.demandError p.pa n with
      | some s' => .error (.fault .ueData s')
      | none => .ok (memBytes s.mem p.pa n, s.homeCorrect p.pa n)

/-- Bytes written to a fibre's backing store or overflow area at home (R155, R379). -/
def State.backWrite (s : State) (f : Nat) (x : Fibre) (va : Nat) (data : List Byte) : FillOut :=
  let die := dieOfFibre f
  match s.translate (clusterOfFibre f) (s.asidOf x) va true false with
  | (.fail c none, s) => .fault c s
  | (.fail _ (some k), s) => .replay die (s.asidOf x) va k s
  | (.ok p, s) =>
    if !s.segThere die (p.seg data.length) then .fault .homeAbsent s
    else if (s.die (homeOf p.pa)).quarantined p.pa && !isHost p.pa then .fault .ueData s
    else
      let s := if !isHost p.pa && s.badLines p.pa data.length then s.uncorrectable p.pa false else s
      .ok (s.homeWrite p.pa data (p.ca != 2))

/-- The 256-byte chunks of a block: their places in it (R154). -/
def Position.chunks (p : Position) : List Nat := (upTo (p.width / 8)).map (· * 256)

/-- The words of a block, by place: private index and beat (R154). -/
def Position.blockWord (p : Position) (block j : Nat) : Ref × Nat := (.priv (8 * block + j / p.width), j % p.width)

/-- The bytes of a block, chunk by chunk. -/
def State.readChunks (s : State) (f : Nat) (x : Fibre) (va : Nat) : List Nat → Except FillOut (List Byte × State)
  | [] => .ok ([], s)
  | o :: t =>
    match s.backRead f x (va + o) 256 with
    | .error e => .error e
    | .ok (bytes, s) => match s.readChunks f x va t with
      | .error e => .error e
      | .ok (rest, s) => .ok (bytes ++ rest, s)

/-- One block filled from the backing store (R155). -/
def State.fillBlock (s : State) (f : Nat) (block : Nat) : FillOut :=
  match s.fib? f with
  | none => .ok s
  | some x =>
    match s.readChunks f x (x.pos.backing (8 * block) 0) x.pos.chunks with
    | .error e => e
    | .ok (bytes, s) =>
      let rf := (upTo (8 * x.pos.width)).foldl (fun (rf : RF) j =>
        let (r, b) := x.pos.blockWord block j
        rf.write r b (BitVec.ofNat 32 (leNat ((bytes.drop (4 * j)).take 4)))) { regs := x.regs, slot := .reset }
      .ok (s.setFib f { x with
        regs := { rf.regs with spilled := rf.regs.spilled.filter (· != block), dirty := rf.regs.dirty.filter (· != block), filled := block :: rf.regs.filled.filter (· != block) }
        used := tput x.used block s.tick })

/-- Blocks filled, in order, up to the first that fails. -/
def State.fillBlocks (s : State) (f : Nat) : List Nat → FillOut
  | [] => .ok s
  | b :: t => match s.fillBlock f b with
    | .ok s => s.fillBlocks f t
    | e => e

/-- The blocks of a fibre's frame area that are not resident (R433, R435). -/
def Fibre.frameBlocks (x : Fibre) : List Nat := x.regs.spilled.filter fun b => x.pos.frameIndex / 8 ≤ b && b < x.pos.plim / 8

/-- Whether accesses of a fibre, or drains into its registers, still owe it a result (R340, R435). -/
def State.owing (s : State) (f : Nat) : Bool :=
  ((s.fib? f).elim false fun x => x.out.any fun a => a.regs != 0 && !a.failed) || (s.clu (clusterOfFibre f)).drains.any fun d => d.fibre == f && !d.regs.isEmpty

/-- The fibre in its handler: every live thread Ready at the handler's address as one run, the rejoin state zero (R382, R435, R436). -/
def Fibre.inHandler (x : Fibre) (r : TrapReq) (vec : BitVec 56) (now : Nat) : Fibre :=
  let d := x.div
  { x with
    div := { d.mapThreads d.live (fun _ _ => { pc := vec, op := none, st := .ready, call := none }) with
      j := List.replicate 8 .reset, depth := 0, ser := false, ovd := 0, base := d.ovd, heldBar := none, hexit := 0, sop := r.op, scur := d.cur
      scurLive := d.curLive, sheld := d.heldBar, scall := d.threads.map fun t => (t.pc, t.call) }
    regs := { x.regs with
      inh := true, hcause := BitVec.ofNat 6 r.cause.code, prep := x.regs.prep && r.cause != .preempt, timp := x.regs.timp && r.cause != .timer }
    mid := none, pend := [], wait := [], sleep := .awake, trap := none, onFail := none, mwaitCode := none, lostWait := x.mwaitCode == some 2, chained := false
    pre := if r.cause == .preempt && x.pre == .requested then .entered else x.pre
    preAt := if r.cause == .preempt then now else x.preAt }

/-- The last steps of trap entry: the frame's blocks are filled, the frame is written, the threads enter the handler; a failure on the way is
a double fault (R435, R438). -/
def State.enterTrap (s : State) (f : Nat) : State :=
  match s.fib? f with
  | none => s
  | some x =>
    match x.trap with
    | none => s
    | some r =>
      let s := s.dropMonitor f
      let vec := r.entry.getD x.regs.tvec
      if vec = 0 && r.entry.isNone then s.freeze f ((s.fib? f).getD x) r.cause.code Cause.double.code r.fpc
      else match s.fillBlocks f x.frameBlocks with
        | .fault c s => s.freeze f ((s.fib? f).getD x) r.cause.code c.code r.fpc
        | .replay die asid va kind s =>
          let s := s.raiseFault die
            { asid := asid, page := va / 65536, va := va, kind := kind, cls := 0, cluster := clusterOfFibre f, core := coreOfFibre f % 4, source := 0
              waiters := [.fibre f], count := 1, slot := none }
          s.modFib f fun x => { x with sleep := .replay die asid (va / 65536) kind, onFail := none }
        | .ok s => s.modFib f fun x => ((x.stopTimer (s.nowOf f)).writeFrame (x.frame r)).inHandler r vec (s.nowOf f)

/-- What is left of the errors on operand paths and in the carry word once a trap is taken: one that the trap has met is over (R159, R160, R172). -/
def Regs.pathPast (r : Regs) (c : Cause) : Regs := if c == .resErr || c == .resUnrec then { r with badPath := [], badCarry := [] } else r

/-- A trap is taken: in a handler it is a double fault; otherwise entry follows, once earlier results are written (R435, R436). -/
def State.trap (s : State) (f : Nat) (r : TrapReq) : State :=
  match s.fib? f with
  | none => s
  | some x =>
    if x.regs.inh then s.freeze f x x.regs.hcause.toNat r.cause.code r.fpc
    else
      let s := s.setFib f { x with regs := x.regs.pathPast r.cause, trap := some r, sleep := .awake, onFail := none }
      if s.owing f then s else s.enterTrap f

/-- The trap of the issue in progress (R434). -/
def Issue.req (i : Issue) (c : Cause) (addr : Dword) (beat : Nat) (xb : Option (List (Word × Word))) (cy : Option Dword) : TrapReq :=
  { cause := c, addr := addr, beat := beat, fpc := i.pc, op := i.op, run := i.run, xbuf := xb, carry := cy, word := 0, entry := none }

/-- A fault before the first beat (R431): nothing else changes. -/
def State.trapPre (s : State) (c : Cause) (addr : Dword) : State := s.trap s.iss.fibre (s.iss.req c addr 0 none none)

/-- The position at which an instruction in progress is taken up again. -/
def Issue.mid (i : Issue) (beat : Nat) (xb : Option (List (Word × Word))) (cy : Option Dword) : Mid :=
  { pc := i.pc, op := i.op, beat := beat, xbuf := xb, carry := cy, resumed := false, lost := false }

/-- Whether an instruction in progress is the one that issues. -/
def Mid.at (m : Mid) (i : Issue) : Bool := m.pc == i.pc && m.op == i.op

/-! ## Issue (R163 to R172) -/

/-- What an instruction reads and writes, and how it runs: operand groups, predicates, permuted sources with their register counts, uniform or
per thread, latency class (0: variable), exchange class, FP64. `phase`: groups it reads in its read phase alone; `carries`: it defines a temporal carry
(R172); `predicted`: the ALU predicts the residue of its result (R159); `requests`: its beats make memory requests. -/
structure Uses where
  rd : List (Opd × Nat)
  wr : List (Opd × Nat)
  pr : List (BitVec 3)
  pw : List (BitVec 3)
  a : Option (Opd × Perm × Nat)
  b : Option (Opd × Perm × Nat)
  uni : Bool
  lat : Nat
  xch : Bool
  fp64 : Bool
  phase : List (Opd × Nat) := []
  carries : Bool := false
  predicted : Bool := false
  requests : Bool := false
  deriving Repr, Inhabited

/-- An instruction that names no register. -/
def Uses.nil : Uses := { rd := [], wr := [], pr := [], pw := [], a := .none, b := .none, uni := false, lat := 0, xch := false, fp64 := false }

/-- A source as a register group it reads, unless it is permuted or an immediate. -/
def srcGroup : Src → Nat → List (Opd × Nat)
  | .reg o .id, n => [(o, n)]
  | _, _ => []

/-- A source as a permuted group. -/
def srcPerm : Src → Nat → Option (Opd × Perm × Nat)
  | .reg _ .id, _ => .none
  | .reg o p, n => some (o, p, n)
  | .imm _, _ => .none

/-- An issue that has passed every check: the fibre, its surroundings, the beats to execute with their start times, and the words that a short
count keeps from being overwritten (R169). `count`: the active beats of the whole instruction, those done before it was resumed among them; `rest`: the
beat before which it pauses; `blocks`: the register blocks it uses; `now`: the step; `began`: the step of its first beat. -/
structure Plan where
  x : Fibre
  count : Nat
  env : Env
  starts : List (Nat × Nat)
  lost : List (Ref × Nat)
  t0 : Nat
  xbuf : Option (List (Word × Word))
  carry : Option Dword
  first : Nat
  rest : Option Nat := none
  blocks : List Nat := []
  now : Nat := 0
  began : Nat := 0
  deriving Repr, Inhabited

/-- The outcome of the checks before the first beat. -/
inductive Gate where
  | wait (s : State)
  | go (p : Plan) (s : State)

/-- The extent of a dimension: 1 where the launch declares none (R149, R161). -/
def extent (n : Nat) : Nat := if n = 0 then 1 else n

/-- A fibre's surroundings while it issues. -/
def State.envOf (s : State) (f : Nat) (x : Fibre) (act : BeatMask) : Env :=
  let c := (s.cohort? x.pos.cohort).getD default
  let d := (s.launchOf x).desc
  { f := f, pos := x.pos, woff := x.regs.woff, cohort := (c.cx, c.cy, c.cz), ncohort := (extent d.gx, extent d.gy, extent d.gz), nfib := d.slots * d.stages
    act := act, beats := maskBeats x.pos.width act, xb := [], both := false, stale := [], pstale := [] }

/-- The registers of a fibre and its slot. -/
def State.rf (s : State) (f : Nat) (x : Fibre) : RF := { regs := x.regs, slot := s.slot (slotOfFibre f) }

/-- The operand groups an instruction names, read or written. -/
def Uses.groups (u : Uses) : List (Opd × Nat) :=
  u.rd ++ u.phase ++ u.wr ++ (u.a.elim [] fun e => [(e.1, e.2.2)]) ++ (u.b.elim [] fun e => [(e.1, e.2.2)])

/-- The storages of a list of groups. -/
def refsOf (pos : Position) (woff : Nat) (l : List (Opd × Nat)) : List Ref := l.flatMap fun e => e.1.refs pos woff e.2

/-- The storages a result still owed to a fibre will be written to, with the beat it belongs to (R167, R168). -/
def State.owedRefs (s : State) (f : Nat) (x : Fibre) : List (Ref × Option Nat) :=
  (x.out.flatMap fun a => (upTo a.regs).map fun i => (a.dst.next i, if a.uni then none else some a.beat))
    ++ ((s.clu (clusterOfFibre f)).drains.filter (·.fibre == f)).flatMap fun d => d.regs.map fun e => (e.1, some e.2.1)

/-- Whether an owed word meets a storage at a beat. -/
def owedAt (l : List (Ref × Option Nat)) (r : Ref) (b : Option Nat) : Bool :=
  l.any fun e => e.1 == r && (match e.2, b with | some x, some y => x == y | _, _ => true)

/-- The failed remote read whose result a storage at a beat is owed (R298). -/
def Fibre.failedAt (x : Fibre) (l : List Ref) (b : Option Nat) : Option Access :=
  x.out.find? fun a => a.failed && (upTo a.regs).any fun i => l.any fun r => owedAt [(a.dst.next i, if a.uni then none else some a.beat)] r b

/-- The register blocks that storages lie in (R154). -/
def blocksOf (l : List Ref) : List Nat := (l.filterMap fun r => match r with | .priv i => some (i / 8) | _ => none).eraseDups

/-- Pinned blocks of a fibre: those that a signed pass has still to read, that an instruction in progress uses, and that a result still owed goes to
(R155). -/
def State.pinnedBlocks (s : State) (f : Nat) : List Nat :=
  ((s.clu (clusterOfFibre f)).k.flatMap fun k => (k.2.cols.filter (·.fibre == f)).flatMap fun c => blocksOf c.refs)
    ++ (s.fib? f).elim [] fun x => (x.mid.elim [] fun m => if m.resumed then [] else m.blocks) ++ blocksOf ((s.owedRefs f x).map (·.1))

/-- The start times of beats: each one lane cycle (four for FP64) after the one before, and not before a given time of its own (R163, R168). -/
def startTimes (stride : Nat) (hold : Nat → Nat) : Nat → List Nat → List (Nat × Nat)
  | _, [] => []
  | t, b :: rest =>
    let t := max t (hold b)
    (b, t) :: startTimes stride hold (t + stride) rest

/-- A fixed-latency result that a word at a beat meets (R167). -/
def PendRes.meets (p : PendRes) (pred : Bool) (r : Ref) (b : Nat) : Bool := p.pred == pred && p.ref == r && (match p.beat with | some x => x == b | none => true)

/-- Whether each result of a list is taken as it was before its producer; one free bit a piece (R169). -/
def freeBits (n : Nat) : List PendRes → List (PendRes × Bool)
  | [] => []
  | p :: t => (p, Config.freeBit n) :: freeBits (n + 1) t

/-- The exchange buffer an instruction collects in its read phase (R157). -/
def Uses.collect (u : Uses) (env : Env) (rf : RF) : List (Word × Word) :=
  match u.a, u.b with
  | some (oa, pa, na), none => if na = 2 then (oa.gather env rf pa 0).zip (oa.gather env rf pa 1) else (oa.gather env rf pa 0).map fun w => (w, 0)
  | none, some (ob, pb, nb) => if nb = 2 then (ob.gather env rf pb 0).zip (ob.gather env rf pb 1) else (ob.gather env rf pb 0).map fun w => (w, 0)
  | some (oa, pa, _), some (ob, pb, _) => (oa.gather env rf pa 0).zip (ob.gather env rf pb 0)
  | none, none => []

/-- The storages of the permuted sources. -/
def Uses.permRefs (u : Uses) (pos : Position) (woff : Nat) : List Ref :=
  refsOf pos woff ((u.a.elim [] fun e => [(e.1, e.2.2)]) ++ (u.b.elim [] fun e => [(e.1, e.2.2)]))

/-- The words that the read phase reads: those a permutation names, and those of groups that the phase alone reads (R156, R157, R160). -/
def Uses.supplied (u : Uses) (pos : Position) (woff : Nat) : List (Ref × Nat) :=
  let words := fun (e : Opd × Perm × Nat) =>
    (((upTo pos.width).filterMap (e.2.1.from pos.width)).eraseDups).flatMap fun q => (e.1.refs pos woff e.2.2).map fun r => (r, q)
  ((u.a.elim [] words ++ u.b.elim [] words) ++ (refsOf pos woff u.phase).map fun r => (r, 0)).eraseDups

/-- Residue mismatches met by a fibre are counted in its die (R160). -/
def State.countRes (s : State) (f n : Nat) : State := s.modDie (dieOfFibre f) fun d => d.countRes n

/-- How many requests a core has outstanding. -/
def State.outstanding (s : State) (core : Nat) : Nat :=
  (s.fibres.filter fun e => coreOfFibre e.1 == core).foldl (fun n e => n + e.2.out.length) 0

/-- Whether a core has no room for the requests of one more instruction: it has room for 2,048 (R3). -/
def State.crowded (s : State) (f : Nat) : Bool := 2048 < s.outstanding (coreOfFibre f) + 64

/-- The times, short results and holds of an issue (R166 to R169). -/
structure Timing where
  starts : List (Nat × Nat)
  short : List (PendRes × Nat × Bool)
  t0 : Nat

/-- The timing of an issue from the counts: words read and rewritten at each beat are held against the results not yet readable; where the
active sets are the same and the issue follows its own run, the counts decide. A uniform issue reads the guards of every thread of its run. -/
def Uses.timing (u : Uses) (i : Issue) (x : Fibre) (act : BeatMask) (beats : List Nat) (h : Hdr) : Timing :=
  let latest := x.pend.foldl (fun t p => max t p.avail) x.nom
  let apart := !x.chained || x.lastRun != i.run
  let t0 := ((x.mid.filter (·.at i)).bind (·.t0)).getD (if apart || u.xch then latest else x.nom)
  let regs := refsOf x.pos x.regs.woff (u.rd ++ u.phase ++ u.wr)
  let preds := u.pr ++ u.pw
  let threads := fun b => if u.uni then maskBeats x.pos.width i.run else [b]
  let guards := fun b (p : PendRes) => h.guard != 7 && (threads b).any fun t => p.meets true (.scal h.guard.toNat) t
  let hits := fun b => x.pend.filter fun p => guards b p || (regs.any fun r => p.meets false r b) || (preds.any fun q => p.meets true (.scal q.toNat) b)
  let hold := fun b => (hits b).foldl (fun t p => if p.active != act then max t p.avail else t) 0
  let starts := startTimes (if u.fp64 then 4 else 1) hold t0 beats
  let short := if apart || u.xch then [] else
    starts.flatMap fun e => ((hits e.1).filter fun p => p.active == act && e.2 < p.avail).map fun p =>
      (p, if p.pred && u.uni then p.beat.getD e.1 else e.1, (regs.any fun r => p.meets false r e.1) && (refsOf x.pos x.regs.woff u.wr).contains p.ref && !p.pred)
  { starts := starts, short := short, t0 := t0 }

/-- What is left of the times of an instruction that goes on at a beat: each beat stands where the counts put it in the whole instruction. -/
def Timing.from (t : Timing) (b : Nat) : Timing :=
  { t with starts := t.starts.filter (b ≤ ·.1), short := t.short.filter (b ≤ ·.2.1) }

/-- The threads whose guard is true where a short count leaves some guards as they were (R169). -/
def guardedFree (rf : RF) (env : Env) (h : Hdr) (run : BeatMask) : BeatMask :=
  maskOf ((maskBeats env.pos.width run).filter fun b => rf.getPred env h.guard b != h.neg)

/-- The issue cannot start yet: nothing else changes (R168, R372). -/
def State.hold (s : State) : State := { s with iss := { s.iss with held := true } }

/-- Whether the lane comes to an issue before its first beat may start: it waits for fixed-latency results longer than the stall count says, and those
results are still on their way. In deterministic mode the lane waits for it (R168, R176, R372). -/
def Timing.late (t : Timing) (x : Fibre) (tick f : Nat) : Bool :=
  let first := (t.starts.head?).elim (0, t.t0) id
  !x.pos.det && x.nom < first.2 && Config.latencyHeld tick f first.1

/-- The checks of an issue before its first beat, in the order of R239 (check 10 for shared groups), R151, R155, R168, R169, R160, and the read
phase of R157. A beat for which a result is still owed is where the instruction pauses (R168, R372). -/
def State.gate (s : State) (h : Hdr) (u : Uses) : Gate :=
  let i := s.iss
  match s.fib? i.fibre with
  | none => .wait s
  | some x =>
    let pos := x.pos
    let woff := x.regs.woff
    let blocks := blocksOf (refsOf pos woff u.groups)
    let need := x.regs.spilled.filter blocks.contains
    let act := x.regs.guarded h pos.width i.run
    let owed := s.owedRefs i.fibre x
    let owedIn := fun b => (refsOf pos woff (u.rd ++ u.phase ++ u.wr)).any fun r => owedAt owed r (some b)
    let mine := x.mid.filter (·.at i)
    let from_ := mine.elim 0 (·.beat)
    let wanted := (maskBeats pos.width act).filter (from_ ≤ ·)
    let held := ((mine.bind (·.xbuf)).isNone && (u.permRefs pos woff).any fun r => owedAt owed r none)
      || (if u.uni then wanted.any owedIn else (wanted.head?).any owedIn)
    let failed := ((wanted.head?).bind fun b => x.failedAt (refsOf pos woff (u.rd ++ u.phase ++ u.wr)) (some b)).or (x.failedAt (u.permRefs pos woff) none)
    let all := if act == 0 then [] else if u.uni then [0] else maskBeats pos.width act
    let tm := (u.timing i x act all h).from from_
    if u.groups.any fun e => e.1.mixes pos e.2 then .wait (s.trapPre .illop 0)
    else if (refsOf pos woff u.groups).contains .none then .wait (s.trapPre .regOvf 0)
    else if !need.isEmpty then .wait (s.setFib i.fibre { x with sleep := .fill need, onFail := some (i.req .xlFault 0 0 none none) })
    else if let some a := failed then
      .wait ((s.setFib i.fibre { x with out := x.out.filter (·.seq != a.seq) }).trap i.fibre
        (i.req .rmtErr 0 (if u.uni then 0 else wanted.headD 0) (mine.bind (·.xbuf)) (mine.bind (·.carry))))
    else if held || (u.requests && s.crowded i.fibre) || (!x.pend.isEmpty && mine.isNone && tm.late x s.tick i.fibre) then .wait s.hold
    else if !tm.short.isEmpty && x.checking then .wait (s.trapPre .stallShort ((tm.short.head?.elim 0 fun e => e.1.pc).setWidth 64))
    else
      let bits := freeBits s.free (tm.short.map (·.1))
      let s := { s with free := s.free + tm.short.length }
      let olds := (tm.short.zip bits).filter (·.2.2)
      let env := s.envOf i.fibre x act
      let env := { env with
        stale := (olds.filter fun e => !e.1.1.pred).map fun e => (e.1.1.ref, e.1.2.1, e.1.1.old)
        pstale := (olds.filter fun e => e.1.1.pred).map fun e => (match e.1.1.ref with | .scal n => n | _ => 7, e.1.2.1, e.1.1.old != 0)
        both := u.a.isSome && u.b.isSome }
      let rf := s.rf i.fibre x
      let act := if env.pstale.isEmpty then act else guardedFree rf env h i.run
      let all := all.filter fun b => u.uni || act.getLsbD b
      let beats := all.filter (from_ ≤ ·)
      let open_ := if u.uni then beats else beats.takeWhile fun b => !owedIn b
      let now := match i.limit with | some n => open_.take (max 1 n) | none => open_
      let xb := (mine.bind (·.xbuf)).getD (u.collect env rf)
      let bad := if (mine.bind (·.xbuf)).isSome then [] else (u.supplied pos woff).filter fun e => rf.bad e.1 e.2
      if !bad.isEmpty then .wait ((s.countRes i.fibre bad.length).trapPre .resErr 0)
      else
        .go { x := x, count := all.length, env := { env with act := act, beats := now, xb := xb }, starts := tm.starts
              lost := (olds.filter fun e => e.1.2.2).map fun e => (e.1.1.ref, e.1.2.1), t0 := tm.t0
              xbuf := if (mine.bind (·.xbuf)).isSome || u.a.isSome || u.b.isSome then some xb else none, carry := mine.bind (·.carry), first := from_
              rest := (beats.drop now.length).head?, blocks := blocks, now := s.tick, began := mine.elim s.tick (·.began) } s

/-- The fixed-latency results of the beats that an issue executes, not yet readable (R167). -/
def Uses.fresh (u : Uses) (i : Issue) (p : Plan) (before : RF) : List PendRes :=
  if u.lat = 0 then [] else
    (p.starts.filter fun e => p.rest.all (e.1 < ·)).flatMap fun e =>
      if !u.uni && !p.env.act.getLsbD e.1 then [] else
        ((refsOf p.env.pos p.env.woff u.wr).map fun r =>
          ({ ref := r, pred := false, beat := (match r with | .scal _ => none | _ => some e.1), avail := e.2 + u.lat, pc := i.pc, old := before.read r e.1, active := p.env.act } : PendRes))
        ++ (u.pw.filter (· != 7)).map fun q =>
          { ref := .scal q.toNat, pred := true, beat := some e.1, avail := e.2 + u.lat, pc := i.pc, old := if before.regs.pred q e.1 then 1 else 0, active := p.env.act }

/-- What a fibre keeps of an issue that has ended: when its next instruction may start and which results are not yet readable (R166, R167). -/
def Fibre.retime (x : Fibre) (i : Issue) (h : Hdr) (u : Uses) (p : Plan) (before : RF) : Fibre :=
  let n := if u.uni then 1 else p.count
  let wide := if u.fp64 then 4 else 1
  let last := p.starts.foldl (fun t e => max t (e.2 + wide - 1)) (p.t0 + wide - 1)
  let last := if u.xch then last + p.env.pos.width else last
  let more := if u.fp64 then h.stall.toNat + 4 - 4 * n else h.stall.toNat + 1 - n
  let nom := last + 1 + more
  { x with
    nom := nom, pend := (u.fresh i p before ++ x.pend).filter (nom < ·.avail), lastRun := i.run, chained := true, mid := x.mid.filter fun m => !m.at i, yielded := false
    atSwitch := false, passed := [], stalled := more != 0, used := p.blocks.foldl (fun l b => tput l b p.now) x.used }

/-- The registers of a fibre and its slot put back into the state. -/
def State.putRf (s : State) (f : Nat) (x : Fibre) (rf : RF) : State :=
  let s := s.setFib f { x with regs := rf.regs }
  if rf.slot = s.slot (slotOfFibre f) then s else s.setSlot (slotOfFibre f) rf.slot

/-- Where an instruction in progress is taken up again, with what it holds meanwhile (R155, R157, R172). -/
def Plan.midAt (p : Plan) (i : Issue) (beat : Nat) (cy : Option Dword) : Mid :=
  { i.mid beat p.xbuf cy with blocks := p.blocks, t0 := some p.t0, began := p.began, lines := (p.x.mid.filter (·.at i)).elim [] (·.lines) }

/-- An instruction pauses before a beat: its fibre is awake, and goes on with it before any other (R168, R372). -/
def State.pause (s : State) (u : Uses) (p : Plan) (before : RF) (beat : Nat) (cy : Option Dword) : State :=
  s.modFib s.iss.fibre fun x => { x with mid := some (p.midAt s.iss beat cy), pend := u.fresh s.iss p before ++ x.pend, chained := true, lastRun := s.iss.run }

/-- The end of an instruction whose every beat is complete: the run takes the next PC. -/
def State.finish (s : State) (h : Hdr) (u : Uses) (p : Plan) (before : RF) : State :=
  s.modFib s.iss.fibre fun x => (x.retime s.iss h u p before).advance s.iss s.iss.run

/-! ### Instructions that act on registers alone -/

/-- What a beat reads whose residues are checked: its registers, and of an exchange-class instruction the beat's words of the exchange buffer,
which `none` stands for (R159, R160). -/
def Uses.checked (u : Uses) (pos : Position) (woff : Nat) : List Ref := refsOf pos woff u.rd ++ if u.xch then [.none] else []

/-- How many residue mismatches a beat meets: in what it reads, in the carry word, and in a result that the ALU predicts (R159, R160, R172). -/
def Uses.wrong (u : Uses) (pos : Position) (woff : Nat) (rf : RF) (b : Nat) : Nat :=
  ((u.checked pos woff).eraseDups.filter fun r => rf.bad r b).length + (u.carries && rf.regs.badCarry.contains b).toNat + (u.predicted && rf.regs.aluErr.isSome).toNat

/-- A result that no prediction covers, with the bits that the ALU has flipped: its residue is made from it as it is (R159). -/
def Uses.flip (u : Uses) (env : Env) (rf : RF) (b : Nat) : RF :=
  match rf.regs.aluErr, (refsOf env.pos env.woff u.wr).head? with
  | some m, some r => ({ rf with regs := { rf.regs with aluErr := none } } : RF).write r b (rf.read r b ^^^ m)
  | _, _ => rf

/-- The beats of such an instruction in ascending order, with the carry of R172; a residue mismatch ends it at its beat (R160, R165). -/
def beatLoop (u : Uses) (env : Env) (body : Env → Nat → RF × Dword → RF × Dword) : List Nat → RF × Dword → (RF × Dword) × Option Nat
  | [], a => (a, none)
  | b :: t, a =>
    if u.wrong env.pos env.woff a.1 b != 0 then (a, some b)
    else beatLoop u env body t (u.flip env (body env b a).1 b, (body env b a).2)

/-- Words that a short count keeps as their producer wrote them (R169). -/
def keepLost (l : List (Ref × Nat)) (before after : RF) : RF := l.foldl (fun rf e => rf.write e.1 e.2 (before.read e.1 e.2)) after

/-- Whether a destination overlaps a permuted source, so that a residue error cannot be resumed (R160); the predicate that VOTE gathers counts as one
(R343). -/
def Uses.overlaps (u : Uses) (pos : Position) (woff : Nat) : Bool :=
  ((u.permRefs pos woff).any fun r => (refsOf pos woff u.wr).contains r)
    || (u.xch && u.a.isNone && u.b.isNone && u.pr.any fun q => q != 7 && u.pw.contains q)

/-- The issue of an instruction that reads and writes registers, predicates and flags alone, with a carry that starts at a value of the
operands (R172); where the carry was not kept it is formed anew over the beats already done (R343). -/
def State.computeCarry (s : State) (h : Hdr) (u : Uses) (init : Env → RF → Dword) (body : Env → Nat → RF × Dword → RF × Dword)
    (last : Env → RF × Dword → RF) : State :=
  match s.gate h u with
  | .wait s => s
  | .go p s =>
    let f := s.iss.fibre
    let before := s.rf f p.x
    let skipped := if u.uni then [] else (maskBeats p.env.pos.width p.env.act).filter (· < p.first)
    let start := p.carry.getD (skipped.foldl (fun c b => (body p.env b (before, c)).2) (init p.env before))
    match beatLoop u p.env body p.env.beats (before, start) with
    | (a, none) =>
      match p.rest with
      | some b => (s.putRf f p.x (keepLost p.lost before a.1)).pause u p before b (some a.2)
      | none =>
        let rf := if p.env.beats.isEmpty then a.1 else last p.env a
        (s.putRf f p.x (keepLost p.lost before rf)).finish h u p before
    | (a, some b) =>
      let rf : RF := if u.predicted then { a.1 with regs := { a.1.regs with aluErr := none } } else a.1
      let s := (s.putRf f p.x rf).countRes f (u.wrong p.env.pos p.env.woff a.1 b)
      s.trap f (s.iss.req (if u.overlaps p.env.pos p.env.woff then .resUnrec else .resErr) 0 b none none)

/-- The issue of an instruction that reads and writes registers, predicates and flags alone. -/
def State.compute (s : State) (h : Hdr) (u : Uses) (body : Env → Nat → RF → RF) : State :=
  s.computeCarry h u (fun _ _ => 0) (fun env b a => (body env b a.1, a.2)) (fun _ a => a.1)

/-! ### Instructions that act on more of the state -/

/-- How one beat of such an instruction ends. -/
inductive Beat where
  | ok (s : State)
  | stop (c : Cause) (addr : Dword) (s : State)
  | sleep (z : Sleep) (addr : Dword) (s : State)

/-- A beat's fault: earlier beats are complete (R12). -/
def State.stopAt (s : State) (p : Plan) (b : Nat) (c : Cause) (addr : Dword) : State :=
  s.trap s.iss.fibre (s.iss.req c addr b p.xbuf p.carry)

/-- The fibres a lane serves, in ascending (slot, stage) (R162, R175). -/
def fibresOfLane (l : Nat) : List Nat :=
  let core := l / 16
  let slot := fun k => (core * 32 + k) * 4
  (upTo 4).map (slot (l % 16) + ·) ++ (upTo 4).map (slot (l % 16 + 16) + ·)

/-- A fibre stands at a switch point: those of its lane that have issued YIELD take note of it (R176). -/
def State.reachSwitch (s : State) (f : Nat) : State :=
  (fibresOfLane (laneOfFibre f)).foldl (fun s g => match s.fib? g with
    | some y => if g == f then s.setFib g { y with atSwitch := true } else if y.yielded then s.setFib g { y with passed := f :: y.passed } else s
    | none => s) s

/-- Whether a sleep is a switch point (R176). -/
def Sleep.switches : Sleep → Bool
  | .fe _ | .mwait _ | .barwt _ _ | .bararv _ => true
  | _ => false

/-- A beat that must wait: the fibre sleeps and the instruction is taken up again at that beat (R130, R175). -/
def State.sleepAt (s : State) (p : Plan) (b : Nat) (z : Sleep) (addr : Dword) : State :=
  let s := s.modFib s.iss.fibre fun x =>
    { x with mid := some (p.midAt s.iss b p.carry), sleep := z, onFail := some (s.iss.req .xlFault addr b p.xbuf p.carry) }
  if z.switches && p.x.pos.det then s.reachSwitch s.iss.fibre else s

/-- Words of a beat that a short count keeps as their producer wrote them (R169). -/
def State.keepLost (s : State) (p : Plan) (before : RF) (b : Nat) : State :=
  match p.lost.filter (·.2 == b), s.fib? s.iss.fibre with
  | e :: l, some x => s.putRf s.iss.fibre x (Machine.keepLost (e :: l) before (s.rf s.iss.fibre x))
  | _, _ => s

/-- The words of a result that a short count keeps as their producer wrote them (R169). -/
def Plan.keeps (p : Plan) (b : Nat) (dst : Ref) (regs : Nat) : List Nat := (upTo regs).filter fun i => p.lost.any fun e => e.1 == dst.next i && e.2 == b

/-- The beats of an instruction in ascending order; every beat checks the residues of what it reads (R160, R165). -/
def State.beats (s : State) (u : Uses) (p : Plan) (before : RF) (body : Plan → Nat → State → Beat) : List Nat → Bool × State
  | [] => (true, s)
  | b :: t =>
    match s.fib? s.iss.fibre with
    | none => (false, s)
    | some x =>
      if u.wrong p.env.pos p.env.woff (s.rf s.iss.fibre x) b != 0 then
        (false, (s.countRes s.iss.fibre (u.wrong p.env.pos p.env.woff (s.rf s.iss.fibre x) b)).stopAt { p with xbuf := none } b (if u.overlaps p.env.pos p.env.woff then .resUnrec else .resErr) 0)
      else match body p b s with
        | .ok s => (s.keepLost p before b).beats u p before body t
        | .stop c a s => (false, s.stopAt p b c a)
        | .sleep z a s => (false, s.sleepAt p b z a)

/-- How an instruction's own checks before its first beat end (R431). -/
inductive Pre where
  | ok (s : State)
  | stop (c : Cause) (addr : Dword) (s : State)
  | sleep (z : Sleep) (s : State)
  | wait (s : State)

/-- The fibre that issues stands at a switch point (R176). -/
def State.atSwitch (s : State) : State := s.reachSwitch s.iss.fibre

/-- The issue of an instruction whose beats act on the state: its own checks first, then its beats, then what follows the last. -/
def State.perBeat (s : State) (h : Hdr) (u : Uses) (pre : Plan → State → Pre) (body : Plan → Nat → State → Beat) (post : Plan → State → State) : State :=
  match s.gate h u with
  | .wait s => s
  | .go p s =>
    match (if p.env.act == 0 then .ok s else pre p s) with
    | .wait s => s
    | .stop c a s => s.trapPre c a
    | .sleep z s => s.sleepAt p (p.env.beats.headD 0) z 0
    | .ok s =>
      let before := s.rf s.iss.fibre p.x
      match s.beats u p before body p.env.beats with
      | (false, s) => s
      | (true, s) =>
        match p.rest with
        | some b => s.pause u p before b p.carry
        | none =>
          let s' := s.finish h u p before
          if p.env.act == 0 then s' else post p s'

/-- The fibre that issues. -/
def State.me (s : State) : Fibre := (s.fib? s.iss.fibre).getD default

/-- The registers of the fibre that issues. -/
def State.myRf (s : State) : RF := s.rf s.iss.fibre s.me

/-- The registers of the fibre that issues put back. -/
def State.putMy (s : State) (rf : RF) : State := s.putRf s.iss.fibre s.me rf

end Sys2Proof.Machine
end

