-- ==== Sys2Proof/Machine/Issue.lean ====
section
/-! DEFINITION. Which fibre holds a lane, which run issues, and the fetch and decode of its instruction (R175, R176, R231, R239 to R244, R279, R371 to R373, R381). -/

namespace Sys2Proof.Machine

/-! ## Runs (R371 to R373, R381) -/

/-- Where a thread stands, for the order of the PC table (R371). -/
def Thread.place (t : Thread) : Nat := t.pc.toNat * 64 + (match t.op with | some j => j + 1 | none => 0)

/-- Inserts a place into a rising list without repeats. -/
def insertPlace (x : Nat) : List Nat → List Nat
  | [] => [x]
  | y :: t => if x < y then x :: y :: t else if x = y then y :: t else y :: insertPlace x t

/-- The runs of a fibre in table order (R371). -/
def Diverge.runs (d : Diverge) : List BeatMask :=
  let ready := maskBeats d.threads.length (d.inState .ready)
  let places := ready.foldl (fun l b => insertPlace (nth default d.threads b).place l) []
  places.map fun x => maskOf (ready.filter fun b => (nth default d.threads b).place == x)

/-- The current thread of serial mode: the one that keeps the issue, or the Ready thread next above it, wrapping round (R381). -/
def Diverge.current (d : Diverge) : Option Nat :=
  let w := d.threads.length
  let ready := d.inState .ready
  if d.curLive && ready.getLsbD d.cur then some d.cur
  else ((upTo w).map fun i => (d.cur + 1 + i) % w).find? fun b => ready.getLsbD b

/-- The runs a fibre may issue, first choice first: in serial mode the current thread, in deterministic mode the head run, else every run in
table order; an instruction in progress goes on before any other run, and one that RETT has put back comes first (R372, R373, R381, R382). -/
def Fibre.choices (x : Fibre) : List BeatMask :=
  let mine := x.mid.elim [] fun m => x.div.runs.filter fun r =>
    let t := nth default x.div.threads ((maskBeats x.pos.width r).headD 0)
    t.pc == m.pc && t.op == m.op
  if !x.div.ser && !x.pos.det && !mine.isEmpty then
    if x.mid.any (·.resumed) then mine ++ x.div.runs.filter fun r => !mine.contains r else mine
  else if x.div.ser then (x.div.current.elim [] fun b => [maskOf [b]])
  else if x.pos.det then x.div.runs.take 1
  else x.div.runs

/-! ## Lanes (R162, R175, R176) -/

/-- The rotation order after a holder, the holder last (R175). -/
def rotation (l : Nat) (holder : Nat) : List Nat :=
  let fs := fibresOfLane l
  fs.filter (holder < ·) ++ fs.filter (· ≤ holder)

/-- Whether a fibre has something to issue: it is awake and has a Ready thread, or a trap to take. -/
def Fibre.ready (x : Fibre) : Bool :=
  !x.frozen && x.sleep == .awake && x.pre != .done && x.pre != .forced && !x.rettDue && (x.trap.isSome || x.settleDue || x.div.inState .ready != 0)

/-- Whether a fibre of deterministic mode stands at a switch point (R176). -/
def Fibre.switches (x : Fibre) : Bool :=
  x.frozen || x.atSwitch || x.yielded || x.div.live == 0 || x.div.inState .held != 0 && x.div.inState .ready == 0 || x.sleep.switches

/-- Whether a fibre that has issued YIELD is still passed over: some other ready fibre of its lane has not reached a switch point since (R176). -/
def State.passedOver (s : State) (f : Nat) : Bool :=
  (s.fib? f).elim false fun x => x.yielded && (fibresOfLane (laneOfFibre f)).any fun g =>
    g != f && !x.passed.contains g && (s.fib? g).elim false fun y => y.ready && !y.switches

/-- Lexicographic order of ordering keys (R418). -/
def keyLt : List Nat → List Nat → Bool
  | [], [] => false
  | [], _ :: _ => true
  | _ :: _, [] => false
  | a :: s, b :: t => a < b || (a == b && keyLt s t)

/-- Inserts a fibre by ordering key. -/
def insertKey (s : State) (f : Nat) : List Nat → List Nat
  | [] => [f]
  | g :: t => if keyLt ((s.fib? f).elim [] (·.pos.key)) ((s.fib? g).elim [] (·.pos.key)) then f :: g :: t else g :: insertKey s f t

/-- The fibres of a lane in the order in which it would serve them: the holder while it keeps the lane, then those the hand-over takes (R175,
R176). -/
def State.laneOrder (s : State) (l : Nat) : List Nat :=
  let ln := s.lane l
  let isReady := fun f => (s.fib? f).elim false Fibre.ready
  let fs := fibresOfLane l
  let free := fun (h : Nat) => (rotation l h).filter isReady
  let byKey := fun (_ : Unit) =>
    let rs := fs.filter isReady
    let y := s.passedOver
    ((rs.filter fun f => !y f).foldl (fun a f => insertKey s f a) []) ++ ((rs.filter y).foldl (fun a f => insertKey s f a) [])
  match ln.holder with
  | none => fs.filter isReady
  | some h =>
    match s.fib? h with
    | none => if ln.det then byKey () else free h
    | some x =>
      if x.pos.det then if x.switches then byKey () else [h].filter isReady
      else if x.yielded || (ln.expired && (free h).length != 1) then free h
      else if x.ready then h :: (free h).filter (· != h)
      else free h

/-- A fibre takes the lane; its counts start afresh where another held it (R168, R175). -/
def State.takeLane (s : State) (l f : Nat) : State :=
  if (s.lane l).holder == some f then s
  else (s.setLane l { s.lane l with holder := some f, since := s.nowOf f, expired := false, det := (s.fib? f).elim false (·.pos.det) }).modFib f fun x => { x with chained := false }

/-! ## Fetch (R239, check 1; R279) -/

/-- The bytes of a fetch block from an address on, through the core's instruction cache, else as a `.bp` load reads them (R232, R279); a translation that is missing or denied, or
an error, ends the fetch. -/
inductive Fetch where
  | bytes (b : List Byte) (s : State)
  | miss (s : State)
  | denied (kind : Nat) (s : State)
  | fault (c : Cause) (s : State)

/-- Fetch for a core under an address space. -/
def State.fetch (s : State) (core asid : Nat) (pc : Nat) : Fetch :=
  let die := dieOfCluster (clusterOfCore core)
  match s.lookup core asid pc false true with
  | .miss => .miss s
  | .denied k => .denied k s
  | .ok p =>
    let line := lineOf p.pa
    let n := 32 - pc % 32
    if !isHost p.pa && (s.die (homeOf p.pa)).quarantined p.pa then .fault .ueData s
    else match (s.core core).icache.find? (·.line == line) with
    | some l => .bytes ((l.bytes.drop (p.pa % 128)).take n) s
    | none =>
      let s := s.dropBadCopies die line
      if !s.segThere die (p.seg n) then .fault .homeAbsent s
      else match (if p.home != die && p.ca == 0 && ((s.die die).copyOf line).isSome then none else s.demandError (line * 128) 128) with
        | some s => .fault .ueData s
        | none =>
          let (bytes, s) := s.fetchLine die line p.ca
          .bytes ((bytes.drop (p.pa % 128)).take n) (s.modCore core fun c => { c with icache := { line := line, bytes := bytes } :: c.icache })

/-! ## The instruction of a run (R239, R243) -/

/-- An operand field with a macro parameter put in its place (R243). -/
def substField (prm : List (BitVec 11)) (x : BitVec 11) : BitVec 11 :=
  if 0x4C0 ≤ x.toNat && x.toNat < 0x4C8 then nth 0 prm (x.toNat - 0x4C0) else x

/-- An operation of a call with its parameters (R243). -/
def substRaw (prm : List (BitVec 11)) (r : Raw) : Raw :=
  { r with d := substField prm r.d, a := substField prm r.a, b := substField prm r.b, c := substField prm r.c }

/-- Sleeps the fibre until a walk for its fetch has ended, or until a fault it can replay is answered (R84, R239). -/
def State.fetchSleep (s : State) (f : Nat) (x : Fibre) (req : TrapReq) (asid pc : Nat) : State :=
  let w : Walk :=
    { cluster := clusterOfFibre f, asid := asid, page := pc / 65536, va := pc, write := false, fetch := true, cls := 3, core := coreOfFibre f % 4, waiters := [.fibre f] }
  (s.setFib f { x with sleep := .walk (dieOfFibre f) asid (pc / 65536), onFail := some req }).askWalk w

/-- A denied access of a fibre: replayed where the context says so, else the cause it names (R84). -/
def State.denied (s : State) (f : Nat) (x : Fibre) (req : TrapReq) (asid va kind cls : Nat) (c : Cause) : State :=
  let die := dieOfFibre f
  if s.replays die asid then
    (s.setFib f { x with sleep := .replay die asid (va / 65536) kind, onFail := some { req with cause := c } }).raiseFault die
      { asid := asid, page := va / 65536, va := va, kind := kind, cls := cls, cluster := clusterOfFibre f, core := coreOfFibre f % 4, source := 0
        waiters := [.fibre f], count := 1, slot := none }
  else s.trap f { req with cause := c }

/-- What is met when a run is offered the lane: an instruction to execute, or an end without one. -/
inductive Offer where
  | run (i : Instr) (s : State)
  | done (s : State)

/-- The operations of a control-store entry (R240). -/
def Core.macroAt (c : Core) (n : Nat) : List Raw := tget [] c.cstore n

/-- The definition a call names at resume: an MCALL's entry, or the entry bound to an extension word (R244, R467). -/
def State.callAt (s : State) (core : Nat) (i : Instr) (entry : Raw → Option Nat) : Option Call :=
  let store := (s.core core).macroAt
  match i with
  | .mcall _ n p0 p1 p2 p3 p4 p5 p6 p7 => some { ops := store n.toNat, prm := [p0, p1, p2, p3, p4, p5, p6, p7], len := 16, entry := n.toNat }
  | .unimpDispatch w => (entry w).map fun n => { ops := store n, prm := [w.d, w.a, w.b, w.c, 0, 0, 0, 0], len := w.len.bytes, entry := n }
  | _ => none

/-- The control-store entry bound to an extension opcode, as the binding table in memory gives it now (R465). -/
def State.boundEntry (s : State) (die : Nat) (w : Raw) : Option Nat :=
  let pa := (s.die die).r.emubase.toNat + 16 * (w.opcode.toNat - 0x200)
  let e := leNat (memBytes s.mem pa 8)
  if (s.die die).r.emubase = 0 || e % 2 = 0 then none else some (e / 2 % 64)

/-- The instruction of one run of a fibre (R239): fetched and decoded, or taken from the call in progress (R243). -/
def State.offer (s : State) (f : Nat) (run : BeatMask) : Offer :=
  match s.fib? f with
  | none => .done s
  | some x =>
    let b := (maskBeats x.pos.width run).headD 0
    let t := nth default x.div.threads b
    let core := coreOfFibre f
    let asid := s.asidOf x
    let iss : Issue := { fibre := f, run := run, pc := t.pc, op := t.op, len := 0, last := true, held := false, limit := s.iss.limit }
    let s := { s with iss := iss }
    let s := if x.div.ser then s.setFib f { x with div := { x.div with cur := b, curLive := true } } else s
    let issueOp := fun (s : State) (c : Call) (j : Nat) =>
      let s := { s with iss := { iss with len := c.len, last := j + 1 == c.ops.length } }
      match c.ops[j]? with
      | none =>
        if j == c.ops.length then .done (s.modFib f fun x => x.advance { iss with len := c.len, last := true } run) else .done (s.trapPre .illop 0)
      | some r => match decodeRaw (substRaw c.prm r) with
        | some i => .run i s
        | none => .done (s.trapPre .illop 0)
    match t.op, t.call with
    | some j, some c => issueOp s c j
    | op, _ =>
      match s.fetch core asid t.pc.toNat with
      | .miss s => .done (s.fetchSleep f x (iss.req .xlFault 0 0 none none) asid t.pc.toNat)
      | .denied k s => .done (s.denied f x (iss.req .xlPerm 0 0 none none) asid t.pc.toNat k 3 .xlPerm)
      | .fault c s => .done (s.trapPre c 0)
      | .bytes bytes s =>
        match decodeAt (t.pc.toNat % 32) bytes with
        | .error .illen => .done (s.trapPre .illen 0)
        | .error .illfb => .done (s.trapPre .illfb 0)
        | .error .illop => .done (s.trapPre .illop 0)
        | .error .unimp => .done (s.trapPre .unimp 0)
        | .ok i =>
          match op with
          | none =>
            let len := (Raw.ofWord (BitVec.ofNat 128 (leNat bytes))).elim 0 (·.len.bytes)
            .run i { s with iss := { iss with len := len } }
          | some j =>
            match s.callAt core i (s.boundEntry (dieOfFibre f)) with
            | none => .done (s.trapPre .illop 0)
            | some c =>
              let s := s.modFib f fun x => { x with div := x.div.mapThreads run fun _ t => { t with call := some c } }
              issueOp s c j

/-- The call that the word at a thread's address makes, where that word can be read (R244). -/
def State.callOf (s : State) (f : Nat) (x : Fibre) (t : Thread) : Option Call :=
  match s.fetch (coreOfFibre f) (s.asidOf x) t.pc.toNat with
  | .bytes b _ => match decodeAt (t.pc.toNat % 32) b with
    | .ok i => s.callAt (coreOfFibre f) i (s.boundEntry (dieOfFibre f))
    | .error _ => none
  | _ => none

/-- The switch-on-stall bit of the instruction at the head of a fibre's runs, inside a call that of its operation; `false` where it cannot be read
(R175, R243). -/
def State.headSw (s : State) (f : Nat) (x : Fibre) : Bool :=
  let t := nth default x.div.threads ((maskBeats x.pos.width (x.choices.headD 0)).headD 0)
  match t.op with
  | some j => ((t.call.or (s.callOf f x t)).bind fun c => c.ops[j]?).elim false (·.sw)
  | none => match s.fetch (coreOfFibre f) (s.asidOf x) t.pc.toNat with
    | .bytes b _ => (leNat (b.take 1)) / 4 % 2 == 1
    | _ => false

/-- Whether a fibre stands between two instructions, so that what is pending is taken before its next issue (R155, R431, R432). -/
def Fibre.trapsNow (x : Fibre) : Bool :=
  x.mid.all (·.resumed) && (x.failure.isSome || x.settleDue || (!x.regs.inh && (x.regs.prep || x.regs.timp)))

/-- What a lane tries in turn: fibre and run; a fibre with a trap to take comes without one. A holder that waits with `^` clear keeps the lane
(R175, R372); one with `^` set hands over while its stall count still runs. A die that is off issues nothing (R3, R39, R43). -/
def State.laneTries (s : State) (l : Nat) : List (Nat × Option BeatMask) :=
  let order := if s.off (dieOfCluster (clusterOfCore (l / 16))) then [] else s.laneOrder l
  let tries := fun f => (s.fib? f).elim [] fun x =>
    if x.trap.isSome || x.trapsNow then [(f, none)] else x.choices.map fun r => (f, some r)
  match order with
  | [] => []
  | f :: rest =>
    let keeps := (s.lane l).holder == some f && ((s.fib? f).elim false fun x => x.pos.det || !s.headSw f x)
    let waits := (s.lane l).holder == some f && (s.fib? f).elim false (·.stalled) && Config.stallHeld s.tick l && !rest.isEmpty
    if keeps then tries f else if waits then rest.flatMap tries else tries f ++ rest.flatMap tries

/-- The position a boundary trap records: the instruction in progress, or the head of the runs (R431, R435). -/
def Fibre.boundary (x : Fibre) (c : Cause) : TrapReq :=
  let run := x.choices.headD 0
  let t := nth default x.div.threads ((maskBeats x.pos.width run).headD 0)
  match x.mid with
  | some m => { cause := c, addr := 0, beat := m.beat, fpc := m.pc, op := m.op, run := run, xbuf := m.xbuf, carry := m.carry, word := 0, entry := none }
  | none => { cause := c, addr := 0, beat := 0, fpc := t.pc, op := t.op, run := run, xbuf := none, carry := none, word := 0, entry := none }

end Sys2Proof.Machine
end

