-- ==== Sys2Proof/Machine/Diverge.lean ====
section
/-! DEFINITION. Rejoin registers and overflow levels, fibre-local barriers, and what an instruction waits for before it may order others (R178, R179, R374 to R380, R393, R98). -/

namespace Sys2Proof.Machine

/-! ## Rejoin registers and overflow levels (R376, R377) -/

/-- Whether a register or level is armed: levels in memory have no V bit, and a released one holds empty masks. -/
def JReg.armed (j : JReg) : Bool := j.v && !(j.stk && j.mask == 0 && j.park == 0)

/-- The result of R377's test for one register: the threads it releases, and the register after it. -/
def JReg.test (j : JReg) (live : BeatMask) : BeatMask × JReg :=
  let l := j.mask &&& live
  if !j.v then (0, j)
  else if j.park != 0 && l &&& ~~~j.park == 0 then (j.park, { j with v := false, mask := 0, park := 0 })
  else if l == 0 && j.park == 0 then (0, { j with v := false, mask := 0, park := 0 })
  else (0, j)

/-- Releases the parked threads of a register (R377). -/
def Diverge.release (d : Diverge) (j : JReg) (m : BeatMask) : Diverge :=
  d.mapThreads (m &&& d.inState .parked) fun _ _ => { pc := j.addr, op := none, st := .ready, call := none }

/-- R377's test of every register of a list, with the threads released. -/
def Diverge.testList (d : Diverge) : List JReg → Diverge × List JReg
  | [] => (d, [])
  | j :: t =>
    let (m, j') := j.test d.live
    let d := if m == 0 then d else d.release j m
    let (d, t) := d.testList t
    (d, j' :: t)

/-- The number of levels that rest below the highest one still armed (R377). -/
def restDepth (l : List JReg) : Nat → Nat
  | 0 => 0
  | n + 1 => if (nth default l n).v then n + 1 else restDepth l n

/-- R377 after a WAIT, JDROP, EXIT or RETT: every register and level is tested, and the push form pops down to the highest one still armed; when
the last level is popped serial mode ends (R380). -/
def Diverge.settle (d : Diverge) (levels : List JReg) : Diverge × List JReg :=
  let (d, js) := d.testList d.j
  let (d, ls) := d.testList levels
  let ovd := restDepth ls ls.length
  let depth := if ovd = 0 then restDepth js d.depth else d.depth
  ({ d with j := js, ovd := ovd, depth := depth, ser := ovd != 0 }, ls)

/-- The address of overflow level `i` (R379): in a handler it is counted from the saved OVD. -/
def Fibre.levelAt (x : Fibre) (i : Nat) : Nat := x.pos.backing x.pos.plim 0 + 32 * (i + x.div.base)

/-- A level's bytes (R379). -/
def JReg.levelBytes (j : JReg) : List Byte := leBytes 8 j.mask.toNat ++ leBytes 8 j.park.toNat ++ leBytes 8 j.addr.toNat ++ leBytes 8 0

/-- A level read from its bytes; one with empty masks has been released. -/
def JReg.ofLevel (b : List Byte) : JReg :=
  let m := BitVec.ofNat 64 (leNat (b.take 8))
  let p := BitVec.ofNat 64 (leNat ((b.drop 8).take 8))
  { mask := m, park := p, addr := BitVec.ofNat 56 (leNat ((b.drop 16).take 8)), v := m != 0 || p != 0, stk := true }

/-- The overflow levels in use, lowest first (R379): one whose write still waits for a fault as it is to be written. -/
def State.readLevels (s : State) (f : Nat) (x : Fibre) : Nat → Except FillOut (List JReg × State)
  | 0 => .ok ([], s)
  | n + 1 =>
    match s.readLevels f x n with
    | .error e => .error e
    | .ok (l, s) => match tfind x.levels (n + x.div.base) with
      | some j => .ok (l ++ [.ofLevel j.levelBytes], s)
      | none => match s.backRead f x (x.levelAt n) 32 with
        | .error e => .error e
        | .ok (b, s) => .ok (l ++ [.ofLevel b], s)

/-- The fault of a write to the overflow area or the backing store, unless the fibre waits for one of the page already (R84, R155). -/
def State.spillFault (s : State) (f die asid va kind : Nat) : State :=
  if (s.die die).faults.any fun p => p.asid == asid && p.page == va / 65536 && p.waiters.contains (.spill f) then s
  else s.raiseFault die
    { asid := asid, page := va / 65536, va := va, kind := kind, cls := 1, cluster := clusterOfFibre f, core := coreOfFibre f % 4, source := 0
      waiters := [.spill f], count := 1, slot := none }

/-- Writes one level; where it cannot be written it is kept, and the fibre faults before its next issue or the write waits for the fault's answer
(R155, R379). -/
def State.writeLevel (s : State) (f i : Nat) (j : JReg) : State :=
  match s.fib? f with
  | none => s
  | some x =>
    let keep := fun (s : State) => s.modFib f fun x => { x with levels := tput x.levels i j }
    match s.backWrite f x (x.pos.backing x.pos.plim 0 + 32 * i) j.levelBytes with
    | .ok s => s.modFib f fun x => { x with levels := tdel x.levels i }
    | .fault c s => (keep s).modFib f fun x => { x with failure := some (c, 0) }
    | .replay die asid va kind s => keep (s.spillFault f die asid va kind)

/-- Writes the levels that changed (R379). -/
def State.writeLevels (s : State) (f base : Nat) (old : List JReg) : Nat → List JReg → State
  | _, [] => s
  | i, j :: t =>
    let s := if old[i]? == some j then s else s.writeLevel f (i + base) j
    s.writeLevels f base old (i + 1) t

/-- The levels that wait are written, where they can be (R155). -/
def State.flushLevels (s : State) (f : Nat) : State :=
  ((s.fib? f).elim [] (·.levels)).foldl (fun s e => s.writeLevel f e.1 e.2) s

/-- Records the fault of an access to the overflow area or the backing store that is replayed (R84, R155, R379). -/
def State.replayFill (s : State) (f die asid va kind : Nat) : State :=
  s.raiseFault die
    { asid := asid, page := va / 65536, va := va, kind := kind, cls := 0, cluster := clusterOfFibre f, core := coreOfFibre f % 4, source := 0
      waiters := [.fibre f], count := 1, slot := none }

/-- R377 for a fibre: registers and levels tested after a change of its divergence. -/
def State.settleFib (s : State) (f : Nat) (levels old : List JReg) : State :=
  match s.fib? f with
  | none => s
  | some x =>
    let (d, ls) := x.div.settle levels
    let s := s.setFib f { x with div := d }
    s.writeLevels f d.base old 0 ls

/-- R377 for a fibre whose levels are read first; where one cannot be read the fibre fails before its next issue, or sleeps until the fault is
answered and is tested then (R155). -/
def State.settleNow (s : State) (f : Nat) : State :=
  match s.fib? f with
  | none => s
  | some x =>
    match s.readLevels f x x.div.ovd with
    | .ok (ls, s) => s.settleFib f ls ls
    | .error (.fault c s) => s.modFib f fun x => { x with failure := some (c, 0) }
    | .error (.replay die asid va kind s) =>
      (s.replayFill f die asid va kind).modFib f fun x => { x with sleep := .replay die asid (va / 65536) kind, settleDue := true, onFail := none }
    | .error (.ok s) => s

/-- What a fibre does at its boundary: the entry of a trap in progress, a spill that failed, the test of R377 that RETT could not make, PREEMPT, then TIMER
(R155, R431, R432). -/
def State.boundaryTrap (s : State) (f : Nat) : State :=
  match s.fib? f with
  | none => s
  | some x =>
    if x.trap.isSome then if s.owing f then s.hold else s.enterTrap f
    else match x.failure with
      | some (c, _) => (s.setFib f { x with failure := none }).trap f (x.boundary c)
      | none =>
      if x.settleDue then (s.setFib f { x with settleDue := false }).settleNow f
      else if x.regs.prep then s.trap f (x.boundary .preempt) else if x.regs.timp then s.trap f (x.boundary .timer) else s

/-! ## Control instructions -/

/-- The issue of an instruction that places the active threads itself: its checks, its effect on the active threads, and the next PC for the
run's other threads (R384). Its checks come before the first beat, so it waits for what any beat reads; a residue mismatch there changes nothing
(R389). `idle`: the fate of an issue with no active thread. -/
def State.control (s : State) (h : Hdr) (u : Uses) (pre : Plan → State → Pre) (act : Plan → State → State)
    (idle : Plan → State → Option Cause := fun _ _ => none) : State :=
  match s.gate h u with
  | .wait s => s
  | .go p s =>
    let f := s.iss.fibre
    let before := s.rf f p.x
    let wrong := p.env.beats.foldl (fun n b => n + u.wrong p.env.pos p.env.woff before b) 0
    if p.rest.isSome then s.hold
    else if p.env.act == 0 then match idle p s with
      | some c => s.trapPre c 0
      | none => s.modFib f fun x => (x.retime s.iss h u p before).advance s.iss s.iss.run
    else if wrong != 0 then (s.countRes f wrong).trapPre .resErr 0
    else
      match pre p s with
      | .wait s => s
      | .stop c a s => s.trapPre c a
      | .sleep z s => s.sleepAt p 0 z 0
      | .ok s => act p (s.modFib f fun x => (x.retime s.iss h u p before).advance s.iss (s.iss.run &&& ~~~p.env.act))

/-- A control instruction acts once per issue (R391). -/
def Uses.control : Uses := { Uses.nil with uni := true }

/-! ## What ordering waits for (R98, R216, R225, R230) -/

/-- Whether every earlier access of the issuing fibre, drains included, has been performed. -/
def State.settled (s : State) : Bool :=
  s.me.out.all (·.failed) && !(s.clu (clusterOfFibre s.iss.fibre)).drains.any (·.fibre == s.iss.fibre)

/-- Whether a scope reaches over both dies (R98). -/
def Scope.package (sc : Option Scope) : Bool := sc == some .pkg || sc == some .sys

/-- Whether an ordering releases. -/
def releases (o : MemOrd) : Bool := o == .rel || o == .ar
/-- Whether an ordering acquires. -/
def acquires (o : MemOrd) : Bool := o == .acq || o == .ar

/-- The write-through records of the issuing die that home has not acknowledged, and the host writes of the fibre that no port has accepted
(R98, R230). -/
def State.unacked (s : State) (f : Nat) (sys : Bool) : List Nat × List Nat :=
  ((s.die (dieOfFibre f)).wt.map (·.id),
   if sys then ([0, 1].flatMap fun d => ((s.die d).port.filter fun w => w.fibre == some f).map fun w => 2 * w.id + d) else [])

/-- The note that the instruction of this run has made at its issue (R98). -/
def State.noteOf (s : State) : Option Note := s.me.wait.find? fun n => n.pc == s.iss.pc && n.op == s.iss.op && n.run == s.iss.run

/-- The notes of a fibre without those of an instruction. -/
def Issue.others (i : Issue) (l : List Note) : List Note := l.filter fun n => !(n.pc == i.pc && n.op == i.op)

/-- Notes what an ordering at package scope must wait for (R98); `far`: host writes too (R230). -/
def State.noteWait (s : State) (far : Bool) : State :=
  let (wt, port) := s.unacked s.iss.fibre far
  s.modFib s.iss.fibre fun x =>
    { x with wait := { pc := s.iss.pc, op := s.iss.op, run := s.iss.run, wt := wt, port := port, lost := false } :: s.iss.others x.wait }

/-- Forgets the note of the issue in progress. -/
def State.dropWait (s : State) : State := s.modFib s.iss.fibre fun x => { x with wait := s.iss.others x.wait }

/-- Whether anything that a note names is still outstanding. -/
def State.owes (s : State) (n : Note) (far : Bool) : Bool :=
  let (wt, port) := s.unacked s.iss.fibre far
  n.wt.any wt.contains || n.port.any port.contains

/-- Remote writes of the issuing fibre that no acknowledgement has covered (R298). -/
def State.remoteWrites (s : State) (f : Nat) : Bool := (s.die (dieOfFibre f)).tracker.any fun t => t.write && t.fibre == f && t.copy.isNone

/-- The wait before an instruction that orders at a scope: earlier accesses of the fibre; at package scope R98's records, which end with
HOME_ABSENT where one was lost (R99); at `.sys` host writes and, for a release, remote writes, which end with RMT_ERR where one has failed (R230,
R298). -/
def State.orderWait (s : State) (rel : Bool) (sc : Option Scope) : Pre :=
  let waits := rel && !s.settled
  if !Scope.package sc then (if waits then .wait s.hold else .ok s)
  else
    let far := rel && sc == some .sys
    match s.noteOf with
    | none =>
      if !waits && s.unacked s.iss.fibre far == ([], []) && !(far && (s.me.rmtBad || s.remoteWrites s.iss.fibre)) then .ok s
      else .wait (s.noteWait far)
    | some n =>
      if n.lost then .stop .homeAbsent 0 s.dropWait
      else if waits || s.owes n far then .wait s.hold
      else if far && s.me.rmtBad then .stop .rmtErr 0 (s.dropWait.modFib s.iss.fibre fun x => { x with rmtBad := false })
      else if far && s.remoteWrites s.iss.fibre then .wait s.hold
      else .ok s.dropWait

/-! ## Acquires (R96, R98, R120, R215) -/

/-- What an acquire performed by a fibre does to the caches: from `.clu` up an L1 invalidation event, from `.die` up a new copy epoch. -/
def State.acquireEffect (s : State) (f : Nat) (sc : Option Scope) : State :=
  let wide := sc == some .die || Scope.package sc
  let s := if sc == some .clu || wide then s.l1Event (coreOfFibre f) else s
  if wide then s.modDie (dieOfFibre f) Die.newEpoch else s

/-! ## Fibre-local barriers (R178, R179, R393) -/

/-- A barrier with no phase open. -/
def FBarrier.reset : FBarrier := { isOpen := false, mask := 0, arrived := 0, last := 0, owed := [] }

/-- A slot's barrier. -/
def Slot.bar (k : Slot) (b : Nat) : FBarrier := (k.bars[b]?).getD .reset

/-- A slot with a barrier replaced. -/
def Slot.setBar (k : Slot) (b : Nat) (x : FBarrier) : Slot :=
  { k with bars := ((upTo 4).map k.bar).set b x }

/-- The current thread of serial mode gives up its turn once it is not Ready (R381). -/
def Diverge.turn (d : Diverge) : Diverge := if (nth default d.threads d.cur).st == .ready then d else { d with curLive := false }

/-- Where a thread Held at an FBAR stands after it: an FBAR is 64 bits (R393). -/
def Thread.pastBar (t : Thread) : Thread :=
  match t.op with
  | none => { t with pc := t.pc + 8, st := .ready }
  | some j =>
    match t.call with
    | some c => if j + 1 == c.ops.length then { pc := t.pc + BitVec.ofNat 56 c.len, op := none, st := .ready, call := none }
      else { t with op := some (j + 1), st := .ready }
    | none => { t with op := some (j + 1), st := .ready }

/-- The Held threads of a fibre released: each goes past its FBAR and takes the closer predicate (R393). -/
def Fibre.passBar (x : Fibre) (p : BitVec 3) (closer : Bool) : Fibre :=
  let m := x.div.inState .held
  { x with
    div := { x.div.mapThreads m (fun _ => Thread.pastBar) with heldBar := none }
    regs := (maskBeats x.pos.width m).foldl (fun r b => r.setPred p b closer) x.regs }

/-- The stages of a mask. -/
def stagesOf (m : BitVec 4) : List Nat := (upTo 4).filter fun g => m.getLsbD g

/-- Whether a stage fibre of a slot no longer takes part: it has exited or was never there (R178). -/
def State.stageGone (s : State) (slot g : Nat) : Bool := (s.fib? (slot * 4 + g)).elim true fun x => x.div.live == 0

/-- The closer of a phase (R179): the last arrival, or in deterministic mode the participant of highest `%lidx`. -/
def State.closerOf (s : State) (slot : Nat) (x : FBarrier) : Nat :=
  let fs := (stagesOf x.arrived).map fun g => slot * 4 + g
  if fs.any fun f => (s.fib? f).elim false (·.pos.det) then
    fs.foldl (fun best f => if (s.fib? best).elim 0 (·.pos.lidx) ≤ (s.fib? f).elim 0 (·.pos.lidx) then f else best) (fs.headD x.last)
  else x.last

/-- R178's test of one barrier: a phase whose every stage has arrived or is gone completes, and its participants go on; one that has entered its
handler since it arrived goes on at RETT (R393). -/
def State.testBar (s : State) (slot b : Nat) : State :=
  let x := (s.slot slot).bar b
  if !x.isOpen || !(stagesOf x.mask).all fun g => x.arrived.getLsbD g || s.stageGone slot g then s
  else
    let closer := s.closerOf slot x
    let s := s.setSlot slot ((s.slot slot).setBar b { x with isOpen := false, mask := 0, arrived := 0 })
    (stagesOf x.arrived).foldl (fun s g =>
      let f := slot * 4 + g
      match s.fib? f with
      | none => s
      | some y =>
        if y.regs.inh && y.div.heldBar.all (·.1 != b) then
          let k := s.slot slot
          s.setSlot slot (k.setBar b { k.bar b with owed := (f, 0, f == closer) :: (k.bar b).owed })
        else match y.div.heldBar with
          | some (_, p) => s.setFib f (y.passBar p (f == closer))
          | none => s) s

/-- Every barrier of a slot tested. -/
def State.testBars (s : State) (slot : Nat) : State := (upTo 4).foldl (fun s b => s.testBar slot b) s

/-- A fibre arrives at the barrier its threads are Held at once every live thread is Held there (R178, R392). -/
def State.arriveBar (s : State) (f : Nat) : State :=
  match s.fib? f with
  | none => s
  | some x =>
    match x.div.heldBar with
    | none => s
    | some (b, _) =>
      let slot := slotOfFibre f
      let k := s.slot slot
      let y := k.bar b
      if x.div.live != 0 && x.div.live == x.div.inState .held && !y.arrived.getLsbD (f % 4) then
        (s.setSlot slot (k.setBar b { y with arrived := y.arrived ||| BitVec.ofNat 4 (2 ^ (f % 4)), last := f })).testBar slot b
      else s

end Sys2Proof.Machine
end

