-- ==== Sys2Proof/Machine/Control.lean ====
section
/-! DEFINITION. Control flow, rejoin, fibre-local barriers and macro calls (R383 to R395, R376 to R381); EXIT and MDEF stand with the units they act on. -/

namespace Sys2Proof.Machine

/-- The active threads of an issue take the next PC. -/
def State.moveOn (s : State) (p : Plan) : State := s.modFib s.iss.fibre fun x => x.advance s.iss p.env.act

/-- The active threads of an issue take PCs of their own. -/
def State.moveTo (s : State) (p : Plan) (target : Nat → BitVec 56) : State :=
  s.modFib s.iss.fibre fun x => { x with div := x.div.mapThreads p.env.act fun b t => { t with pc := target b, op := none, call := none } }

/-! ## NOP and YIELD (R386, R387) -/

/-- NOP (R386). -/
def execNop (h : Hdr) (s : State) : Host.Outcome State Fault Refusal := .next (s.control h Uses.control (fun _ s => .ok s) fun p s => s.moveOn p)

/-- YIELD (R387): the fibre offers the lane, and in serial mode the current thread's turn ends. -/
def execYield (h : Hdr) (s : State) : Host.Outcome State Fault Refusal :=
  .next (s.control h Uses.control (fun _ s => .ok s) fun p s =>
    ((s.moveOn p).modFib s.iss.fibre fun x => { x with yielded := true, div := { x.div with curLive := x.div.curLive && !x.div.ser } }).atSwitch)

/-! ## Branches, calls and returns (R388, R389) -/

/-- The target of a relative transfer, from the address of the instruction (R388). -/
def Issue.target (i : Issue) (off : BitVec 32) : BitVec 56 := i.pc + off.signExtend 56

/-- Whether some live thread of the fibre is not active in the issue (R389, order 1). -/
def Plan.apart (p : Plan) (s : State) : Bool := s.me.div.live &&& ~~~p.env.act != 0

/-- The window offset after a slide of whole granules of eight registers. -/
def slid (woff : Nat) (sl : BitVec 7) : Nat := woff + 8 * sl.toNat

/-- A call that would slide the window, with no thread active: every live thread is one that is not active in it (R389, order 1). -/
def idleSlide (sl : BitVec 7) (p : Plan) (s : State) : Option Cause := if sl != 0 && p.apart s then some .winBad else none

/-- A short stall count of a link's register against a fixed-latency result (R169). -/
def Plan.shortLink (p : Plan) (i : Issue) (refs : List Ref) : Option PendRes :=
  if p.x.chained && p.x.lastRun == i.run then
    p.x.pend.find? fun e => !e.pred && refs.contains e.ref && p.t0 < e.avail && e.active == p.env.act
      && (match e.beat with | some b => p.env.act.getLsbD b | none => true)
  else none

/-- The checks of a call's slide and link (R389, orders 1, 3 and 4), and the waits its link register needs (R155, R167, R168). -/
def callPre (d : Opd) (sl : BitVec 7) (p : Plan) (s : State) : Pre :=
  let f := s.iss.fibre
  let woff := slid p.env.woff sl
  let refs := d.refs p.env.pos woff 2
  if sl != 0 && p.apart s then .stop .winBad 0 s
  else if p.env.pos.plim ≤ woff then .stop .winBad 0 s
  else if refs.contains .none then .stop .regOvf 0 s
  else
    let need := s.me.regs.spilled.filter fun k => refs.any fun r => match r with | .priv n => n / 8 == k | _ => false
    let owed := s.owedRefs f s.me
    if !need.isEmpty then .sleep (.fill need) s
    else if p.env.beats.any fun b => refs.any fun r => owedAt owed r (some b) then .wait s.hold
    else match p.shortLink s.iss refs with
      | some e => if s.me.checking then .stop .stallShort (e.pc.setWidth 64) s else .ok s
      | none => .ok s

/-- The link of a call: the next instruction's address and the slide (R388). -/
def Issue.link (i : Issue) (sl : BitVec 7) : Dword := BitVec.ofNat 64 ((i.pc + BitVec.ofNat 56 i.len).toNat + 2 ^ 56 * sl.toNat)

/-- The effect of a call: the window slides, the link is written under the new window, the active threads take their targets (R388). Where a
short count leaves the order of the link and an earlier result open, either stands (R169). -/
def State.enterCall (s : State) (d : Opd) (sl : BitVec 7) (p : Plan) (target : Nat → BitVec 56) : State :=
  let f := s.iss.fibre
  let woff := slid p.env.woff sl
  let (late, s) := match p.shortLink s.iss (d.refs p.env.pos woff 2) with | some _ => s.freeBit | none => (false, s)
  let s := s.modFib f fun x => { x with regs := { x.regs with woff := woff } }
  let env := { p.env with woff := woff }
  let rf := if late then s.myRf else p.env.beats.foldl (fun rf b => d.putD env rf b (s.iss.link sl)) s.myRf
  (s.putMy rf).moveTo p target

/-- What a transfer uses: it acts once where its operands are scalar-class, else at every active beat (R384). -/
def Uses.transfer (ops : List Opd) (rd : List (Opd × Nat)) : Uses := { Uses.nil with rd := rd, uni := !ops.any Opd.perThread }

/-- BRA (R388). -/
def execBra (h : Hdr) (off : BitVec 32) (s : State) : Host.Outcome State Fault Refusal :=
  .next (s.control h Uses.control (fun _ s => .ok s) fun p s => s.moveTo p fun _ => s.iss.target off)

/-- The targets of a transfer through registers, checked (R389, orders 5 and 6). -/
def targetPre (a : Opd) (p : Plan) (s : State) : Pre :=
  let t := p.env.beats.map fun b => a.dword p.env s.myRf b
  if t.any fun x => x.toNat / 2 ^ 56 != 0 then .stop .vaBad 0 s
  else if t.any fun x => x.toNat % 4 != 0 then .stop .illfb 0 s
  else .ok s

/-- A register target of a thread: scalar-class targets are read once (R388). -/
def Plan.target (p : Plan) (a : Opd) (rf : RF) (b : Nat) : BitVec 56 := (a.dword p.env rf (if a.perThread then b else p.env.beats.headD 0)).setWidth 56

/-- BRX (R388). -/
def execBrx (h : Hdr) (a : Opd) (s : State) : Host.Outcome State Fault Refusal :=
  .next (s.control h (Uses.transfer [a] [(a, 2)]) (targetPre a) fun p s => s.moveTo p (p.target a s.myRf))

/-- CALL (R388); a link pair that mixes shared and private registers is ILLOP (R383). -/
def execCall (h : Hdr) (d : Opd) (sl : BitVec 7) (off : BitVec 32) (s : State) : Host.Outcome State Fault Refusal :=
  .next <| if d.mixes s.me.pos 2 then s.trapPre .illop 0 else
    s.control h (Uses.transfer [d] []) (callPre d sl) (fun p s => s.enterCall d sl p fun _ => s.iss.target off) (idleSlide sl)

/-- CALLX (R388). -/
def execCallx (h : Hdr) (d a : Opd) (sl : BitVec 7) (s : State) : Host.Outcome State Fault Refusal :=
  .next <| if d.mixes s.me.pos 2 then s.trapPre .illop 0 else
    s.control h (Uses.transfer [d, a] [(a, 2)])
      (fun p s => match callPre d sl p s with
        | .ok s => targetPre a p s
        | .stop c x s => .stop c x s
        | e => match targetPre a p s with | .stop c x s => .stop c x s | _ => e)
      (fun p s => let t := p.target a s.myRf; s.enterCall d sl p t) (idleSlide sl)

/-- The slide of a link, in granules (R388). -/
def linkSlide (x : Dword) : Nat := x.toNat / 2 ^ 56 % 128

/-- The checks of RET (R389, orders 1 to 3 and 6). -/
def retPre (a : Opd) (p : Plan) (s : State) : Pre :=
  let t := p.env.beats.map fun b => a.dword p.env s.myRf b
  let k := linkSlide (t.headD 0)
  if t.any (fun x => linkSlide x != 0) && p.apart s then .stop .winBad 0 s
  else if t.any fun x => linkSlide x != k || x.getLsbD 63 then .stop .winBad 0 s
  else if p.env.woff < 8 * k then .stop .winBad 0 s
  else if t.any fun x => x.toNat % 4 != 0 then .stop .illfb 0 s
  else .ok s

/-- RET (R388). -/
def execRet (h : Hdr) (a : Opd) (s : State) : Host.Outcome State Fault Refusal :=
  .next (s.control h (Uses.transfer [a] [(a, 2)]) (retPre a) fun p s =>
    let rf := s.myRf
    let k := linkSlide (a.dword p.env rf (p.env.beats.headD 0))
    (s.modFib s.iss.fibre fun x => { x with regs := { x.regs with woff := x.regs.woff - 8 * k } }).moveTo p (p.target a rf))

/-! ## FWIN (R390) -/

/-- FWIN.get: WOFF to a scalar register (R390). -/
def execFwinGet (h : Hdr) (d : Opd) (s : State) : Host.Outcome State Fault Refusal :=
  .next (s.compute h { Uses.nil with wr := [(d, 1)], uni := true } fun env b rf => d.put env rf 0 b (BitVec.ofNat 32 env.woff))

/-- FWIN.set: WOFF from a scalar-class operand (R390). -/
def execFwinSet (h : Hdr) (a : Opd) (s : State) : Host.Outcome State Fault Refusal :=
  .next (s.perBeat h { Uses.nil with rd := [(a, 1)], uni := true }
    (fun p s =>
      let x := (a.word p.env s.myRf 0 0).toNat
      if x % 8 != 0 || p.env.pos.plim ≤ x || p.apart s then .stop .winBad 0 s else .ok s)
    (fun p _ s => .ok (s.modFib s.iss.fibre fun y => { y with regs := { y.regs with woff := (a.word p.env s.myRf 0 0).toNat } }))
    fun _ s => s)

/-! ## Rejoin (R376 to R381, R391) -/

/-- A register armed for the active threads (R376). -/
def JReg.arm (act : BeatMask) (addr : BitVec 56) (push : Bool) : JReg := { mask := act, park := 0, addr := addr, v := true, stk := push }

/-- The active threads park on a register (R376). -/
def JReg.parked (j : JReg) (act : BeatMask) : JReg := { j with park := j.park ||| act }

/-- A rejoin register. -/
def Diverge.jreg (d : Diverge) (n : Nat) : JReg := nth .reset d.j n

/-- A divergence with a rejoin register replaced. -/
def Diverge.setJ (d : Diverge) (n : Nat) (j : JReg) : Diverge := { d with j := d.j.set n j }

/-- The overflow levels of the issuing fibre can be read, or how the instruction ends (R379). -/
def levelsPre (k : List JReg → State → Pre) (s : State) : Pre :=
  let f := s.iss.fibre
  let x := s.me
  match s.readLevels f x x.div.ovd with
  | .ok (l, s) => k l s
  | .error (.ok s) => .ok s
  | .error (.fault c s) => .stop c 0 s
  | .error (.replay die asid va kind s) => .sleep (.replay die asid (va / 65536) kind) (s.replayFill f die asid va kind)

/-- JOIN jN (R376, R378). -/
def execJoin (h : Hdr) (n : BitVec 3) (off : BitVec 32) (s : State) : Host.Outcome State Fault Refusal :=
  .next (s.control h Uses.control
    (fun _ s => if n.toNat < s.me.div.depth || (s.me.div.jreg n.toNat).park != 0 then .stop .jnBad 0 s else .ok s)
    fun p s =>
      (s.modFib s.iss.fibre fun x => { x with div := x.div.setJ n.toNat (.arm p.env.act (s.iss.target off) false) }).moveOn p)

/-- The checks of JOIN.push; with every register in use it writes an overflow level (R378, R380). -/
def pushPre (off : BitVec 32) (p : Plan) (s : State) : Pre :=
  let f := s.iss.fibre
  let x := s.me
  let d := x.div
  if d.depth < 8 then
    if (d.jreg d.depth).v && !(d.jreg d.depth).stk then .stop .jnBad 0 s else .ok s
  else if 56 ≤ d.ovd + d.base then .stop .jnOvf 0 s
  else match s.backWrite f x (x.levelAt d.ovd) (JReg.arm p.env.act (s.iss.target off) true).levelBytes with
    | .ok s => .ok s
    | .fault c s => .stop c 0 s
    | .replay die asid va kind s => .sleep (.replay die asid (va / 65536) kind) (s.replayFill f die asid va kind)

/-- JOIN.push (R376, R380). -/
def execJoinPush (h : Hdr) (off : BitVec 32) (s : State) : Host.Outcome State Fault Refusal :=
  .next (s.control h Uses.control (pushPre off) fun p s =>
    (s.modFib s.iss.fibre fun x =>
      let d := x.div
      if d.depth < 8 then { x with div := { d.setJ d.depth (.arm p.env.act (s.iss.target off) true) with depth := d.depth + 1 } }
      else { x with div := { d with ovd := d.ovd + 1, ser := true } }).moveOn p)

/-- The active threads leave a register's mask; nothing happens to an unarmed one (R376). -/
def JReg.drop (j : JReg) (act : BeatMask) : JReg := if j.v then { j with mask := j.mask &&& ~~~act } else j

/-- JDROP jN (R376 to R378). -/
def execJdrop (h : Hdr) (n : BitVec 3) (s : State) : Host.Outcome State Fault Refusal :=
  .next (s.control h Uses.control
    (fun _ => levelsPre fun _ s => if n.toNat < s.me.div.depth then .stop .jnBad 0 s else .ok s)
    fun p s =>
      let s := s.modFib s.iss.fibre fun x => { x with div := x.div.setJ n.toNat ((x.div.jreg n.toNat).drop p.env.act) }
      (s.moveOn p).settleNow s.iss.fibre)

/-- The active threads become Parked; a current thread's turn ends with it (R376, R381). -/
def Diverge.park (d : Diverge) (act : BeatMask) : Diverge := (d.mapThreads act fun _ t => { t with st := .parked }).turn

/-- WAIT jN (R376 to R378). -/
def execWait (h : Hdr) (n : BitVec 3) (s : State) : Host.Outcome State Fault Refusal :=
  .next (s.control h Uses.control
    (fun p => levelsPre fun _ s =>
      let d := s.me.div
      if n.toNat < d.depth || !(d.jreg n.toNat).v || p.env.act &&& ~~~(d.jreg n.toNat).mask != 0 then .stop .jnBad 0 s else .ok s)
    fun p s =>
      let s := s.modFib s.iss.fibre fun x =>
        { x with div := (x.div.setJ n.toNat ((x.div.jreg n.toNat).parked p.env.act)).park p.env.act }
      s.settleNow s.iss.fibre)

/-- WAIT.pop: on the top overflow level, else on the top register of the push form (R376 to R378). -/
def execWaitPop (h : Hdr) (s : State) : Host.Outcome State Fault Refusal :=
  .next (s.control h Uses.control
    (fun p => levelsPre fun ls s =>
      let d := s.me.div
      let top := if d.ovd = 0 then d.jreg (d.depth - 1) else nth .reset ls (d.ovd - 1)
      if d.depth = 0 && d.ovd = 0 || p.env.act &&& ~~~top.mask != 0 then .stop .jnBad 0 s else .ok s)
    fun p s =>
      let f := s.iss.fibre
      let x := s.me
      let parked := { x with div := x.div.park p.env.act }
      if x.div.ovd = 0 then
        (s.setFib f { parked with div := parked.div.setJ (x.div.depth - 1) ((x.div.jreg (x.div.depth - 1)).parked p.env.act) }).settleNow f
      else match s.readLevels f x x.div.ovd with
        | .ok (ls, s) => (s.setFib f parked).settleFib f (ls.set (x.div.ovd - 1) ((nth .reset ls (x.div.ovd - 1)).parked p.env.act)) ls
        | .error _ => s)

/-! ## FBAR (R178, R179, R393) -/

/-- The checks of FBAR (R70, R393); as a release it waits for the fibre's earlier accesses (R178). -/
def fbarPre (b : BitVec 2) (mask : BitVec 4) (q : BitVec 3) (s : State) : Pre :=
  let x := s.me
  let y := (s.slot (slotOfFibre s.iss.fibre)).bar b.toNat
  let stages := (s.launchOf x).desc.stages
  if x.regs.satTrap then .stop .satTrap 0 s
  else if (stagesOf mask).any (fun g => max 1 stages ≤ g) || !mask.getLsbD x.pos.stage || (y.isOpen && y.mask != mask)
      || (match x.div.heldBar with | some (c, r) => c != b.toNat || r != q | none => false)
      || (x.regs.inh && y.isOpen && y.arrived.getLsbD x.pos.stage) then .stop .barErr 0 s
  else s.orderWait true (some .core)

/-- FBAR: the active threads are Held, the phase opens if none is, and the fibre arrives when every live thread is Held (R178, R392, R393). -/
def execFbar (h : Hdr) (b : BitVec 2) (mask : BitVec 4) (q : BitVec 3) (s : State) : Host.Outcome State Fault Refusal :=
  .next (s.control h Uses.control (fun _ => fbarPre b mask q) fun p s =>
    let f := s.iss.fibre
    let k := s.slot (slotOfFibre f)
    let y := k.bar b.toNat
    let s := if y.isOpen then s else s.setSlot (slotOfFibre f) (k.setBar b.toNat { y with isOpen := true, mask := mask, arrived := 0 })
    (s.modFib f fun x =>
      { x with div := ({ x.div.mapThreads p.env.act (fun _ t => { t with st := .held }) with heldBar := some (b.toNat, q) } : Diverge).turn }).atSwitch.arriveBar f)

/-! ## MCALL (R242 to R244, R394) -/

/-- MCALL: the active threads stand at the first operation of the entry, with its parameters (R243); an entry that is not defined is ILLOP. -/
def execMcall (h : Hdr) (n : BitVec 6) (p0 p1 p2 p3 p4 p5 p6 p7 : BitVec 11) (s : State) : Host.Outcome State Fault Refusal :=
  let ops := (s.core (coreOfFibre s.iss.fibre)).macroAt n.toNat
  .next <| if ops.isEmpty then s.trapPre .illop 0 else
    s.control h Uses.control (fun _ s => .ok s) fun p s =>
      s.modFib s.iss.fibre fun x =>
        { x with div := x.div.mapThreads p.env.act fun _ t =>
            { t with op := some 0, call := some { ops := ops, prm := [p0, p1, p2, p3, p4, p5, p6, p7], len := s.iss.len, entry := n.toNat } } }

end Sys2Proof.Machine
end

