-- ==== Sys2Proof/Machine/Real.lean ====
section
/-! DEFINITION. Exact numbers, the floating formats, and rounding once into a format (R45 to R53, R60 to R67). -/

namespace Sys2Proof.Machine

/-! ## Exact values -/

/-- What an element denotes (R59): a NaN, signalling or quiet, an infinity, or an exact number `num / den` with its sign; zero keeps its sign. -/
inductive FVal where
  | nan (signalling : Bool)
  | inf (neg : Bool)
  | fin (neg : Bool) (num den : Nat)
  deriving DecidableEq, Repr, Inhabited

/-- An exact signed number. -/
structure Rat2 where
  num : Int
  den : Nat
  deriving DecidableEq, Repr, Inhabited

/-- The signed number of a finite value; NaNs and infinities give 0. -/
def FVal.rat : FVal → Rat2
  | .fin neg n d => { num := if neg then -(n : Int) else n, den := d }
  | _ => { num := 0, den := 1 }

/-- A signed number as a value; zero is given the sign asked for. -/
def Rat2.val (q : Rat2) (zneg : Bool) : FVal := .fin (if q.num = 0 then zneg else q.num < 0) q.num.natAbs q.den

/-- Sum. -/
def Rat2.add (a b : Rat2) : Rat2 := { num := a.num * b.den + b.num * a.den, den := a.den * b.den }
/-- Product. -/
def Rat2.mul (a b : Rat2) : Rat2 := { num := a.num * b.num, den := a.den * b.den }
/-- Negation. -/
def Rat2.neg (a : Rat2) : Rat2 := { a with num := -a.num }
/-- Quotient by a number that is not zero. -/
def Rat2.div (a b : Rat2) : Rat2 := { num := a.num * b.den * (if b.num < 0 then -1 else 1), den := a.den * b.num.natAbs }
/-- A whole number. -/
def Rat2.int (n : Int) : Rat2 := { num := n, den := 1 }
/-- A power of two. -/
def Rat2.pow2 (e : Int) : Rat2 := if 0 ≤ e then { num := 2 ^ e.toNat, den := 1 } else { num := 1, den := 2 ^ (-e).toNat }
/-- Order. -/
def Rat2.lt (a b : Rat2) : Bool := a.num * b.den < b.num * a.den
/-- Order or equality. -/
def Rat2.le (a b : Rat2) : Bool := a.num * b.den ≤ b.num * a.den
/-- Equality as numbers. -/
def Rat2.same (a b : Rat2) : Bool := a.num * b.den == b.num * a.den
/-- Magnitude. -/
def Rat2.abs (a : Rat2) : Rat2 := { a with num := a.num.natAbs }

/-- floor(log2 (num / den)) of a number that is not zero. -/
def floorLog2 (num den : Nat) : Int :=
  let e : Int := (Nat.log2 num : Int) - Nat.log2 den
  let ge := if 0 ≤ e then den * 2 ^ e.toNat ≤ num else den ≤ num * 2 ^ (-e).toNat
  if ge then e else e - 1

/-! ## Rounding a magnitude (R63, R64) -/

/-- Whether a magnitude `m + r / d` between two neighbours goes to the upper one, under a mode, a sign and a drawn word (R63, R64). -/
def roundsUp (mode : Rm) (u : Word) (neg : Bool) (m r d : Nat) : Bool :=
  if r = 0 then false
  else match mode with
    | .rn => d < 2 * r || (2 * r == d && m % 2 == 1)
    | .rz => false
    | .ru => !neg
    | .rd => neg
    | .rs => if neg then !decide (u.toNat < (d - r) * 2 ^ 32 / d) else decide (u.toNat < r * 2 ^ 32 / d)

/-- A magnitude in units of `2 ^ q`: the whole part, the remainder and the divisor. -/
def inUnits (num den : Nat) (q : Int) : Nat × Nat × Nat :=
  let n := if 0 ≤ q then num else num * 2 ^ (-q).toNat
  let d := if 0 ≤ q then den * 2 ^ q.toNat else den
  (n / d, n % d, d)

/-- A magnitude rounded to a whole number of units of `2 ^ q`, and whether that changed it. -/
def roundUnits (mode : Rm) (u : Word) (neg : Bool) (num den : Nat) (q : Int) : Nat × Bool :=
  let (m, r, d) := inUnits num den q
  (if roundsUp mode u neg m r d then m + 1 else m, r != 0)

/-! ## Formats (R45, R48) -/

/-- A floating format: significand bits with the leading one, exponent bits, bias, the code of the largest finite magnitude, whether it has
infinities, and the canonical NaN if it has one (R47). -/
structure FFmt where
  p : Nat
  ebits : Nat
  bias : Nat
  top : Nat
  inf : Bool
  nan : Option Nat
  deriving DecidableEq, Repr, Inhabited

/-- FP64 (R45). -/
def fp64 : FFmt := { p := 53, ebits := 11, bias := 1023, top := 0x7FEFFFFFFFFFFFFF, inf := true, nan := some 0x7FF8000000000000 }
/-- FP32 (R45). -/
def fp32 : FFmt := { p := 24, ebits := 8, bias := 127, top := 0x7F7FFFFF, inf := true, nan := some 0x7FC00000 }
/-- FP16 (R45). -/
def fp16 : FFmt := { p := 11, ebits := 5, bias := 15, top := 0x7BFF, inf := true, nan := some 0x7E00 }
/-- BF16 (R45). -/
def bf16 : FFmt := { p := 8, ebits := 8, bias := 127, top := 0x7F7F, inf := true, nan := some 0x7FC0 }
/-- E4M3 (R48). -/
def e4m3 : FFmt := { p := 4, ebits := 4, bias := 7, top := 0x7E, inf := false, nan := some 0x7F }
/-- E5M2 (R48). -/
def e5m2 : FFmt := { p := 3, ebits := 5, bias := 15, top := 0x7B, inf := true, nan := some 0x7E }
/-- E2M3 (R48). -/
def e2m3 : FFmt := { p := 4, ebits := 2, bias := 1, top := 0x1F, inf := false, nan := none }
/-- E3M2 (R48). -/
def e3m2 : FFmt := { p := 3, ebits := 3, bias := 3, top := 0x1F, inf := false, nan := none }
/-- E2M1 (R48). -/
def e2m1 : FFmt := { p := 2, ebits := 2, bias := 1, top := 0x7, inf := false, nan := none }

/-- Bits of a format. -/
def FFmt.width (f : FFmt) : Nat := f.p + f.ebits
/-- The exponent of the smallest unit: that of a subnormal's last bit. -/
def FFmt.qmin (f : FFmt) : Int := 1 - (f.bias : Int) - ((f.p : Int) - 1)
/-- The sign bit of a format. -/
def FFmt.sign (f : FFmt) : Nat := 2 ^ (f.p + f.ebits - 1)

/-- The magnitude of a code without sign, as an exact number. -/
def FFmt.mag (f : FFmt) (c : Nat) : Nat × Nat :=
  let half := 2 ^ (f.p - 1)
  let e := c / half
  let m := if e = 0 then c % half else c % half + half
  let q : Int := f.qmin + (if e = 0 then 0 else (e : Int) - 1)
  if 0 ≤ q then (m * 2 ^ q.toNat, 1) else (m, 2 ^ (-q).toNat)

/-- The value a pattern denotes (R45, R48): above the largest finite code stand infinity and the NaNs. -/
def FFmt.unpack (f : FFmt) (bits : Nat) : FVal :=
  let c := bits % f.sign
  let neg := bits / f.sign % 2 == 1
  if c ≤ f.top then
    let (n, d) := f.mag c
    .fin neg n d
  else if f.inf && c == f.top + 1 then .inf neg
  else .nan (f.inf && c / 2 ^ (f.p - 2) % 2 == 0)

/-- A pattern from a sign and a magnitude code. -/
def FFmt.pack (f : FFmt) (neg : Bool) (c : Nat) : Nat := if neg then c + f.sign else c

/-- The outcome of rounding a magnitude into a format: the code (it may lie above the largest finite one), whether it changed, whether it is
tiny after rounding (R46). -/
structure Rounded where
  code : Nat
  inexact : Bool
  tiny : Bool
  deriving DecidableEq, Repr, Inhabited

/-- A magnitude rounded into a format with unbounded exponent above (R46, R63 to R65). -/
def FFmt.round (f : FFmt) (mode : Rm) (u : Word) (neg : Bool) (num den : Nat) : Rounded :=
  if num = 0 then { code := 0, inexact := false, tiny := false }
  else
    let e := floorLog2 num den
    let free : Int := e - ((f.p : Int) - 1)
    let q := max free f.qmin
    let (m, ix) := roundUnits mode u neg num den q
    let (m', _) := roundUnits mode u neg num den free
    let emin : Int := f.qmin + ((f.p : Int) - 1)
    let tiny := e < emin && !(e + 1 == emin && m' == 2 ^ f.p)
    { code := (q - f.qmin).toNat * 2 ^ (f.p - 1) + m, inexact := ix, tiny := tiny }

/-- The canonical NaN (R47); formats without one give +0. -/
def FFmt.qnan (f : FFmt) : Nat := f.nan.getD 0

/-- An infinity's pattern. -/
def FFmt.infinity (f : FFmt) (neg : Bool) : Nat := f.pack neg (f.top + 1)

/-- The largest finite value's pattern. -/
def FFmt.largest (f : FFmt) (neg : Bool) : Nat := f.pack neg f.top

/-- An arithmetic result delivered in a format: rounded once; overflow gives the IEEE default (R66, R67). -/
def FFmt.deliver (f : FFmt) (mode : Rm) (v : FVal) : Nat × Events :=
  match v with
  | .nan sig => (f.qnan, evIf sig evNV)
  | .inf neg => (f.infinity neg, 0)
  | .fin neg n d =>
    let r := f.round mode 0 neg n d
    if f.top < r.code then
      (if mode == .rn || (mode == .ru && !neg) || (mode == .rd && neg) then f.infinity neg else f.largest neg, evOF ||| evIX)
    else (f.pack neg r.code, evIf (r.tiny && r.inexact) evUF ||| evIf r.inexact evIX)

/-- A conversion into a floating format (R65): finite values saturate. -/
def FFmt.convert (f : FFmt) (mode : Rm) (u : Word) (v : FVal) : Nat × Events :=
  match v with
  | .nan sig => match f.nan with
    | some c => (c, evIf sig evNV)
    | none => (0, evNV)
  | .inf neg => if f.inf then (f.infinity neg, 0) else (f.largest neg, evSAT)
  | .fin neg n d =>
    let r := f.round mode u neg n d
    if f.top < r.code then (f.largest neg, evSAT ||| evIX)
    else (f.pack neg r.code, evIf (r.tiny && r.inexact) evUF ||| evIf r.inexact evIX)

/-- A conversion to an integer between bounds (R65): the number and its events. -/
def toBounds (mode : Rm) (lo hi : Int) (v : FVal) : Int × Events :=
  match v with
  | .nan _ => (0, evNV)
  | .inf neg => (if neg then lo else hi, evSAT)
  | .fin neg n d =>
    let (m, ix) := roundUnits mode 0 neg n d 0
    let x : Int := if neg then -(m : Int) else m
    if x < lo then (lo, evSAT ||| evIX) else if hi < x then (hi, evSAT ||| evIX) else (x, evIf ix evIX)

/-! ## Exact operations on values (R324) -/

/-- Negation of a value: the sign alone changes (R321). -/
def FVal.negate (v : FVal) (on : Bool) : FVal :=
  match v with
  | .nan s => .nan s
  | .inf neg => .inf (neg != on)
  | .fin neg n d => .fin (neg != on) n d

/-- Whether a value is a signalling NaN. -/
def FVal.signalling : FVal → Bool
  | .nan s => s
  | _ => false

/-- Whether a value is a NaN. -/
def FVal.isNan : FVal → Bool
  | .nan _ => true
  | _ => false

/-- The exact product, and whether the operation is invalid (R67): a signalling NaN or 0 · ∞. -/
def FVal.mul (a b : FVal) : FVal × Bool :=
  match a, b with
  | .nan x, y => (.nan false, x || y.signalling)
  | x, .nan y => (.nan false, x.signalling || y)
  | .inf x, .inf y => (.inf (x != y), false)
  | .inf x, .fin y n _ => if n = 0 then (.nan false, true) else (.inf (x != y), false)
  | .fin x n _, .inf y => if n = 0 then (.nan false, true) else (.inf (x != y), false)
  | .fin x n d, .fin y m e => (.fin (x != y) (n * m) (d * e), false)

/-- The exact sum, and whether the operation is invalid: a signalling NaN or ∞ − ∞. A zero sum is +0, or −0 toward −∞; zeros of one sign keep
it (R324). -/
def FVal.add (mode : Rm) (a b : FVal) : FVal × Bool :=
  match a, b with
  | .nan x, y => (.nan false, x || y.signalling)
  | x, .nan y => (.nan false, x.signalling || y)
  | .inf x, .inf y => if x == y then (.inf x, false) else (.nan false, true)
  | .inf x, .fin _ _ _ => (.inf x, false)
  | .fin _ _ _, .inf y => (.inf y, false)
  | .fin x n d, .fin y m e =>
    let q := (FVal.fin x n d).rat.add (FVal.fin y m e).rat
    (q.val (if n = 0 && m = 0 && x == y then x else mode == .rd), false)

/-- Addition in a format (R324). -/
def FFmt.sum (f : FFmt) (mode : Rm) (a b : FVal) : Nat × Events :=
  let (v, bad) := a.add mode b
  let (r, e) := f.deliver mode v
  (r, e ||| evIf bad evNV)

/-- Multiplication in a format (R324). -/
def FFmt.product (f : FFmt) (mode : Rm) (a b : FVal) : Nat × Events :=
  let (v, bad) := a.mul b
  let (r, e) := f.deliver mode v
  (r, e ||| evIf bad evNV)

/-- fusedMultiplyAdd in a format (R324): 0 · ∞ is invalid whatever the addend. -/
def FFmt.fused (f : FFmt) (mode : Rm) (a b c : FVal) : Nat × Events :=
  let (v, bad) := a.mul b
  let (w, bad') := v.add mode c
  let (r, e) := f.deliver mode w
  (r, e ||| evIf (bad || bad') evNV)

/-! ## Comparison (R325, R326) -/

/-- Numerical order of two values that are no NaNs; −0 and +0 compare equal. -/
def FVal.lt (a b : FVal) : Bool :=
  match a, b with
  | .inf x, .inf y => x && !y
  | .inf x, .fin _ _ _ => x
  | .fin _ _ _, .inf y => !y
  | .fin x n d, .fin y m e => (FVal.fin x n d).rat.lt (FVal.fin y m e).rat
  | _, _ => false

/-- Equality of two values that are no NaNs. -/
def FVal.eq (a b : FVal) : Bool := !a.isNan && !b.isNan && !a.lt b && !b.lt a

/-- A comparison of R326 and its events. -/
def fcmpHolds (c : FCmp) (a b : FVal) : Bool × Events :=
  let n := a.isNan || b.isNan
  let sig := evIf (a.signalling || b.signalling) evNV
  match c with
  | .eq => (a.eq b, sig)
  | .ne => (!a.eq b, sig)
  | .lt => (!n && a.lt b, evIf n evNV)
  | .le => (!n && (a.lt b || a.eq b), evIf n evNV)
  | .gt => (!n && b.lt a, evIf n evNV)
  | .ge => (!n && (b.lt a || a.eq b), evIf n evNV)
  | .num => (!n, sig)
  | .nan => (n, sig)

/-- Whether a value carries a sign. -/
def FVal.neg : FVal → Bool
  | .nan _ => false
  | .inf s => s
  | .fin s _ _ => s

/-- FMIN or FMAX on FP32 patterns (R325): −0 below +0; a NaN gives way to the other operand. -/
def fminmax (isMax : Bool) (a b : Nat) : Nat × Events :=
  let x := fp32.unpack a
  let y := fp32.unpack b
  let ev := evIf (x.signalling || y.signalling) evNV
  if x.isNan && y.isNan then (fp32.qnan, ev)
  else if x.isNan then (b, ev)
  else if y.isNan then (a, ev)
  else
    let aLess := x.lt y || (x.eq y && x.neg && !y.neg)
    (if aLess != isMax then a else b, ev)

/-! ## Roots and reciprocals (R329, R335) -/

/-- The largest `r` with `r² ≤ n` whose bits lie below bit `k`. -/
def isqrt (n : Nat) : Nat → Nat → Nat
  | 0, r => r
  | k + 1, r => let t := r + 2 ^ k; isqrt n k (if t * t ≤ n then t else r)

/-- A square root, exact or with one more bit that says it is not: near enough to round into any format here as the exact root would. -/
def sqrtNear (num den : Nat) : Nat × Nat :=
  let k := 400
  let n := num * 4 ^ k / den
  let r := isqrt n ((Nat.log2 n) / 2 + 1) 0
  let exact := r * r == n && n * den == num * 4 ^ k
  (2 * r + (if exact then 0 else 1), 2 ^ (k + 1))

/-- FRCP (R329). -/
def frcpValue (mode : Rm) (a : FVal) : Nat × Events :=
  match a with
  | .nan s => (fp32.qnan, evIf s evNV)
  | .inf neg => (fp32.pack neg 0, 0)
  | .fin neg n d => if n = 0 then (fp32.infinity neg, evDZ) else fp32.deliver mode (.fin neg d n)

/-- FSQRT (R329). -/
def fsqrtValue (mode : Rm) (a : FVal) : Nat × Events :=
  match a with
  | .nan s => (fp32.qnan, evIf s evNV)
  | .inf neg => if neg then (fp32.qnan, evNV) else (fp32.infinity false, 0)
  | .fin neg n d =>
    if n = 0 then (fp32.pack neg 0, 0)
    else if neg then (fp32.qnan, evNV)
    else let (x, y) := sqrtNear n d; fp32.deliver mode (.fin false x y)

/-- FRND (R327): only a signalling NaN raises an event. -/
def frndValue (mode : Rm) (bits : Nat) : Nat × Events :=
  match fp32.unpack bits with
  | .nan s => (fp32.qnan, evIf s evNV)
  | .inf _ => (bits, 0)
  | .fin neg n d =>
    let (m, _) := roundUnits mode 0 neg n d 0
    ((fp32.deliver .rn (.fin neg m 1)).1, 0)

/-- FCLASS (R328). -/
def fclassValue (f : FFmt) (bits : Nat) : Nat :=
  match f.unpack bits with
  | .nan s => if s then 1 else 2
  | .inf neg => if neg then 4 else 512
  | .fin neg n _ =>
    let sub := bits % f.sign / 2 ^ (f.p - 1) == 0
    if n = 0 then (if neg then 32 else 64) else if sub then (if neg then 16 else 128) else (if neg then 8 else 256)

/-! ## The reproducible functions (R330 to R335) -/

/-- round_rn_fp64 of an exact number, as a number (R331). -/
def rn64 (q : Rat2) : Rat2 := (fp64.unpack (fp64.deliver .rn (q.val false)).1).rat

/-- ln 2 in FP64 (R331). -/
def constL2 : Rat2 := (fp64.unpack 0x3FE62E42FEFA39EF).rat
/-- 1 / ln 2 in FP64 (R331). -/
def constIL2 : Rat2 := (fp64.unpack 0x3FF71547652B82FE).rat

/-- A polynomial from its highest coefficient down (R331): coefficients are given highest first. -/
def hornerFrom (t : Rat2) : Rat2 → List Rat2 → Rat2
  | p, [] => p
  | p, c :: cs => hornerFrom t (rn64 ((rn64 (p.mul t)).add c)) cs

/-- `horner` of R331: coefficients in rising order. -/
def horner (c : List Rat2) (t : Rat2) : Rat2 :=
  match c.reverse with
  | [] => .int 0
  | p :: cs => hornerFrom t p cs

/-- Factorial. -/
def fact : Nat → Nat
  | 0 => 1
  | n + 1 => (n + 1) * fact n

/-- ex[k] = 1/k! (R332). -/
def coefEx : List Rat2 := (upTo 12).map fun k => rn64 { num := 1, den := fact k }
/-- lg[k] = 2/(2k + 1) (R333). -/
def coefLg : List Rat2 := (upTo 9).map fun k => rn64 { num := 2, den := 2 * k + 1 }
/-- sn[j] = (−1)^j/(2j + 1)! (R334). -/
def coefSn : List Rat2 := (upTo 9).map fun j => rn64 { num := if j % 2 = 0 then 1 else -1, den := fact (2 * j + 1) }
/-- cs[j] = (−1)^j/(2j)! (R334). -/
def coefCs : List Rat2 := (upTo 10).map fun j => rn64 { num := if j % 2 = 0 then 1 else -1, den := fact (2 * j) }

/-- π, cut after 400 binary places: more than the exact difference of R334 needs for any FP32 operand. -/
def piCut : Rat2 :=
  { num := 0x3243f6a8885a308d313198a2e03707344a4093822299f31d0082efa98ec4e6c89452821e638d01377be5466cf34e90c6cc0ac
    den := 2 ^ 400 }

/-- The nearest whole number, ties to even. -/
def Rat2.nearest (q : Rat2) : Int :=
  let m := (roundUnits .rn 0 false q.num.natAbs q.den 0).1
  if q.num < 0 then -(m : Int) else m

/-- The final rounding to FP32, inexact unless the case is one of the exact ones of R330. -/
def finish32 (q : Rat2) (exact : Bool) : Nat × Events :=
  let neg := q.num < 0
  let r := fp32.round .rn 0 neg q.num.natAbs q.den
  if fp32.top < r.code then (fp32.infinity neg, evOF ||| evIX)
  else (fp32.pack neg r.code, evIf (!exact && r.tiny) evUF ||| evIf (!exact) evIX)

/-- FEX2 (R330, R332). -/
def fex2Value (a : FVal) : Nat × Events :=
  match a with
  | .nan s => (fp32.qnan, evIf s evNV)
  | .inf neg => if neg then (0, 0) else (fp32.infinity false, 0)
  | .fin neg n d =>
    let x := (FVal.fin neg n d).rat
    if (Rat2.int 256).le x then (fp32.infinity false, evOF ||| evIX)
    else if x.le (.int (-256)) then (0, evUF ||| evIX)
    else
      let k := x.nearest
      let f := x.add (.int (-k))
      let y := rn64 (f.mul constL2)
      let v := (horner coefEx y).mul (.pow2 k)
      finish32 v (f.num = 0 && !(fp32.round .rn 0 false v.num.natAbs v.den).inexact)

/-- FLG2 (R330, R333). -/
def flg2Value (a : FVal) : Nat × Events :=
  match a with
  | .nan s => (fp32.qnan, evIf s evNV)
  | .inf neg => if neg then (fp32.qnan, evNV) else (fp32.infinity false, 0)
  | .fin neg n d =>
    if n = 0 then (fp32.infinity true, evDZ)
    else if neg then (fp32.qnan, evNV)
    else
      let e0 := floorLog2 n d
      let m0 : Rat2 := ({ num := n, den := d } : Rat2).mul (.pow2 (-e0))
      let big := ({ num := 3, den := 2 } : Rat2).lt m0
      let m := if big then m0.mul { num := 1, den := 2 } else m0
      let e := if big then e0 + 1 else e0
      let s := rn64 ((m.add (.int (-1))).div (m.add (.int 1)))
      let t := rn64 (s.mul s)
      let q := horner coefLg t
      let r := rn64 ((rn64 (s.mul q)).mul constIL2)
      finish32 (rn64 ((Rat2.int e).add r)) (m0.same (.int 1))

/-- FSIN and FCOS (R330, R334). -/
def trigValue (isCos : Bool) (a : FVal) : Nat × Events :=
  match a with
  | .nan s => (fp32.qnan, evIf s evNV)
  | .inf _ => (fp32.qnan, evNV)
  | .fin neg n d =>
    if n = 0 then (if isCos then (0x3F800000, 0) else (fp32.pack neg 0, 0))
    else
      let x := (FVal.fin neg n d).rat
      let k := ((x.mul (.int 2)).div piCut).nearest
      let y := rn64 (x.add (((Rat2.int k).mul piCut).mul { num := -1, den := 2 }))
      let t := rn64 (y.mul y)
      let sy := rn64 (y.mul (horner coefSn t))
      let cy := horner coefCs t
      let q := (if isCos then k + 1 else k) % 4
      finish32 (if q = 0 then sy else if q = 1 then cy else if q = 2 then sy.neg else cy.neg) false

/-- FRSQ (R330, R335). -/
def frsqValue (a : FVal) : Nat × Events :=
  match a with
  | .nan s => (fp32.qnan, evIf s evNV)
  | .inf neg => if neg then (fp32.qnan, evNV) else (0, 0)
  | .fin neg n d =>
    if n = 0 then (fp32.infinity neg, 0)
    else if neg then (fp32.qnan, evNV)
    else
      let (x, y) := sqrtNear n d
      let r := rn64 { num := x, den := y }
      let e := floorLog2 n d
      finish32 (rn64 ((Rat2.int 1).div r)) (e % 2 = 0 && ({ num := n, den := d } : Rat2).same (.pow2 e))

end Sys2Proof.Machine
end

