-- ==== Sys2Proof/Machine/Convert.lean ====
section
/-! DEFINITION. Philox words, element formats by code, conversion and block building (R48 to R65, R336 to R339, R352). -/

namespace Sys2Proof.Machine

/-! ## Philox4x32-10 (R352) -/

/-- One round of Philox on a counter block. -/
def philoxRound (k0 k1 : Nat) (c : Nat × Nat × Nat × Nat) : Nat × Nat × Nat × Nat :=
  let m0 := 0xD2511F53 * c.1
  let m1 := 0xCD9E8D57 * c.2.2.1
  ((m1 / 2 ^ 32) ^^^ c.2.1 ^^^ k0, m1 % 2 ^ 32, (m0 / 2 ^ 32) ^^^ c.2.2.2 ^^^ k1, m0 % 2 ^ 32)

/-- The rounds that remain; the key is raised before every round but the first. -/
def philoxRounds : Nat → Nat → Nat → Nat × Nat × Nat × Nat → Nat × Nat × Nat × Nat
  | 0, _, _, c => c
  | n + 1, k0, k1, c => philoxRounds n ((k0 + 0x9E3779B9) % 2 ^ 32) ((k1 + 0xBB67AE85) % 2 ^ 32) (philoxRound k0 k1 c)

/-- The four words of a counter block under a key (R352). -/
def philox (counter tid : Dword) (k0 k1 : Word) : List Word :=
  let c := counter.toNat
  let t := tid.toNat
  let r := philoxRounds 10 k0.toNat k1.toNat (c % 2 ^ 32, c / 2 ^ 32, t % 2 ^ 32, t / 2 ^ 32)
  [r.1, r.2.1, r.2.2.1, r.2.2.2].map (BitVec.ofNat 32)

/-- A thread's logical id (R352). -/
def Env.threadId (e : Env) (b : Nat) : Dword := BitVec.ofNat 64 (e.pos.lidx * 64 + b)

/-! ## Element formats by code (R54) -/

/-- The floating format of a code of R54, element formats of MX blocks included. -/
def floatOf (code : Nat) : Option FFmt :=
  match code with
  | 9 => some fp16 | 10 => some bf16 | 11 => some fp32 | 12 => some fp64 | 13 => some e4m3 | 14 => some e5m2 | 15 => some e4m3 | 16 => some e5m2
  | 17 => some e2m3 | 18 => some e3m2 | 19 => some e2m1 | _ => none

/-- The integer type of a code of R54: signed, and bits. -/
def intOf (code : Nat) : Option (Bool × Nat) :=
  match code with
  | 1 => some (true, 8) | 2 => some (false, 8) | 3 => some (true, 16) | 4 => some (false, 16) | 5 => some (true, 32) | 6 => some (false, 32)
  | 7 => some (true, 64) | 8 => some (false, 64) | _ => none

/-- Bits of an element in memory (R44, R48 to R53, R60, R62). -/
def elementBits (code : Nat) : Nat :=
  match code with
  | 1 | 2 | 13 | 14 | 15 | 16 | 20 | 22 | 23 => 8
  | 3 | 4 | 9 | 10 => 16
  | 5 | 6 | 11 | 24 => 32
  | 7 | 8 | 12 => 64
  | 17 | 18 => 6
  | 19 | 21 => 4
  | _ => 8

/-- A number of `w` bits read with its sign. -/
def signedOf (w n : Nat) : Int := if 2 ^ (w - 1) ≤ n % 2 ^ w then (n % 2 ^ w : Nat) - (2 ^ w : Nat) else (n % 2 ^ w : Nat)

/-- A whole number as a value. -/
def FVal.ofInt (x : Int) : FVal := .fin (x < 0) x.natAbs 1

/-- The value of an element that stands alone: every format but the block formats (R44, R45, R48, R60, R62). -/
def elementValue (code n : Nat) : FVal :=
  match floatOf code with
  | some f => f.unpack n
  | none => match intOf code with
    | some (sgn, w) => .ofInt (if sgn then signedOf w n else (n % 2 ^ w : Nat))
    | none =>
      if code = 23 then .fin false (n % 256) 255
      else
        let q := signedOf 24 n
        .fin (q < 0) q.natAbs 256

/-! ## CVT (R336, R337) -/

/-- Conversion to UNORM8 (R62). -/
def toUnorm8 (mode : Rm) (v : FVal) : Nat × Events :=
  match v with
  | .nan _ => (0, evNV)
  | .inf neg => (if neg then 0 else 255, evSAT)
  | .fin neg n d =>
    if neg && n != 0 then (0, evSAT ||| evIX)
    else if d < n then (255, evSAT ||| evIX)
    else
      let (m, ix) := roundUnits mode 0 false (n * 255) d 0
      (m, evIf ix evIX)

/-- Conversion to Q16.8 (R337): the code in 24 bits. -/
def toQ16 (mode : Rm) (v : FVal) : Int × Events :=
  toBounds mode (-(2 ^ 23)) (2 ^ 23 - 1) (match v with | .fin neg n d => .fin neg (n * 256) d | x => x)

/-- A value delivered by CVT in a format: the result bits, in 32 or 64 bits as the format has, and the events (R337). -/
def cvtTo (code : Nat) (mode : Rm) (u : Word) (v : FVal) : Nat × Events :=
  match floatOf code with
  | some f => f.convert mode u v
  | none => match intOf code with
    | some (sgn, w) =>
      let (x, e) := if sgn then toBounds mode (-(2 ^ (w - 1))) (2 ^ (w - 1) - 1) v else toBounds mode 0 (2 ^ w - 1) v
      ((x % (2 ^ (max w 32) : Nat)).toNat, e)
    | none =>
      if code = 23 then toUnorm8 mode v
      else
        let (x, e) := toQ16 mode v
        ((x % (2 ^ 32 : Nat)).toNat, e)

/-- Whether a format of CVT takes a register pair (R337). -/
def cvtWide (code : Nat) : Bool := code == 7 || code == 8 || code == 12

/-- Whether bit `i` of a number is 1. -/
def bitOfNat (x i : Nat) : Bool := x / 2 ^ i % 2 == 1

/-! ## Blocks (R49 to R53, R339) -/

/-- EMAX of an element format (R339). -/
def blockEmax (code : Nat) : Int :=
  match code with
  | 15 => 8 | 16 => 15 | 17 => 2 | 18 => 4 | 19 => 2 | _ => 0

/-- The element code of MXINT8 for a value already divided by its scale (R51, R339). -/
def toMxint8 (mode : Rm) (u : Word) (v : FVal) : Nat × Events :=
  match v with
  | .nan _ => (0, evNV)
  | .inf neg => (if neg then 128 else 127, evSAT)
  | .fin neg n d =>
    let (m, ix) := roundUnits mode u neg (n * 64) d 0
    let x : Int := if neg then -(m : Int) else m
    if x < -128 then (128, evSAT ||| evIX) else if 127 < x then (127, evSAT ||| evIX) else ((x % 256).toNat, evIf ix evIX)

/-- An element's value divided by a power of two. -/
def FVal.scale (v : FVal) (e : Int) : FVal :=
  match v with
  | .fin neg n d => if 0 ≤ e then .fin neg (n * 2 ^ e.toNat) d else .fin neg n (d * 2 ^ (-e).toNat)
  | x => x

/-- The largest finite magnitude of a list. -/
def amaxOf (l : List FVal) : Rat2 :=
  l.foldl (fun a v => match v with | .fin _ n d => if a.lt { num := n, den := d } then { num := n, den := d } else a | _ => a) { num := 0, den := 1 }

/-- The scale code of an MX block (R339). -/
def mxScale (code : Nat) (amax : Rat2) : Nat :=
  if amax.num = 0 then 0
  else
    let x := floorLog2 amax.num.toNat amax.den - blockEmax code + 127
    if x < 0 then 0 else if 254 < x then 254 else x.toNat

/-- The element code of an MX block under its scale (R339). -/
def mxCode (code scale : Nat) (mode : Rm) (u : Word) (v : FVal) : Nat × Events :=
  let x := v.scale (127 - (scale : Int))
  if code = 20 then toMxint8 mode u x
  else match floatOf code with
    | some f => f.convert mode u x
    | none => (0, 0)

/-- Magnitude bits of a DBF format (R52). -/
def dbfBits (code : Nat) : Nat := if code = 21 then 2 else 6

/-- A magnitude under a DBF exponent, rounded in a mode as the number without sign that it is (R339). -/
def dbfMag (m : Nat) (mode : Rm) (u : Word) (n d : Nat) (e : Nat) : Nat × Bool :=
  roundUnits mode u false n d ((e : Int) - 126 - m)

/-- The exponents of a DBF block (R339). -/
def dbfExponents (m : Nat) (amax : Rat2) : Nat × Nat :=
  let e0 := ((upTo 255).find? fun e => (dbfMag m .rn 0 amax.num.toNat amax.den e).1 ≤ 2 ^ m - 1).getD 254
  (e0, e0 - 2 * m)

/-- The selector of a value: the exponent whose RN encoding lies nearer; ties to 0 (R339). -/
def dbfSel (m e0 e1 : Nat) (n d : Nat) : Bool :=
  let x : Rat2 := { num := n, den := d }
  let err := fun e =>
    let k := min (dbfMag m .rn 0 n d e).1 (2 ^ m - 1)
    (((Rat2.int k).mul (.pow2 ((e : Int) - 126 - m))).add x.neg).abs
  (err e1).lt (err e0)

/-- The element code of a DBF block (R52, R65, R339). -/
def dbfCode (code : Nat) (e0 e1 : Nat) (mode : Rm) (u : Word) (v : FVal) : Nat × Events :=
  let m := dbfBits code
  let make := fun (neg sel : Bool) (k : Nat) => neg.toNat * 2 ^ (m + 1) + sel.toNat * 2 ^ m + k
  match v with
  | .nan _ => (0, evNV)
  | .inf neg => (make neg false (2 ^ m - 1), evSAT)
  | .fin neg n d =>
    let sel := dbfSel m e0 e1 n d
    let (k, ix) := dbfMag m mode u n d (if sel then e1 else e0)
    if 2 ^ m - 1 < k then (make neg sel (2 ^ m - 1), evSAT ||| evIX) else (make neg sel k, evIf ix evIX)

/-- The events of an element of an all-zero DBF block (R339). -/
def dbfZeroEvents (v : FVal) : Events :=
  match v with
  | .nan _ => evNV
  | .inf _ => evSAT
  | .fin _ _ _ => 0

/-- The scale or header of a block, and the code and events of each element (R339). -/
def packBlock (code : Nat) (valid : List FVal) : Nat × (Rm → Word → FVal → Nat × Events) :=
  let amax := amaxOf valid
  if code = 21 || code = 22 then
    if amax.num = 0 then (0xFFFF, fun _ _ v => (0, dbfZeroEvents v))
    else
      let (e0, e1) := dbfExponents (dbfBits code) amax
      (e1 * 256 + e0, dbfCode code e0 e1)
  else
    let x := mxScale code amax
    (x, mxCode code x)

/-- The value of element bits of a block format under its scale or header (R49 to R52). -/
def blockValue (code scale n : Nat) : FVal :=
  if code = 21 || code = 22 then
    let m := dbfBits code
    if scale = 0xFFFF then .fin false 0 1
    else
      let e := if bitOfNat n m then scale / 256 % 256 else scale % 256
      (FVal.fin (bitOfNat n (m + 1)) (n % 2 ^ m) 1).scale ((e : Int) - 126 - m)
  else if scale = 255 then .nan false
  else if code = 20 then
    let x := signedOf 8 n
    (FVal.fin (x < 0) x.natAbs 64).scale ((scale : Int) - 127)
  else match floatOf code with
    | some f => (f.unpack n).scale ((scale : Int) - 127)
    | none => .fin false 0 1

end Sys2Proof.Machine
end

