-- ==== Sys2Proof/Machine/Integer.lean ====
section
/-! DEFINITION. Integer, logic, address and move instructions (R300 to R320). -/

namespace Sys2Proof

open Machine

/-- A source as a number without sign: a register, or a pair when `wide` (R44, R304). -/
def Src.nat (x : Src) (env : Env) (rf : RF) (second wide : Bool) (b : Nat) : Nat :=
  if wide then (x.dword env rf second b).toNat else (x.word env rf second 0 b).toNat

/-- An operand as a number without sign. -/
def Opd.nat (x : Opd) (env : Env) (rf : RF) (wide : Bool) (b : Nat) : Nat :=
  if wide then (x.dword env rf b).toNat else (x.word env rf 0 b).toNat

/-- A result narrowed to a register or a pair and written. -/
def Opd.putNat (d : Opd) (env : Env) (rf : RF) (wide : Bool) (b : Nat) (n : Nat) : RF :=
  if wide then d.putD env rf b (BitVec.ofNat 64 n) else d.put env rf 0 b (BitVec.ofNat 32 n)

/-- Whether a type extends with its sign: the `.i` types (R10). -/
def Ty.signed : Ty → Bool
  | .i32 | .i64 | .i16 | .i8 => true
  | _ => false

/-- The width of a type in bits (R10). -/
def Ty.width : Ty → Nat
  | .i32 | .n32 | .f32 | .b32 => 32
  | .i64 | .n64 | .f64 => 64
  | .i16 | .n16 | .f16 | .bf16 => 16
  | .i8 | .n8 | .e4m3 | .e5m2 => 8

/-- `ext` of chapter 16: the number a word of a type stands for. -/
def Ty.ext (ty : Ty) (n : Nat) : Int := if ty.signed && 2 ^ (ty.width - 1) ≤ n then (n : Int) - 2 ^ ty.width else n

end Sys2Proof

namespace Sys2Proof.Machine

/-! ## Shapes -/

/-- Whether a source goes through the permutation stage (R156). -/
def permuted (a : Src) : Bool := match a with | .reg _ .id => false | .reg _ _ => true | .imm _ => false

/-- What an instruction of up to two sources and a C operand uses: register counts of D, A, B; latency class (R167, R171, R303); whether the ALU
predicts the residue of its result (R159). -/
def Uses.alu (lat : Nat) (d : Opd) (nd : Nat) (a : Src) (na : Nat) (b : Src) (nb : Nat) (c : List (Opd × Nat)) (pred : Bool := false) : Uses :=
  let xch := permuted a || permuted b
  { Uses.nil with
    rd := srcGroup a na ++ srcGroup b nb ++ c, wr := [(d, nd)], a := srcPerm a na, b := srcPerm b nb, uni := !d.perThread, xch := xch
    lat := if xch then 0 else lat, predicted := pred }

/-- Registers of a value. -/
def regsOf (wide : Bool) : Nat := if wide then 2 else 1

/-- An instruction of one source. -/
def State.alu1 (s : State) (h : Hdr) (lat : Nat) (wd wa : Bool) (d : Opd) (a : Src) (f : Nat → Nat) : State :=
  s.compute h (.alu lat d (regsOf wd) a (regsOf wa) (.imm 0) 0 []) fun env b rf => d.putNat env rf wd b (f (a.nat env rf false wa b))

/-- An instruction of two sources. -/
def State.alu2 (s : State) (h : Hdr) (lat : Nat) (wd wa wb : Bool) (d : Opd) (a b : Src) (f : Nat → Nat → Nat) (pred : Bool := false) : State :=
  s.compute h (.alu lat d (regsOf wd) a (regsOf wa) b (regsOf wb) [] pred) fun env i rf =>
    d.putNat env rf wd i (f (a.nat env rf false wa i) (b.nat env rf true wb i))

/-- An instruction of three sources, C last. -/
def State.alu3 (s : State) (h : Hdr) (lat : Nat) (wd wc : Bool) (d : Opd) (a b : Src) (c : Opd) (f : Nat → Nat → Nat → Nat) (pred : Bool := false) : State :=
  s.compute h (.alu lat d (regsOf wd) a 1 b 1 [(c, regsOf wc)] pred) fun env i rf =>
    d.putNat env rf wd i (f (a.nat env rf false false i) (b.nat env rf true false i) (c.nat env rf wc i))

/-- The low bits of an integer as a number (two's complement; chapter 16, `bits`). -/
def bitsOf (w : Nat) (x : Int) : Nat := (x % (2 ^ w : Nat)).toNat

/-! ## Values -/

/-- Sum or difference with carry or borrow in: the low bits, and the carry or borrow out (R305). -/
def addCarry (sub : Bool) (w a x ci : Nat) : Nat × Bool :=
  if sub then (bitsOf w ((a : Int) - x - ci), a < x + ci) else ((a + x + ci) % 2 ^ w, 2 ^ w ≤ a + x + ci)

/-- ISHL (R309). -/
def shlValue (w a n : Nat) : Nat := if w ≤ n then 0 else a * 2 ^ n % 2 ^ w

/-- ISHR (R309). -/
def shrValue (w a n : Nat) : Nat := if w ≤ n then 0 else a / 2 ^ n

/-- ISAR (R309): an amount of the width or more leaves the sign. -/
def sarValue (ty : Ty) (a n : Nat) : Nat := bitsOf ty.width (Int.shiftRight (ty.ext a) (min n ty.width))

/-- ROT (R309): rotation left, the amount taken modulo the width. -/
def rotValue (w a n : Nat) : Nat := (a * 2 ^ (n % w) + a / 2 ^ (w - n % w)) % 2 ^ w

/-- Whether bit `i` of a number is 1. -/
def bitOf (x i : Nat) : Bool := x / 2 ^ i % 2 == 1

/-- A number from its bits, bit 0 first. -/
def ofBits : List Bool → Nat
  | [] => 0
  | b :: t => b.toNat + 2 * ofBits t

/-- BFN3 (R311). -/
def bfn3Value (lut a x c : Nat) : Nat := ofBits ((upTo 32).map fun i => bitOf lut ((bitOf a i).toNat + 2 * (bitOf x i).toNat + 4 * (bitOf c i).toNat))

/-- POPC (R312). -/
def popcValue (w a : Nat) : Nat := ((upTo w).filter (bitOf a)).length

/-- CLZ (R312). -/
def clzValue (w a : Nat) : Nat := if a = 0 then w else w - 1 - Nat.log2 a

/-- CTZ (R312). -/
def ctzValue (w a : Nat) : Nat := ((upTo w).find? (bitOf a)).getD w

/-- BREV (R312). -/
def brevValue (w a : Nat) : Nat := ofBits ((upTo w).map fun i => bitOf a (w - 1 - i))

/-- The position and length of a control word, cut at bit 31 (R313). -/
def fieldOf (ctl : Nat) : Nat × Nat :=
  let p := min (ctl % 256) 32
  (p, min (ctl / 256 % 256) (32 - p))

/-- BFE (R313). -/
def bfeValue (sgn : Bool) (a ctl : Nat) : Nat :=
  let (p, n) := fieldOf ctl
  if n = 0 then 0
  else
    let f := a / 2 ^ p % 2 ^ n
    if sgn && bitOf f (n - 1) then f + 2 ^ 32 - 2 ^ n else f

/-- BFI (R314): outside the field the base stands. -/
def bfiValue (a base ctl : Nat) : Nat :=
  let (p, n) := fieldOf ctl
  base - base / 2 ^ p % 2 ^ n * 2 ^ p + a % 2 ^ n * 2 ^ p

/-- A byte with its bits in the opposite order. -/
def revByte (y : Nat) : Nat := brevValue 8 y

/-- One byte of BYSEL from the pool and a control byte (R315). -/
def byselByte (pool g : Nat) : Nat :=
  let y := pool / 256 ^ (g % 8) % 256
  let m := match g / 8 % 4 with
    | 0 => y
    | 1 => if bitOf y 7 then 255 else 0
    | 2 => 0
    | _ => 255
  if bitOf g 5 then revByte m else m

/-- BYSEL (R315). -/
def byselValue (a second sel : Nat) : Nat :=
  let pool := a + 2 ^ 32 * second
  ((upTo 4).map fun i => byselByte pool (sel / 256 ^ i % 256) * 256 ^ i).sum

/-- The comparisons of R316. -/
def icmpHolds (c : ICmp) (x y : Int) : Bool :=
  match c with
  | .eq => x == y | .ne => x != y | .lt => x < y | .le => x ≤ y | .gt => y < x | .ge => y ≤ x

/-- LEA (R319). -/
def leaValue (ty : Ty) (sh a idx : Nat) : Nat := bitsOf 64 ((a : Int) + ty.ext idx * 2 ^ sh)

/-! ## Add and subtract (R305, R306) -/

/-- The predicate a carry field names: 0 none, 1 to 7 p0 to p6 (R301). -/
def carryPred (x : BitVec 3) : List (BitVec 3) := if x = 0 then [] else [x - 1]

/-- IADD and ISUB share their beats (R305). -/
def State.addSub (s : State) (sub : Bool) (h : Hdr) (ty : Ty) (co ci : BitVec 3) (d : Opd) (a b : Src) : State :=
  let n := regsOf ty.is64
  s.compute h { Uses.alu 4 d n a n b n [] true with pr := carryPred ci, pw := carryPred co } fun env i rf =>
    let cin := ci != 0 && rf.getPred env (ci - 1) i
    let (r, cout) := addCarry sub ty.width (a.nat env rf false ty.is64 i) (b.nat env rf true ty.is64 i) cin.toNat
    let rf := d.putNat env rf ty.is64 i r
    if co = 0 then rf else rf.setPred (co - 1) i cout

/-- IADD (R305). -/
def execIadd (h : Hdr) (ty : Ty) (co ci : BitVec 3) (d : Opd) (a b : Src) (s : State) : Host.Outcome State Fault Refusal :=
  .next (s.addSub false h ty co ci d a b)

/-- ISUB (R305). -/
def execIsub (h : Hdr) (ty : Ty) (co ci : BitVec 3) (d : Opd) (a b : Src) (s : State) : Host.Outcome State Fault Refusal :=
  .next (s.addSub true h ty co ci d a b)

/-- IADD3 (R306). -/
def execIadd3 (h : Hdr) (_ty : Ty) (d : Opd) (a b : Src) (c : Opd) (s : State) : Host.Outcome State Fault Refusal :=
  .next (s.alu3 h 4 false false d a b c (pred := true) fun x y z => x + y + z)

/-! ## Multiply (R307) -/

/-- IMUL (R307). -/
def execImul (h : Hdr) (ty : Ty) (d : Opd) (a b : Src) (s : State) : Host.Outcome State Fault Refusal :=
  .next (s.alu2 h 6 ty.is64 ty.is64 ty.is64 d a b (pred := true) fun x y => x * y)

/-- IMULH (R307). -/
def execImulh (h : Hdr) (ty : Ty) (d : Opd) (a b : Src) (s : State) : Host.Outcome State Fault Refusal :=
  .next (s.alu2 h 6 ty.is64 ty.is64 ty.is64 d a b (pred := true) fun x y => bitsOf (2 * ty.width) (ty.ext x * ty.ext y) / 2 ^ ty.width)

/-- IMAD (R307). -/
def execImad (h : Hdr) (_ty : Ty) (d : Opd) (a b : Src) (c : Opd) (s : State) : Host.Outcome State Fault Refusal :=
  .next (s.alu3 h 6 false false d a b c (pred := true) fun x y z => x * y + z)

/-- IMADW (R307). -/
def execImadw (h : Hdr) (ty : Ty) (d : Opd) (a b : Src) (c : Opd) (s : State) : Host.Outcome State Fault Refusal :=
  .next (s.alu3 h 6 true true d a b c (pred := true) fun x y z => bitsOf 64 (ty.ext x * ty.ext y + z))

/-! ## Sign and bounds (R308) -/

/-- INEG (R308). -/
def execIneg (h : Hdr) (ty : Ty) (d : Opd) (a : Src) (s : State) : Host.Outcome State Fault Refusal :=
  .next (s.alu1 h 4 ty.is64 ty.is64 d a fun x => bitsOf ty.width (-ty.ext x))

/-- IABS (R308): the minimum value returns itself. -/
def execIabs (h : Hdr) (ty : Ty) (d : Opd) (a : Src) (s : State) : Host.Outcome State Fault Refusal :=
  .next (s.alu1 h 4 ty.is64 ty.is64 d a fun x => (ty.ext x).natAbs)

/-- IMIN (R308). -/
def execImin (h : Hdr) (ty : Ty) (d : Opd) (a b : Src) (s : State) : Host.Outcome State Fault Refusal :=
  .next (s.alu2 h 4 ty.is64 ty.is64 ty.is64 d a b fun x y => if ty.ext x ≤ ty.ext y then x else y)

/-- IMAX (R308). -/
def execImax (h : Hdr) (ty : Ty) (d : Opd) (a b : Src) (s : State) : Host.Outcome State Fault Refusal :=
  .next (s.alu2 h 4 ty.is64 ty.is64 ty.is64 d a b fun x y => if ty.ext y ≤ ty.ext x then x else y)

/-! ## Shifts and rotation (R309) -/

/-- ISHL (R309). -/
def execIshl (h : Hdr) (ty : Ty) (d : Opd) (a b : Src) (s : State) : Host.Outcome State Fault Refusal :=
  .next (s.alu2 h 4 ty.is64 ty.is64 false d a b (shlValue ty.width) true)

/-- ISHR (R309). -/
def execIshr (h : Hdr) (ty : Ty) (d : Opd) (a b : Src) (s : State) : Host.Outcome State Fault Refusal :=
  .next (s.alu2 h 4 ty.is64 ty.is64 false d a b (shrValue ty.width))

/-- ISAR (R309). -/
def execIsar (h : Hdr) (ty : Ty) (d : Opd) (a b : Src) (s : State) : Host.Outcome State Fault Refusal :=
  .next (s.alu2 h 4 ty.is64 ty.is64 false d a b (sarValue ty))

/-- ROT (R309). -/
def execRot (h : Hdr) (ty : Ty) (d : Opd) (a b : Src) (s : State) : Host.Outcome State Fault Refusal :=
  .next (s.alu2 h 4 ty.is64 ty.is64 false d a b (rotValue ty.width))

/-! ## Logic (R310, R311) -/

/-- AND (R310). -/
def execLand (h : Hdr) (ty : Ty) (d : Opd) (a b : Src) (s : State) : Host.Outcome State Fault Refusal :=
  .next (s.alu2 h 4 ty.is64 ty.is64 ty.is64 d a b fun x y => x &&& y)

/-- OR (R310). -/
def execLor (h : Hdr) (ty : Ty) (d : Opd) (a b : Src) (s : State) : Host.Outcome State Fault Refusal :=
  .next (s.alu2 h 4 ty.is64 ty.is64 ty.is64 d a b fun x y => x ||| y)

/-- XOR (R310). -/
def execLxor (h : Hdr) (ty : Ty) (d : Opd) (a b : Src) (s : State) : Host.Outcome State Fault Refusal :=
  .next (s.alu2 h 4 ty.is64 ty.is64 ty.is64 d a b fun x y => x ^^^ y)

/-- NOT (R310). -/
def execLnot (h : Hdr) (ty : Ty) (d : Opd) (a : Src) (s : State) : Host.Outcome State Fault Refusal :=
  .next (s.alu1 h 4 ty.is64 ty.is64 d a fun x => 2 ^ ty.width - 1 - x)

/-- BFN3 (R311). -/
def execBfn3 (h : Hdr) (lut : BitVec 8) (d : Opd) (a b : Src) (c : Opd) (s : State) : Host.Outcome State Fault Refusal :=
  .next (s.alu3 h 4 false false d a b c (bfn3Value lut.toNat))

/-! ## Counting and reversal (R312) -/

/-- POPC (R312): one register, whatever the source. -/
def execPopc (h : Hdr) (ty : Ty) (d : Opd) (a : Src) (s : State) : Host.Outcome State Fault Refusal :=
  .next (s.alu1 h 4 false ty.is64 d a (popcValue ty.width))

/-- CLZ (R312). -/
def execClz (h : Hdr) (ty : Ty) (d : Opd) (a : Src) (s : State) : Host.Outcome State Fault Refusal :=
  .next (s.alu1 h 4 false ty.is64 d a (clzValue ty.width))

/-- CTZ (R312). -/
def execCtz (h : Hdr) (ty : Ty) (d : Opd) (a : Src) (s : State) : Host.Outcome State Fault Refusal :=
  .next (s.alu1 h 4 false ty.is64 d a (ctzValue ty.width))

/-- BREV (R312). -/
def execBrev (h : Hdr) (ty : Ty) (d : Opd) (a : Src) (s : State) : Host.Outcome State Fault Refusal :=
  .next (s.alu1 h 4 ty.is64 ty.is64 d a (brevValue ty.width))

/-! ## Fields and bytes (R313 to R315) -/

/-- BFE (R313). -/
def execBfe (h : Hdr) (ty : Ty) (d : Opd) (a b : Src) (s : State) : Host.Outcome State Fault Refusal :=
  .next (s.alu2 h 4 false false false d a b (bfeValue ty.signed))

/-- BFI (R314). -/
def execBfi (h : Hdr) (d : Opd) (a b : Src) (c : Opd) (s : State) : Host.Outcome State Fault Refusal :=
  .next (s.alu3 h 4 false false d a b c bfiValue)

/-- BYSEL (R315): without a selector operand of its own, B is the selector and the second word is zero. -/
def execBysel (h : Hdr) (d : Opd) (a b : Src) (sel : Option Src) (s : State) : Host.Outcome State Fault Refusal :=
  match sel with
  | none => .next (s.alu2 h 4 false false false d a b fun x y => byselValue x 0 y)
  | some c => .next (s.compute h (.alu 4 d 1 a 1 b 1 (srcGroup c 1)) fun env i rf =>
      d.putNat env rf false i (byselValue (a.nat env rf false false i) (b.nat env rf true false i) (c.nat env rf false false i)))

/-! ## Compare, select, predicates (R316 to R318) -/

/-- ISET (R316): always per thread (R303). -/
def execIset (h : Hdr) (ty : Ty) (cmp : ICmp) (p : BitVec 3) (a b : Src) (s : State) : Host.Outcome State Fault Refusal :=
  let n := regsOf ty.is64
  .next (s.compute h { Uses.alu 4 .sz 0 a n b n [] with wr := [], pw := [p], uni := false } fun env i rf =>
    rf.setPred p i (icmpHolds cmp (ty.ext (a.nat env rf false ty.is64 i)) (ty.ext (b.nat env rf true ty.is64 i))))

/-- ISEL (R317). -/
def execIsel (h : Hdr) (ty : Ty) (p : BitVec 3) (neg : Bool) (d : Opd) (a b : Src) (s : State) : Host.Outcome State Fault Refusal :=
  let n := regsOf ty.is64
  .next (s.compute h { Uses.alu 4 d n a n b n [] with pr := [p] } fun env i rf =>
    d.putNat env rf ty.is64 i (if rf.getPred env p i != neg then a.nat env rf false ty.is64 i else b.nat env rf true ty.is64 i))

/-- PSET (R318): always per thread (R303). -/
def execPset (h : Hdr) (lut : BitVec 8) (pd pa pb pc : BitVec 3) (s : State) : Host.Outcome State Fault Refusal :=
  .next (s.compute h { Uses.nil with pr := [pa, pb, pc], pw := [pd], lat := 4 } fun env i rf =>
    rf.setPred pd i (bitOf lut.toNat ((rf.getPred env pa i).toNat + 2 * (rf.getPred env pb i).toNat + 4 * (rf.getPred env pc i).toNat)))

/-! ## Addresses and moves (R319, R320) -/

/-- LEA (R319). -/
def execLea (h : Hdr) (ty : Ty) (sh : BitVec 4) (d : Opd) (a b : Src) (s : State) : Host.Outcome State Fault Refusal :=
  .next (s.alu2 h 4 true true false d a b (leaValue ty sh.toNat))

/-- MOV (R320). -/
def execMov (h : Hdr) (ty : Ty) (d : Opd) (a : Src) (s : State) : Host.Outcome State Fault Refusal :=
  .next (s.alu1 h 4 ty.is64 ty.is64 d a fun x => x)

/-- MOVI (R320). -/
def execMovi (h : Hdr) (ty : Ty) (d : Opd) (x : BitVec 64) (s : State) : Host.Outcome State Fault Refusal :=
  .next (s.alu1 h 4 ty.is64 ty.is64 d (.imm x) fun x => x)

end Sys2Proof.Machine
end

