-- ==== Sys2Proof/Machine/Float.lean ====
section
/-! DEFINITION. Floating-point, conversion and block-building instructions (R321 to R340). -/

namespace Sys2Proof.Machine

/-! ## Shapes -/

/-- An instruction of two single registers. -/
def State.fop2 (s : State) (h : Hdr) (lat : Nat) (d : Opd) (a b : Src) (f : Nat → Nat → Nat × Events) (pred : Bool := false) : State :=
  s.compute h (.alu lat d 1 a 1 b 1 [] pred) fun env i rf =>
    let (r, e) := f (a.nat env rf false false i) (b.nat env rf true false i)
    (d.putNat env rf false i r).raise e

/-- A fused multiply and add of single registers (R159). -/
def State.fop3 (s : State) (h : Hdr) (lat : Nat) (d : Opd) (a b : Src) (c : Opd) (f : Nat → Nat → Nat → Nat × Events) : State :=
  s.compute h (.alu lat d 1 a 1 b 1 [(c, 1)] true) fun env i rf =>
    let (r, e) := f (a.nat env rf false false i) (b.nat env rf true false i) (c.nat env rf false i)
    (d.putNat env rf false i r).raise e

/-- An instruction of one source. -/
def State.fop1 (s : State) (h : Hdr) (lat : Nat) (wd wa : Bool) (d : Opd) (a : Src) (f : Nat → Nat × Events) : State :=
  s.compute h (.alu lat d (regsOf wd) a (regsOf wa) (.imm 0) 0 []) fun env i rf =>
    let (r, e) := f (a.nat env rf false wa i)
    (d.putNat env rf wd i r).raise e

/-- An FP64 instruction of two pairs: four cycles a beat, results scoreboarded (R163, R323). -/
def State.dop2 (s : State) (h : Hdr) (d : Opd) (a b : Src) (f : Nat → Nat → Nat × Events) : State :=
  s.compute h { Uses.alu 0 d 2 a 2 b 2 [] true with fp64 := true } fun env i rf =>
    let (r, e) := f (a.nat env rf false true i) (b.nat env rf true true i)
    (d.putNat env rf true i r).raise e

/-- A comparison into a predicate; always per thread (R303, R326). -/
def State.fcompare (s : State) (h : Hdr) (wide : Bool) (f : FFmt) (cmp : FCmp) (p : BitVec 3) (a b : Src) : State :=
  let n := regsOf wide
  s.compute h { Uses.alu (if wide then 0 else 6) .sz 0 a n b n [] with wr := [], pw := [p], uni := false, fp64 := wide } fun env i rf =>
    let (r, e) := fcmpHolds cmp (f.unpack (a.nat env rf false wide i)) (f.unpack (b.nat env rf true wide i))
    (rf.setPred p i r).raise e

/-- The two elements of a register, each put through a function of its own operands (R44, R324). -/
def halves (x : Nat) : Nat × Nat := (x % 65536, x / 65536 % 65536)

/-- Two element results joined, their events together. -/
def join2 (lo hi : Nat × Events) : Nat × Events := (lo.1 + 65536 * hi.1, lo.2 ||| hi.2)

/-- The format of a paired-half type. -/
def halfOf (ty : Ty) : FFmt := if ty == .bf16 then bf16 else fp16

/-! ## Arithmetic (R324) -/

/-- FADD (R324). -/
def execFadd (h : Hdr) (rm : Rm) (na nb : Bool) (d : Opd) (a b : Src) (s : State) : Host.Outcome State Fault Refusal :=
  .next (s.fop2 h 6 d a b (pred := true) fun x y => fp32.sum rm ((fp32.unpack x).negate na) ((fp32.unpack y).negate nb))

/-- FMUL (R324). -/
def execFmul (h : Hdr) (rm : Rm) (na nb : Bool) (d : Opd) (a b : Src) (s : State) : Host.Outcome State Fault Refusal :=
  .next (s.fop2 h 6 d a b (pred := true) fun x y => fp32.product rm ((fp32.unpack x).negate na) ((fp32.unpack y).negate nb))

/-- FFMA (R324). -/
def execFfma (h : Hdr) (rm : Rm) (na nb nc : Bool) (d : Opd) (a b : Src) (c : Opd) (s : State) : Host.Outcome State Fault Refusal :=
  .next (s.fop3 h 6 d a b c fun x y z => fp32.fused rm ((fp32.unpack x).negate na) ((fp32.unpack y).negate nb) ((fp32.unpack z).negate nc))

/-- FMIN (R325). -/
def execFmin (h : Hdr) (d : Opd) (a b : Src) (s : State) : Host.Outcome State Fault Refusal :=
  .next (s.fop2 h 6 d a b (fminmax false))

/-- FMAX (R325). -/
def execFmax (h : Hdr) (d : Opd) (a b : Src) (s : State) : Host.Outcome State Fault Refusal :=
  .next (s.fop2 h 6 d a b (fminmax true))

/-- FSET (R326). -/
def execFset (h : Hdr) (cmp : FCmp) (p : BitVec 3) (a b : Src) (s : State) : Host.Outcome State Fault Refusal :=
  .next (s.fcompare h false fp32 cmp p a b)

/-- FRCP (R329). -/
def execFrcp (h : Hdr) (rm : Rm) (d : Opd) (a : Src) (s : State) : Host.Outcome State Fault Refusal :=
  .next (s.fop1 h 0 false false d a fun x => frcpValue rm (fp32.unpack x))

/-- FRSQ (R330, R335). -/
def execFrsq (h : Hdr) (d : Opd) (a : Src) (s : State) : Host.Outcome State Fault Refusal :=
  .next (s.fop1 h 0 false false d a fun x => frsqValue (fp32.unpack x))

/-- FSQRT (R329). -/
def execFsqrt (h : Hdr) (rm : Rm) (d : Opd) (a : Src) (s : State) : Host.Outcome State Fault Refusal :=
  .next (s.fop1 h 0 false false d a fun x => fsqrtValue rm (fp32.unpack x))

/-- FEX2 (R330, R332). -/
def execFex2 (h : Hdr) (d : Opd) (a : Src) (s : State) : Host.Outcome State Fault Refusal :=
  .next (s.fop1 h 0 false false d a fun x => fex2Value (fp32.unpack x))

/-- FLG2 (R330, R333). -/
def execFlg2 (h : Hdr) (d : Opd) (a : Src) (s : State) : Host.Outcome State Fault Refusal :=
  .next (s.fop1 h 0 false false d a fun x => flg2Value (fp32.unpack x))

/-- FSIN (R330, R334). -/
def execFsin (h : Hdr) (d : Opd) (a : Src) (s : State) : Host.Outcome State Fault Refusal :=
  .next (s.fop1 h 0 false false d a fun x => trigValue false (fp32.unpack x))

/-- FCOS (R330, R334). -/
def execFcos (h : Hdr) (d : Opd) (a : Src) (s : State) : Host.Outcome State Fault Refusal :=
  .next (s.fop1 h 0 false false d a fun x => trigValue true (fp32.unpack x))

/-- FRND (R327). -/
def execFrnd (h : Hdr) (rm : Rm) (d : Opd) (a : Src) (s : State) : Host.Outcome State Fault Refusal :=
  .next (s.fop1 h 6 false false d a (frndValue rm))

/-- The format FCLASS reads by its type (R321, R328). -/
def classFmt (ty : Ty) : FFmt :=
  match ty with
  | .f64 => fp64 | .f16 => fp16 | .bf16 => bf16 | _ => fp32

/-- FCLASS (R328). -/
def execFclass (h : Hdr) (ty : Ty) (d : Opd) (a : Src) (s : State) : Host.Outcome State Fault Refusal :=
  .next (s.fop1 h 6 false ty.is64 d a fun x => (fclassValue (classFmt ty) x, 0))

/-- DADD (R324). -/
def execDadd (h : Hdr) (rm : Rm) (na nb : Bool) (d : Opd) (a b : Src) (s : State) : Host.Outcome State Fault Refusal :=
  .next (s.dop2 h d a b fun x y => fp64.sum rm ((fp64.unpack x).negate na) ((fp64.unpack y).negate nb))

/-- DMUL (R324). -/
def execDmul (h : Hdr) (rm : Rm) (na nb : Bool) (d : Opd) (a b : Src) (s : State) : Host.Outcome State Fault Refusal :=
  .next (s.dop2 h d a b fun x y => fp64.product rm ((fp64.unpack x).negate na) ((fp64.unpack y).negate nb))

/-- DFMA (R324). -/
def execDfma (h : Hdr) (rm : Rm) (na nb nc : Bool) (d : Opd) (a b : Src) (c : Opd) (s : State) : Host.Outcome State Fault Refusal :=
  .next (s.compute h { Uses.alu 0 d 2 a 2 b 2 [(c, 2)] true with fp64 := true } fun env i rf =>
    let x := (fp64.unpack (a.nat env rf false true i)).negate na
    let y := (fp64.unpack (b.nat env rf true true i)).negate nb
    let (r, e) := fp64.fused rm x y ((fp64.unpack (c.nat env rf true i)).negate nc)
    (d.putNat env rf true i r).raise e)

/-- DSET (R326). -/
def execDset (h : Hdr) (cmp : FCmp) (p : BitVec 3) (a b : Src) (s : State) : Host.Outcome State Fault Refusal :=
  .next (s.fcompare h true fp64 cmp p a b)

/-- HADD2 (R324). -/
def execHadd2 (h : Hdr) (ty : Ty) (rm : Rm) (na nb : Bool) (d : Opd) (a b : Src) (s : State) : Host.Outcome State Fault Refusal :=
  let f := halfOf ty
  let op := fun x y => f.sum rm ((f.unpack x).negate na) ((f.unpack y).negate nb)
  .next (s.fop2 h 6 d a b (pred := true) fun x y => join2 (op (halves x).1 (halves y).1) (op (halves x).2 (halves y).2))

/-- HMUL2 (R324). -/
def execHmul2 (h : Hdr) (ty : Ty) (rm : Rm) (na nb : Bool) (d : Opd) (a b : Src) (s : State) : Host.Outcome State Fault Refusal :=
  let f := halfOf ty
  let op := fun x y => f.product rm ((f.unpack x).negate na) ((f.unpack y).negate nb)
  .next (s.fop2 h 6 d a b (pred := true) fun x y => join2 (op (halves x).1 (halves y).1) (op (halves x).2 (halves y).2))

/-- HFMA2 (R324). -/
def execHfma2 (h : Hdr) (ty : Ty) (rm : Rm) (na nb nc : Bool) (d : Opd) (a b : Src) (c : Opd) (s : State) : Host.Outcome State Fault Refusal :=
  let f := halfOf ty
  let op := fun x y z => f.fused rm ((f.unpack x).negate na) ((f.unpack y).negate nb) ((f.unpack z).negate nc)
  .next (s.fop3 h 6 d a b c fun x y z => join2 (op (halves x).1 (halves y).1 (halves z).1) (op (halves x).2 (halves y).2 (halves z).2))

/-! ## Conversion (R336, R337) -/

/-- The word a thread draws under RS: word 0 of Philox at its counter, under the seed pair and its logical id (R337, R352). -/
def rsWord (env : Env) (rf : RF) (seed : BitVec 6) (c : Opd) (b : Nat) : Word :=
  let k := fun i => rf.get env (.scal (2 * seed.toNat + i)) b
  nth 0 (philox (c.dword env rf b) (env.threadId b) (k 0) (k 1)) 0

/-- The registers RS names: the seed pair and the counter pair. -/
def rsGroups : Option (BitVec 6 × Opd) → List (Opd × Nat)
  | none => []
  | some (q, c) => [(.s (BitVec.ofNat 7 (2 * q.toNat)), 2), (c, 2)]

/-- CVT (R336, R337). -/
def execCvt (h : Hdr) (rm : Rm) (dfmt sfmt : BitVec 5) (d : Opd) (a : Src) (rs : Option (BitVec 6 × Opd)) (s : State) : Host.Outcome State Fault Refusal :=
  let df := dfmt.toNat
  let sf := sfmt.toNat
  .next (s.compute h (.alu 8 d (regsOf (cvtWide df)) a (regsOf (cvtWide sf)) (.imm 0) 0 (rsGroups rs)) fun env i rf =>
    let u := rs.elim 0 fun e => rsWord env rf e.1 e.2 i
    let (r, e) := cvtTo df rm u (elementValue sf (a.nat env rf false (cvtWide sf) i))
    (d.putNat env rf (cvtWide df) i r).raise e)

/-! ## Building blocks (R338, R339) -/

/-- The values a block is built from: those of the active threads below the element count, from the exchange buffer (R339). -/
def blockValues (env : Env) (count j : Nat) : List FVal :=
  ((upTo 32).filter fun i => i < count && 32 * j + i < env.pos.width && env.act.getLsbD (32 * j + i)).map fun i =>
    fp32.unpack (nth (0, 0) env.xb (32 * j + i)).1.toNat

/-- PACK (R338, R339): element code in the first register, scale or header in the second. -/
def execPack (h : Hdr) (rm : Rm) (fmt lm1 : BitVec 5) (d : Opd) (a : Opd) (rs : Option (BitVec 6 × Opd)) (s : State) : Host.Outcome State Fault Refusal :=
  let count := lm1.toNat + 1
  .next (s.compute h { Uses.nil with rd := rsGroups rs, wr := [(d, 2)], a := some (a, .id, 1), xch := true } fun env b rf =>
    let (scale, code) := packBlock fmt.toNat (blockValues env count (b / 32))
    let u := rs.elim 0 fun e => rsWord env rf e.1 e.2 b
    let (r, e) := if b % 32 < count then code rm u (fp32.unpack (nth (0, 0) env.xb b).1.toNat) else (0, 0)
    (d.put env (d.put env rf 0 b (BitVec.ofNat 32 r)) 1 b (BitVec.ofNat 32 scale)).raise e)

/-! ## Sticky flags (R340) -/

/-- Whether the fibre still waits for earlier results or drains (R340). -/
def State.unsettled (s : State) : Bool :=
  s.owing s.iss.fibre || (s.clu (clusterOfFibre s.iss.fibre)).drains.any (·.fibre == s.iss.fibre)

/-- FSTK (R340). -/
def execFstk (h : Hdr) (d a : Opd) (s : State) : Host.Outcome State Fault Refusal :=
  if s.unsettled then .next s.hold
  else .next (s.compute h { Uses.nil with rd := [(a, 1)], wr := [(d, 1)], uni := true } fun env b rf =>
    let clear := a.word env rf 0 b
    let rf' := d.put env rf 0 b rf.regs.flagsWord
    { rf' with regs := { rf'.regs with flags := rf'.regs.flags &&& ~~~(clear.setWidth 7) } })

end Sys2Proof.Machine
end

