-- ==== Sys2Proof/Machine/Exchange.lean ====
section
/-! DEFINITION. Exchange, vote, scan, match and random-number instructions (R341 to R353). -/

namespace Sys2Proof.Machine

/-! ## The gathered source -/

/-- A gathered source as the permuted group it counts as (R157, R344). -/
def gathered (a : Src) (n : Nat) : Option (Opd × Perm × Nat) :=
  match a with
  | .reg o p => some (o, p, n)
  | .imm _ => none

/-- The gathered value of a thread, from the exchange buffer. -/
def Env.buffered (e : Env) (wide : Bool) (b : Nat) : Nat :=
  let w := nth (0, 0) e.xb b
  if wide then w.1.toNat + 2 ^ 32 * w.2.toNat else w.1.toNat

/-- What an exchange instruction uses: the gathered A, a destination, further groups; a scalar-class destination is written once (R342). -/
def Uses.exchange (d : Opd) (nd : Nat) (a : Option (Opd × Perm × Nat)) (rd : List (Opd × Nat)) : Uses :=
  { Uses.nil with rd := rd, wr := [(d, nd)], a := a, uni := !d.perThread, xch := true }

/-- The active beats, ascending. -/
def Env.active (e : Env) : List Nat := maskBeats e.pos.width e.act

/-! ## XCH (R344) -/

/-- XCH (R344): an index at or above the width gives 0 unless it wraps. -/
def execXch (h : Hdr) (ty : Ty) (wrap : Bool) (d : Opd) (a b : Src) (s : State) : Host.Outcome State Fault Refusal :=
  let n := regsOf ty.is64
  .next (s.compute h { Uses.exchange d n (gathered a n) (srcGroup b 1) with b := srcPerm b 1, uni := false } fun env t rf =>
    let i := b.nat env rf true false t
    let i := if wrap then i % env.pos.width else i
    d.putNat env rf ty.is64 t (if i < env.pos.width then env.buffered ty.is64 i else 0))

/-! ## VOTE and BALLOT (R345, R346) -/

/-- The number of active threads at which a predicate, perhaps negated, is 1. -/
def Env.yes (e : Env) (rf : RF) (p : BitVec 3) (neg : Bool) : List Nat := e.active.filter fun b => rf.getPred e p b != neg

/-- The result of a vote over the active threads (R345). -/
def voteResult (mode : VoteMode) (yes n : Nat) : Bool :=
  match mode with
  | .every => yes == n
  | .some => yes != 0
  | .same => yes == 0 || yes == n
  | .most => n < 2 * yes

/-- VOTE (R345): the result is formed in the read phase, so it is taken from the registers as they stand before the first write. -/
def execVote (h : Hdr) (mode : VoteMode) (na : Bool) (pd pa : BitVec 3) (s : State) : Host.Outcome State Fault Refusal :=
  .next (s.computeCarry h { Uses.nil with pr := [pa], pw := [pd], xch := true }
    (fun env rf => BitVec.ofNat 64 (voteResult mode (env.yes rf pa na).length env.active.length).toNat)
    (fun _ b a => (a.1.setPred pd b (a.2 != 0), a.2)) (fun _ a => a.1))

/-- BALLOT (R346). -/
def execBallot (h : Hdr) (ty : Ty) (na : Bool) (d : Opd) (pa : BitVec 3) (s : State) : Host.Outcome State Fault Refusal :=
  .next (s.compute h { Uses.exchange d (regsOf ty.is64) none [] with pr := [pa] } fun env b rf =>
    d.putNat env rf ty.is64 b (maskOf (env.yes rf pa na)).toNat)

/-! ## SCAN and REDX (R347 to R349) -/

/-- One fold step of R347: the new carry and the events. -/
def foldStep (op : ROp) (ty : Ty) (c x : Nat) : Nat × Events :=
  if ty == .f32 then
    match op with
    | .add => fp32.sum .rn (fp32.unpack c) (fp32.unpack x)
    | .max => fminmax true c x
    | _ => fminmax false c x
  else
    (match op with
      | .add => (c + x) % 2 ^ ty.width
      | .min => if ty.ext c ≤ ty.ext x then c else x
      | .max => if ty.ext x ≤ ty.ext c then c else x
      | .and => c &&& x
      | .or => c ||| x
      | .xor => c ^^^ x, 0)

/-- The starting carry of R347. -/
def foldIdentity (op : ROp) (ty : Ty) : Nat :=
  let w := ty.width
  match op with
  | .add | .or | .xor => 0
  | .and => 2 ^ w - 1
  | .min => if ty == .f32 then 0x7F800000 else if ty.signed then 2 ^ (w - 1) - 1 else 2 ^ w - 1
  | .max => if ty == .f32 then 0xFF800000 else if ty.signed then 2 ^ (w - 1) else 0

/-- The carry an operand or the identity starts (R348). -/
def foldStart (op : ROp) (ty : Ty) (b : Option Opd) (env : Env) (rf : RF) : Nat :=
  b.elim (foldIdentity op ty) fun o => o.nat env rf ty.is64 0

/-- SCAN (R348). -/
def execScan (h : Hdr) (ty : Ty) (op : ROp) (exc : Bool) (d : Opd) (a : Src) (b : Option Opd) (s : State) : Host.Outcome State Fault Refusal :=
  let n := regsOf ty.is64
  .next (s.computeCarry h { Uses.exchange d n (gathered a n) (b.elim [] fun o => [(o, n)]) with carries := true }
    (fun env rf => BitVec.ofNat 64 (foldStart op ty b env rf))
    (fun env t acc =>
      let (c, e) := foldStep op ty acc.2.toNat (env.buffered ty.is64 t)
      ((d.putNat env acc.1 ty.is64 t (if exc then acc.2.toNat else c)).raise e, BitVec.ofNat 64 c))
    (fun _ acc => acc.1))

/-- The fold of REDX over the active beats, with its events (R349). -/
def foldAll (op : ROp) (ty : Ty) (env : Env) (start : Nat) : Nat × Events :=
  env.active.foldl (fun acc t => let (c, e) := foldStep op ty acc.1 (env.buffered ty.is64 t); (c, acc.2 ||| e)) (start, 0)

/-- REDX (R349): events once, at the first write. -/
def execRedx (h : Hdr) (ty : Ty) (op : ROp) (d : Opd) (a : Src) (b : Option Opd) (s : State) : Host.Outcome State Fault Refusal :=
  let n := regsOf ty.is64
  .next (s.computeCarry h { Uses.exchange d n (gathered a n) [] with phase := b.elim [] fun o => [(o, n)], carries := true }
    (fun env rf => BitVec.ofNat 64 (foldAll op ty env (foldStart op ty b env rf)).1)
    (fun env t acc =>
      let e := (foldAll op ty env (foldStart op ty b env acc.1)).2
      ((d.putNat env acc.1 ty.is64 t acc.2.toNat).raise (if !d.perThread || env.active.head? == some t then e else 0), acc.2))
    (fun _ acc => acc.1))

/-! ## MATCH and FIRST (R350, R351) -/

/-- MATCH (R350). -/
def execMatchB (h : Hdr) (ty : Ty) (d : Opd) (a : Src) (s : State) : Host.Outcome State Fault Refusal :=
  .next (s.compute h (.exchange d 2 (gathered a (regsOf ty.is64)) []) fun env b rf =>
    d.putNat env rf true b (maskOf (env.active.filter fun t => env.buffered ty.is64 t == env.buffered ty.is64 b)).toNat)

/-- FIRST (R351): without A, the lowest active beat itself. -/
def execFirst (h : Hdr) (ty : Ty) (d : Opd) (a : Option Src) (s : State) : Host.Outcome State Fault Refusal :=
  let n := regsOf ty.is64
  .next (s.compute h (.exchange d n (a.bind fun x => gathered x n) []) fun env b rf =>
    let f := env.active.headD 0
    d.putNat env rf ty.is64 b (match a with | some _ => env.buffered ty.is64 f | none => f))

/-! ## RAND (R352, R353) -/

/-- Words RAND writes. -/
def randWords (c : RandCount) : Nat :=
  match c with
  | .x1 => 1 | .x2 => 2 | .x4 => 4

/-- RAND (R352, R353): per thread; under INC the counter advances, and a wrap sets RNGWRAP. -/
def execRand (h : Hdr) (count : RandCount) (inc : Bool) (d b c : Opd) (s : State) : Host.Outcome State Fault Refusal :=
  let n := randWords count
  .next (s.compute h { Uses.nil with rd := [(b, 2), (c, 2)], wr := (d, n) :: (if inc then [(c, 2)] else []) } fun env t rf =>
    let ctr := c.dword env rf t
    let ws := philox ctr (env.threadId t) (b.word env rf 0 t) (b.word env rf 1 t)
    let rf := (upTo n).foldl (fun rf i => d.put env rf i t (nth 0 ws i)) rf
    if inc then (c.putD env rf t (ctr + 1)).raise (evIf (ctr + 1 == 0) evWRAP) else rf)

end Sys2Proof.Machine
end

