-- ==== Sys2Proof/Machine/Transfer.lean ====
section
/-! DEFINITION. Accesses of fibres: store digests, translation at a beat, how an access is issued, performed and delivered (R76, R84, R87 to R100, R211 to R222, R266 to R275, R422, R423). -/

namespace Sys2Proof.Machine

/-! ## Store digests (R422, R423) -/

/-- `mix` of R422. -/
def mix (z : Dword) : Dword :=
  let z := (z ^^^ (z >>> 30)) * 0xBF58476D1CE4E5B9#64
  let z := (z ^^^ (z >>> 27)) * 0x94D049BB133111EB#64
  z ^^^ (z >>> 31)

/-- The 8-byte chunks of a datum, zero-padded (R422). -/
def chunks (d : List Byte) : List Dword := (upTo ((d.length + 7) / 8)).map fun i => BitVec.ofNat 64 (leNat ((d.drop (8 * i)).take 8))

/-- `entry` of R422. -/
def digestEntry (k a : Nat) (d : List Byte) : Dword :=
  let h := (chunks d).foldl (fun h x => mix (h ^^^ x)) (mix (mix (BitVec.ofNat 64 k) ^^^ BitVec.ofNat 64 a))
  mix (h ^^^ BitVec.ofNat 64 d.length)

/-- The maximal runs of consecutive bytes within lines, of cells in rising order of address (R423). -/
def runsOf : List (Nat × Byte) → List (Nat × List Byte)
  | [] => []
  | (a, x) :: t =>
    match runsOf t with
    | [] => [(a, [x])]
    | (b, l) :: r => if b == a + 1 && lineOf b == lineOf a then (a, x :: l) :: r else (a, [x]) :: (b, l) :: r

/-- The entries of bytes stored, by address (R423). -/
def digestCells (l : List (Nat × Byte)) : Dword := (runsOf l).foldl (fun d e => d + digestEntry 0 e.1 e.2) 0

/-- Cells of bytes from an address on. -/
def cellsFrom (a : Nat) : List Byte → List (Nat × Byte)
  | [] => []
  | b :: t => (a, b) :: cellsFrom (a + 1) t

/-- Adds entries to the fibre digest of a position of a cohort (R424). -/
def State.credit (s : State) (cohort lidx : Nat) (x : Dword) : State :=
  s.modCohort cohort fun c => { c with fds := tput c.fds lidx (tget 0 c.fds lidx + x) }

/-- Adds entries to a fibre's digest. -/
def State.creditFib (s : State) (f : Nat) (x : Dword) : State :=
  match s.fib? f with
  | some y => s.credit y.pos.cohort y.pos.lidx x
  | none => s

/-! ## Translation at a beat (R76, R80, R84) -/

/-- Access classes of R85. -/
def clsLoad : Nat := 0
/-- A store. -/
def clsStore : Nat := 1
/-- An atomic or a reducing write. -/
def clsAtomic : Nat := 2

/-- The pages a range touches: the address and the bytes in each. -/
def pageParts (va n : Nat) : List (Nat × Nat) :=
  if n = 0 then []
  else (upTo ((va + n - 1) / 65536 - va / 65536 + 1)).map fun i =>
    let lo := max va ((va / 65536 + i) * 65536)
    (lo, min (va + n) ((va / 65536 + i + 1) * 65536) - lo)

/-- An address as the frame records it. -/
def addr64 (va : Nat) : Dword := BitVec.ofNat 64 va

/-- Translation of one address of the issuing fibre; `ea` is the beat's effective address (R76, R80, R84). -/
def State.xlPart (s : State) (cls ea va : Nat) : Except Beat (Page × State) :=
  let f := s.iss.fibre
  let die := dieOfFibre f
  let asid := s.asidOf s.me
  let write := cls == clsStore || cls == clsAtomic
  match s.lookup (coreOfFibre f) asid va write false with
  | .ok p => .ok (p, s)
  | .denied k =>
    if s.replays die asid then
      .error (.sleep (.replay die asid (va / 65536) k) (addr64 ea) (s.raiseFault die
        { asid := asid, page := va / 65536, va := va, kind := k, cls := cls, cluster := clusterOfFibre f, core := coreOfFibre f % 4, source := 0
          waiters := [.fibre f], count := 1, slot := none }))
    else .error (.stop .xlPerm (addr64 ea) s)
  | .miss =>
    .error (.sleep (.walk die asid (va / 65536)) (addr64 ea) (s.askWalk
      { cluster := clusterOfFibre f, asid := asid, page := va / 65536, va := va, write := write, fetch := false, cls := cls, core := coreOfFibre f % 4
        waiters := [.fibre f] }))

/-- Translation of every page of an access, with the bytes in each. -/
def State.xlParts (s : State) (cls ea : Nat) : List (Nat × Nat) → Except Beat (List (Page × Nat) × State)
  | [] => .ok ([], s)
  | (va, n) :: t =>
    match s.xlPart cls ea va with
    | .error e => .error e
    | .ok (p, s) => match s.xlParts cls ea t with
      | .error e => .error e
      | .ok (l, s) => .ok ((p, n) :: l, s)

/-- The pages of a hint's access, none where a translation fails: nothing is raised and nothing is replayed (R76, R80, R267). -/
def State.hintXl (s : State) (f : Nat) : List (Nat × Nat) → Option (List (Page × Nat)) × State
  | [] => (some [], s)
  | (va, n) :: t =>
    match s.translate (clusterOfFibre f) (s.asidOf ((s.fib? f).getD default)) va false false with
    | (.ok p, s) =>
      match s.hintXl f t with
      | (some l, s) => (some ((p, n) :: l), s)
      | (none, s) => (none, s)
    | (_, s) => (none, s)

/-- The lines of a range of physical addresses. -/
def linesOf (pa n : Nat) : List Nat := if n = 0 then [] else (upTo (lineOf (pa + n - 1) - lineOf pa + 1)).map (lineOf pa + ·)

/-- Whether the constant cache, the core's L1 or the die's current Copies hold every line of a part, by the path of the access, so that no read
reaches home (R92, R119, R132). -/
def State.cached (s : State) (core : Nat) (kind : AccKind) (plain : Bool) (g : Seg) : Bool :=
  let die := dieOfCluster (clusterOfCore core)
  (linesOf g.pa g.n).all fun l =>
    (plain && (match kind with
      | .const => (s.clu (clusterOfCore core)).const.any fun x => x.line == l && !x.bad
      | _ => (s.core (s.l1Home core l)).l1.any fun x => x.line == l && !x.bad))
    || (g.home != die && g.ca == 0 && ((s.die die).copyOf l).isSome)

/-- The cause with which an access to a part ends: the home absent, the frame quarantined, or an uncorrectable error that home meets (R17, R23, R24,
R87, R88). `demand`: such an error is the access's own. -/
def State.segError (s : State) (core : Nat) (kind : AccKind) (plain demand : Bool) (g : Seg) : Option (Cause × State) :=
  if !s.segThere (dieOfCluster (clusterOfCore core)) g then some (.homeAbsent, s)
  else if !g.host && (s.die g.home).quarantined g.pa then some (.ueData, s)
  else if !demand || s.cached core kind plain g then none
  else (s.demandError g.pa g.n).map fun s => (.ueData, s)

/-- The first error of a list of parts. -/
def State.segsError (s : State) (core : Nat) (kind : AccKind) (plain demand : Bool) : List Seg → Option (Cause × State)
  | [] => none
  | g :: t => match s.segError core kind plain demand g with
    | some e => some e
    | none => s.segsError core kind plain demand t

/-- Whether the L1 or the constant cache may serve parts (R74, R119, R132). -/
def cacheable (segs : List Seg) : Bool := !segs.any fun g => g.host || g.ca == 2

/-- Opens an access of the issuing fibre at an effective address: alignment, translation, home (R261, R432). -/
def State.openAccess (s : State) (cls : Nat) (kind : AccKind) (plain demand : Bool) (va n align : Nat) : Except Beat (List Page × List Seg × State) :=
  if 2 ^ 56 < va + n || 2 ^ 56 ≤ va then .error (.stop .vaBad (addr64 va) s)
  else if align != 0 && va % align != 0 then .error (.stop .memAlign (addr64 va) s)
  else match s.xlParts cls va (pageParts va n) with
    | .error e => .error e
    | .ok (l, s) =>
      let segs := l.map fun e => e.1.seg e.2
      match s.segsError (coreOfFibre s.iss.fibre) kind (plain && cacheable segs) demand segs with
      | some (c, s) => .error (.stop c (addr64 va) s)
      | none => .ok (l.map (·.1), segs, s)

/-! ## Issuing an access -/

/-- An access with nothing special about it. -/
def Access.make (kind : AccKind) (va : Nat) (segs : List Seg) (n : Nat) (ty : Ty) (dst : Ref) (regs : Nat) : Access :=
  { kind := kind, beat := 0, uni := false, va := va, segs := segs, n := n, plain := false, l1ev := [], acq := none, rmt := false, data := [], cmp := []
    dst := dst, regs := regs, ty := ty, lde := none, seq := 0, reply := none, home := false, block := false, waits := [] }

/-- Whether an access leaves its die: a peer-homed line or host memory. -/
def Access.remote (a : Access) (die : Nat) : Bool := a.segs.any fun g => g.host || g.home != die

/-- Whether an access only reads. -/
def Access.reads (a : Access) : Bool := match a.kind with | .load | .const | .rmtr => true | _ => false

/-- Whether an access is an atomic, a reducing write or a staging step. -/
def Access.rmw (a : Access) : Bool := match a.kind with | .atomic _ _ | .red _ _ | .rstg _ _ => true | _ => false

/-- Whether an access ends at its beat only: what returns a value from another die or from the host, an acquire, a staging step (R17, R216, R420). -/
def Access.blocks (a : Access) (die : Nat) : Bool :=
  a.acq.isSome || (match a.kind with | .load | .const | .atomic _ _ => a.remote die | .rstg _ _ => true | .store | .red _ _ | .rmtr => false)

/-- The tracker key of a request on a peer window: its queue pair, at the port of its window, and its packet sequence number (R14). -/
def rocePacket (port : BitVec 3) (qpn : BitVec 24) (psn : Nat) : Nat := (port.toNat * 2 ^ 24 + qpn.toNat) * 2 ^ 24 + psn

/-- Sends a request on a peer window: the next packet number of its queue pair is its key in the tracker, beside the die's incarnation (R14). -/
def Die.sendPacket (d : Die) (t : Track) : Die :=
  let q := t.port.toNat * 2 ^ 24 + t.qpn.toNat
  let psn := tget 0 d.psn q
  { d with
    tracker := { t with link := .ethernet, tag := rocePacket t.port t.qpn psn, inc := d.r.inc } :: d.tracker
    psn := tput d.psn q ((psn + 1) % 2 ^ 24) }

/-- Sends a request of an access to host memory: its tag is its key in the tracker, beside the die's incarnation (R14). -/
def Die.sendHost (d : Die) (f seq pa : Nat) : Die :=
  { d with
    tracker := { link := .pcie, tag := d.tagNext, fibre := f, write := false, port := 0, qpn := 0, addr := pa, data := [], copy := none, seq := seq, inc := d.r.inc }
      :: d.tracker
    tagNext := d.tagNext + 1 }

/-- The request of an access to host memory that a completion answers enters the tracker of the die whose port carries it (R14). -/
def State.trackHost (s : State) (f : Nat) (a : Access) : State :=
  match a.segs.find? (·.host) with
  | some g => if a.reads || a.rmw then s.modDie g.home fun d => d.sendHost f a.seq g.pa else s
  | none => s

/-- Issues an access of a beat: the fibre goes on, or waits at the beat. An acquire at package scope takes note of the records it waits for; that of an
atomic has been waited for before the first beat (R98, R212). -/
def State.issueAccess (s : State) (u : Uses) (p : Plan) (b : Nat) (a : Access) : Beat :=
  let f := s.iss.fibre
  let die := dieOfFibre f
  let seq := (s.die die).wtNext
  let a := { a with
    beat := b, uni := u.uni, act := p.env.act, group := p.began, seq := seq, block := a.blocks die, l1ev := s.l1Events (coreOfFibre f)
    keep := p.keeps b a.dst a.regs
    waits := if a.acq.isSome && Scope.package a.acq && !a.rmw then (s.die die).wt.map fun r => (die, r.id) else [] }
  let s := s.modDie die fun d => { d with wtNext := seq + 1 }
  let s := (s.trackHost f a).modFib f fun x => { x with out := x.out ++ [a] }
  if a.block then .sleep .reply (addr64 a.va) s else .ok s

/-! ## Values (R263, R269, R274, R420) -/

/-- What a load of a type writes: bytes extended to a register, or whole words (R263). -/
def loadWords (ty : Ty) (n : Nat) (bytes : List Byte) : List Word :=
  let x := leNat bytes
  if n < 4 then [BitVec.ofNat 32 (if ty.signed && 2 ^ (8 * n - 1) ≤ x then 2 ^ 32 + x - 2 ^ (8 * n) else x)]
  else natWords (n / 4) x

/-- What LDE delivers, with its events (R59, R65, R269). -/
def LdeInfo.deliver (i : LdeInfo) (bytes : List Byte) : List Word × Events :=
  let k := bytes.length - i.scale
  let bits := leNat (bytes.take k) / 2 ^ i.bit % 2 ^ i.width
  let v := if i.scale = 0 then elementValue i.fmt bits else blockValue i.fmt (leNat (bytes.drop k)) bits
  let code := match i.ty with | .f32 => 11 | .f64 => 12 | .i32 => 5 | .n32 => 6 | .i64 => 7 | _ => 8
  if i.fmt = 23 && i.ty == .n32 then ([BitVec.ofNat 32 bits], 0)
  else if i.fmt = 24 && i.ty == .i32 then ([BitVec.ofInt 32 (signedOf 24 bits)], 0)
  else
    let (x, e) := cvtTo code .rn 0 v
    (natWords (if i.ty.is64 then 2 else 1) x, e)

/-- The new value of an atomic (R274): `ty` n32 with `add` is `.inc`. -/
def atomicNew (op : AOp) (ty : Ty) (n old v c : Nat) : Nat :=
  match op with
  | .add => if ty == .n32 then (if v ≤ old then 0 else old + 1) else (old + v) % 2 ^ (8 * n)
  | .min => if ty.ext v < ty.ext old then v else old
  | .max => if ty.ext old < ty.ext v then v else old
  | .and => old &&& v
  | .or => old ||| v
  | .xor => old ^^^ v
  | .xchg => v
  | .cas => if old = c then v else old

/-- The code of a staging operation (R419). -/
def ropNumber : ROp → Nat
  | .add => 0 | .min => 1 | .max => 2 | .and => 3 | .or => 4 | .xor => 5

/-- The code of an atomic operation (R274). -/
def aopNumber : AOp → Nat
  | .add => 0 | .min => 1 | .max => 2 | .and => 3 | .or => 4 | .xor => 5 | .xchg => 6 | .cas => 7

/-- A staging slot after a step of R420, or none where it holds another operation or type (R419). -/
def stageStep (op : ROp) (ty : Ty) (slot : List Byte) (x : Nat) : Option (List Byte) :=
  let b := fun i => (nth 0 slot i).toNat
  let made := fun (v : Nat) (o : Nat) (t : Nat) => leBytes 8 v ++ leBytes 1 o ++ leBytes 1 t ++ leBytes 1 1 ++ leBytes 5 0
  if b 10 % 2 = 0 then some (made x (ropNumber op) ty.code.toNat)
  else if b 8 % 8 != ropNumber op || b 9 % 16 != ty.code.toNat then none
  else some (made (foldStep op ty (leNat (slot.take (if ty.is64 then 8 else 4))) x).1 (ropNumber op) ty.code.toNat)

/-- The digest entry of an atomic, a reducing write or a staging step (R423). -/
def Access.entry (a : Access) : Dword :=
  match a.kind with
  | .atomic op ty | .red op ty => digestEntry (0x100 + 16 * aopNumber op + ty.code.toNat) a.va (a.data ++ a.cmp)
  | .rstg op ty => digestEntry (0x200 + 16 * ropNumber op + ty.code.toNat) a.va a.data
  | _ => 0

/-! ## Delivering a result -/

/-- Words written to the storages from one on. -/
def RF.writeWords (rf : RF) (r : Ref) (b : Nat) : Nat → List Word → RF
  | _, [] => rf
  | i, w :: t => (rf.write (r.next i) b w).writeWords r b (i + 1) t

/-- Words written to the storages from one on, but for those of a list. -/
def RF.writeExcept (rf : RF) (r : Ref) (b : Nat) (keep : List Nat) : Nat → List Word → RF
  | _, [] => rf
  | i, w :: t => (if keep.contains i then rf else rf.write (r.next i) b w).writeExcept r b keep (i + 1) t

/-- The beat that waits is complete: the fibre is awake and goes on at the next beat. -/
def Fibre.pastBeat (x : Fibre) (b : Nat) : Fibre :=
  { x with sleep := .awake, onFail := none, mid := x.mid.map fun m => { m with beat := b + 1 } }

/-- The words an access delivers and the events that come with them. -/
def Access.words (a : Access) (bytes : List Byte) : List Word × Events :=
  match a.lde with
  | some i => i.deliver bytes
  | none => (loadWords a.ty a.n bytes, 0)

/-- The fibre without an access. -/
def Fibre.drop (x : Fibre) (seq : Nat) : Fibre := { x with out := x.out.filter (·.seq != seq) }

/-- The request of an access leaves every tracker. -/
def State.untrack (s : State) (f seq : Nat) : State :=
  [0, 1].foldl (fun s d => s.modDie d fun x => { x with tracker := x.tracker.filter fun t => !(t.fibre == f && t.seq == seq && !t.write) }) s

/-- An access is finished: its value is written, but for what a discarded datum leaves, its acquire takes effect, a fibre that waits for it goes on (R96,
R120, R169, R216, R267). -/
def State.deliver (s : State) (f : Nat) (a : Access) (bytes : List Byte) : State :=
  match s.fib? f with
  | none => s
  | some x =>
    let (ws, e) := a.words bytes
    let rf := ((s.rf f x).writeExcept a.dst a.beat a.keep 0 (ws.take a.regs)).raise e
    let x := x.drop a.seq
    let s := (s.untrack f a.seq).putRf f (if a.block then x.pastBeat a.beat else x) rf
    match a.acq with
    | some sc => s.acquireEffect f (some sc)
    | none => s

/-- An access ends with a fault at its beat; an atomic that has been performed is not performed again at its re-issue (R212). -/
def State.failAccess (s : State) (f : Nat) (a : Access) (c : Cause) : State :=
  let s := s.untrack f a.seq
  match s.fib? f with
  | none => s
  | some x =>
    let s := s.setFib f { x.drop a.seq with
      doneAt := match a.reply, x.onFail with | some bytes, some r => if a.rmw then some (r.fpc, r.op, a.beat, bytes) else x.doneAt | _, _ => x.doneAt }
    match if a.block then x.onFail else none with
    | some r => s.trap f { r with cause := c }
    | none => s

/-- Whether an acquire still waits for a record, or for a port's acceptance of a host write (R98, R222). -/
def State.waitsFor (s : State) (a : Access) : Bool :=
  a.waits.any fun e => if e.1 < 2 then (s.die e.1).wt.any (·.id == e.2) else (s.die (e.1 - 2)).port.any (·.id + 1 == e.2)

/-- An access whose value has come back is finished, once the records its acquire waits for are acknowledged; with one of them lost it ends with
HOME_ABSENT (R98, R99). -/
def State.tryFinish (s : State) (f seq : Nat) : State :=
  match s.fib? f with
  | none => s
  | some x =>
    match x.out.find? (·.seq == seq) with
    | none => s
    | some a =>
      match a.reply with
      | none => s
      | some bytes =>
        if a.home then s
        else if a.waits.any (·.2 == 0) then s.failAccess f a .homeAbsent
        else if s.waitsFor a then s
        else s.deliver f a bytes

/-- Every access that waits for acknowledgements looked at again (R98). -/
def State.finishWaits (s : State) : State :=
  s.fibres.foldl (fun s e => e.2.out.foldl (fun s a => if a.reply.isSome && !a.waits.isEmpty then s.tryFinish e.1 a.seq else s) s) s

/-- What a promoting acquire waits for once it has read: the write-through records of both dies, and at `.sys` the host writes of their fibres (R222,
R230). -/
def State.promotion (s : State) (f : Nat) (a : Access) : List (Nat × Nat) :=
  if !(a.rmt && Scope.package a.acq) then []
  else ([0, 1].filter fun d => s.reaches (dieOfFibre f) d).flatMap fun d =>
    ((s.die d).wt.map fun r => (d, r.id)) ++ if a.acq == some .sys then (s.die d).port.map fun w => (d + 2, w.id + 1) else []

/-- An access has its value: it is kept until the access can finish. -/
def State.answer (s : State) (f : Nat) (a : Access) (bytes : List Byte) (home : Bool) : State :=
  let more := s.promotion f a
  (s.modFib f fun x => { x with out := x.out.map fun y => if y.seq == a.seq then { y with reply := some bytes, home := home, waits := y.waits ++ more } else y }).tryFinish f a.seq

/-- The value an atomic of a beat has read already, where it was performed before its beat faulted (R212). -/
def State.doneBefore (s : State) (b : Nat) : Option (List Byte) :=
  s.me.doneAt.bind fun e => if e.1 == s.iss.pc && e.2.1 == s.iss.op && e.2.2.1 == b then some e.2.2.2 else none

/-- Issues an atomic, a reducing write or a staging step; one that is already performed only ends (R212). -/
def State.issueRmw (s : State) (u : Uses) (p : Plan) (b : Nat) (a : Access) : Beat :=
  match s.doneBefore b with
  | some bytes => .ok ((s.modFib s.iss.fibre fun x => { x with doneAt := none }).deliver s.iss.fibre { a with beat := b, uni := u.uni } bytes)
  | none => s.issueAccess u p b a

/-! ## Performing an access (R165, R212, R217) -/

/-- Whether two accesses of one fibre have a thread in common (R211). -/
def Access.shares (a b : Access) : Bool :=
  if a.uni then (if b.uni then a.act &&& b.act != 0 else a.act.getLsbD b.beat) else if b.uni then b.act.getLsbD a.beat else a.beat == b.beat

/-- Whether two accesses of one fibre are of one thread and meet in a byte. -/
def Access.meets (a b : Access) : Bool := a.shares b && a.segs.any fun g => b.segs.any fun k => g.pa < k.pa + k.n && k.pa < g.pa + g.n

/-- Whether an access must wait for an earlier one of its fibre: same thread, same byte; what home has performed is over once its response has reached
the die (R100, R217). A load that the L1 may serve is bound to no order but that it never reads a later store (R120, R218). -/
def Access.after (a e : Access) : Bool := (e.reply.isNone || e.home) && e.meets a && !a.plain && !(e.plain && a.reads)

/-- Whether the access at a place of a fibre's list may be performed now. -/
def Fibre.mayPerform (x : Fibre) (i : Nat) (a : Access) : Bool := a.reply.isNone && !(x.out.take i).any fun e => a.after e

/-- Whether records and remote atomics that a die sent earlier to a line are not all performed (R95). -/
def State.sentBefore (s : State) (die line seq : Nat) : Bool :=
  (s.die die).wt.any (fun r => r.line == line && !r.atHome && r.id < seq) || (s.remoteRmws die line).any (· < seq)

/-- Whether a port still holds a posted write to bytes of host memory: a read or an atomic does not pass it (R230). -/
def State.posted (s : State) (g : Seg) : Bool :=
  g.host && (s.die g.home).port.any fun w => w.pa < g.pa + g.n && g.pa < w.pa + w.data.length

/-- The bytes of one line that a load reads, by the path of R119, R132 or R92. -/
def State.readLine (s : State) (f : Nat) (a : Access) (ca : BitVec 2) (pa n : Nat) : List Byte × State :=
  let core := coreOfFibre f
  let die := dieOfFibre f
  let s := s.dropBadCopies die (lineOf pa)
  match a.kind, a.plain with
  | .const, true => s.constRead (clusterOfFibre f) pa n ca
  | .load, true => s.l1Read core pa n ca a.l1ev
  | _, _ => s.dieRead die pa ca n

/-- The parts of a range that lie in one line each. -/
def lineParts (pa n : Nat) : List (Nat × Nat) :=
  (linesOf pa n).map fun l =>
    let lo := max pa (l * 128)
    (lo, min (pa + n) (l * 128 + 128) - lo)

/-- The bytes of a part, line by line. -/
def State.readParts (s : State) (f : Nat) (a : Access) (ca : BitVec 2) : List (Nat × Nat) → List Byte × State
  | [] => ([], s)
  | (pa, n) :: t =>
    let (x, s) := s.readLine f a ca pa n
    let (y, s) := s.readParts f a ca t
    (x ++ y, s)

/-- The bytes of every part of a load. -/
def State.readSegs (s : State) (f : Nat) (a : Access) : List Seg → List Byte × State
  | [] => ([], s)
  | g :: t =>
    let (x, s) := if g.host then (memBytes s.mem g.pa g.n, s) else s.readParts f a g.ca (lineParts g.pa g.n)
    let (y, s) := s.readSegs f a t
    (x ++ y, s)

/-- The lines of an access. -/
def Access.lines (a : Access) : List Nat := a.segs.flatMap fun g => linesOf g.pa g.n

/-- The lines of an access with their bytes, as its path reads them. -/
def State.readLines (s : State) (f : Nat) (a : Access) : List Nat → List (Nat × List Byte) × State
  | [] => ([], s)
  | l :: t =>
    let (x, s) := if isHost (l * 128) then (memBytes s.mem (l * 128) 128, s) else s.readLine f a ((a.segs.head?).elim 0 (·.ca)) (l * 128) 128
    let (y, s) := s.readLines f a t
    ((l, x) :: y, s)

/-- An LDC that its fibre waits for keeps the lines it has read for the beats still to come (R133). -/
def State.keepLines (s : State) (f : Nat) (a : Access) : State :=
  if a.kind == .const && a.block then
    let (ls, s) := s.readLines f a a.lines
    s.modFib f fun x => { x with mid := x.mid.map fun m => { m with lines := ls ++ m.lines } }
  else s

/-- One load performed: an error that its line meets now is its own (R87, R268). -/
def State.loadOne (s : State) (f : Nat) (a : Access) : State :=
  match (if a.block then s.segsError (coreOfFibre f) a.kind a.plain true a.segs else none) with
  | some (c, s) => s.failAccess f a c
  | none =>
    let (bytes, s) := s.readSegs f a a.segs
    (s.keepLines f a).answer f a bytes false

/-- The accesses of one LDC that are one cache access with a given one: those that share a line with it, directly or through others (R133). -/
def constGroup (out : List Access) (group : Nat) : Nat → List Nat → List Access
  | 0, _ => []
  | n + 1, lines =>
    let mine := out.filter fun a => a.kind == .const && a.group == group && a.reply.isNone && a.lines.any lines.contains
    if n = 0 then mine else constGroup out group n (mine.flatMap Access.lines)

/-- A load is performed; an LDC's with every access of the instruction to its line (R133, R268). -/
def State.loadNow (s : State) (f : Nat) (a : Access) : State :=
  let out := (s.fib? f).elim [] (·.out)
  if a.kind == .const && !a.block then (constGroup out a.group out.length a.lines).foldl (fun s a => s.loadOne f a) s else s.loadOne f a

/-- A note of what a store that is performed adds to the waits of the orderings that wait for it: the records it has made, or that it was lost (R98,
R99). -/
def State.noteStore (s : State) (owner : Option Nat) (ids : List Nat) (lost : Bool) : State :=
  match owner with
  | some f => s.modFib f fun x => { x with wait := x.wait.map fun n => { n with wt := n.wt ++ ids, lost := n.lost || lost } }
  | none => s

/-- A write of a die to a part whose home it cannot present it to is lost: to the peer's memory as a retired store is, to host memory as a host write at
that port (R17, R24). -/
def State.loseStore (s : State) (die : Nat) (g : Seg) : State :=
  if s.reaches die g.home then s.modDie g.home Die.loseHostWrite else s.modDie die Die.losePeerStore

/-- A store meets the errors of the lines it is performed on at home: single-bit errors are corrected and counted, and an uncorrectable one, having no
requester, quarantines the frame (R87). -/
def State.storeErrors (s : State) (pa n : Nat) : State :=
  let s := s.homeCorrect (lineOf pa * 128) (128 * (lineOf (pa + n - 1) + 1 - lineOf pa))
  if s.badLines pa n then s.uncorrectable pa false else s

/-- A store's parts performed: in the L2 slice or the write-through buffer, or posted at a port (R87, R94, R212, R230). -/
def State.storeSegs (s : State) (f : Nat) (owner : Option Nat) : List Seg → List Byte → State
  | [], _ => s
  | g :: t, data =>
    let die := dieOfFibre f
    let x := data.take g.n
    let s :=
      if !s.segThere die g then (s.loseStore die g).noteStore owner [] (!s.reaches die g.home)
      else if g.host then
        (s.modDie g.home fun d => { d with port := d.port ++ [{ id := d.portNext, fibre := owner, pa := g.pa, data := x }], portNext := d.portNext + 1 }).modFib f
          fun y => if owner.isNone then y else { y with wait := y.wait.map fun n => { n with port := n.port ++ [2 * (s.die g.home).portNext + g.home] } }
      else
        let (ids, s) := (if g.home == die then s.storeErrors g.pa g.n else s).dieWrite die g.pa x g.ca
        s.noteStore owner ids false
    s.storeSegs f owner t (data.drop g.n)

/-- The value an atomic, a reducing write or a staging step leaves, and the one it returns; none where a staging slot holds another operation.
A reducing write that meets an uncorrectable word leaves a value no rule gives (R87). -/
def State.rmwValue (s : State) (a : Access) (g : Seg) : Option (List Byte × List Byte) × State :=
  let old := memBytes s.mem g.pa g.n
  let s := if g.host then s else s.storeErrors g.pa g.n
  let (old, s) := if !g.host && anyIn s.memBad g.pa g.n then let (w, s) := s.freeWord; (leBytes g.n w.toNat, s) else (old, s)
  match a.kind with
  | .atomic op ty | .red op ty => (some (old, leBytes g.n (atomicNew op ty g.n (leNat old) (leNat a.data) (leNat a.cmp))), s)
  | .rstg op ty => ((stageStep op ty old (leNat a.data)).map fun x => (old, x), s)
  | _ => (none, s)

/-- An atomic, a reducing write or a staging step performed at home (R100, R220, R275, R420). -/
def State.rmwNow (s : State) (f : Nat) (a : Access) : State :=
  match a.segs with
  | [g] =>
    let die := dieOfFibre f
    if !s.segThere die g || s.posted g || (!g.host && g.home != die && s.sentBefore die (lineOf g.pa) a.seq) then s
    else match (if a.block then s.segError (coreOfFibre f) a.kind false true g else none) with
      | some (c, s) => s.failAccess f a c
      | none =>
        match s.rmwValue a g with
        | (none, s) => s.failAccess f a .redBad
        | (some (old, new), s) =>
          let s := (s.homeWrite g.pa new (g.ca != 2)).creditFib f a.entry
          s.answer f a old (!g.host && g.home != die)
  | _ => s

/-- A store of a fibre performed. -/
def State.storeNow (s : State) (f : Nat) (a : Access) : State :=
  (s.modFib f fun x => x.drop a.seq).storeSegs f (some f) a.segs a.data

/-- An access in flight to a die that has become absent, or to a port that has gone: one that its fibre waits for ends with HOME_ABSENT, a store or a
reducing write is lost (R17, R24). -/
def State.dropFlight (s : State) (f : Nat) (a : Access) : State :=
  match a.segs.find? fun g => !s.segThere (dieOfFibre f) g with
  | none => s
  | some g =>
    if a.reply.isSome && !a.home then s
    else if a.block then s.failAccess f a .homeAbsent
    else match a.kind with
      | .store => s.storeNow f a
      | .red _ _ => ((s.modFib f fun x => x.drop a.seq).loseStore (dieOfFibre f) g).noteStore (some f) [] (!s.reaches (dieOfFibre f) g.home)
      | _ => s

/-- Every access in flight from a die to its absent peer ends (R17). -/
def State.dropFlights (s : State) (die : Nat) : State :=
  s.fibres.foldl (fun s e => if dieOfFibre e.1 != die then s else
    (e.2.out.filter fun a => a.segs.any fun g => !s.reaches die g.home).foldl (fun s a => s.dropFlight e.1 a) s) s

end Sys2Proof.Machine
end

