-- ==== Sys2Proof/Machine/Scratchpad.lean ====
section
/-! DEFINITION. The scratchpad: windows, errors, full-empty granules and those who wait for them (R124 to R131, R139). -/

namespace Sys2Proof.Machine

/-! ## Windows (R124) -/

/-- The physical base of a fibre's window. -/
def State.winBase (s : State) (x : Fibre) : Nat := ((s.cohort? x.pos.cohort).getD default).win

/-- The size of a fibre's window. -/
def State.winSize (s : State) (x : Fibre) : Nat := ((s.cohort? x.pos.cohort).getD default).z

/-- Whether a range of offsets lies in a window of a size. -/
def inWindow (z : Nat) (off : Int) (n : Nat) : Bool := 0 ≤ off && off + n ≤ z

/-! ## Bytes and their errors (R128) -/

/-- The granules of a range of physical locations. -/
def granulesOf (phys n : Nat) : List Nat := if n = 0 then [] else (upTo ((phys + n - 1) / 16 - phys / 16 + 1)).map (phys / 16 + ·)

/-- Whether a read of a range, or a write that leaves part of a granule, meets an uncorrectable granule. -/
def Cluster.spadError (c : Cluster) (phys n : Nat) (write : Bool) : Bool :=
  (granulesOf phys n).any fun g => c.spadBad.contains g && !(write && phys ≤ 16 * g && 16 * g + 16 ≤ phys + n)

/-- Single-bit errors of a range corrected, each counted in the die (R128). -/
def State.spadCorrect (s : State) (cluster phys n : Nat) : State :=
  let hit := (granulesOf phys n).filter (s.clu cluster).spadCe.contains
  if hit.isEmpty then s
  else hit.foldl (fun s _ => s.modDie (dieOfCluster cluster) Die.countCe)
    (s.modClu cluster fun c => { c with spadCe := c.spadCe.filter fun g => !hit.contains g })

/-- Bytes of the scratchpad. -/
def State.spadBytes (s : State) (cluster phys n : Nat) : List Byte := tblBytes (s.clu cluster).spad phys n

/-- Bytes written to the scratchpad: a granule whose every byte is written in one access is sound again, and a single-bit error of a granule written in
part is corrected and counted (R128). -/
def State.spadWrite (s : State) (cluster phys : Nat) (data : List Byte) : State :=
  let n := data.length
  let part := (granulesOf phys n).filter fun g => (s.clu cluster).spadCe.contains g && !(phys ≤ 16 * g && 16 * g + 16 ≤ phys + n)
  (part.foldl (fun s _ => s.modDie (dieOfCluster cluster) Die.countCe) s).modClu cluster fun c =>
    { c with
      spad := tblWrite c.spad phys data
      spadBad := c.spadBad.filter fun g => !(phys ≤ 16 * g && 16 * g + 16 ≤ phys + n)
      spadCe := c.spadCe.filter fun g => !(granulesOf phys n).contains g }

/-! ## Writes that a pass may see as they were (R207) -/

/-- The mask of a fibre in a list of fibres and masks. -/
def maskIn (l : List (Nat × BeatMask)) (f : Nat) : BeatMask := (l.find? (·.1 == f)).elim 0 (·.2)

/-- Whether a pass for which a member has signed sees a write for certain: an unsigned member makes it, whose SIGN will release it, or an engine does,
while some signature is awaited. Any other write may be seen or not (R207). -/
def State.certain (s : State) (k : KReg) (writer : Option Nat) : Bool :=
  k.state == 1 && k.anySigned && match writer with
    | none => true
    | some f => k.members.any (·.1 == f)
        && (if k.fibSet then (s.fib? f).elim 0 (·.div.live) else maskIn k.members f) &&& ~~~maskIn k.signed f != 0

/-- A write of operands by a fibre, or by an engine for none, in every pass that sees it for certain (R207). -/
def State.touch (s : State) (cl : Nat) (writer : Option Nat) (put : KReg → KReg) : State :=
  if (s.clu cl).k.any fun e => s.certain e.2 writer then
    s.modClu cl fun c => { c with k := c.k.map fun e => if s.certain e.2 writer then (e.1, put e.2) else e }
  else s

/-- Bytes written to the scratchpad by a fibre, or by an engine for none. -/
def State.padStore (s : State) (cl : Nat) (writer : Option Nat) (phys : Nat) (data : List Byte) : State :=
  (s.spadWrite cl phys data).touch cl writer fun k => { k with spad0 := tblWrite k.spad0 phys data }

/-! ## Full-empty granules (R129 to R131) -/

/-- The order in which deterministic mode serves two waiters (R131, R418). -/
def State.waitLt (s : State) (a b : FeWait) : Bool :=
  let k := fun (w : FeWait) => (s.fib? w.fibre).elim [] (·.pos.key)
  keyLt (k a) (k b) || (k a == k b && a.beat < b.beat)

/-- Inserts a waiter in that order. -/
def State.insertWait (s : State) (w : FeWait) : List FeWait → List FeWait
  | [] => [w]
  | v :: t => if s.waitLt w v then w :: v :: t else v :: s.insertWait w t

/-- The waiters of a granule in the order in which they are served: of arrival, or in deterministic mode of key and beat (R131). -/
def State.waitersOf (s : State) (cluster granule : Nat) : List FeWait :=
  let ws := (s.clu cluster).waiters.filter (·.granule == granule)
  if ws.any fun w => (s.fib? w.fibre).elim false (·.pos.det) then ws.foldl (fun l w => s.insertWait w l) [] else ws

/-- A granule's bit. -/
def State.isFull (s : State) (cluster granule : Nat) : Bool := (s.clu cluster).full.contains granule

/-- A granule's bit set or cleared, without its waiters. -/
def State.putFull (s : State) (cluster granule : Nat) (full : Bool) : State :=
  s.modClu cluster fun c =>
    let l := c.full.filter (· != granule)
    { c with full := if full then insertPlace granule l else l }

/-- A waiter leaves the granule. -/
def State.dropWaiter (s : State) (cluster : Nat) (w : FeWait) : State :=
  s.modClu cluster fun c => { c with waiters := c.waiters.filter (· != w) }

/-- A waiter's beat ends with a fault. -/
def State.failWaiter (s : State) (cluster : Nat) (w : FeWait) (c : Cause) : State :=
  let s := s.dropWaiter cluster w
  if w.query.isSome then s
  else match (s.fib? w.fibre).bind (·.onFail) with
    | some r => s.trap w.fibre { r with cause := c }
    | none => s

/-- A waiting LDFE reads its granule (R129). -/
def State.serveRead (s : State) (cluster : Nat) (w : FeWait) : State :=
  if (s.clu cluster).spadError w.off w.n false then s.failWaiter cluster w .spadUe
  else
    let s := (s.spadCorrect cluster w.off w.n).dropWaiter cluster w
    let s := if w.clr then s.putFull cluster w.granule false else s
    match s.fib? w.fibre with
    | none => s
    | some x => s.putRf w.fibre (x.pastBeat w.beat) ((s.rf w.fibre x).writeExcept w.dst w.beat w.keep 0 (if w.dst = .none then [] else loadWords w.ty w.n (s.spadBytes cluster w.off w.n)))

/-- A waiting STFE, or an answer of a distributor, writes its granule (R129, R297). -/
def State.serveWrite (s : State) (cluster : Nat) (w : FeWait) : State :=
  if (s.clu cluster).spadError w.off w.n true then s.failWaiter cluster w .spadUe
  else
    let s := ((s.dropWaiter cluster w).padStore cluster (some w.fibre) w.off w.data).putFull cluster w.granule true
    s.modFib w.fibre fun x => if w.query.isNone then x.pastBeat w.beat else if x.sleep == .wqry then { x with sleep := .awake } else x

/-- A transition's waiters served one after another; each service may be the next transition (R131). -/
def State.serveGranule (s : State) (cluster granule : Nat) : Nat → State
  | 0 => s
  | n + 1 =>
    match (s.waitersOf cluster granule).find? fun w => w.wantFull == s.isFull cluster granule with
    | none => s
    | some w => (if w.wantFull then s.serveRead cluster w else s.serveWrite cluster w).serveGranule cluster granule n

/-- A granule becomes full or empty, and its waiters are served (R131). -/
def State.setFull (s : State) (cluster granule : Nat) (full : Bool) : State :=
  (s.putFull cluster granule full).serveGranule cluster granule ((s.clu cluster).waiters.length + 1)

/-- A granule that stands in a held failed range (R139). -/
def Cluster.inFailed (c : Cluster) (granule : Nat) : Bool :=
  c.fails.any fun e => e.2.failed && e.2.ranges.any fun r => r.1 ≤ granule && granule < r.1 + r.2

/-- The granules of a ring, header and slots (R108). -/
def Ring.holds (r : Ring) (granule : Nat) : Bool := r.base / 16 ≤ granule && granule < r.base / 16 + 4 + 2 ^ r.logn * r.slotG

/-- A ring of a cluster. -/
def State.ring? (s : State) (cl key : Nat) : Option Ring := tfind (s.clu cl).rings key

/-- A ring replaced. -/
def State.putRing (s : State) (cl key : Nat) (r : Ring) : State := s.modClu cl fun c => { c with rings := tput c.rings key r }

/-- The status word of a ring's header: STATE, XLW and ERR (R109). -/
def Ring.status (r : Ring) : List Byte := leBytes 4 (r.state + 4 * r.xlw.toNat + 256 * (r.err % 256))

/-- A ring replaced, its status word with it. -/
def State.setRing (s : State) (cl key : Nat) (r : Ring) : State := (s.putRing cl key r).padStore cl none (r.base + 12) r.status

/-- A granule of a ring in error (R116). -/
def Cluster.inBadRing (c : Cluster) (granule : Nat) : Bool := c.rings.any fun e => e.2.state == 3 && e.2.holds granule

/-- The fault an LDFE that waits for a granule takes at once (R116, R139). -/
def Cluster.waitFault (c : Cluster) (granule : Nat) : Option Cause :=
  if c.inFailed granule then some .copyErr else if c.inBadRing granule then some .ringErr else none

/-- Every LDFE asleep on a granule that meets a condition faults (R116, R139). -/
def State.failReaders (s : State) (cluster : Nat) (cause : Cause) (test : Nat → Bool) : State :=
  ((s.clu cluster).waiters.filter fun w => w.wantFull && test w.granule).foldl (fun s w => s.failWaiter cluster w cause) s

/-- Failed ranges that lie wholly in a range of granules are freed (R139); a fibre that sleeps for a free entry tries again. -/
def State.freeFails (s : State) (cluster cohort lo n : Nat) : State :=
  s.modClu cluster fun c =>
    { c with fails := c.fails.filter fun e => !(e.2.failed && e.2.cohort == cohort && e.2.ranges.all fun r => lo ≤ r.1 && r.1 + r.2 ≤ lo + n) }

/-- Fibres of a cluster that sleep for room in an engine or a table try again (R134, R139). -/
def State.wakeSleepers (s : State) (cluster : Nat) (z : Sleep) : State :=
  s.fibres.foldl (fun s e => if clusterOfFibre e.1 == cluster && e.2.sleep == z then s.modFib e.1 fun x => { x with sleep := .awake } else s) s

end Sys2Proof.Machine
end

