-- ==== Sys2Proof/Machine/LoadStore.lean ====
section
/-! DEFINITION. Memory instructions: loads, stores, full-empty accesses, atomics, prefetch, fences, cache maintenance and monitors (R261 to R283). -/

namespace Sys2Proof.Machine

/-! ## Shapes and addresses (R261, R263) -/

/-- Bytes of an access of a type (R263). -/
def accessBytes (ty : Ty) (qw : Bool) : Nat := if qw then 16 else ty.width / 8

/-- Registers of an access. -/
def accessRegs (n : Nat) : Nat := max 1 (n / 4)

/-- What a memory instruction uses: groups read and written, permuted sources; it is uniform where no operand is per thread (R266). -/
def Uses.mem (rd wr : List (Opd × Nat)) (a : Src) (na : Nat) (b : Src) (nb : Nat) (per : Bool) : Uses :=
  { Uses.nil with
    rd := rd ++ srcGroup a na ++ srcGroup b nb, wr := wr, a := srcPerm a na, b := srcPerm b nb, uni := !(per || a.perThread || b.perThread)
    xch := permuted a || permuted b, requests := true }

/-- What a scratchpad instruction uses: its accesses go to the bank and not to memory. -/
def Uses.pad (rd wr : List (Opd × Nat)) (a : Src) (na : Nat) (b : Src) (nb : Nat) (per : Bool) : Uses := { Uses.mem rd wr a na b nb per with requests := false }

end Sys2Proof.Machine

namespace Sys2Proof

open Machine

/-- The words of a source at a thread. -/
def Src.words (x : Src) (env : Env) (rf : RF) (second : Bool) (k t : Nat) : List Word := (upTo k).map fun i => x.word env rf second i t

/-- The words of an operand at a thread. -/
def Opd.words (o : Opd) (env : Env) (rf : RF) (k t : Nat) : List Word := (upTo k).map fun i => o.word env rf i t

end Sys2Proof

namespace Sys2Proof.Machine

/-- The effective address of a beat in memory (R261). -/
def memEa (a b : Src) (off : BitVec 32) (env : Env) (rf : RF) (t : Nat) : Nat :=
  (a.dword env rf false t + (b.word env rf true 0 t).signExtend 64 + off.signExtend 64).toNat

/-- The offset of a beat in the scratchpad (R261). -/
def padEa (a b : Src) (off : BitVec 32) (env : Env) (rf : RF) (t : Nat) : Int :=
  (a.word env rf false 0 t).toNat + (b.word env rf true 0 t).toInt + off.toInt

/-- An offset as the frame records it. -/
def padAddr (off : Int) : Dword := BitVec.ofInt 64 off

/-- Where a load or an atomic writes, and how many registers: none for sz. -/
def destOf (env : Env) (d : Opd) (n : Nat) : Ref × Nat := if d = .sz then (.none, 0) else (d.ref env.pos env.woff 0, n)

end Sys2Proof.Machine

namespace Sys2Proof

open Machine

/-- The scope of an acquire that a qualifier makes. -/
def Qual.acquire (q : Qual) : Option Scope := if acquires q.ord then q.scope else none

end Sys2Proof

namespace Sys2Proof.Machine

/-- Whether an issue begins its instruction, or begins it again after a handler: what orders waits then (R98, R212, R216). -/
def Plan.begins (p : Plan) (i : Issue) : Bool := (p.x.mid.filter (·.at i)).all (·.resumed)

/-- The wait of a release before its first beat (R98, R216). -/
def relPre (q : Qual) (p : Plan) (s : State) : Pre := if releases q.ord && p.begins s.iss then s.orderWait true q.scope else .ok s

/-- The wait of an atomic before its first beat: a release's, and at package scope that of an acquire, so that an atomic that ends with HOME_ABSENT has not
been performed (R98, R99, R212, R216). -/
def rmwPre (q : Qual) (p : Plan) (s : State) : Pre :=
  if (releases q.ord || Scope.package q.acquire) && p.begins s.iss then s.orderWait (releases q.ord) q.scope else .ok s

/-! ## Loads from memory (R267 to R269) -/

/-- A hint's access: it fills what a load would fill, and raises nothing; a beat that fails is dropped, and an uncorrectable error quarantines
the frame (R87, R267, R276). -/
def State.hintLoad (s : State) (kind : AccKind) (va n : Nat) (plain : Bool) : State :=
  let f := s.iss.fibre
  if 2 ^ 56 < va + n then s
  else match s.hintXl f (pageParts va n) with
    | (none, s) => s
    | (some l, s) =>
      let segs := l.map fun e => e.1.seg e.2
      let core := coreOfFibre f
      if segs.any (fun g => g.host || !s.segThere (dieOfFibre f) g) then s
      else
        let plain := plain && cacheable segs
        match segs.find? fun g => !s.cached core kind plain g && (s.homeError g.pa g.n false).isSome with
        | some g => (s.homeError g.pa g.n false).getD s
        | none =>
          let a := { Access.make kind va segs n .b32 .none 0 with plain := plain, l1ev := s.l1Events core }
          (s.readSegs f a segs).2

/-- A value that a beat has at once reaches its register; an acquire takes effect, at package scope only once R98's records are acknowledged. -/
def State.valueNow (s : State) (u : Uses) (p : Plan) (t n : Nat) (q : Qual) (ty : Ty) (d : Opd) (bytes : List Byte) : Beat :=
  let (dst, k) := destOf p.env d (accessRegs n)
  if Scope.package q.acquire && !(s.die (dieOfFibre s.iss.fibre)).wt.isEmpty then
    s.issueAccess u p t { Access.make .load 0 [] n ty dst k with acq := q.acquire, reply := some bytes }
  else
    let s := match s.fib? s.iss.fibre with
      | some x => s.putRf s.iss.fibre x ((s.rf s.iss.fibre x).writeWords dst t 0 (if k = 0 then [] else loadWords ty n bytes))
      | none => s
    .ok (match q.acquire with | some sc => s.acquireEffect s.iss.fibre (some sc) | none => s)

/-- One beat of a load (R266, R268). -/
def State.loadBeat (s : State) (u : Uses) (p : Plan) (t : Nat) (kind : AccKind) (va n : Nat) (plain : Bool) (q : Qual) (ty : Ty) (d : Opd) : Beat :=
  match s.openAccess clsLoad kind plain true va n 0 with
  | .error e => e
  | .ok (_, segs, s) =>
    let (dst, k) := destOf p.env d (accessRegs n)
    s.issueAccess u p t { Access.make kind va segs n ty dst k with plain := plain && cacheable segs, acq := q.acquire, rmt := q.x && acquires q.ord }

/-- The bytes of an access from lines that its instruction has read already, if it has read them all (R133). -/
def Plan.fromLines (p : Plan) (i : Issue) (segs : List Seg) : Option (List Byte) :=
  let lines := (p.x.mid.filter (·.at i)).elim [] (·.lines)
  if segs.all fun g => (linesOf g.pa g.n).all fun l => (tfind lines l).isSome then
    some (segs.flatMap fun g => (upTo g.n).map fun j => nth 0 (tget [] lines (lineOf (g.pa + j))) ((g.pa + j) % 128))
  else none

/-- One beat of LDC: one cache access serves every thread on its line (R133). -/
def State.constBeat (s : State) (u : Uses) (p : Plan) (t va n : Nat) (q : Qual) (ty : Ty) (d : Opd) : Beat :=
  match s.openAccess clsLoad .const true true va n 0 with
  | .error e => e
  | .ok (_, segs, s') =>
    match p.fromLines s.iss segs with
    | some bytes => s'.valueNow u p t n q ty d bytes
    | none => s.loadBeat u p t .const va n true q ty d

/-- LDG (R268). -/
def execLdg (h : Hdr) (q : Qual) (ty : Ty) (qw touch : Bool) (d : Opd) (a b : Src) (off : BitVec 32) (s : State) : Host.Outcome State Fault Refusal :=
  let n := accessBytes ty qw
  let u := Uses.mem [] [(d, accessRegs n)] a 2 b 1 d.perThread
  let plain := q.ord == .none && !q.x
  .next (s.perBeat h u (fun _ s => .ok s)
    (fun p t s =>
      let va := memEa a b off p.env s.myRf t
      if d == .sz && !touch && !acquires q.ord then .ok (s.hintLoad .load va n plain)
      else s.loadBeat u p t .load va n plain q ty d)
    fun _ s => s)

/-- LDC (R133, R268). -/
def execLdc (h : Hdr) (ty : Ty) (qw touch : Bool) (d : Opd) (a b : Src) (off : BitVec 32) (s : State) : Host.Outcome State Fault Refusal :=
  let n := accessBytes ty qw
  let u := Uses.mem [] [(d, accessRegs n)] a 2 b 1 d.perThread
  let q : Qual := { scope := none, ord := .none, x := false }
  .next (s.perBeat h u (fun _ s => .ok s)
    (fun p t s =>
      let va := memEa a b off p.env s.myRf t
      if d == .sz && !touch then .ok (s.hintLoad .const va n true)
      else s.constBeat u p t va n q ty d)
    fun _ s => s)

/-- The delivery types of LDE for a page's format code (R269). -/
def ldeTypes (fmt : Nat) (ty : Ty) : Bool :=
  if 9 ≤ fmt && fmt ≤ 22 then ty == .f32 || ty == .f64
  else if 1 ≤ fmt && fmt ≤ 8 then ty == .i32 || ty == .n32 || ty == .i64 || ty == .n64
  else if fmt = 23 then ty == .f32 || ty == .n32
  else if fmt = 24 then ty == .i32 || ty == .f32
  else false

/-- Whether a format code names a block format (R54). -/
def isBlock (fmt : Nat) : Bool := 15 ≤ fmt && fmt ≤ 22

/-- Bytes of a scale or header entry (R50, R53). -/
def scaleBytes (fmt : Nat) : Nat := if fmt = 21 || fmt = 22 then 2 else 1

/-- Where the element at an index of a row lies under a format: its address, its bytes and its first bit there (R50, R53, R57, R269). -/
def ldePlace (fmt row k : Nat) : Nat × Nat × Nat :=
  let e := elementBits fmt
  if isBlock fmt then
    let bit := k % 32 * e % 8
    (row + k / 32 * (4 * e) + k % 32 * e / 8, (bit + e + 7) / 8, bit)
  else (row + k * (e / 8), e / 8, 0)

/-- The page of an address, if it translates without a fault. -/
def State.quietPage (s : State) (f va : Nat) : Option Page × State :=
  match s.translate (clusterOfFibre f) (s.asidOf ((s.fib? f).getD default)) va false false with
  | (.ok p, s) => (some p, s)
  | (_, s) => (none, s)

/-- The first format of a list under which the element lies on a page of that format. -/
def State.formatOf (s : State) (f row k : Nat) : List Nat → Option Nat × State
  | [] => (none, s)
  | fmt :: t =>
    match s.quietPage f (ldePlace fmt row k).1 with
    | (some p, s) => if p.fmt = fmt then (some fmt, s) else s.formatOf f row k t
    | (none, s) => s.formatOf f row k t

/-- Whether a block's element lies at or beyond the row's end, so that nothing is read (R57, R269). `w`: the words of C. -/
def beyondRow (fmt k : Nat) (w : Option (List Word)) : Bool := isBlock fmt && w.elim false fun w => (nth 0 w 2).toNat ≤ k

/-- The format by which LDE decodes an element: that of the element's page. Its place depends on the format in turn, so the format of the row's page is
tried first, then each that agrees with the page it leads to (R269, assumption 125). -/
def State.ldeFormat (s : State) (f row k : Nat) (w : Option (List Word)) : Option Nat × State :=
  match s.quietPage f row with
  | (some p, s) => if beyondRow p.fmt k w then (some p.fmt, s) else s.formatOf f row k (p.fmt :: (upTo 24).map (· + 1))
  | (none, s) => s.formatOf f row k ((upTo 24).map (· + 1))

/-- The scale or header of an element: its address and bytes, none for a scalar format; `short` where the tensor ends before it (R58, R269). -/
def scaleOf (fmt k : Nat) (w : List Word) : Option (Nat × Nat) :=
  if isBlock fmt then some (wordsNat (w.take 2) + k / 32 * scaleBytes fmt, scaleBytes fmt) else none

/-- One beat of LDE on an element of a format (R57, R58, R269). -/
def State.ldeElement (s : State) (u : Uses) (p : Plan) (t : Nat) (q : Qual) (ty : Ty) (d : Opd) (w : Option (List Word)) (fmt row k : Nat) : Beat :=
  let plain := q.ord == .none && !q.x
  let (va, n, bit) := ldePlace fmt row k
  if !ldeTypes fmt ty then .stop .fmtBad (addr64 row) s
  else if isBlock fmt && w.isNone then .stop .fmtBad (addr64 row) s
  else if beyondRow fmt k w then s.valueNow u p t (if ty.is64 then 8 else 4) q (if ty.is64 then .n64 else .b32) d (List.replicate 8 0)
  else if isBlock fmt && (nth 0 (w.getD []) 3).toNat ≤ k / 32 then .stop .scaleShort (addr64 va) s
  else match s.openAccess clsLoad .load plain true va n 0 with
    | .error e => e
    | .ok (pgs, segs, s) =>
      if pgs.any fun g => g.fmt != fmt || g.geo ≥ 2 then .stop .fmtBad (addr64 va) s
      else match (match scaleOf fmt k (w.getD []) with
        | none => Except.ok ([], [], s)
        | some (sva, sn) => s.openAccess clsLoad .load plain true sva sn 0) with
        | .error e => e
        | .ok (_, more, s) =>
          let sn := (scaleOf fmt k (w.getD [])).elim 0 (·.2)
          let (dst, regs) := destOf p.env d (regsOf ty.is64)
          s.issueAccess u p t { Access.make .load va (segs ++ more) (n + sn) ty dst regs with
            plain := plain && cacheable (segs ++ more), acq := q.acquire, rmt := q.x && acquires q.ord
            lde := some { fmt := fmt, ty := ty, bit := bit, width := elementBits fmt, scale := sn } }

/-- One beat of LDE: where no format agrees with the element's page, the page of the row start gives the fault (R269). -/
def State.ldeBeat (s : State) (u : Uses) (p : Plan) (t : Nat) (q : Qual) (ty : Ty) (d : Opd) (w : Option (List Word)) (row k : Nat) : Beat :=
  if 2 ^ 56 ≤ row then .stop .vaBad (addr64 row) s
  else match s.ldeFormat s.iss.fibre row k w with
    | (some fmt, s) => s.ldeElement u p t q ty d w fmt row k
    | (none, s) => match s.xlPart clsLoad row row with
      | .error e => e
      | .ok (pg, s) => s.ldeElement u p t q ty d w pg.fmt row k

/-- A beat of an LDE whose datum is discarded: it may fill what a load would fill, and raises nothing (R87, R267). -/
def State.ldeHint (s : State) (q : Qual) (ty : Ty) (w : Option (List Word)) (row k : Nat) : State :=
  match s.ldeFormat s.iss.fibre row k w with
  | (none, s) => s
  | (some fmt, s) =>
    let plain := q.ord == .none && !q.x
    let (va, n, _) := ldePlace fmt row k
    if !ldeTypes fmt ty || (isBlock fmt && w.isNone) || beyondRow fmt k w || (isBlock fmt && (nth 0 (w.getD []) 3).toNat ≤ k / 32) then s
    else match scaleOf fmt k (w.getD []) with
      | none => s.hintLoad .load va n plain
      | some (sva, sn) => (s.hintLoad .load va n plain).hintLoad .load sva sn plain

/-- LDE (R269). -/
def execLde (h : Hdr) (q : Qual) (ty : Ty) (touch : Bool) (d : Opd) (a b : Src) (c : Option Opd) (off : BitVec 32) (s : State) :
    Host.Outcome State Fault Refusal :=
  let u := Uses.mem (c.elim [] fun o => [(o, 4)]) [(d, regsOf ty.is64)] a 2 b 1 d.perThread
  .next (s.perBeat h u (fun _ s => .ok s)
    (fun p t s =>
      let rf := s.myRf
      let w := c.map fun o => o.words p.env rf 4 0
      let row := (a.dword p.env rf false t + off.signExtend 64).toNat
      let k := (b.word p.env rf true 0 t).toNat
      if d == .sz && !touch && !acquires q.ord then .ok (s.ldeHint q ty w row k) else s.ldeBeat u p t q ty d w row k)
    fun _ s => s)

/-! ## Stores to memory (R270, R283) -/

/-- One beat of a store: the digest entry, and the access (R270, R423). -/
def State.storeBeat (s : State) (u : Uses) (p : Plan) (t va : Nat) (data : List Byte) (align : Nat) : Beat :=
  match s.openAccess clsStore .store false false va data.length align with
  | .error e => e
  | .ok (_, segs, s) =>
    (s.creditFib s.iss.fibre (digestCells (cellsFrom va data))).issueAccess u p t { Access.make .store va segs data.length .b32 .none 0 with data := data }

/-- The bytes of a datum held in words. -/
def wordBytes (n : Nat) (ws : List Word) : List Byte := leBytes n (wordsNat ws)

/-- STG (R270). -/
def execStg (h : Hdr) (q : Qual) (ty : Ty) (qw : Bool) (d : Opd) (a b : Src) (off : BitVec 32) (s : State) : Host.Outcome State Fault Refusal :=
  let n := accessBytes ty qw
  let u := Uses.mem [(d, accessRegs n)] [] a 2 b 1 d.perThread
  .next (s.perBeat h u (relPre q)
    (fun p t s => s.storeBeat u p t (memEa a b off p.env s.myRf t) (wordBytes n (d.words p.env s.myRf (accessRegs n) t)) 0)
    fun _ s => s)

/-! ## Scratchpad loads and stores (R268, R270) -/

/-- One read of the scratchpad by a beat: bounds, errors, then the bytes (R124, R128). -/
def State.padRead (s : State) (off : Int) (n : Nat) : Except Beat (List Byte × State) :=
  let x := s.me
  let cl := clusterOfFibre s.iss.fibre
  let phys := s.winBase x + off.toNat
  if !inWindow (s.winSize x) off n then .error (.stop .spadOob (padAddr off) s)
  else if (s.clu cl).spadError phys n false then .error (.stop .spadUe (padAddr off) s)
  else .ok (s.spadBytes cl phys n, s.spadCorrect cl phys n)

/-- One write of the scratchpad by a beat (R124, R128). -/
def State.padWrite (s : State) (off : Int) (data : List Byte) : Beat :=
  let x := s.me
  let cl := clusterOfFibre s.iss.fibre
  let phys := s.winBase x + off.toNat
  if !inWindow (s.winSize x) off data.length then .stop .spadOob (padAddr off) s
  else if (s.clu cl).spadError phys data.length true then .stop .spadUe (padAddr off) s
  else .ok (s.padStore cl (some s.iss.fibre) phys data)

/-- LDS (R268). -/
def execLds (h : Hdr) (q : Qual) (ty : Ty) (qw touch : Bool) (d : Opd) (a b : Src) (off : BitVec 32) (s : State) : Host.Outcome State Fault Refusal :=
  let n := accessBytes ty qw
  let u := Uses.pad [] [(d, accessRegs n)] a 1 b 1 d.perThread
  .next (s.perBeat h u (fun _ s => .ok s)
    (fun p t s =>
      match s.padRead (padEa a b off p.env s.myRf t) n with
      | .error e => if d == .sz && !touch && !acquires q.ord then .ok s else e
      | .ok (bytes, s) => s.valueNow u p t n q ty d bytes)
    fun _ s => s)

/-- STS (R270). -/
def execSts (h : Hdr) (q : Qual) (ty : Ty) (qw : Bool) (d : Opd) (a b : Src) (off : BitVec 32) (s : State) : Host.Outcome State Fault Refusal :=
  let n := accessBytes ty qw
  let u := Uses.pad [(d, accessRegs n)] [] a 1 b 1 d.perThread
  .next (s.perBeat h u (relPre q)
    (fun p t s => s.padWrite (padEa a b off p.env s.myRf t) (wordBytes n (d.words p.env s.myRf (accessRegs n) t)))
    fun _ s => s)

/-! ## Full-empty accesses (R271, R272) -/

/-- The checks of a full-empty access: one granule, inside the window (R130). -/
def State.feCheck (s : State) (off : Int) (n : Nat) : Option Cause :=
  if 16 < off % 16 + n then some .feSpan
  else if !inWindow (s.winSize s.me) off n then some .spadOob
  else none

/-- A beat waits for its granule (R130). -/
def State.feSleep (s : State) (t : Nat) (off : Int) (w : FeWait) : Beat :=
  .sleep (.fe w.granule) (padAddr off)
    (s.modClu (clusterOfFibre s.iss.fibre) fun c => { c with waiters := c.waiters ++ [{ w with fibre := s.iss.fibre, beat := t }] })

/-- One beat of LDFE (R129, R271). -/
def State.ldfeBeat (s : State) (u : Uses) (p : Plan) (t : Nat) (clr : Bool) (ty : Ty) (n : Nat) (d : Opd) (off : Int) : Beat :=
  let cl := clusterOfFibre s.iss.fibre
  let phys := s.winBase s.me + off.toNat
  let g := phys / 16
  let (dst, k) := destOf p.env d (accessRegs n)
  match s.feCheck off n with
  | some c => .stop c (padAddr off) s
  | none =>
    if s.isFull cl g then
      match s.padRead off n with
      | .error e => e
      | .ok (bytes, s) =>
        let s := match s.fib? s.iss.fibre with
          | some x => s.putRf s.iss.fibre x ((s.rf s.iss.fibre x).writeWords dst t 0 (if dst = .none then [] else loadWords ty n bytes))
          | none => s
        .ok (if clr then s.setFull cl g false else s)
    else match (s.clu cl).waitFault g with
      | some c => .stop c (padAddr off) s
      | none =>
        s.feSleep t off { fibre := 0, beat := 0, granule := g, wantFull := true, clr := clr, off := phys, n := n, data := [], dst := dst, ty := ty, uni := u.uni, query := none, keep := p.keeps t dst k }

/-- LDFE (R271). -/
def execLdfe (h : Hdr) (clr : Bool) (ty : Ty) (qw : Bool) (d : Opd) (a b : Src) (off : BitVec 32) (s : State) : Host.Outcome State Fault Refusal :=
  let n := accessBytes ty qw
  let u := Uses.pad [] [(d, accessRegs n)] a 1 b 1 d.perThread
  .next (s.perBeat h u (fun _ s => .ok s)
    (fun p t s => s.ldfeBeat u p t clr ty n d (padEa a b off p.env s.myRf t))
    fun _ s => s)

/-- One beat of STFE (R129, R271). -/
def State.stfeBeat (s : State) (u : Uses) (t : Nat) (data : List Byte) (off : Int) : Beat :=
  let cl := clusterOfFibre s.iss.fibre
  let phys := s.winBase s.me + off.toNat
  let g := phys / 16
  match s.feCheck off data.length with
  | some c => .stop c (padAddr off) s
  | none =>
    if !s.isFull cl g then
      match s.padWrite off data with
      | .ok s => .ok (s.setFull cl g true)
      | e => e
    else
      s.feSleep t off { fibre := 0, beat := 0, granule := g, wantFull := false, clr := false, off := phys, n := data.length, data := data, dst := .none, ty := .b32, uni := u.uni, query := none }

/-- STFE: a release at `.clu` (R129, R271). -/
def execStfe (h : Hdr) (ty : Ty) (qw : Bool) (d : Opd) (a b : Src) (off : BitVec 32) (s : State) : Host.Outcome State Fault Refusal :=
  let n := accessBytes ty qw
  let u := Uses.pad [(d, accessRegs n)] [] a 1 b 1 d.perThread
  .next (s.perBeat h u (relPre { scope := some .clu, ord := .rel, x := false })
    (fun p t s => s.stfeBeat u t (wordBytes n (d.words p.env s.myRf (accessRegs n) t)) (padEa a b off p.env s.myRf t))
    fun _ s => s)

/-- One beat of FESET (R272). -/
def State.fesetBeat (s : State) (full : Bool) (off : Int) (len : Nat) : Beat :=
  let cl := clusterOfFibre s.iss.fibre
  let x := s.me
  let g := (s.winBase x + off.toNat) / 16
  if len = 0 then .ok s
  else if off % 16 != 0 || len % 16 != 0 then .stop .feSpan (padAddr off) s
  else if !inWindow (s.winSize x) off len then .stop .spadOob (padAddr off) s
  else
    let s := (upTo (len / 16)).foldl (fun s i => s.setFull cl (g + i) full) s
    .ok ((s.freeFails cl x.pos.cohort g (len / 16)).wakeSleepers cl .failTable)

/-- FESET: to full it is a release at `.clu` (R129, R272). -/
def execFeset (h : Hdr) (full : Bool) (a b : Opd) (off : BitVec 32) (s : State) : Host.Outcome State Fault Refusal :=
  let u := Uses.pad [] [] (.reg a .id) 1 (.reg b .id) 1 false
  .next (s.perBeat h u (relPre { scope := some .clu, ord := if full then .rel else .none, x := false })
    (fun p t s =>
      let rf := s.myRf
      s.fesetBeat full ((a.word p.env rf 0 t).toNat + off.toInt) (b.word p.env rf 0 t).toNat)
    fun _ s => s)

/-! ## Atomics (R273 to R275) -/

/-- Whether a host carries an atomic as an AtomicOp (R25, R274). -/
def hostAtomic (op : AOp) (ty : Ty) : Bool :=
  match op with
  | .add => ty != .n32
  | .xchg | .cas => true
  | _ => false

/-- One beat of an atomic or a reducing write in memory (R26, R275). -/
def State.atomicBeat (s : State) (u : Uses) (p : Plan) (t : Nat) (demand : Bool) (op : AOp) (ty : Ty) (n va : Nat) (a : Access) : Beat :=
  match s.openAccess clsAtomic a.kind false demand va n n with
  | .error e => e
  | .ok (_, segs, s) =>
    if segs.any (·.host) && !((s.die (dieOfFibre s.iss.fibre)).r.featen.getLsbD 17 && hostAtomic op ty) then .stop .hostatomAbsent (addr64 va) s
    else s.issueRmw u p t { a with segs := segs }

/-- Bytes of an atomic: X on CAS selects `.b128` (R273). -/
def atomicBytes (q : Qual) (op : AOp) (ty : Ty) : Nat := if op == .cas && q.x then 16 else ty.width / 8

/-- ATOMG (R273 to R275). -/
def execAtomg (h : Hdr) (q : Qual) (op : AOp) (ty : Ty) (d : Opd) (a b : Src) (c : Option Opd) (s : State) : Host.Outcome State Fault Refusal :=
  let n := atomicBytes q op ty
  let k := accessRegs n
  let u := Uses.mem (c.elim [] fun o => [(o, k)]) [(d, k)] a 2 b k (d.perThread || c.elim false Opd.perThread)
  .next (s.perBeat h u (rmwPre q)
    (fun p t s =>
      let rf := s.myRf
      let va := (a.dword p.env rf false t).toNat
      let (dst, r) := destOf p.env d k
      s.atomicBeat u p t true op ty n va { Access.make (.atomic op ty) va [] n (if n = 4 then .b32 else .n64) dst r with
        acq := q.acquire, rmt := q.x && op != .cas, data := wordBytes n (b.words p.env rf true k t)
        cmp := c.elim [] fun o => wordBytes n (o.words p.env rf k t) })
    fun _ s => s)

/-- REDG (R273 to R275). -/
def execRedg (h : Hdr) (q : Qual) (op : AOp) (ty : Ty) (a b : Src) (s : State) : Host.Outcome State Fault Refusal :=
  let n := ty.width / 8
  let k := accessRegs n
  let u := Uses.mem [] [] a 2 b k false
  .next (s.perBeat h u (relPre q)
    (fun p t s =>
      let rf := s.myRf
      let va := (a.dword p.env rf false t).toNat
      s.atomicBeat u p t false op ty n va { Access.make (.red op ty) va [] n ty .none 0 with data := wordBytes n (b.words p.env rf true k t) })
    fun _ s => s)

/-- ATOMS: one step at the bank (R127, R275). -/
def execAtoms (h : Hdr) (q : Qual) (op : AOp) (ty : Ty) (d : Opd) (a b : Src) (c : Option Opd) (s : State) : Host.Outcome State Fault Refusal :=
  let n := ty.width / 8
  let k := accessRegs n
  let u := Uses.pad (c.elim [] fun o => [(o, k)]) [(d, k)] a 1 b k (d.perThread || c.elim false Opd.perThread)
  .next (s.perBeat h u (rmwPre q)
    (fun p t s =>
      let rf := s.myRf
      let off : Int := (a.word p.env rf false 0 t).toNat
      if off % n != 0 then .stop .memAlign (padAddr off) s
      else match s.padRead off n with
        | .error e => e
        | .ok (old, s) =>
          let new := atomicNew op ty n (leNat old) (wordsNat (b.words p.env rf true k t)) (c.elim 0 fun o => wordsNat (o.words p.env rf k t))
          match s.padWrite off (leBytes n new) with
          | .ok s => s.valueNow u p t n q (if n = 4 then .b32 else .n64) d old
          | e => e)
    fun _ s => s)

/-! ## Prefetch and cache maintenance (R276 to R279) -/

/-- The translation of PREF.touch: its faults are raised or replayed; an error or an absent home met in a table read drops the beat (R84, R87, R276). -/
def State.touchPage (s : State) (va : Nat) : Beat :=
  let f := s.iss.fibre
  let die := dieOfFibre f
  let asid := s.asidOf s.me
  match s.translate (clusterOfFibre f) asid va false false with
  | (.ok _, s) => .ok s
  | (.fail c none, s) => if c == .ueData || c == .homeAbsent then .ok s else .stop c (addr64 va) s
  | (.fail _ (some k), s) =>
    .sleep (.replay die asid (va / 65536) k) (addr64 va) (s.raiseFault die
      { asid := asid, page := va / 65536, va := va, kind := k, cls := clsLoad, cluster := clusterOfFibre f, core := coreOfFibre f % 4, source := 0
        waiters := [.fibre f], count := 1, slot := none })

/-- PREF: with `.touch` its translation faults are raised (R276). -/
def execPref (h : Hdr) (l1 touch : Bool) (a b : Opd) (off : BitVec 32) (s : State) : Host.Outcome State Fault Refusal :=
  let u := Uses.mem [] [] (.reg a .id) 2 (.reg b .id) 1 false
  .next (s.perBeat h u (fun _ s => .ok s)
    (fun p t s =>
      let va := memEa (.reg a .id) (.reg b .id) off p.env s.myRf t
      match (if touch then s.touchPage va else .ok s) with
      | .ok s => .ok (if 2 ^ 56 ≤ va then s else s.hintLoad .load (va / 128 * 128) 1 l1)
      | e => e)
    fun _ s => s)

/-- CINV (R277). -/
def execCinv (h : Hdr) (kind : CinvKind) (s : State) : Host.Outcome State Fault Refusal :=
  .next (s.perBeat h Uses.control (fun _ s => .ok s) (fun _ _ s => .ok s) fun _ s =>
    let s := if kind == .l1 || kind == .all then s.l1Event (coreOfFibre s.iss.fibre) else s
    if kind == .const || kind == .all then s.modClu (clusterOfFibre s.iss.fibre) fun c => { c with const := [] } else s)

/-- The scalar pair and length of a range operand. -/
def rangeOf (a b : Opd) (env : Env) (rf : RF) : Nat × Nat := ((a.dword env rf 0).toNat, (b.word env rf 0 0).toNat)

/-- What CWB does to a range whose pages are translated: write back this die's Home lines, and say whether a record of the die still waits
(R278). -/
def State.writeBackSegs (s : State) (die : Nat) (segs : List Seg) : Bool × State :=
  let covers := fun (line : Nat) => segs.any fun g => !g.host && lineOf g.pa ≤ line && line ≤ lineOf (g.pa + g.n - 1)
  let waits := (s.die die).wt.any fun r => covers r.line
  (waits, s.modDie die fun d => { d with dirty := d.dirty.filter fun e => !covers e.1 })

/-- CWB (R278). -/
def execCwb (h : Hdr) (a b : Opd) (s : State) : Host.Outcome State Fault Refusal :=
  let u := { Uses.nil with rd := [(a, 2), (b, 1)], uni := true }
  .next (s.perBeat h u
    (fun p s =>
      let (va, n) := rangeOf a b p.env s.myRf
      let die := dieOfFibre s.iss.fibre
      let stop := fun (e : Beat) => match e with | .ok s => Pre.ok s | .stop c x s => .stop c x s | .sleep z _ s => .sleep z s
      if n = 0 then .ok s
      else if 2 ^ 56 < va + n then .stop .vaBad (addr64 va) s
      else match s.xlParts clsLoad va (pageParts va n) with
        | .error e => stop e
        | .ok (l, s) =>
          let segs := l.map fun e => e.1.seg e.2
          if segs.any fun g => !s.segThere die g then .stop .homeAbsent (addr64 va) s
          else match s.writeBackSegs die segs with
            | (true, s) => .wait s.hold
            | (false, s) => .ok s)
    (fun _ _ s => .ok s) fun _ s => s)

/-- The cores of a scope instance around a core (R214). -/
def scopeCores (sc : Scope) (core : Nat) : List Nat :=
  match sc with
  | .fib | .core => [core]
  | .clu => coresOf (clusterOfCore core)
  | .die => (upTo 192).map (dieOfCluster (clusterOfCore core) * 192 + ·)
  | .pkg | .sys => upTo 384

/-- ICINV: a page that does not translate holds no code (R279). -/
def execIcinv (h : Hdr) (scope : Scope) (a b : Opd) (s : State) : Host.Outcome State Fault Refusal :=
  let u := { Uses.nil with rd := [(a, 2), (b, 1)], uni := true }
  .next (s.perBeat h u (fun _ s => .ok s)
    (fun p _ s =>
      let f := s.iss.fibre
      let (va, n) := rangeOf a b p.env s.myRf
      let asid := s.asidOf s.me
      let (segs, s) := (pageParts va n).foldl (fun (acc : List Seg × State) e =>
        match acc.2.translate (clusterOfFibre f) asid e.1 false false with
        | (.ok pg, s) => (pg.seg e.2 :: acc.1, s)
        | (_, s) => (acc.1, s)) ([], s)
      let keep := fun (l : Line) => !segs.any fun g => lineOf g.pa ≤ l.line && l.line ≤ lineOf (g.pa + g.n - 1)
      let cores := (scopeCores scope (coreOfFibre f)).filter fun c => s.reaches (dieOfFibre f) (dieOfCluster (clusterOfCore c))
      let s := cores.foldl (fun s c => if (s.core c).icache.isEmpty then s else s.modCore c fun x => { x with icache := x.icache.filter keep }) s
      .ok (if scope == .pkg then ([0, 1].filter (s.reaches (dieOfFibre f))).foldl (fun s d => s.modDie d Die.newEpoch) s else s))
    fun _ s => s)

/-! ## FENCE (R280) -/

/-- FENCE (R98, R216, R221, R280). -/
def execFence (h : Hdr) (ord : MemOrd) (scope : Scope) (s : State) : Host.Outcome State Fault Refusal :=
  .next (s.perBeat h Uses.control (fun _ s => s.orderWait true (some scope)) (fun _ _ s => .ok s) fun _ s =>
    if acquires ord then s.acquireEffect s.iss.fibre (some scope) else s)

/-! ## Monitors (R101 to R105, R281, R282) -/

/-- One beat of MARM: the line joins the set and the fibre waits until home has registered the arm (R101, R281). -/
def State.armBeat (s : State) (va : Nat) : Beat :=
  match s.openAccess clsLoad .load false false va 1 0 with
  | .error e => e
  | .ok (_, segs, s) =>
    match segs with
    | [] => .ok s
    | g :: _ =>
      let x := s.me
      let line := lineOf g.pa
      if g.host then .stop .monBad (addr64 va) s
      else if x.mon.any (·.line == line) then .ok s
      else if 4 ≤ x.mon.length then .stop .monFull (addr64 va) s
      else
        let s := s.modFib s.iss.fibre fun x => { x with mon := x.mon ++ [{ line := line, registered := false, overflow := false }] }
        let arm : Arm := { fibre := s.iss.fibre, line := line, overflow := false, live := false, inc := (s.die (dieOfFibre s.iss.fibre)).r.inc }
        .sleep .reply (addr64 va) (s.modDie g.home fun d => { d with arms := d.arms ++ [arm] })

/-- A die's Copies of the lines of a fibre's monitor set become Invalid (R101, R103, R226). -/
def State.dropMonitored (s : State) (f : Nat) : State :=
  ((s.fib? f).elim [] fun x => x.mon.map (·.line)).foldl (fun s l => s.dropCopy (dieOfFibre f) l) s

/-- MARM: the Copies of its lines are Invalid once it is complete (R101, R281). -/
def execMarm (h : Hdr) (a b : Src) (s : State) : Host.Outcome State Fault Refusal :=
  let u := Uses.mem [] [] a 2 b 1 false
  .next (s.perBeat h u (fun _ s => .ok s) (fun p t s => s.armBeat (memEa a b 0 p.env s.myRf t)) fun _ s => s.dropMonitored s.iss.fibre)

/-- Whether the home of a line of a fibre's set is absent, or has been since (R17). -/
def State.monGone (s : State) (f : Nat) (x : Fibre) : Bool := x.mon.any fun m => m.gone || !s.reaches (dieOfFibre f) (homeOf (m.line * 128))

/-- The reason with which MWAIT returns at once (R102, R103). -/
def State.mwaitNow (s : State) (f : Nat) (x : Fibre) (timeout : Nat) : Option Nat :=
  match x.mwaitCode with
  | some c => some c
  | none =>
    if x.mon.isEmpty || x.mid.any (fun m => m.lost && m.at s.iss) then some 2
    else if x.monEvent then some 0
    else if s.monGone f x || timeout = 0 then some 1
    else none

/-- The return of MWAIT: the set is cleared, and the die's Copies of its lines are Invalid (R103, R226). -/
def State.endMonitor (s : State) (f : Nat) : State :=
  ((s.dropMonitored f).dropMonitor f).modFib f fun x => { x with mwaitCode := none }

/-- MWAIT (R103, R282). -/
def execMwait (h : Hdr) (d a : Opd) (s : State) : Host.Outcome State Fault Refusal :=
  let u := { Uses.nil with rd := [(a, 1)], wr := [(d, 1)], uni := true }
  .next (s.perBeat h u (fun _ s => .ok s)
    (fun p _ s =>
      let f := s.iss.fibre
      let n := (a.word p.env s.myRf 0 0).toNat
      match s.mwaitNow f s.me n with
      | some c =>
        let s := s.endMonitor f
        .ok (s.putMy (d.put p.env s.myRf 0 0 (BitVec.ofNat 32 c)))
      | none => .sleep (.mwait (s.nowOf f + n)) 0 s)
    fun _ s => s.atSwitch)

end Sys2Proof.Machine
end

