-- ==== Sys2Proof/Machine/MatrixArith.lean ====
section
/-! DEFINITION. The arithmetic of the matrix engine: configuration words and their checks, operands, sums, post-operator steps (R183 to R200). -/

namespace Sys2Proof.Machine

/-! ## Fields of the staging words (R187, R188, R190, R193) -/

/-- Bits `lo` on of a word, `n` of them, as a number. -/
def bitsAt (x : Dword) (lo n : Nat) : Nat := x.toNat / 2 ^ lo % 2 ^ n

/-- MODE of CFG (R183): 0 float, 1 integer, 2 raster. -/
def Staging.mode (g : Staging) : Nat := bitsAt g.cfg 0 2
/-- The format code of operand A. -/
def Staging.afmt (g : Staging) : Nat := bitsAt g.cfg 2 5
/-- The format code of operand B. -/
def Staging.bfmt (g : Staging) : Nat := bitsAt g.cfg 7 5
/-- K of a pass. -/
def Staging.kk (g : Staging) : Nat := bitsAt g.cfg 12 11 + 1
/-- The first tile register. -/
def Staging.tb (g : Staging) : Nat := bitsAt g.cfg 23 4
/-- The number of tile registers. -/
def Staging.tn (g : Staging) : Nat := bitsAt g.cfg 27 4 + 1
/-- CFG.BANK. -/
def Staging.bank (g : Staging) : Bool := g.cfg.getLsbD 31
/-- CFG.ACC. -/
def Staging.acc (g : Staging) : Bool := g.cfg.getLsbD 32
/-- CFG.DIAG. -/
def Staging.diag (g : Staging) : Bool := g.cfg.getLsbD 33
/-- CFG.COLSRC. -/
def Staging.colsrc (g : Staging) : Bool := g.cfg.getLsbD 34
/-- CFG.COLOFF. -/
def Staging.coloff (g : Staging) : Nat := bitsAt g.cfg 36 20
/-- The post-operator's steps: the nibbles before the first 0 (R193). -/
def Staging.steps (g : Staging) : List Nat := ((upTo 8).map fun i => bitsAt g.post0 (4 * i) 4).takeWhile (· != 0)
/-- The format code CONVERT names. -/
def Staging.cvFmt (g : Staging) : Nat := bitsAt g.post0 32 5
/-- The rounding mode CONVERT names. -/
def Staging.cvRm (g : Staging) : Rm :=
  match bitsAt g.post0 37 2 with
  | 0 => .rn | 1 => .rz | 2 => .ru | _ => .rd

/-- The banks of a pass (R183). -/
def Staging.banks (g : Staging) : List Bool := if g.mode = 0 then [g.bank] else [false, true]

/-! ## The checks of KSET (R187, R188, R190, R193, R196) -/

/-- Kmax of a B format (R185). -/
def kMax (fmt : Nat) : Nat :=
  match fmt with
  | 9 | 10 | 3 | 4 | 23 => 64
  | 13 | 14 | 1 | 2 => 128
  | 5 | 6 | 11 | 24 => 32
  | 7 | 8 | 12 => 16
  | 15 | 16 | 20 | 22 => 96
  | 17 | 18 => 160
  | 19 | 21 => 224
  | _ => 0

/-- Whether a format has blocks with scales or headers (R50, R53). -/
def blockFmt (fmt : Nat) : Bool := 15 ≤ fmt && fmt ≤ 22

/-- Operand formats of float mode (R187). -/
def floatFmt (fmt : Nat) : Bool := fmt == 9 || fmt == 10 || (13 ≤ fmt && fmt ≤ 22)

/-- Operand formats of integer mode (R187). -/
def intFmt (fmt : Nat) : Bool := (1 ≤ fmt && fmt ≤ 4) || fmt == 23

/-- The operand formats a mode accepts, and its other demands on CFG (R183, R187). -/
def Staging.cfgOk (g : Staging) : Bool :=
  (match g.mode with
    | 0 => floatFmt g.afmt && floatFmt g.bfmt
    | 1 => intFmt g.afmt && intFmt g.bfmt && !g.bank
    | 2 => g.afmt == 24 && g.bfmt == 5 && g.kk == 3 && !g.bank
    | _ => false)
    && g.kk ≤ g.tn * kMax g.bfmt && g.tb + g.tn ≤ 16 && g.coloff % 8 == 0

/-- UNF0 and UNF1 (R188). -/
def Staging.unfOk (g : Staging) (coff : Nat) : Bool :=
  let cg := bitsAt g.unf1 0 12
  bitsAt g.unf0 0 20 % 16 == 0 && 1 ≤ bitsAt g.unf0 20 12 && 1 ≤ bitsAt g.unf0 32 16 && 1 ≤ cg && g.kk ≤ (bitsAt g.unf0 48 4 + 1) * cg
    && bitsAt g.unf1 48 3 ≤ 3 && (!blockFmt g.afmt || (cg % 32 == 0 && coff % 32 == 0))

/-- PRE (R190). -/
def Staging.preOk (g : Staging) : Bool :=
  (g.mode == 1 || (!g.pre.getLsbD 4 && !g.pre.getLsbD 5)) && g.pre.getLsbD 6 == (g.mode == 2) && (g.mode == 2 || !g.pre.getLsbD 7)

/-- Formats CONVERT may name (R193). -/
def convFmt (fmt : Nat) : Bool := [11, 9, 10, 13, 14, 1, 2, 3, 4, 5, 6, 23].contains fmt

/-- The post-operator's list from one step on: whether FILL has come, whether the value is still an integer, whether CONVERT has come (R193). -/
def postOk (raster : Bool) (fmt : Nat) : Bool → Bool → Bool → List Nat → Bool
  | _, _, _, [] => true
  | fill, int, conv, c :: t =>
    c ≤ 8 && !conv && (raster || (c != 6 && c != 7)) && (c != 7 || fill) && !(c == 5 && int) && (c != 8 || convFmt fmt)
      && postOk raster fmt (fill || c == 6) (int && c != 1 && c != 2 && c != 7) (c == 8) t

/-- The width of a raster block in pixels, by SHAPE (R188). -/
def blockW (shape : Nat) : Nat :=
  match shape with
  | 0 => 16 | 1 => 8 | 2 => 32 | _ => 128

/-- The raster block lies in the coordinates (R196). -/
def Staging.rasterOk (g : Staging) (p0 : Word) : Bool :=
  let bw := blockW (bitsAt g.unf1 48 3)
  g.mode != 2 || ((p0.extractLsb' 0 16).toInt + bw - 1 ≤ 32767 && (p0.extractLsb' 16 16).toInt + (128 / bw : Nat) - 1 ≤ 32767)

/-- Check 4 of KSET (R358). -/
def Staging.ok (g : Staging) (coff : Word) : Bool :=
  g.cfgOk && g.unfOk (coff.toNat % 65536) && g.preOk && postOk (g.mode == 2) g.cvFmt false (g.mode != 0) false g.steps && coff.toNat / 65536 == 0

/-! ## Operands (R185, R189, R190, R196) -/

/-- Bits of an operand element; code 23 stands for its UNORM16 integers (R185, R198). -/
def operandBits (fmt : Nat) : Nat := if fmt = 23 then 16 else elementBits fmt

/-- Bytes of a scale or header. -/
def scaleWidth (fmt : Nat) : Nat := if fmt = 21 || fmt = 22 then 2 else 1

/-- A float-mode element after decode, scale and negation (R190). -/
def floatElem (fmt raw scale : Nat) (useScale neg : Bool) : FVal :=
  (if blockFmt fmt then blockValue fmt (if useScale || fmt = 21 || fmt = 22 then scale else 127) raw else elementValue fmt raw).negate neg

/-- An integer-mode or raster element after decode, zero point and negation (R61, R190, R198). -/
def intElem (fmt raw : Nat) (zero : Int) (neg : Bool) : Int :=
  let v : Int := if fmt = 5 then signedOf 25 raw else match intOf fmt with
    | some (sgn, w) => if sgn then signedOf w raw else (raw % 2 ^ w : Nat)
    | none => (raw % 65536 : Nat)
  if neg then -(v - zero) else v - zero

/-- A source of operand bytes: the table now, the table without what has touched it since a member signed, and the number of a free bit (R207). -/
structure Reader where
  now : List (Nat × Byte)
  was : List (Nat × Byte)
  free : Nat

/-- The bytes of an element: as they are, unless a touch has changed them; then either value, one choice per element (R207). -/
def Reader.bytes (r : Reader) (a n : Nat) : List Byte :=
  let x := tblBytes r.now a n
  let y := tblBytes r.was a n
  if x = y then x else if Config.freeBit (r.free + a) then x else y

/-- `e` bits from a bit address of a table of bytes. -/
def tblBits (t : List (Nat × Byte)) (bit e : Nat) : Nat := leNat (tblBytes t (bit / 8) ((bit % 8 + e + 7) / 8)) / 2 ^ (bit % 8) % 2 ^ e

/-- An element of `e` bits from a bit address: as it is, unless a touch has changed it; then either value, one choice per element (R207). -/
def Reader.bits (r : Reader) (bit e : Nat) : Nat :=
  let x := tblBits r.now bit e
  let y := tblBits r.was bit e
  if x = y then x else if Config.freeBit (r.free + bit) then x else y

/-- The bytes of the tiles: 16 KiB a register (R185). -/
def tileKey (t n i : Nat) : Nat := t * 16384 + n * 128 + i

/-- Where element `k` of a column stands: the bit address of the element, and that of its scale or header (R185). -/
def Staging.bAt (g : Staging) (n k : Nat) : Nat × Option Nat :=
  let km := kMax g.bfmt
  let e := operandBits g.bfmt
  let base := 8 * tileKey (g.tb + k / km) n 0
  let j := k % km / 32
  (base + k % km * e, if blockFmt g.bfmt then some (base + 8 * (km / 32 * (4 * e) + j * scaleWidth g.bfmt)) else none)

/-- The position of an element of A in the width, if it is no padding (R189). -/
def Staging.aPos (g : Staging) (p0 : Word) (m k : Nat) : Option (Nat × Nat) :=
  let on := g.unf0.getLsbD 54
  let cg := bitsAt g.unf1 0 12
  let r := if on then k / cg else 0
  let c := if on then k % cg else k
  let w : Int := if on then ((p0.toNat + m) * (bitsAt g.unf0 52 2 + 1) + r : Nat) - (bitsAt g.unf0 55 8 : Nat) else (p0.toNat + m : Nat)
  if w < 0 || (bitsAt g.unf0 32 16 : Int) ≤ w then none else some (w.toNat, c)

/-- Where element (m, k) of A stands in the window: the bit address of the element, and that of its scale or header; none is padding (R189). -/
def Staging.aAt (g : Staging) (p0 : Word) (coff m k : Nat) : Option (Nat × Option Nat) :=
  (g.aPos p0 m k).map fun (w, c) =>
    (8 * (bitsAt g.unf0 0 20 + w * bitsAt g.unf0 20 12 * 16) + (coff + c) * operandBits g.afmt,
     if blockFmt g.afmt then some (8 * (bitsAt g.unf1 12 20 + (w * bitsAt g.unf1 32 16 + (coff + c) / 32) * scaleWidth g.afmt)) else none)

/-- The pixel centre of raster row `m` (R196). -/
def Staging.rasterA (g : Staging) (p0 : Word) (m k : Nat) : Int :=
  let bw := blockW (bitsAt g.unf1 48 3)
  let v : Int :=
    if k = 0 then ((p0.extractLsb' 0 16).toInt + (m % bw : Nat)) * 256 + 128
    else if k = 1 then ((p0.extractLsb' 16 16).toInt + (m / bw : Nat)) * 256 + 128
    else 1
  if g.pre.getLsbD 2 then -v else v

/-- Zero point of A or B (R190). -/
def Staging.zero (g : Staging) (second : Bool) : Int :=
  let on := g.pre.getLsbD (if second then 5 else 4)
  if on then signedOf 16 (bitsAt g.pre (if second then 32 else 16) 16) else 0

/-- The operands of a pass: the window's bytes (a reader whose addresses are offsets from `base`) and the tiles. -/
structure Operands where
  g : Staging
  p0 : Word
  coff : Nat
  base : Nat
  pad : Reader
  tiles : Reader

/-- The raw bits and the scale of an element of A, if it is no padding. -/
def Operands.aRaw (o : Operands) (m k : Nat) : Option (Nat × Nat) :=
  (o.g.aAt o.p0 o.coff m k).map fun (a, sc) =>
    (o.pad.bits (8 * o.base + a) (operandBits o.g.afmt), sc.elim 127 fun b => o.pad.bits (8 * o.base + b) (8 * scaleWidth o.g.afmt))

/-- The raw bits and the scale of an element of B. -/
def Operands.bRaw (o : Operands) (n k : Nat) : Nat × Nat :=
  let (b, sc) := o.g.bAt n k
  (o.tiles.bits b (operandBits o.g.bfmt), sc.elim 127 fun b => o.tiles.bits b (8 * scaleWidth o.g.bfmt))

/-- A(m, k) of float mode: padding is exact +0 and takes no step (R189, R190). -/
def Operands.fa (o : Operands) (m k : Nat) : FVal :=
  match o.aRaw m k with
  | none => .fin false 0 1
  | some (raw, sc) => floatElem o.g.afmt raw sc (o.g.pre.getLsbD 0) (o.g.pre.getLsbD 2)

/-- B(k, n) of float mode. -/
def Operands.fb (o : Operands) (n k : Nat) : FVal :=
  let (raw, sc) := o.bRaw n k
  floatElem o.g.bfmt raw sc (o.g.pre.getLsbD 1) (o.g.pre.getLsbD 3)

/-- A(m, k) of integer and raster mode. -/
def Operands.ia (o : Operands) (m k : Nat) : Int :=
  if o.g.mode = 2 then o.g.rasterA o.p0 m k
  else match o.aRaw m k with
    | none => 0
    | some (raw, _) => intElem o.g.afmt raw (o.g.zero false) (o.g.pre.getLsbD 2)

/-- B(k, n) of integer and raster mode. -/
def Operands.ib (o : Operands) (n k : Nat) : Int := intElem o.g.bfmt (o.bRaw n k).1 (o.g.zero true) (o.g.pre.getLsbD 3)

/-! ## Sums (R191, R192) -/

/-- The exact sum of finite terms. -/
def sumTerms (l : List FVal) : Rat2 := l.foldl (fun q v => q.add v.rat) (.int 0)

/-- The block result of R191 of a list of exact products, with its events; `bad`: a term is NaN or ∞ · 0. -/
def blockSum (l : List (FVal × Bool)) : Nat × Events :=
  let vs := l.map (·.1)
  if l.any (fun e => e.1.isNan || e.2) || (vs.contains (.inf false) && vs.contains (.inf true)) then (fp32.qnan, evNV)
  else if vs.contains (.inf false) then (fp32.infinity false, 0)
  else if vs.contains (.inf true) then (fp32.infinity true, 0)
  else fp32.deliver .rn ((sumTerms vs).val (vs.all fun v => v.neg && v.rat.num == 0))

/-- A cell of a float pass: blocks of 32 products, each rounded, added in order to the accumulator (R191). -/
def floatCell (kk : Nat) (a b : Nat → FVal) (acc0 : Nat) : Nat × Events :=
  (upTo ((kk + 31) / 32)).foldl (fun (st : Nat × Events) j =>
    let ks := (upTo (min kk (32 * j + 32) - 32 * j)).map (32 * j + ·)
    let (blk, e) := blockSum (ks.map fun k => (a k).mul (b k))
    let (r, e') := fp32.sum .rn (fp32.unpack st.1) (fp32.unpack blk)
    (r, st.2 ||| e ||| e')) (acc0, 0)

/-- A cell of an integer or raster pass (R192). -/
def intCell (kk : Nat) (a b : Nat → Int) (acc0 : Nat) : Nat :=
  (((upTo kk).foldl (fun s k => s + a k * b k) (acc0 : Int)) % (2 ^ 64 : Nat)).toNat

/-! ## The post-operator (R193, R194, R197) -/

/-- A value on its way through the post-operator: an FP32 pattern, an exact integer, or what CONVERT delivered: pattern, bits, signed. -/
inductive PVal where
  | flt (bits : Nat)
  | int (x : Int)
  | conv (bits w : Nat) (signed : Bool)
  deriving DecidableEq, Repr, Inhabited

/-- What a value denotes. -/
def PVal.val : PVal → FVal
  | .flt b => fp32.unpack b
  | .int x => .ofInt x
  | .conv _ _ _ => .fin false 0 1

/-- The larger of two values, compared exactly; the first where they are equal. -/
def raiseTo (x lo : FVal) : Bool := !lo.isNan && x.lt lo

/-- The integer at or above a number, or at or below it; an infinity has none. -/
def FVal.toward (v : FVal) (up : Bool) : FVal :=
  match v with
  | .fin neg n d => .fin neg (if neg == up then n / d else (n + d - 1) / d) 1
  | v => v

/-- CLAMP (R193), compared exactly: the bounds of an integer are ceil(LO) and floor(HI). An integer clamped to an infinity takes a value no rule gives. -/
def clampStep (lo hi : Nat) (free : Dword) (x : PVal) : PVal × Events :=
  let l := fp32.unpack lo
  let u := fp32.unpack hi
  match x with
  | .conv _ _ _ => (x, 0)
  | .flt b =>
    if (fp32.unpack b).isNan then (.flt fp32.qnan, evNV)
    else
      let y := if raiseTo (fp32.unpack b) l then lo else b
      let z := if !u.isNan && u.lt (fp32.unpack y) then hi else y
      (.flt z, evIf (z != b) evSAT)
  | .int n =>
    let y := if raiseTo (.ofInt n) l then l.toward true else .ofInt n
    let z := if !u.isNan && u.lt y then u.toward false else y
    (.int (match z with
      | .fin neg m _ => if neg then -m else m
      | _ => free.toInt), evIf (z.lt (.ofInt n) || (FVal.ofInt n).lt z) evSAT)

/-- An FP32 constant. -/
def f32Of (x : Nat) : FVal := fp32.unpack x

/-- GELU (R194). -/
def geluStep (b : Nat) : Nat × Events :=
  let x := f32Of b
  if x.isNan then (fp32.qnan, evIf x.signalling evNV)
  else if !x.lt (.ofInt 10) then (b, 0)
  else if !(FVal.ofInt (-10)).lt x then (0x80000000, 0)
  else
    let mul := fun (p q : Nat × Events) => let r := fp32.product .rn (f32Of p.1) (f32Of q.1); (r.1, r.2 ||| p.2 ||| q.2)
    let add := fun (p q : Nat × Events) => let r := fp32.sum .rn (f32Of p.1) (f32Of q.1); (r.1, r.2 ||| p.2 ||| q.2)
    let k := fun (n : Nat) => ((n, 0) : Nat × Events)
    let x0 := k b
    let x3 := mul (mul x0 x0) x0
    let u := mul (k 0x3F4C422A) (add x0 (mul (k 0x3D372713) x3))
    let uu := mul u u
    let num := mul u (add (k 0x41D80000) uu)
    let den := add (k 0x41D80000) (mul (k 0x41100000) uu)
    let q := fp32.deliver .rn (((f32Of num.1).rat.div (f32Of den.1).rat).val (f32Of num.1).neg)
    let t := if (f32Of q.1).lt (.ofInt (-1)) then 0xBF800000 else if (FVal.ofInt 1).lt (f32Of q.1) then 0x3F800000 else q.1
    mul (mul (k 0x3F000000) x0) (add (k 0x3F800000) (t, q.2 ||| num.2 ||| den.2))

/-- Bits CONVERT delivers in a format (R362). -/
def convBits (fmt : Nat) : Nat :=
  match fmt with
  | 9 | 10 | 3 | 4 => 16
  | 13 | 14 | 1 | 2 | 23 => 8
  | _ => 32

/-- One step of the post-operator on the value of a column whose table entry is (w0, w1) (R193). FILL acts on whole rows. -/
def postStep (g : Staging) (w0 w1 : Nat) (free : Dword) (c : Nat) (x : PVal) : PVal × Events :=
  match c with
  | 1 | 7 => let r := fp32.product .rn x.val (f32Of w0); (.flt r.1, r.2)
  | 2 => let r := fp32.sum .rn x.val (f32Of w1); (.flt r.1, r.2)
  | 3 => clampStep (bitsAt g.post1 0 32) (bitsAt g.post1 32 32) free x
  | 4 => match x with
    | .int n => (.int (max 0 n), 0)
    | .flt b => (.flt (if (f32Of b).neg then 0 else b), 0)
    | y => (y, 0)
  | 5 => match x with
    | .flt b => let r := geluStep b; (.flt r.1, r.2)
    | y => (y, 0)
  | 8 =>
    let r := cvtTo g.cvFmt g.cvRm 0 x.val
    (.conv (r.1 % 2 ^ convBits g.cvFmt) (convBits g.cvFmt) (g.cvFmt == 1 || g.cvFmt == 3 || g.cvFmt == 5), r.2)
  | _ => (x, 0)

/-- Whether a value is above 0, or 0 with a flag set (R197). -/
def PVal.covers (x : PVal) (tl : Bool) : Bool :=
  match x.val with
  | .fin neg n _ => if n = 0 then tl else !neg
  | .inf neg => !neg
  | .nan _ => false

/-- FILL on a row: the coverage of the 42 triangles, uncovered columns zero, the bits in columns 126 and 127 (R197). -/
def fillRow (flag : Nat → Bool) (row : List PVal) : List PVal :=
  let ok := fun t => (upTo 3).all fun e => (nth (.int 0) row (3 * t + e)).covers (flag (3 * t + e))
  let bits := fun lo n => (upTo n).foldl (fun s i => if ok (lo + i) then s + 2 ^ i else s) 0
  ((upTo 126).map fun n => if ok (n / 3) then nth (.int 0) row n else .int 0) ++ [.int (bits 0 32 : Nat), .int (bits 32 10 : Nat)]

/-- An integer that no 64 bits hold is delivered as a value no rule gives. -/
def PVal.fit (x : PVal) (free : Dword) : PVal :=
  match x with
  | .int n => .int (if -(2 ^ 63 : Nat) ≤ n && n < (2 ^ 63 : Nat) then n else free.toInt)
  | x => x

/-- A row put through the post-operator: 128 values with their events. Steps after FILL leave columns 126 and 127 (R197). -/
def postRow (g : Staging) (cols : List (Nat × Word)) (free : Nat → Dword) (row : List PVal) : List (PVal × Events) :=
  let w := fun i => (tget 0 cols i).toNat
  let flag := fun n => g.pre.getLsbD 7 && w (2 * n + 1) % 2 == 1
  ((g.steps.foldl (fun (st : Bool × List (PVal × Events)) c =>
    if c = 6 then (true, (fillRow flag (st.2.map (·.1))).zip (st.2.map (·.2)))
    else (st.1, st.2.mapIdx fun n e =>
      if st.1 && 126 ≤ n then e else let r := postStep g (w (2 * n)) (w (2 * n + 1)) (free n) c e.1; (r.1, e.2 ||| r.2)))
    (false, row.map fun x => (x, 0))).2).mapIdx fun n e => (e.1.fit (free n), e.2)

/-- The width a column is delivered at (R362): known from the steps alone. -/
def Staging.colBits (g : Staging) (n : Nat) : Nat :=
  if g.steps.contains 6 && 126 ≤ n then 64
  else if g.steps.contains 8 then convBits g.cvFmt
  else if g.mode = 0 || g.steps.any (fun c => c == 1 || c == 2 || c == 7) then 32
  else 64

/-- The width of a drain: its widest column (R362). -/
def Staging.drainBits (g : Staging) (c0 nc : Nat) : Nat := (upTo nc).foldl (fun e j => max e (g.colBits (c0 + j))) 8

/-- A value delivered at a width: signed values extend by sign, all others by zero (R362). -/
def PVal.deliver (x : PVal) (e : Nat) : Nat :=
  match x with
  | .flt b => b % 2 ^ 32
  | .int n => (n % (2 ^ 64 : Nat)).toNat
  | .conv b w s => if s && 2 ^ (w - 1) ≤ b then b + 2 ^ e - 2 ^ w else b

/-! ## EDGEC and TXW (R367 to R370) -/

/-- A coordinate in units of 1/256, and whether it is out of range (R367); one that is not finite has no value. -/
def snap (b : Nat) : Int × Bool × Bool :=
  match fp32.unpack b with
  | .fin neg n d =>
    let m := (roundUnits .rn 0 neg (n * 256) d 0).1
    let q : Int := if neg then -(m : Int) else m
    (q, q < -(2 ^ 23 : Nat) || (2 ^ 23 : Nat) ≤ q, true)
  | _ => (0, true, false)

/-- EDGEC of one triangle (R367): eleven words. A coordinate that is not finite leaves BACK and DEGEN without a value. -/
def edgeWords (vs : List Nat) (ox oy : Int) (free : Dword) : List Word :=
  let u := fun i => (snap (nth 0 vs (2 * i))).1 - 256 * ox
  let w := fun i => (snap (nth 0 vs (2 * i + 1))).1 - 256 * oy
  let finite := vs.all fun v => (snap v).2.2
  let a := fun e => w e - w ((e + 1) % 3)
  let b := fun e => u ((e + 1) % 3) - u e
  let c := fun e => u e * w ((e + 1) % 3) - u ((e + 1) % 3) * w e
  let a2 := a 0 * u 2 + b 0 * w 2 + c 0
  let sg : Int := if a2 < 0 then -1 else 1
  let es := [0, 1, 2]
  let wide := es.any fun e => [sg * a e, sg * b e, sg * c e].any fun x => x < -(2 ^ 24 : Nat) || (2 ^ 24 : Nat) ≤ x
  let range := vs.any (fun v => (snap v).2.1) || wide
  let back := if finite then decide (a2 < 0) else free.getLsbD 0
  let degen := if finite then decide (a2 = 0) else free.getLsbD 1
  let none := degen || range
  let tl := fun e => !none && (0 < sg * a e || (a e = 0 && 0 < sg * b e))
  let status := (tl 0).toNat + 2 * (tl 1).toNat + 4 * (tl 2).toNat + 8 * back.toNat + 16 * degen.toNat + 32 * range.toNat
  let rcp := if none then 0 else (fp32.deliver .rn (.fin false 1 a2.natAbs)).1
  es.flatMap (fun e => if none then [0, 0, BitVec.ofInt 32 (-1)] else [BitVec.ofInt 32 (sg * a e), BitVec.ofInt 32 (sg * b e), BitVec.ofInt 32 (sg * c e)])
    ++ [BitVec.ofNat 32 status, BitVec.ofNat 32 rcp]

/-- A texture coordinate times a size less one half, clamped (R369): the exact number and its events. -/
def texCoord (b size : Nat) : Rat2 × Events :=
  match fp32.unpack b with
  | .nan _ => (.int 0, evNV)
  | .inf neg => (.int (if neg then -(2 ^ 24 : Nat) else (2 ^ 24 : Nat)), evSAT)
  | .fin neg n d =>
    let x := ((FVal.fin neg n d).rat.mul (.int size)).add { num := -1, den := 2 }
    let lim : Int := (2 ^ 24 : Nat)
    if (Rat2.int lim).lt x then (.int lim, evSAT) else if x.lt (.int (-lim)) then (.int (-lim), evSAT) else (x, 0)

/-- TXW of one thread (R369): seven words and the events. -/
def texWords (mode : TxwMode) (tb : Nat) (ub vb tw th pitch : Nat) : List Word × Events :=
  let (x, ex) := texCoord ub tw
  let (y, ey) := texCoord vb th
  let ix := x.num / x.den
  let iy := y.num / y.den
  let fx := ((x.add (.int (-ix))).mul (.int 255)).nearest.toNat
  let fy := ((y.add (.int (-iy))).mul (.int 257)).nearest.toNat
  let at_ := fun (k : Nat) => (ix + (k % 2 : Nat), iy + (k / 2 : Nat))
  let out := fun k => let (p, q) := at_ k; p < 0 || (tw : Int) ≤ p || q < 0 || (th : Int) ≤ q
  let off := fun k =>
    let (p, q) := at_ k
    let clamp := fun (z : Int) (n : Nat) => max 0 (min z (n - 1 : Int))
    let (p, q) := if mode == .wrap then (p % (tw : Int), q % (th : Int)) else (clamp p tw, clamp q th)
    if mode == .border && out k then 0 else BitVec.ofInt 32 (q * pitch + p * tb)
  ([0, 1, 2, 3].map off
    ++ [BitVec.ofNat 32 ((255 - fx) * (257 - fy) + 65536 * (fx * (257 - fy))), BitVec.ofNat 32 ((255 - fx) * fy + 65536 * (fx * fy))
      , BitVec.ofNat 32 ((out 0).toNat + 2 * (out 1).toNat + 4 * (out 2).toNat + 8 * (out 3).toNat + 256 * fx + 65536 * fy)],
   ex ||| ey)

end Sys2Proof.Machine
end

