-- ==== Sys2Proof/Machine/Matrix.lean ====
section
/-! DEFINITION. Matrix engine and graphics helpers: staging, convergence registers, passes, drains, tile loads, EDGEC and TXW (R183 to R210, R354 to R370). -/

namespace Sys2Proof.Machine

/-! ## Convergence registers -/

/-- A convergence register of a cluster; one never armed is Idle. -/
def State.kreg (s : State) (cl p : Nat) : KReg := tget default (s.clu cl).k p

/-- A convergence register replaced. -/
def State.setKreg (s : State) (cl p : Nat) (k : KReg) : State := s.modClu cl fun c => { c with k := tput c.k p k }

/-- The cluster's register that the issuing fibre's cohort names `k`, below KCNT (R201). -/
def State.kAt (s : State) (k : BitVec 4) : Option Nat := ((s.cohort? s.me.pos.cohort).getD default).kbase[k.toNat]?

/-- The cluster of the issuing fibre. -/
def State.myClu (s : State) : Nat := clusterOfFibre s.iss.fibre

/-- The cluster of the issuing fibre, as it is. -/
def State.mineClu (s : State) : Cluster := s.clu s.myClu

/-- Fibres asleep in MXWAIT on a register go on. -/
def State.wakeMx (s : State) (cl p : Nat) : State := s.wakeSleepers cl (.mxwait p)

/-- A register whose REMAIN is 0: with a signature made it is ready to post; with none it is as before its KSET (R202). -/
def State.testRemain (s : State) (cl p : Nat) : State :=
  let k := s.kreg cl p
  if k.state != 1 || k.remain != 0 then s
  else if k.anySigned then s.setKreg cl p { k with state := 2, since := s.tick }
  else (s.setKreg cl p (match k.was with
    | some (g, p0, co) => { k with state := 5, stg := g, p0 := p0, coff := co, cols := [] }
    | none => { k with state := 0, cols := [] })).wakeMx cl p

/-- Threads of a fibre added to such a list. -/
def addMask (l : List (Nat × BeatMask)) (f : Nat) (m : BeatMask) : List (Nat × BeatMask) :=
  if l.any (·.1 == f) then l.map fun e => if e.1 == f then (f, e.2 ||| m) else e else l ++ [(f, m)]

/-- The signatures that an exit takes out of REMAIN, threads `gone` of a fibre leaving `live` (R202). -/
def KReg.leave (k : KReg) (f : Nat) (gone live : BeatMask) : Nat :=
  let mine := maskIn k.members f
  let signed := maskIn k.signed f
  if !k.members.any (·.1 == f) then 0
  else if k.fibSet then
    let complete := signed != 0 && (live ||| gone) &&& ~~~signed == 0
    if !complete && live &&& ~~~signed == 0 && (live == 0 || signed != 0) then 1 else 0
  else (maskBeats 64 (mine &&& gone &&& ~~~signed)).length

/-- Threads of a fibre have exited: they leave every armed set (R202, R392). -/
def State.leaveSets (s : State) (f : Nat) (gone live : BeatMask) : State :=
  let cl := clusterOfFibre f
  (s.clu cl).k.foldl (fun s e =>
    if e.2.state == 1 then (s.setKreg cl e.1 { e.2 with remain := e.2.remain - e.2.leave f gone live }).testRemain cl e.1 else s) s

/-! ## Staging (R356) -/

/-- A staging instruction: the bits that are not reserved go into a word of the fibre (R7, R356). -/
def State.stage (s : State) (h : Hdr) (x : Src) (keep : Dword) (put : Staging → Dword → Staging) : State :=
  s.compute h { Uses.nil with rd := srcGroup x 2, uni := true } fun env b rf =>
    { rf with regs := { rf.regs with stg := put rf.regs.stg (x.dword env rf false b &&& keep) } }

/-- Bits of CFG that are not reserved (R187). -/
def keepCfg : Dword := 0x00FFFFF7FFFFFFFF
/-- Bits of PRE that are not reserved (R190). -/
def keepPre : Dword := 0x0000FFFFFFFF00FF
/-- Bits of POST0 that are not reserved (R193). -/
def keepPost0 : Dword := 0x0000007FFFFFFFFF
/-- Bits of UNF0 that are not reserved (R188). -/
def keepUnf0 : Dword := 0x7FFFFFFFFFFFFFFF
/-- Bits of UNF1 that are not reserved (R188). -/
def keepUnf1 : Dword := 0x0007FFFFFFFFFFFF

/-- MXCFG (R356). -/
def execMxcfg (h : Hdr) (x : Src) (s : State) : Host.Outcome State Fault Refusal := .next (s.stage h x keepCfg fun g v => { g with cfg := v })

/-- MXPRE (R356). -/
def execMxpre (h : Hdr) (x : Src) (s : State) : Host.Outcome State Fault Refusal := .next (s.stage h x keepPre fun g v => { g with pre := v })

/-- MXPOST (R356). -/
def execMxpost (h : Hdr) (w : Bool) (x : Src) (s : State) : Host.Outcome State Fault Refusal :=
  .next (s.stage h x (if w then BitVec.allOnes 64 else keepPost0) fun g v => if w then { g with post1 := v } else { g with post0 := v })

/-- UNF (R356). -/
def execUnf (h : Hdr) (w : Bool) (x : Src) (s : State) : Host.Outcome State Fault Refusal :=
  .next (s.stage h x (if w then keepUnf1 else keepUnf0) fun g v => if w then { g with unf1 := v } else { g with unf0 := v })

/-! ## KSET (R357, R358) -/

/-- The 16-bit values of a list in the window, checked (R357, R358). -/
def State.fibList (s : State) (off n : Nat) : Except (Cause × Dword) (List Nat) :=
  let x := s.me
  let phys := s.winBase x + off
  if s.winSize x < off + 2 * n then .error (.spadOob, addr64 off)
  else if off % 2 != 0 then .error (.memAlign, addr64 off)
  else if (s.clu s.myClu).spadError phys (2 * n) false then .error (.spadUe, addr64 off)
  else .ok ((upTo n).map fun i => leNat (s.spadBytes s.myClu (phys + 2 * i) 2))

/-- The resident fibre of a cohort with a `%fib`. -/
def State.fibreOf (s : State) (cohort fib : Nat) : Option Nat := (s.fibres.find? fun e => e.2.pos.cohort == cohort && e.2.pos.fib == fib).map (·.1)

/-- Whether values are distinct. -/
def distinct : List Nat → Bool
  | [] => true
  | x :: t => !t.contains x && distinct t

/-- The members a KSET names, in set order (R202, R357, R358). -/
def State.ksetMembers (s : State) (env : Env) (fibSet : Bool) (set : Dword) (count : Nat) : Except (Cause × Dword) (List (Nat × BeatMask)) :=
  if fibSet then
    match s.fibList (set.toNat % 2 ^ 32) count with
    | .error e => .error e
    | .ok l =>
      let ms := (l.filterMap (s.fibreOf env.pos.cohort)).filterMap fun f =>
        (s.fib? f).bind fun x => if x.div.live == 0 then none else some (f, x.div.live)
      if l.any (env.nfib ≤ ·) || !distinct l || ms.isEmpty then .error (.mxBad, 0) else .ok ms
  else
    let m := set &&& s.me.div.live
    if set &&& ~~~allBeats env.pos.width != 0 || m == 0 then .error (.mxBad, 0) else .ok [(s.iss.fibre, m)]

/-- The checks of KSET in order (R358): the register and its members. -/
def State.ksetCheck (s : State) (env : Env) (k : BitVec 4) (fibSet : Bool) (set : Dword) (p0 coff : Word) (count : Nat) :
    Except (Cause × Dword) (Nat × List (Nat × BeatMask)) :=
  match s.kAt k with
  | none => .error (.mxProto, 0)
  | some p =>
    let kr := s.kreg s.myClu p
    let g := s.me.regs.stg
    if kr.state != 0 && kr.state != 5 then .error (.mxProto, 0)
    else if kr.state == 5 && (kr.stg.mode != g.mode || kr.stg.bank != g.bank) then .error (.mxProto, 0)
    else match s.ksetMembers env fibSet set count with
      | .error e => .error e
      | .ok ms => if g.ok coff && g.rasterOk p0 then .ok (p, ms) else .error (.mxBad, 0)

/-- A register armed (R358). -/
def KReg.arm (kr : KReg) (x : Fibre) (g : Staging) (p0 coff : Word) (fibSet : Bool) (ms : List (Nat × BeatMask)) (prio : Nat) : KReg :=
  { kr with
    state := 1, err := 0, cohort := x.pos.cohort, stg := g, p0 := p0, coff := coff.setWidth 16
    was := if kr.state == 5 then some (kr.stg, kr.p0, kr.coff) else none
    fibSet := fibSet, members := ms, signed := [], anySigned := false, cols := [], events := if kr.state == 0 then 0 else kr.events
    remain := if fibSet then ms.length else (maskBeats 64 (maskIn ms ((ms.headD (0, 0)).1))).length, prio := prio, fail := 0 }

/-- KSET (R357, R358). -/
def execKset (h : Hdr) (k : BitVec 4) (fibSet : Bool) (d a b : Opd) (count : BitVec 8) (s : State) : Host.Outcome State Fault Refusal :=
  let u := { Uses.nil with rd := [(a, if fibSet then 1 else 2), (b, 1), (d, 1)], uni := true }
  let check := fun (p : Plan) (s : State) =>
    let rf := s.myRf
    s.ksetCheck p.env k fibSet (if fibSet then (a.word p.env rf 0 0).setWidth 64 else a.dword p.env rf 0) (b.word p.env rf 0 0) (d.word p.env rf 0 0) (count.toNat + 1)
  .next (s.perBeat h u
    (fun p s => match check p s with | .error (c, x) => .stop c x s | .ok _ => .ok s)
    (fun p _ s => match check p s with
      | .error (c, x) => .stop c x s
      | .ok (r, ms) =>
        let rf := s.myRf
        let kr := (s.kreg s.myClu r).arm s.me s.me.regs.stg (b.word p.env rf 0 0) (d.word p.env rf 0 0) fibSet ms (s.launchOf s.me).desc.prio
        let s := if fibSet then s.spadCorrect s.myClu (s.winBase s.me + (a.word p.env rf 0 0).toNat) (2 * (count.toNat + 1)) else s
        .ok (s.setKreg s.myClu r kr))
    fun _ s => s)

/-! ## SIGN (R359) -/

/-- The rank of a thread in the set order (R202). -/
def KReg.rank (k : KReg) (f b : Nat) : Nat :=
  let before := k.members.takeWhile (·.1 != f)
  (before.map fun e => (maskBeats 64 e.2).length).foldl (· + ·) 0 + ((maskBeats 64 (maskIn k.members f)).filter (· < b)).length

/-- One beat of SIGN: from the first signature on, what touches the operands is kept apart; a register with REMAIN 0 moves on at once (R202, R207, R359). -/
def State.signBeat (s : State) (env : Env) (k : BitVec 4) (a : Opd) (b : Nat) : Beat :=
  match s.kAt k with
  | none => .stop .mxProto 0 s
  | some p =>
    let f := s.iss.fibre
    let kr := s.kreg s.myClu p
    let signed := maskIn kr.signed f
    let member := kr.members.any (·.1 == f) && (kr.fibSet || (maskIn kr.members f).getLsbD b)
    if kr.state != 1 || kr.cohort != env.pos.cohort || !member || signed.getLsbD b then .stop .mxProto 0 s
    else if kr.stg.colsrc && a == .sz then .stop .mxProto 0 s
    else
      let now := signed ||| maskOf [b]
      let complete := !kr.fibSet || s.me.div.live &&& ~~~now == 0
      let refs := a.refs env.pos env.woff 4
      let kr := { kr with
        signAt := s.tick, spad0 := if kr.anySigned then kr.spad0 else s.mineClu.spad, tiles0 := if kr.anySigned then kr.tiles0 else s.mineClu.tiles
        signed := addMask kr.signed f (maskOf [b]), anySigned := true, remain := if complete then kr.remain - 1 else kr.remain
        cols := if kr.stg.colsrc then
            kr.cols ++ [{ fibre := f, beat := b, rank := kr.rank f b, refs := refs, words := refs.map fun r => s.myRf.read r b }]
          else kr.cols }
      .ok ((s.setKreg s.myClu p kr).testRemain s.myClu p)

/-- SIGN: the group it names is bound, not read, and only where the pass takes its table from registers (R359). -/
def execSign (h : Hdr) (k : BitVec 4) (a : Opd) (s : State) : Host.Outcome State Fault Refusal :=
  let bound := (s.kAt k).elim false fun p => (s.kreg s.myClu p).stg.colsrc
  .next (if a.mixes s.me.pos 4 then s.trapPre .illop 0 else
    s.perBeat h { Uses.nil with wr := if bound then [(a, 4)] else [] } (fun _ s => .ok s) (fun p b s => s.signBeat p.env k a b) fun _ s => s)

/-! ## MXWAIT, MXCLR, MXSTAT (R360, R364, R365) -/

/-- The cause a register in Error holds (R203). -/
def KReg.cause (k : KReg) : Cause :=
  if k.err == 17 then .spadOob else if k.err == 16 then .spadUe else if k.err == 8 then .resErr else .mxUe

/-- MXWAIT: in deterministic mode one that must wait is first a YIELD (R176, R360). -/
def execMxwait (h : Hdr) (k : BitVec 4) (scope : Option Scope) (s : State) : Host.Outcome State Fault Refusal :=
  .next (s.perBeat h Uses.control
    (fun _ s => match s.kAt k with
      | none => .stop .mxProto 0 s
      | some p =>
        let kr := s.kreg s.myClu p
        if kr.state == 6 then .stop kr.cause 0 s
        else if kr.state == 0 || kr.state == 5 then (if scope.isSome then s.orderWait false scope else .ok s)
        else .sleep (.mxwait p) (if s.me.pos.det then (s.modFib s.iss.fibre fun x => { x with yielded := true }).atSwitch else s))
    (fun _ _ s => .ok s)
    fun _ s => if scope.isSome then s.acquireEffect s.iss.fibre scope else s)

/-- MXCLR: drains of the fibre read their rows as they issue, so none is waited for (R364). -/
def execMxclr (h : Hdr) (k : BitVec 4) (s : State) : Host.Outcome State Fault Refusal :=
  .next (s.perBeat h Uses.control
    (fun _ s => match s.kAt k with
      | none => .stop .mxProto 0 s
      | some p => let st := (s.kreg s.myClu p).state; if 1 ≤ st && st ≤ 4 then .stop .mxProto 0 s else .ok s)
    (fun _ _ s => match s.kAt k with
      | none => .ok s
      | some p =>
        let kr := s.kreg s.myClu p
        if kr.state == 0 then .ok s
        else .ok ((s.setKreg s.myClu p { kr with hold := false, state := 0, err := 0, events := 0 }).putMy (s.myRf.raise kr.events)))
    fun _ s => s)

/-- A register's status (R201). -/
def KReg.status (k : KReg) : Dword :=
  BitVec.ofNat 64 (k.state + 8 * (k.hold && k.bank).toNat + 16 * k.hold.toNat + 2 ^ 16 * (k.remain % 65536) + 2 ^ 32 * k.err.toNat
    + (if k.state == 3 || k.state == 4 then 2 ^ 40 * (k.entry % 32) else 0))

/-- MXSTAT (R365). -/
def execMxstat (h : Hdr) (k : BitVec 4) (d : Opd) (s : State) : Host.Outcome State Fault Refusal :=
  .next (s.perBeat h { Uses.nil with wr := [(d, 2)], uni := true }
    (fun _ s => if (s.kAt k).isNone then .stop .mxProto 0 s else .ok s)
    (fun p b s => match s.kAt k with
      | none => .ok s
      | some r => .ok (s.putMy (d.putD p.env s.myRf b (s.kreg s.myClu r).status)))
    fun _ s => s)

/-! ## The accumulators (R183, R184) -/

/-- The key of a word of a bank. -/
def accKey (bank : Bool) (m n : Nat) : Nat := (bank.toNat * 128 + m) * 128 + n

/-- The words of a cell under a configuration. -/
def Staging.cellKeys (g : Staging) (m n : Nat) : List Nat := g.banks.map fun b => accKey b m n

/-- The contents of a cell: an FP32 pattern, or a 64-bit number (R183). -/
def Cluster.cell (c : Cluster) (g : Staging) (m n : Nat) : Nat :=
  if g.mode = 0 then (tget 0 c.acc (accKey g.bank m n)).toNat
  else (tget 0 c.acc (accKey false m n)).toNat + 2 ^ 32 * (tget 0 c.acc (accKey true m n)).toNat

/-- The words a cell's new contents are written to. -/
def Staging.cellWords (g : Staging) (m n x : Nat) : List (Nat × Word) :=
  if g.mode = 0 then [(accKey g.bank m n, BitVec.ofNat 32 x)]
  else [(accKey false m n, BitVec.ofNat 32 x), (accKey true m n, BitVec.ofNat 32 (x / 2 ^ 32))]

/-- Words written whole: they are sound again (R184). -/
def Cluster.putAcc (c : Cluster) (l : List (Nat × Word)) : Cluster :=
  { c with
    acc := l.foldl (fun t e => tset 0 t e.1 e.2) c.acc
    accBad := c.accBad.filter fun i => !l.any (·.1 == i)
    accCe := c.accCe.filter fun i => !l.any (·.1 == i) }

/-- Single-bit errors of accumulator words corrected, each counted (R184). -/
def State.accCorrect (s : State) (cl : Nat) (ks : List Nat) : State :=
  let hit := (s.clu cl).accCe.filter ks.contains
  if hit.isEmpty then s
  else hit.foldl (fun s _ => s.modDie (dieOfCluster cl) Die.countCe) (s.modClu cl fun c => { c with accCe := c.accCe.filter fun i => !ks.contains i })

/-! ## Passes (R189 to R199, R204 to R206) -/

/-- The window of a register's cohort: its base and size. -/
def State.kWindow (s : State) (k : KReg) : Nat × Nat := let c := (s.cohort? k.cohort).getD default; (c.win, c.z)

/-- The operands of a pass (R185, R189, R207). -/
def State.operands (s : State) (cl : Nat) (k : KReg) : Operands :=
  let c := s.clu cl
  { g := k.stg, p0 := k.p0, coff := k.coff.toNat, base := (s.kWindow k).1
    pad := { now := c.spad, was := k.spad0, free := k.free0 }, tiles := { now := c.tiles, was := k.tiles0, free := k.free0 + 2 ^ 24 } }

/-- What a pass leaves in a cell it computes, with its events (R191, R192). -/
def State.passCell (s : State) (cl : Nat) (k : KReg) (m n : Nat) : Nat × Events :=
  let o := s.operands cl k
  let g := k.stg
  let acc0 := if g.acc then (s.clu cl).cell g m n else 0
  if g.mode = 0 then floatCell g.kk (o.fa m) (o.fb n) acc0 else (intCell g.kk (o.ia m) (o.ib n) acc0, 0)

/-- Every pair of a row and a column. -/
def allCells : List (Nat × Nat) := (upTo 128).flatMap fun m => (upTo 128).map fun n => (m, n)

/-- The cells a pass computes (R199). -/
def Staging.computed (g : Staging) : List (Nat × Nat) := if g.diag then (upTo 128).map fun m => (m, m) else allCells

/-- The window bytes a pass reads: offset and length (R189); raster reads none. -/
def KReg.padReads (k : KReg) : List (Nat × Nat) :=
  if k.stg.mode = 2 then []
  else (upTo 128).flatMap fun m => (upTo k.stg.kk).flatMap fun j =>
    match k.stg.aAt k.p0 k.coff.toNat m j with
    | none => []
    | some (a, sc) => (a / 8, (a % 8 + operandBits k.stg.afmt + 7) / 8) :: sc.elim [] fun b => [(b / 8, scaleWidth k.stg.afmt)]

/-- The tile words a pass reads (R184, R185). -/
def Staging.tileReads (g : Staging) : List Nat :=
  (upTo 128).flatMap fun n => (upTo g.kk).flatMap fun j =>
    let (b, sc) := g.bAt n j
    let e := operandBits g.bfmt
    [b / 32, (b + e - 1) / 32] ++ sc.elim [] fun x => [x / 32, (x + 8 * scaleWidth g.bfmt - 1) / 32]

/-- The code of the cause that ends a pass in Error, if it meets one: a window read past Z, an uncorrectable granule, then an uncorrectable
tile or accumulator word (R128, R184, R189). -/
def State.passError (s : State) (cl : Nat) (k : KReg) : Option Nat :=
  let c := s.clu cl
  let (base, z) := s.kWindow k
  if k.fail != 0 then some k.fail
  else if k.padReads.any fun r => z < r.1 + r.2 then some Cause.spadOob.code
  else if k.padReads.any fun r => c.spadError (base + r.1) r.2 false then some Cause.spadUe.code
  else if k.stg.tileReads.any c.tileBad.contains then some Cause.mxUe.code
  else if k.stg.acc && (k.stg.computed.any fun e => (k.stg.cellKeys e.1 e.2).any c.accBad.contains) then some Cause.mxUe.code
  else none

/-- Single-bit errors that a pass has met, corrected and counted (R128, R184). -/
def State.passCorrect (s : State) (cl : Nat) (k : KReg) : State :=
  let c := s.clu cl
  let tl := c.tileCe.filter k.stg.tileReads.contains
  let s := k.padReads.foldl (fun s r => if c.spadCe.isEmpty then s else s.spadCorrect cl ((s.kWindow k).1 + r.1) r.2) s
  let s := tl.foldl (fun s _ => s.modDie (dieOfCluster cl) Die.countCe) (s.modClu cl fun c => { c with tileCe := c.tileCe.filter fun i => !tl.contains i })
  if k.stg.acc then s.accCorrect cl (k.stg.computed.flatMap fun e => k.stg.cellKeys e.1 e.2) else s

/-- PASS_POST: the waiting register whose last signature came first takes the lowest free entry of the reservation table (R204). -/
def execPassPost (cl p : Nat) (s : State) : Host.Outcome State Fault Refusal :=
  .next <|
    let ks := (s.clu cl).k
    let kr := s.kreg cl p
    let used := (ks.filter fun e => e.2.state == 3 || e.2.state == 4).map (·.2.entry)
    let first := !ks.any fun e => e.2.state == 2 && (e.2.signAt < kr.signAt || (e.2.signAt == kr.signAt && e.1 < p))
    match (upTo 32).find? fun i => !used.contains i with
    | some i => if kr.state == 2 && first then s.setKreg cl p { kr with state := 3, entry := i, since := s.tick, postAt := s.dieNow (dieOfCluster cl) } else s
    | none => s

/-- A posted pass may be granted: its banks are free or its own (R205). -/
def Cluster.eligible (c : Cluster) (p : Nat) (k : KReg) : Bool :=
  k.state == 3 && !c.k.any fun e => e.1 != p && e.2.hold && e.2.stg.banks.any k.stg.banks.contains

/-- Effective priority (R205). -/
def KReg.effective (k : KReg) (now : Nat) : Nat := min 3 (k.prio + (now - k.postAt) / 16384)

/-- Whether one posted pass goes before another (R205). -/
def KReg.before (a b : KReg) (now : Nat) : Bool :=
  let p := a.effective now
  let q := b.effective now
  q < p || (p == q && (a.since < b.since || (a.since == b.since && a.entry < b.entry)))

/-- The column table of a pass that starts, from the window or the bound registers, and the cause that ends the pass (R200, R207). -/
def State.columnTable (s : State) (cl : Nat) (k : KReg) : List (Nat × Word) × Nat :=
  let c := s.clu cl
  let (base, z) := s.kWindow k
  if k.stg.colsrc then
    k.cols.foldl (fun (acc : List (Nat × Word) × Nat) b =>
      let here := (s.fib? b.fibre).bind fun x => if x.pos.cohort == k.cohort then some (s.rf b.fibre x) else none
      let word := fun i =>
        let old := nth 0 b.words i
        let new := here.elim old fun rf => rf.read (nth .none b.refs i) b.beat
        if old = new then new else if Config.freeBit (s.free + 4 * b.rank + i) then new else old
      let bad := here.elim false fun rf => b.refs.any fun r => rf.bad r b.beat
      ((upTo 4).foldl (fun t i => if 4 * b.rank + i < 256 then tset 0 t (4 * b.rank + i) (word i) else t) acc.1, if bad then Cause.resErr.code else acc.2))
      ([], 0)
  else
    let r : Reader := { now := c.spad, was := k.spad0, free := s.free }
    let at_ := base + k.stg.coloff
    ((upTo 256).foldl (fun t i => tset 0 t i (BitVec.ofNat 32 (leNat (r.bytes (at_ + 4 * i) 4)))) [],
     if z < k.stg.coloff + 1024 then Cause.spadOob.code else if c.spadError at_ 1024 false then Cause.spadUe.code else 0)

/-- Residue mismatches of the registers that supply a column table (R160, R200). -/
def State.columnBad (s : State) (k : KReg) : Nat :=
  k.cols.foldl (fun n b => n + (((s.fib? b.fibre).filter fun x => x.pos.cohort == k.cohort).elim 0 fun x =>
    (b.refs.filter fun r => (s.rf b.fibre x).bad r b.beat).length)) 0

/-- PASS_GRANT: the eligible pass of highest effective priority takes its banks and starts (R200, R205). -/
def execPassGrant (cl : Nat) (s : State) : Host.Outcome State Fault Refusal :=
  .next <|
    let c := s.clu cl
    let es := c.k.filter fun e => c.eligible e.1 e.2
    match es.find? fun e => es.all fun x => x.1 == e.1 || !x.2.before e.2 (s.dieNow (dieOfCluster cl)) with
    | none => s
    | some (p, k) =>
      let (t, fail) := s.columnTable cl k
      let s := if k.stg.colsrc then s.modDie (dieOfCluster cl) fun d => d.countRes (s.columnBad k)
        else if fail == 0 then s.spadCorrect cl ((s.kWindow k).1 + k.stg.coloff) 1024 else s
      { s.setKreg cl p { k with state := 4, hold := true, bank := k.stg.mode == 0 && k.stg.bank, since := s.tick, cols := [], colData := t, fail := fail, free0 := s.free + 256 } with
        free := s.free + 2 ^ 25 }

/-- PASS_END: the pass that has run longest ends Done with its cells written, or in Error; an Error leaves its banks' sound words with values no
rule gives (R184, R191, R192, R199, R206). -/
def execPassEnd (cl : Nat) (s : State) : Host.Outcome State Fault Refusal :=
  .next <|
    let c := s.clu cl
    let rs := c.k.filter fun e => e.2.state == 4
    match rs.find? fun e => rs.all fun x => x.1 == e.1 || e.2.since ≤ x.2.since with
    | none => s
    | some (p, k) =>
      match s.passError cl k with
      | some code =>
        let ks := (allCells.flatMap fun e => k.stg.cellKeys e.1 e.2).filter fun i => !c.accBad.contains i
        let s := s.modClu cl fun c => c.putAcc (ks.map fun i => (i, (Config.freeWord (s.free + i)).setWidth 32))
        { (s.setKreg cl p { k with state := 6, err := BitVec.ofNat 8 code, spad0 := [], tiles0 := [] }).wakeMx cl p with free := s.free + 2 ^ 20 }
      | none =>
        let out := k.stg.computed.map fun e => (e, s.passCell cl k e.1 e.2)
        let zero := if k.stg.diag && !k.stg.acc then allCells.flatMap fun e => k.stg.cellWords e.1 e.2 0 else []
        let ev := out.foldl (fun x e => x ||| e.2.2) 0
        let s := (s.passCorrect cl k).modClu cl fun c => c.putAcc (zero ++ out.flatMap fun e => k.stg.cellWords e.1.1 e.1.2 e.2.1)
        { (s.setKreg cl p { k with state := 5, events := k.events ||| ev, spad0 := [], tiles0 := [] }).wakeMx cl p with free := s.free + 1 }

/-! ## Drains (R361 to R363) -/

/-- The fields of a drain's control word, and its pitch (R361). -/
structure DrainCtl where
  row0 : Nat
  nr : Nat
  c0 : Nat
  nc : Nat
  pitch : Nat
  bad : Bool

/-- A control word read. -/
def DrainCtl.ofDword (x : Dword) : DrainCtl :=
  { row0 := bitsAt x 0 7, nr := bitsAt x 8 7 + 1, c0 := bitsAt x 16 7, nc := bitsAt x 24 7 + 1, pitch := bitsAt x 32 32
    bad := x &&& 0x80808080 != 0 }

/-- A row of a register's bank put through its post-operator, or none where a word it reads is uncorrectable. While a pass runs, each element is
the one before or after its write (R184, R207, R362, R363). -/
def State.drainRow (s : State) (cl : Nat) (k : KReg) (r c0 nc : Nat) : Option (List (PVal × Events)) × State :=
  let c := s.clu cl
  let g := k.stg
  let ns := if g.steps.contains 6 then upTo 128 else (upTo nc).map (c0 + ·)
  let keys := ns.flatMap fun n => g.cellKeys r n
  if keys.any c.accBad.contains then (none, s)
  else
    let cell := fun n =>
      let old := c.cell g r n
      if k.state != 4 then old
      else
        let new := if g.computed.contains (r, n) then (s.passCell cl k r n).1 else if g.acc then old else 0
        if old = new then old else if Config.freeBit (s.free + n) then old else new
    let row := (upTo 128).map fun n =>
      if !ns.contains n then PVal.int 0 else if g.mode = 0 then .flt (cell n) else .int (BitVec.ofNat 64 (cell n)).toInt
    let out := postRow g k.colData (fun n => Config.freeWord (s.free + n)) row
    (some ((out.drop c0).take nc), { s.accCorrect cl keys with free := s.free + 128 })

/-- The events of a drained row. -/
def rowEvents (l : List (PVal × Events)) : Events := l.foldl (fun e x => e ||| x.2) 0

/-- The words a drained row puts into registers: one or two a column (R362). -/
def rowWords (e : Nat) (l : List (PVal × Events)) : List Word :=
  l.flatMap fun x => if e = 64 then natWords 2 (x.1.deliver 64) else [BitVec.ofNat 32 (x.1.deliver 32)]

/-- The bytes a drained row puts into memory (R362). -/
def rowBytes (e : Nat) (l : List (PVal × Events)) : List Byte := l.flatMap fun x => leBytes (e / 8) (x.1.deliver e)

/-- Adds a row to the drain that the issue in progress has begun, or begins one. -/
def State.addDrain (s : State) (p : Nat) (rel : Bool) (ev : Events) (regs : List (Ref × Nat × Word)) (stores : List Nat) : State :=
  s.modClu s.myClu fun c =>
    match c.drains.getLast? with
    | some d =>
      if d.fibre == s.iss.fibre && d.step == s.tick then
        { c with drains := c.drains.dropLast ++ [{ d with rel := d.rel || rel, events := d.events ||| ev, regs := d.regs ++ regs, stores := d.stores ++ stores }] }
      else { c with drains := c.drains ++ [{ fibre := s.iss.fibre, step := s.tick, k := p, rel := rel, events := ev, regs := regs, stores := stores }] }
    | none => { c with drains := [{ fibre := s.iss.fibre, step := s.tick, k := p, rel := rel, events := ev, regs := regs, stores := stores }] }

/-- The checks of a drain before its first row (R363), an alignment or range fault before its own causes (R432); a register that holds no bank has no width
to align to. -/
def State.drainPre (s : State) (k : BitVec 4) (dst : DrainDst) (rel : Bool) (x : DrainCtl) (a : Nat) : Pre :=
  match s.kAt k with
  | none => .stop .mxProto 0 s
  | some p =>
    let kr := s.kreg s.myClu p
    let e := kr.stg.drainBits x.c0 x.nc
    if !kr.hold then .stop .mxProto 0 s
    else if dst != .v && (a % (e / 8) != 0 || x.pitch % (e / 8) != 0) then .stop .memAlign (addr64 a) s
    else if dst == .s && s.winSize s.me < a + (x.nr - 1) * x.pitch + x.nc * (e / 8) then .stop .spadOob (addr64 a) s
    else if kr.state == 6 then .stop kr.cause 0 s
    else if rel && 1 ≤ kr.state && kr.state ≤ 4 then .stop .mxProto 0 s
    else if x.bad || 128 < x.c0 + x.nc || (dst != .v && 128 < x.row0 + x.nr) then .stop .mxBad 0 s
    else .ok s

/-- One beat of MXDRAIN.v (R362, R363). -/
def State.drainV (s : State) (env : Env) (k : BitVec 4) (rel bad : Bool) (d : Opd) (x : DrainCtl) (b : Nat) : Beat :=
  match s.kAt k with
  | none => .stop .mxProto 0 s
  | some p =>
    let kr := s.kreg s.myClu p
    let r := x.row0 + b
    if bad || 127 < r then .stop .mxBad 0 s
    else match s.drainRow s.myClu kr r x.c0 x.nc with
      | (none, s) => .stop .mxUe 0 s
      | (some l, s) =>
        let ws := rowWords (kr.stg.drainBits x.c0 x.nc) l
        .ok (s.addDrain p (rel && r == 127) (rowEvents l) (ws.mapIdx fun i w => (d.ref env.pos env.woff i, b, w)) [])

/-- The drain by rows of this issue, as far as it has come. -/
def State.draining (s : State) : Option Draining := s.me.drained.find? fun d => d.pc == s.iss.pc && d.op == s.iss.op

/-- The drain by rows of this issue put where it stands now, or taken away. -/
def State.setDraining (s : State) (d : Option Draining) : State :=
  s.modFib s.iss.fibre fun x => { x with drained := d.toList ++ x.drained.filter fun e => !(e.pc == s.iss.pc && e.op == s.iss.op) }

/-- A row of the drain of this issue is written, with the bytes it puts into memory: they enter the digest in runs with the rows before it (R363,
R423). -/
def State.rowDrained (s : State) (i : Nat) (cells : List (Nat × Byte)) : State :=
  let old := s.draining.elim [] (·.cells)
  let now := cells.foldl (fun t e => tput t e.1 e.2) old
  (s.setDraining (some { pc := s.iss.pc, op := s.iss.op, row := i + 1, cells := now })).creditFib s.iss.fibre (digestCells now - digestCells old)

/-- One row of MXDRAIN.s or MXDRAIN.g, `i` rows after the first (R125, R225, R362, R363, R423). -/
def State.drainSG (s : State) (u : Uses) (p : Plan) (k : BitVec 4) (mem rel : Bool) (a : Nat) (x : DrainCtl) (i : Nat) : Beat :=
  match s.kAt k with
  | none => .stop .mxProto 0 s
  | some kp =>
    let kr := s.kreg s.myClu kp
    let r := x.row0 + i
    match s.drainRow s.myClu kr r x.c0 x.nc with
    | (none, s) => .stop .mxUe 0 s
    | (some l, s) =>
      let data := rowBytes (kr.stg.drainBits x.c0 x.nc) l
      let at_ := a + i * x.pitch
      if mem then
        let va := at_ % 2 ^ 64
        match s.openAccess clsStore .store false false va data.length 0 with
        | .error e => e
        | .ok (_, segs, s) =>
          let seq := (s.die (dieOfFibre s.iss.fibre)).wtNext
          match s.issueAccess u p i { Access.make .store va segs data.length .b32 .none 0 with data := data } with
          | .ok s => .ok ((s.addDrain kp (rel && r == 127) (rowEvents l) [] [seq]).rowDrained i (cellsFrom va data))
          | e => e
      else match s.padWrite at_ data with
        | .ok s => .ok ((s.addDrain kp (rel && r == 127) (rowEvents l) [] []).rowDrained i [])
        | e => e

/-- Whether the group of a drain into registers is ill-formed (R363). -/
def drainGroupBad (pos : Position) (d : Opd) (e n : Nat) : Bool :=
  match d with
  | .v k => 1023 < k.toNat + n - 1 || d.mixes pos n || (e == 64 && k.toNat % 2 == 1)
  | _ => true

/-- The rows of a drain to the window or to memory, from the one it is taken up again at. -/
def State.drainRows (s : State) (h : Hdr) (u : Uses) (pre : Plan → State → Pre) (rows : Plan → List Nat) (row : Plan → Nat → State → Beat) : State :=
  match s.gate h u with
  | .wait s => s
  | .go p s =>
    if p.env.act == 0 then s.finish h u p (s.rf s.iss.fibre p.x)
    else match pre p s with
      | .wait s => s
      | .stop c a s => s.trapPre c a
      | .sleep z s => s.sleepAt p p.first z 0
      | .ok s =>
        let before := s.rf s.iss.fibre p.x
        let s := if p.first = 0 then s.setDraining (some { pc := s.iss.pc, op := s.iss.op, row := 0, cells := [] }) else s
        match s.beats u p before row ((rows p).filter (p.first ≤ ·)) with
        | (false, s) => s
        | (true, s) => (s.setDraining none).finish h u p before

/-- MXDRAIN (R361 to R363); `.v` does not read the pitch word. -/
def execMxdrain (h : Hdr) (k : BitVec 4) (dst : DrainDst) (rel : Bool) (d a : Option Opd) (ctl : Src) (s : State) : Host.Outcome State Fault Refusal :=
  let env0 := s.envOf s.iss.fibre s.me 0
  let x0 := DrainCtl.ofDword (ctl.dword env0 s.myRf false 0)
  let e := ((s.kAt k).elim (default : KReg) (s.kreg s.myClu)).stg.drainBits x0.c0 x0.nc
  let n := x0.nc * (if e = 64 then 2 else 1)
  let dv := d.getD .sz
  let av := a.getD .sz
  let bad := drainGroupBad s.me.pos dv e n
  let ctlOf := fun (p : Plan) (s : State) => DrainCtl.ofDword (ctl.dword p.env s.myRf false 0)
  let base := fun (p : Plan) (s : State) => if dst == .g then (av.dword p.env s.myRf 0).toNat else (av.word p.env s.myRf 0 0).toNat
  .next <|
    if dst == .v then
      s.perBeat h { Uses.nil with rd := srcGroup ctl 1, wr := if bad then [] else [(dv, n)] }
        (fun p s => s.drainPre k dst rel (ctlOf p s) 0)
        (fun p b s => s.drainV p.env k rel bad dv (ctlOf p s) b)
        fun _ s => s
    else
      let u := { Uses.nil with rd := srcGroup ctl 2 ++ [(av, if dst == .g then 2 else 1)], uni := true }
      s.drainRows h u
        (fun p s => s.drainPre k dst rel (ctlOf p s) (base p s))
        (fun p => upTo (ctlOf p s).nr)
        fun p i s => s.drainSG u p k (dst == .g) rel (base p s) (ctlOf p s) i

/-- DRAIN_COMPLETE: the oldest drain whose stores are performed writes its registers, raises its flags, and with REL ends the hold (R208, R362). -/
def execDrainComplete (cl : Nat) (s : State) : Host.Outcome State Fault Refusal :=
  .next <| match (s.clu cl).drains with
    | [] => s
    | d :: t =>
      let waits := (s.fib? d.fibre).elim false fun x => x.out.any fun a => d.stores.contains a.seq
      if waits then s
      else
        let kr := s.kreg cl d.k
        let s := s.modClu cl fun c => { c with drains := t }
        let s := match s.fib? d.fibre with
          | none => s
          | some x => s.putRf d.fibre x ((d.regs.foldl (fun (rf : RF) e => rf.write e.1 e.2.1 e.2.2) (s.rf d.fibre x)).raise (d.events ||| kr.events))
        if d.rel then s.setKreg cl d.k { kr with hold := false, state := 0 } else s

/-! ## TLDS (R366) -/

/-- Columns copied into a tile register, each whole, up to the first that meets an uncorrectable granule (R366). -/
def State.tldsCols (s : State) (cl t phys pitch c0 : Nat) : List Nat → Bool × State
  | [] => (true, s)
  | n :: rest =>
    let src := phys + n * pitch
    if (s.clu cl).spadError src 128 false then (false, s)
    else
      let bytes := s.spadBytes cl src 128
      let key := tileKey t (c0 + n) 0
      let s := ((s.spadCorrect cl src 128).modClu cl fun c =>
        { c with
          tiles := tblWrite c.tiles key bytes
          tileBad := without c.tileBad (key / 4) 32
          tileCe := without c.tileCe (key / 4) 32 }).touch cl (some s.iss.fibre) fun k => { k with tiles0 := tblWrite k.tiles0 key bytes }
      s.tldsCols cl t phys pitch c0 rest

/-- TLDS: an alignment or range fault comes before its own cause (R366, R432). -/
def execTlds (h : Hdr) (t : BitVec 4) (a : Opd) (ctl : Src) (s : State) : Host.Outcome State Fault Refusal :=
  let u := { Uses.nil with rd := (a, 1) :: srcGroup ctl 2, uni := true }
  .next (s.perBeat h u (fun _ s => .ok s)
    (fun p b s =>
      let rf := s.myRf
      let x := ctl.dword p.env rf false b
      let off := (a.word p.env rf 0 b).toNat
      let c0 := bitsAt x 0 7
      let nc := bitsAt x 8 7 + 1
      let pitch := bitsAt x 32 32
      if off % 16 != 0 || pitch % 16 != 0 then .stop .memAlign (addr64 off) s
      else if s.winSize s.me < off + (nc - 1) * pitch + 128 then .stop .spadOob (addr64 off) s
      else if x &&& 0xFFFF8080 != 0 || 128 < c0 + nc then .stop .mxBad 0 s
      else match s.tldsCols s.myClu t.toNat (s.winBase s.me + off) pitch c0 (upTo nc) with
        | (true, s) => .ok s
        | (false, s) => .stop .spadUe (addr64 off) s)
    fun _ s => s)

/-! ## EDGEC and TXW (R367 to R370) -/

/-- EDGEC (R367, R368). -/
def execEdgec (h : Hdr) (d a b : Opd) (s : State) : Host.Outcome State Fault Refusal :=
  let n := s.free
  .next (({ s with free := n + 64 } : State).compute h { Uses.nil with rd := [(a, 6), (b, 1)], wr := [(d, 11)] } fun env t rf =>
    let o := b.word env rf 0 t
    let ws := edgeWords ((a.words env rf 6 t).map BitVec.toNat) (o.extractLsb' 0 16).toInt (o.extractLsb' 16 16).toInt (Config.freeWord (n + t))
    rf.writeWords (d.ref env.pos env.woff 0) t 0 ws)

/-- Bytes of a texel (R354). -/
def texelBytes (tb : BitVec 2) : Nat := 2 ^ tb.toNat

/-- TXW (R369, R370). -/
def execTxw (h : Hdr) (mode : TxwMode) (tb : BitVec 2) (d a b : Opd) (s : State) : Host.Outcome State Fault Refusal :=
  .next (s.perBeat h { Uses.nil with rd := [(a, 2), (b, 2)], wr := [(d, 7)] } (fun _ s => .ok s)
    (fun p t s =>
      let rf := s.myRf
      let x := b.dword p.env rf t
      let tw := bitsAt x 0 16
      let th := bitsAt x 16 16
      if tw = 0 || th = 0 then .stop .mxBad 0 s
      else
        let (ws, e) := texWords mode (texelBytes tb) (a.word p.env rf 0 t).toNat (a.word p.env rf 1 t).toNat tw th (bitsAt x 32 32)
        .ok (s.putMy ((rf.writeWords (d.ref p.env.pos p.env.woff 0) t 0 ws).raise e)))
    fun _ s => s)

end Sys2Proof.Machine
end

