-- ==== Sys2Proof/Machine/Exit.lean ====
section
/-! DEFINITION. EXIT, the end of threads and fibres, and MDEF (R240, R241, R392, R395). -/

namespace Sys2Proof.Machine

/-! ## The end of threads (R392) -/

/-- Threads leave the mask of a rejoin register or level. -/
def JReg.without (m : BeatMask) (j : JReg) : JReg := if j.v then { j with mask := j.mask &&& ~~~m } else j

/-- What an access that has only its value to give leaves behind when its fibre has exited: nothing (R392). -/
def Access.outlives (a : Access) : Bool :=
  match a.kind with
  | .load | .const | .rmtr => false
  | .store | .atomic _ _ | .red _ _ | .rstg _ _ => true

/-- A fibre whose last thread has exited: results still owed, the monitor set, the staging words and the window offset are discarded (R392). -/
def Fibre.ended (x : Fibre) : Fibre :=
  { x with
    out := (x.out.filter Access.outlives).map fun a => { a with regs := 0, block := false }, pend := [], mid := none, sleep := .awake, trap := none
    onFail := none, atSwitch := true
    regs := { x.regs with woff := 0, prep := false, timp := false, stg := { cfg := 0, pre := 0, post0 := 0, post1 := 0, unf0 := 0, unf1 := 0 } } }

/-- The last step of a fibre: it leaves its barriers, monitors and waits; TVEC of `%fib` 0 is kept (R178, R392, R458). -/
def State.endFibre (s : State) (f : Nat) : State :=
  let cl := clusterOfFibre f
  let s := match s.fib? f with
    | some x => if x.pos.fib = 0 then s.modCohort x.pos.cohort fun c => { c with tvec0 := x.regs.tvec } else s
    | none => s
  let s := (s.dropMonitor f).modFib f Fibre.ended
  let s := s.modClu cl fun c =>
    { c with
      waiters := c.waiters.filter fun w => w.fibre != f || w.query.isSome
      arrivals := (c.arrivals.filter fun a => !(a.fibre == f && a.verdict.isSome)).map fun a => if a.fibre == f then { a with waits := false } else a }
  let s := [0, 1].foldl (fun s d => s.leaveWalks d (.fibre f)) s
  s.testBars (slotOfFibre f)

/-- Threads of a fibre exit: rejoin masks, thread sets of convergence registers, then what the whole fibre leaves (R392). `levels` are its
overflow levels. -/
def State.exitThreads (s : State) (f : Nat) (gone : BeatMask) (levels : List JReg) : State :=
  match s.fib? f with
  | none => s
  | some x =>
    let d := x.div.mapThreads gone fun _ t => { t with st := .exited, op := none, call := none }
    let d := ({ d with j := d.j.map (JReg.without gone), hexit := if x.regs.inh then d.hexit ||| gone else d.hexit } : Diverge).turn
    let s := ((s.setFib f { x with div := d }).reachSwitch f).settleFib f (levels.map (JReg.without gone)) levels
    let live := (s.fib? f).elim 0 (·.div.live)
    let s := s.leaveSets f gone live
    if live == 0 then s.endFibre f else s.arriveBar f

/-- EXIT (R392). -/
def execExit (h : Hdr) (s : State) : Host.Outcome State Fault Refusal :=
  .next (s.control h Uses.control (fun _ => levelsPre fun _ s => .ok s) fun p s =>
    let f := s.iss.fibre
    match s.readLevels f s.me s.me.div.ovd with
    | .ok (l, s) => s.exitThreads f p.env.act l
    | .error _ => s)

/-! ## MDEF (R240, R241, R395) -/

/-- Whether an operand field is a macro parameter (R241, R243). -/
def isParam (x : BitVec 11) : Bool := 0x4C0 ≤ x.toNat && x.toNat < 0x4C8

/-- What the field at a place may become at a call: itself, or for a parameter one of each class of operand, none of them zero, so that a field that
the opcode does not use stands as it is; registers of different places do not meet. -/
def fieldChoices (k : Nat) (x : BitVec 11) : List (BitVec 11) :=
  if isParam x then
    [Opd.bits (.v (BitVec.ofNat 10 (16 * k))), Opd.bits (.v (BitVec.ofNat 10 (512 + 16 * k))), Opd.bits (.s (BitVec.ofNat 7 (16 * k))),
      Opd.bits (.s (BitVec.ofNat 7 (64 + 16 * k))), Opd.bits (.sp .beat), Opd.bits (.sp .width), Opd.bits .sz]
  else [x]

/-- Whether an operation decodes with some operands in the place of its parameters: then none of its failing checks is independent of them, and
every parameter stands in a position the opcode uses (R241). -/
def opDecodes (r : Raw) : Bool :=
  (fieldChoices 1 r.d).any fun d => (fieldChoices 2 r.a).any fun a => (fieldChoices 3 r.b).any fun b => (fieldChoices 4 r.c).any fun c =>
    (decodeRaw { r with d := d, a := a, b := b, c := c }).isSome

/-- Opcodes that no operation may have: BRA, BRX, CALL, CALLX, RET, JOIN, JDROP, WAIT, EXIT, FWIN, TRAP, RETT and PRDONE (R241, R245). -/
def notInMacro (op : Nat) : Bool := [0x002, 0x003, 0x004, 0x005, 0x006, 0x007, 0x008, 0x009, 0x00A, 0x00F, 0x1C7, 0x1C8, 0x1C9].contains op

/-- One record of a definition, checked (R241). -/
def checkRecord (bytes : List Byte) : Except Cause Raw :=
  let w := leNat bytes
  if w % 4 = 3 then .error .illen
  else if w % 4 = 2 || (w % 4 = 0 && 2 ^ 64 ≤ w) then .error .illop
  else match Raw.ofWord (BitVec.ofNat 128 w) with
    | none => .error .illen
    | some r =>
      let op := r.opcode.toNat
      if r.guard == 7 && r.neg then .ok r
      else if op = 0x00C || op = 0x00D then .error .mnest
      else if notInMacro op || op = 0 || 0x200 ≤ op || !opDecodes r then .error .illop
      else .ok r

/-- The records of a definition. -/
def checkRecords (bytes : List Byte) : Nat → Except Cause (List Raw)
  | 0 => .ok []
  | n + 1 =>
    match checkRecord (bytes.take 12), checkRecords (bytes.drop 12) n with
    | .error c, _ => .error c
    | .ok r, .ok l => .ok (r :: l)
    | .ok _, .error c => .error c

/-- The package presents DUALDIE: feature bit 16 (R19, R462). -/
def DieRegs.dual (r : DieRegs) : Bool := r.feathw.getLsbD 16

/-- The operations of a definition read from memory and checked (R395). -/
def State.readMacro (s : State) (va c : Nat) : Except Beat (List Raw × State) :=
  let die := dieOfFibre s.iss.fibre
  match s.openAccess clsLoad .load false true va (12 * c) 4 with
  | .error e => .error e
  | .ok (_, segs, s) =>
    let (bytes, s) := s.readSegs s.iss.fibre (Access.make .load va segs (12 * c) .b32 .none 0) segs
    if (s.die die).r.dual && !(s.die die).r.peer then .error (.stop .homeAbsent 0 s)
    else match checkRecords bytes c with
      | .error cause => .error (.stop cause 0 s)
      | .ok ops => .ok (ops, s)

/-- An entry of every control store the issuing die reaches (R240). -/
def State.putMacro (s : State) (die n : Nat) (ops : List Raw) : State :=
  ((upTo 384).filter fun c => s.reaches die (dieOfCluster (clusterOfCore c))).foldl (fun s c => s.modCore c fun x =>
    { x with cstore := if ops.isEmpty then tdel x.cstore n else tput x.cstore n ops }) s

/-- MDEF (R240, R241, R395). -/
def execMdef (h : Hdr) (a : Opd) (n c : BitVec 6) (s : State) : Host.Outcome State Fault Refusal :=
  .next (s.perBeat h { Uses.nil with rd := [(a, 2)], uni := true } (fun _ s => .ok s)
    (fun p b s => match s.readMacro (a.dword p.env s.myRf b).toNat c.toNat with
      | .error e => e
      | .ok (ops, s) => .ok (s.putMacro (dieOfFibre s.iss.fibre) n.toNat ops))
    fun _ s => s)

end Sys2Proof.Machine
end

