-- ==== Sys2Proof/Machine/Barrier.lean ====
section
/-! DEFINITION. Barrier objects: BARINIT, BAREXP, BARARV, BARWT, BARCONT, the completion of a phase and the continuation it spawns (R141 to R143, R146, R290 to R294). -/

namespace Sys2Proof.Machine

/-! ## The object (R141) -/

/-- The first sixteen bytes of a barrier object (R141). -/
structure BarObj where
  pend : Word
  partn : Nat
  partr : Nat
  phase : Word
  stat : Word
  deriving DecidableEq, Repr, Inhabited

/-- A field of 32 bits of the scratchpad. -/
def State.spadWord (s : State) (cl phys : Nat) : Word := BitVec.ofNat 32 (leNat (s.spadBytes cl phys 4))

/-- The object at a location. -/
def State.barObj (s : State) (cl phys : Nat) : BarObj :=
  { pend := s.spadWord cl phys, partn := leNat (s.spadBytes cl (phys + 4) 2), partr := leNat (s.spadBytes cl (phys + 6) 2)
    phase := s.spadWord cl (phys + 8), stat := s.spadWord cl (phys + 12) }

/-- The bytes of an object's first granule. -/
def BarObj.bytes (o : BarObj) : List Byte :=
  leBytes 4 o.pend.toNat ++ leBytes 2 o.partn ++ leBytes 2 o.partr ++ leBytes 4 o.phase.toNat ++ leBytes 4 o.stat.toNat

/-- An object's fields changed in one bank access, which reads them first (R128). -/
def State.putBar (s : State) (cl phys : Nat) (o : BarObj) : State := (s.spadCorrect cl phys 16).spadWrite cl phys o.bytes

/-- ERR (R141). -/
def BarObj.err (o : BarObj) : Nat := o.stat.toNat % 256
/-- OVF (R141). -/
def BarObj.ovf (o : BarObj) : Bool := o.stat.getLsbD 8
/-- CONT (R141). -/
def BarObj.cont (o : BarObj) : Bool := o.stat.getLsbD 9
/-- DUE (R141). -/
def BarObj.due (o : BarObj) : Bool := o.stat.getLsbD 10
/-- Whether MAGIC marks the object as initialised (R141). -/
def BarObj.made (o : BarObj) : Bool := o.stat.toNat / 2 ^ 16 % 256 == 0xB7
/-- A status bit set or cleared. -/
def BarObj.bit (o : BarObj) (n : Nat) (x : Bool) : BarObj :=
  { o with stat := if x then o.stat ||| (1#32 <<< n) else o.stat &&& ~~~(1#32 <<< n) }
/-- ERR set, unless it is already non-zero (R144). -/
def BarObj.setErr (o : BarObj) (code : Nat) : BarObj := if o.err = 0 then { o with stat := o.stat ||| BitVec.ofNat 32 (code % 256) } else o

/-- A change to PEND; one that would leave its range sets OVF instead (R142). -/
def BarObj.add (o : BarObj) (d : Int) : BarObj :=
  let v := o.pend.toInt + d
  if -(2 ^ 31) ≤ v && v < 2 ^ 31 then { o with pend := BitVec.ofInt 32 v } else o.bit 8 true

/-- A new object (R290). -/
def BarObj.fresh (n : Nat) : BarObj := { pend := 0, partn := n, partr := n, phase := 0, stat := 0xB70000 }

/-- The place of an object at an offset of the issuing fibre's window, or the cause with which it is turned away: the window's end, an
uncorrectable granule, its alignment (R135, R290). -/
def State.barPlace (s : State) (off n : Nat) : Except Cause Nat :=
  let x := s.me
  let phys := s.winBase x + off
  if s.winSize x < off + 64 then .error .spadOob
  else if (s.clu s.myClu).spadError phys n false then .error .spadUe
  else if off % 64 != 0 then .error .copyBad
  else .ok phys

/-- The place of an initialised object (R141). -/
def State.barAt (s : State) (off n : Nat) : Except Cause Nat :=
  match s.barPlace off n with
  | .error c => .error c
  | .ok phys => if (s.barObj s.myClu phys).made then .ok phys else .error .copyBad

/-- The address a cause of a barrier instruction records (R431). -/
def barAddr (c : Cause) (off : Nat) : Dword := if c == .spadOob || c == .spadUe || c == .copyErr then addr64 off else 0

/-! ## Continuations and the completion of a phase (R142, R143) -/

/-- A continuation's fibre takes its position: all threads at CPC, the arguments in s0 to s7, everything else zero; with an error in the object
it enters its handler first (R143, R458). It starts with an acquire at `.clu` (R120, R224), under the launch's checking bit (R170); what earlier accesses of the
position are still to be performed stays with it. -/
def State.spawnCont (s : State) (cl : Nat) (c : Cont) : State :=
  let o := s.barObj cl c.phys
  let pc := BitVec.ofNat 56 (leNat (s.spadBytes cl (c.phys + 16) 8))
  let x := Fibre.fresh c.pos pc
  let x := { x with
    out := ((s.fib? c.fibre).elim [] (·.out)).filter (!·.failed)
    nspawn := c.nspawn, queries := c.queries, emits := c.emits
    regs := { x.regs with
      tvec := c.tvec, sbchk := (s.launchOf x).desc.sbchk
      s := (upTo 8).foldl (fun t i => tset 0 t i (s.spadWord cl (c.phys + 24 + 4 * i))) [] } }
  let s := ((s.setFib c.fibre x).acquireEffect c.fibre (some .clu)).spadCorrect cl c.phys 64
  let s := s.putBar cl c.phys ((o.bit 9 false).bit 10 false)
  let s := s.modClu cl fun y => { y with conts := y.conts.filter fun e => e.phys != c.phys }
  if o.err = 0 then s
  else s.trap c.fibre
    { cause := .copyErr, addr := addr64 c.off, beat := 0, fpc := pc, op := none, run := allBeats c.pos.width, xbuf := none, carry := none, word := 0, entry := none }

/-- Whether a continuation has to wait for a restore: its cluster is being saved, or its slot migrated (R146, R439). -/
def State.contDue (s : State) (cl f : Nat) : Bool :=
  (s.clu cl).saving || (match (s.die (dieOfCluster cl)).req with | .migrate _ a _ => slotOfFibre f == a | _ => false)

/-- R142's test: the step that leaves PEND and PARTR both 0 completes the phase; during a save the continuation becomes due (R146). A CONT bit
that no registration stands behind starts nothing. -/
def State.settleBarrier (s : State) (cl phys : Nat) : State :=
  let o := s.barObj cl phys
  if o.pend != 0 || o.partr != 0 then s
  else
    let s := s.putBar cl phys { o with phase := o.phase + 1, partr := o.partn }
    let s := if !o.cont then s
      else match (s.clu cl).conts.find? fun e => e.phys == phys with
        | none => s.putBar cl phys ((s.barObj cl phys).bit 9 false)
        | some c =>
          if s.contDue cl c.fibre then
            (s.putBar cl phys ((s.barObj cl phys).bit 10 true)).modClu cl fun y =>
              { y with conts := y.conts.map fun e => if e.phys == phys then { e with due := true } else e }
          else s.spawnCont cl c
    s.fibres.foldl (fun s e => match e.2.sleep with
      | .barwt p _ => if p == phys && clusterOfFibre e.1 == cl then s.modFib e.1 fun x => { x with sleep := .awake } else s
      | _ => s) s

/-- A count taken from or added to PEND, with the test that follows (R142). -/
def State.addPend (s : State) (cl phys : Nat) (d : Int) : State :=
  (s.putBar cl phys ((s.barObj cl phys).add d)).settleBarrier cl phys

/-! ## Arrivals (R292) -/

/-- The last arrival of a phase in deterministic mode: every arrival learns whether its key is the highest, and the fibres that wait for it go on. -/
def State.closeArrivals (s : State) (cl phys : Nat) : State :=
  let mine := (s.clu cl).arrivals.filter fun a => a.phys == phys && a.verdict.isNone
  let top := mine.foldl (fun m a => if keyLt m a.key then a.key else m) []
  let s := s.modClu cl fun c =>
    { c with arrivals := (c.arrivals.filter fun a => !(a.phys == phys && a.verdict.isNone && !a.waits)).map fun a =>
        if a.phys == phys && a.verdict.isNone then { a with verdict := some (a.key == top) } else a }
  s.wakeSleepers cl (.bararv phys)

/-- One arrival of a fibre in one bank access: PARTR falls by one; in deterministic mode the arrival is kept for the closer. The completion of
the phase is tested by the caller. -/
def State.arrive (s : State) (cl phys f : Nat) (waits : Bool) : State :=
  let o := s.barObj cl phys
  let s := s.putBar cl phys { o with partr := o.partr - 1 }
  let x := (s.fib? f).getD default
  let s := if x.pos.det then
      s.modClu cl fun c =>
        { c with arrivals := c.arrivals ++ [{ phys := phys, fibre := f, pc := s.iss.pc, op := s.iss.op, key := x.pos.key, token := o.phase, waits := waits, verdict := none }] }
    else s
  if o.partr = 1 then s.closeArrivals cl phys else s

/-- The arrival of the issuing fibre that stands at this BARARV (R292). -/
def State.standing (s : State) : Option Arrival :=
  (s.clu s.myClu).arrivals.find? fun a => a.waits && a.fibre == s.iss.fibre && a.pc == s.iss.pc && a.op == s.iss.op

/-- A predicate written for every active thread. -/
def RF.setPreds (rf : RF) (env : Env) (p : BitVec 3) (x : Bool) : RF := (maskBeats env.pos.width env.act).foldl (fun rf b => rf.setPred p b x) rf

/-! ## The instructions -/

/-- BARINIT (R290). -/
def execBarinit (h : Hdr) (a : Opd) (n : Src) (s : State) : Host.Outcome State Fault Refusal :=
  .next (s.perBeat h { Uses.nil with rd := (a, 1) :: srcGroup n 1, uni := true }
    (fun p s =>
      let off := (a.word p.env s.myRf 0 0).toNat
      let k := (n.word p.env s.myRf false 0 0).toNat
      match s.barPlace off 16 with
      | .error c => .stop c (barAddr c off) s
      | .ok phys =>
        let o := s.barObj s.myClu phys
        if k = 0 || 65535 < k || (o.made && (o.cont || o.due)) then .stop .barErr 0 s else .ok s)
    (fun p _ s =>
      let phys := s.winBase s.me + (a.word p.env s.myRf 0 0).toNat
      let s := (s.spadCorrect s.myClu phys 64).spadWrite s.myClu phys ((BarObj.fresh (n.word p.env s.myRf false 0 0).toNat).bytes ++ leBytes 48 0)
      .ok (s.modClu s.myClu fun c => { c with arrivals := c.arrivals.filter fun e => e.phys != phys || e.waits }))
    fun _ s => s)

/-- BAREXP (R291). -/
def execBarexp (h : Hdr) (a : Opd) (n : Src) (s : State) : Host.Outcome State Fault Refusal :=
  .next (s.perBeat h { Uses.nil with rd := (a, 1) :: srcGroup n 1, uni := true }
    (fun p s =>
      let off := (a.word p.env s.myRf 0 0).toNat
      match s.barAt off 16 with
      | .error c => .stop c (barAddr c off) s
      | .ok _ => .ok s)
    (fun p _ s =>
      let k := (n.word p.env s.myRf false 0 0).toNat
      if k = 0 then .ok s else .ok (s.addPend s.myClu (s.winBase s.me + (a.word p.env s.myRf 0 0).toNat) k))
    fun _ s => s)

/-- The checks of BARARV: SATARM, the object, an arrival that may still be made, then the release (R70, R224, R292). -/
def bararvPre (a : Opd) (p : Plan) (s : State) : Pre :=
  let off := (a.word p.env s.myRf 0 0).toNat
  if s.standing.isSome then .ok s
  else if s.me.regs.satTrap then .stop .satTrap 0 s
  else match s.barAt off 16 with
    | .error c => .stop c (barAddr c off) s
    | .ok phys => if (s.barObj s.myClu phys).partr = 0 then .stop .barErr 0 s else s.orderWait true (some .clu)

/-- BARARV waits for its predicate, or takes it (R292). -/
def State.closerBeat (s : State) (d : Opd) (q : BitVec 3) (env : Env) : Beat :=
  match s.standing with
  | none => .ok s
  | some e =>
    let s := s.putMy (d.put env s.myRf 0 0 e.token)
    match e.verdict with
    | none => .sleep (.bararv e.phys) 0 s
    | some v => .ok ((s.putMy (s.myRf.setPreds env q v)).modClu s.myClu fun c => { c with arrivals := c.arrivals.erase e })

/-- BARARV (R292). -/
def execBararv (h : Hdr) (d a : Opd) (q : BitVec 3) (s : State) : Host.Outcome State Fault Refusal :=
  .next (s.perBeat h { Uses.nil with rd := [(a, 1)], wr := [(d, 1)], pw := [q], uni := true } (bararvPre a)
    (fun p _ s =>
      if s.standing.isSome then s.closerBeat d q p.env
      else
        let cl := s.myClu
        let phys := s.winBase s.me + (a.word p.env s.myRf 0 0).toNat
        let o := s.barObj cl phys
        let waits := s.me.pos.det && q != 7
        let s := s.putMy (d.put p.env s.myRf 0 0 o.phase)
        let s := if s.me.pos.det then s else s.putMy (s.myRf.setPreds p.env q (o.partr == 1))
        let s := (s.arrive cl phys s.iss.fibre waits).settleBarrier cl phys
        if waits then s.closerBeat d q p.env else .ok s)
    fun _ s => s.atSwitch)

/-- BARWT: SATARM is looked at when it issues, not when its wait ends (R70, R144, R224, R293). -/
def execBarwt (h : Hdr) (a b : Opd) (s : State) : Host.Outcome State Fault Refusal :=
  .next (s.perBeat h { Uses.nil with rd := [(a, 1), (b, 1)], uni := true }
    (fun p s =>
      let off := (a.word p.env s.myRf 0 0).toNat
      if s.me.regs.satTrap && p.begins s.iss then .stop .satTrap 0 s
      else match s.barAt off 16 with
        | .error c => .stop c (barAddr c off) s
        | .ok phys =>
          let o := s.barObj s.myClu phys
          if o.ovf then .stop .barErr 0 s
          else if o.err != 0 then .stop .copyErr (barAddr .copyErr off) s
          else if o.phase == b.word p.env s.myRf 0 0 then .sleep (.barwt phys o.phase) s
          else .ok s)
    (fun p _ s => .ok (s.spadCorrect s.myClu (s.winBase s.me + (a.word p.env s.myRf 0 0).toNat) 16))
    fun _ s => (s.acquireEffect s.iss.fibre (some .clu)).atSwitch)

/-- The checks of BARCONT (R294); the fibre's overflow levels are read as its threads will leave them (R392). -/
def barcontPre (a : Opd) (p : Plan) : State → Pre :=
  levelsPre fun _ s =>
    let off := (a.word p.env s.myRf 0 0).toNat
    match s.barAt off 64 with
    | .error c => .stop c (barAddr c off) s
    | .ok phys =>
      let o := s.barObj s.myClu phys
      if o.cont || o.partr = 0 || p.apart s then .stop .barErr 0 s else s.orderWait true (some .clu)

/-- BARCONT (R143, R294): CPC, the arguments and CONT are written, one arrival is made, the fibre exits and its position is held; a phase that the
arrival completes spawns the continuation at once. -/
def execBarcont (h : Hdr) (a b : Opd) (off : BitVec 32) (s : State) : Host.Outcome State Fault Refusal :=
  .next (s.control h { Uses.nil with rd := [(a, 1), (b, 8)], uni := true } (fun p => barcontPre a p) fun p s =>
    let f := s.iss.fibre
    let cl := s.myClu
    let x := s.me
    let o := (a.word p.env s.myRf 0 0).toNat
    let phys := s.winBase x + o
    let cont : Cont := { off := o, phys := phys, fibre := f, pos := x.pos, tvec := x.regs.tvec, nspawn := x.nspawn, queries := x.queries, emits := x.emits, due := false }
    let args := (upTo 8).flatMap fun i => leBytes 4 (b.word p.env s.myRf i 0).toNat
    let s := s.spadWrite cl (phys + 16) (leBytes 8 (s.iss.target off).toNat ++ args)
    let s := s.putBar cl phys ((s.barObj cl phys).bit 9 true)
    let s := (s.modClu cl fun c => { c with conts := c.conts ++ [cont] }).arrive cl phys f false
    let s := match s.readLevels f s.me s.me.div.ovd with
      | .ok (l, s) => s.exitThreads f p.env.act l
      | .error _ => s
    s.settleBarrier cl phys)

end Sys2Proof.Machine
end

