-- ==== Sys2Proof/Machine/Trap.lean ====
section
/-! DEFINITION. Traps beyond an instruction's own causes: what is pending, TRAP, RETT, PRDONE and the dispatch of extension opcodes, with the device steps of trap entry, the trap timer and PREEMPT (R244, R431 to R440, R455, R456, R459, R465 to R468). -/

namespace Sys2Proof.Machine

/-! ## Pending traps and abandoned sleeps (R431, R435, R440, R459) -/

/-- Sleeps that a pending PREEMPT or TIMER abandons (R440, R459); a walk, a fill and a reply are waited for. -/
def Sleep.abandoned : Sleep → Bool
  | .fe _ | .replay _ _ _ _ | .mwait _ | .mxwait _ | .barwt _ _ | .bararv _ | .copyQueue | .failTable | .wqry | .spawnLimit | .grun | .binFull _ _ => true
  | .awake | .walk _ _ _ | .fill _ | .reply => false

/-- A sleep is abandoned: the fibre leaves every queue it waits in, and its beat or instruction will be issued again (R86, R130, R440). -/
def State.abandonSleep (s : State) (f : Nat) : State :=
  match s.fib? f with
  | none => s
  | some x =>
    if !x.sleep.abandoned then s
    else
      let s := [0, 1].foldl (fun s d => s.leaveWalks d (.fibre f)) s
      let s := s.modClu (clusterOfFibre f) fun c => { c with waiters := c.waiters.filter fun w => w.fibre != f || w.query.isSome }
      let code := match x.sleep with | .mwait _ => some 2 | _ => x.mwaitCode
      s.modFib f fun x => { x with sleep := .awake, onFail := none, mwaitCode := code }

/-- Whether PREEMPT or TIMER is pending for a fibre outside its handler (R432, R436). -/
def Fibre.pendingOut (x : Fibre) : Bool := !x.regs.inh && (x.regs.prep || x.regs.timp)

/-- A trap goes on that can: an entry whose wait is over, else what is pending, at a boundary or at once from an abandoned sleep (R435, R459). -/
def State.takePending (s : State) (f : Nat) : State :=
  match s.fib? f with
  | none => s
  | some x =>
    if x.frozen || x.pre == .done || x.pre == .forced || x.div.live == 0 then s
    else if x.trap.isSome then if x.sleep != .awake || s.owing f then s else s.enterTrap f
    else if x.sleep == .awake then if x.trapsNow then s.boundaryTrap f else s
    else if x.sleep.abandoned && x.pendingOut then (s.abandonSleep f).boundaryTrap f
    else s

/-- TRAP_ENTRY: a trap whose earlier results are written, or one that is pending, enters its handler (R435). -/
def execTrapEntry (f : Nat) (s : State) : Host.Outcome State Fault Refusal := .next (s.takePending f)

/-- PREEMPT_TAKEN (R440). -/
def execPreemptTaken (f : Nat) (s : State) : Host.Outcome State Fault Refusal :=
  .next (if (s.fib? f).elim false fun x => x.trap.isNone && x.regs.prep then s.takePending f else s)

/-- TIMER_EXPIRY: COUNT has reached 0, TIMER becomes pending, and a sleep outside the handler is abandoned for it (R459). -/
def execTimerExpiry (f : Nat) (s : State) : Host.Outcome State Fault Refusal :=
  .next <| match s.fib? f with
    | none => s
    | some x =>
      if x.timerStands || x.regs.ttimer == 0 || x.count (s.nowOf f) != 0 then s
      else
        let s := s.setFib f (x.stopTimer (s.nowOf f))
        if x.sleep.abandoned && x.trap.isNone then s.takePending f else s

/-! ## The frame as RETT reads it (R433, R434, R437) -/

/-- What a frame says. -/
structure Frame where
  threads : List Thread
  j : List JReg
  divst : Nat
  exctl : Nat
  woff : Nat
  status : Nat
  fpc : BitVec 56
  carry : Dword
  stg : Staging
  xbuf : List (Word × Word)
  deriving Repr

/-- The staging words of a frame; reserved bits read 0 (R6). -/
def Fibre.frameStaging (x : Fibre) : Staging :=
  let w := fun i => BitVec.ofNat 64 (x.frameNat (194 + 2 * i) 2)
  { cfg := w 0 &&& keepCfg, pre := w 1 &&& keepPre, post0 := w 2 &&& keepPost0, post1 := w 3, unf0 := w 4 &&& keepUnf0, unf1 := w 5 &&& keepUnf1 }

/-- The frame in a fibre's registers. -/
def Fibre.readFrame (x : Fibre) : Frame :=
  { threads := (upTo x.pos.width).map fun b => .ofNat (x.frameNat (2 * b) 2)
    j := (upTo 8).map fun n => .ofNat (x.frameNat (128 + 6 * n) 6)
    divst := x.frameNat 176 1, exctl := x.frameNat 178 1, woff := x.frameNat 179 1, status := x.frameNat 180 1
    fpc := BitVec.ofNat 56 (x.frameNat 184 2), carry := BitVec.ofNat 64 (x.frameNat 192 2), stg := x.frameStaging
    xbuf := (upTo 64).map fun b => (x.frameWord (208 + 2 * b), x.frameWord (209 + 2 * b)) }

/-- CAUSE. -/
def Frame.cause (r : Frame) : Nat := r.status % 64
/-- RBEAT. -/
def Frame.rbeat (r : Frame) : Nat := r.status / 64 % 64
/-- A bit of STATUS. -/
def Frame.flag (r : Frame) (n : Nat) : Bool := r.status / 2 ^ n % 2 == 1
/-- DEPTH. -/
def Frame.depth (r : Frame) : Nat := r.divst % 16
/-- OVD. -/
def Frame.ovd (r : Frame) : Nat := r.divst / 32 % 64

/-- Whether a register of the frame area has a residue mismatch. -/
def Fibre.frameResidue (x : Fibre) : Nat :=
  let rf : RF := { regs := x.regs, slot := .reset }
  ((upTo 512).filter fun j => let (r, b) := x.pos.frameAt j; rf.bad r b).length

/-- The length of the definition that the call at a thread's address names, where its word can be read (R244, R437). -/
def State.callLength (s : State) (f : Nat) (x : Fibre) (t : Thread) : Option Nat := (s.callOf f x t).map (·.ops.length)

/-- The beat that RETT takes an instruction up again at: of an MXDRAIN by rows, whose rows may pass the 6 bits of RBEAT, the row the frame names (R363,
R434, assumption 127). -/
def Fibre.resumeBeat (x : Fibre) (r : Frame) : Nat :=
  match x.drained.find? fun d => d.pc == r.fpc && d.row % 64 == r.rbeat with
  | some d => d.row
  | none => r.rbeat

/-- A frame that RETT refuses (R437); RBEAT of an MXDRAIN by rows counts rows and not beats (R363). -/
def State.frameBad (s : State) (f : Nat) (x : Fibre) (r : Frame) : Bool :=
  let pcs := (r.threads.zipIdx.filter fun e => !x.div.hexit.getLsbD e.2).map (·.1)
  (x.pos.width ≤ r.rbeat && !x.drained.any fun d => d.pc == r.fpc)
    || pcs.any (fun t => t.pc.toNat % 4 != 0)
    || pcs.any (fun t => t.st != .exited && (match t.op with | some k => (s.callLength f x t).any (· ≤ k) | none => false))
    || r.j.any (fun j => j.park &&& ~~~j.mask != 0)
    || 8 < r.depth || 56 < r.ovd || r.woff % 8 != 0 || x.pos.plim ≤ r.woff

/-- The position that RETT puts back: the trapped instruction, if a Ready thread of the frame stands at it (R382, R437). -/
def Fibre.resumeAt (x : Fibre) (r : Frame) (ts : List Thread) : Option Mid :=
  let here := ts.filter fun t => t.st == .ready && t.pc == r.fpc
  let first := here.foldl (fun m t => if t.place < m.place then t else m) (here.headD default)
  let op := if here.any (·.op == x.div.sop) then x.div.sop else first.op
  if here.isEmpty || (x.resumeBeat r = 0 && !r.flag 12 && !r.flag 13 && !x.lostWait) then none
  else some
    { pc := r.fpc, op := op, beat := x.resumeBeat r, xbuf := if r.flag 12 then some r.xbuf else none, carry := if r.flag 13 then some r.carry else none
      resumed := true, lost := x.lostWait }

/-- The threads of a frame: one that exited in the handler stays Exited; a Held one inside a call goes on from the entry as it stands (R244, R436). -/
def Fibre.frameThreads (x : Fibre) (r : Frame) (store : Nat → List Raw) : List Thread :=
  r.threads.mapIdx fun b t =>
    let e := nth default x.div.scall b
    if x.div.hexit.getLsbD b then { t with st := .exited, op := none }
    else if t.op.isSome && e.1 == t.pc then { t with call := e.2 }.reread store else t

/-- A fibre as its frame restores it: a thread that exited in the handler stays Exited, DETM is the launch's, FLAGS stand (R436, R437). -/
def Fibre.resume (x : Fibre) (r : Frame) (now : Nat) (store : Nat → List Raw) : Fibre :=
  let ts := x.frameThreads r store
  { x with
    div :=
      { threads := ts, j := r.j, depth := r.depth, ser := r.divst / 16 % 2 == 1, ovd := r.ovd, base := 0, cur := x.div.scur, curLive := x.div.scurLive
        heldBar := if ts.any (·.st == .held) then x.div.sheld else none
        hexit := 0, sop := none, scur := 0, scurLive := false, sheld := none }
    regs := { x.regs with
      sbchk := r.exctl % 2 == 1, woff := r.woff, stg := r.stg, inh := false, tbase := now }
    mid := x.resumeAt r ts, doneAt := x.doneAt.filter fun e => e.1 == r.fpc && e.2.2.1 == r.rbeat, lostWait := false, pend := [], chained := false, rettDue := false }

/-- A phase of a barrier that completed during the handler releases the fibre's Held threads now (R393). -/
def State.payBars (s : State) (f : Nat) (held : Option (Nat × BitVec 3)) : State :=
  let k := slotOfFibre f
  (upTo 4).foldl (fun s b =>
    let y := (s.slot k).bar b
    match y.owed.find? (·.1 == f) with
    | none => s
    | some (_, _, closer) =>
      let s := s.setSlot k ((s.slot k).setBar b { y with owed := y.owed.filter (·.1 != f) })
      match held with
      | some (c, p) => if c == b then s.modFib f fun x => x.passBar p closer else s
      | none => s) s

/-- Every live thread of a fibre exits (R392, R437, R438). -/
def State.exitAll (s : State) (f : Nat) : State :=
  match s.fib? f with
  | none => s
  | some x =>
    match s.readLevels f x x.div.ovd with
    | .ok (l, s) => s.exitThreads f x.div.live l
    | .error _ => s.exitThreads f x.div.live []

/-- What RETT does: its fates in the order of R437, else the fibre restored, its barriers and rejoin registers tested, and a pending PREEMPT taken. -/
def State.rett (s : State) (f : Nat) (pc : BitVec 56) : State :=
  match s.fib? f with
  | none => s
  | some x =>
    let h := x.regs.hcause.toNat
    if x.dgst then s.exitAll f
    else if x.frameResidue != 0 then (s.countRes f x.frameResidue).freeze f x h Cause.resErr.code pc
    else
      let r := x.readFrame
      if r.flag 14 then s.freeze f x r.cause Cause.double.code pc
      else if s.frameBad f x r then s.freeze f x h Cause.illop.code pc
      else
        let s := (((s.setFib f (x.resume r (s.nowOf f) (s.core (coreOfFibre f)).macroAt)).payBars f x.div.sheld).settleNow f).arriveBar f
        if x.regs.prep then s.takePending f else s

/-! ## TRAP, RETT and PRDONE (R455, R456) -/

/-- TRAP: the whole run goes past it, then cause USER is taken with the code (R455). -/
def execTrap (h : Hdr) (code : BitVec 10) (s : State) : Host.Outcome State Fault Refusal :=
  .next (s.control h Uses.control
    (fun _ s => if s.me.regs.inh then .stop .user (code.setWidth 64) s else .ok s)
    fun p s => (s.moveOn p).trap s.iss.fibre (s.iss.req .user (code.setWidth 64) 0 none none))

/-- The checks of a return: a handler, every live thread active, earlier results written, the frame resident (R437, R456). -/
def rettPre (legal : Fibre → Bool) (p : Plan) (s : State) : Pre :=
  let x := s.me
  if !legal x || p.apart s then .stop .illop 0 s
  else if s.owing s.iss.fibre then .wait s.hold
  else if !x.frameBlocks.isEmpty then .sleep (.fill x.frameBlocks) s
  else .ok s

/-- RETT (R437, R456). -/
def execRett (h : Hdr) (s : State) : Host.Outcome State Fault Refusal :=
  .next (s.control h Uses.control (rettPre fun x => x.regs.inh) fun _ s => s.rett s.iss.fibre s.iss.pc)

/-- PRDONE: in a PREEMPT handler it ends the fibre's part of a save in progress, else it acts as RETT (R440, R456). -/
def execPrdone (h : Hdr) (s : State) : Host.Outcome State Fault Refusal :=
  .next (s.control h Uses.control (rettPre fun x => x.regs.inh && x.regs.hcause.toNat == Cause.preempt.code) fun _ s =>
    if s.me.pre == .none then s.rett s.iss.fibre s.iss.pc
    else s.modFib s.iss.fibre fun x => { x with pre := .done })

/-! ## Extension opcodes (R246, R465 to R468) -/

/-- An entry of the binding table, read at home when UNIMP is met (R465, R466). -/
def State.binding (s : State) (die : Nat) (w : Raw) : Except (Cause × State) (Nat × Nat) :=
  let pa := (s.die die).r.emubase.toNat + 16 * (w.opcode.toNat - 0x200)
  if !s.reaches die (homeOf pa) then .error (.homeAbsent, s)
  else match s.demandError pa 16 with
    | some s => .error (.ueData, s)
    | none => .ok (leNat (memBytes s.mem pa 8), leNat (memBytes s.mem (pa + 8) 8))

/-- UNIMP with its word, entered at an address or at TVEC (R434, R466, R468). -/
def State.unimp (s : State) (w : Raw) (entry : Option (BitVec 56)) : State :=
  s.trap s.iss.fibre { s.iss.req .unimp 0 0 none none with word := w.toWord, entry := entry }

/-- Whether a word can be run as a call (R466). -/
def wordCallable (w : Raw) : Bool := w.len != .b128 && w.mod == 0 && w.modx == 0 && w.pca == 0 && w.pqa == 0 && w.pcb == 0 && w.pqb == 0

/-- A parameter that names no operand (R467). -/
def badParam (x : BitVec 11) : Bool := 0x4C0 ≤ x.toNat && x.toNat < 0x7FF

/-- The fate of an extension opcode: UNIMP at TVEC, a microprogram run as a call, a routine entered as a handler (R466 to R468). -/
def execUnimpDispatch (w : Raw) (s : State) : Host.Outcome State Fault Refusal :=
  .next <|
    let f := s.iss.fibre
    let die := dieOfFibre f
    if (s.die die).r.emubase = 0 then s.unimp w none
    else match s.binding die w with
      | .error (c, s) => s.freeze f s.me Cause.unimp.code c.code s.iss.pc
      | .ok (e, tva) =>
        let s := s.homeCorrect ((s.die die).r.emubase.toNat + 16 * (w.opcode.toNat - 0x200)) 16
        let ops := tget [] (s.core (coreOfFibre f)).cstore (e / 2 % 64)
        if e % 2 = 1 && !ops.isEmpty && wordCallable w then
          if badParam w.d || badParam w.a || badParam w.b || badParam w.c then s.trapPre .illop 0
          else s.control { w.hdr with stall := 0, sw := false } Uses.control (fun _ s => .ok s) fun p s =>
            s.modFib f fun x =>
              { x with div := x.div.mapThreads p.env.act fun _ t =>
                  { t with op := some 0, call := some { ops := ops, prm := [w.d, w.a, w.b, w.c, 0, 0, 0, 0], len := s.iss.len, entry := e / 2 % 64 } } }
        else s.unimp w (if tva % 2 ^ 56 = 0 then none else some (BitVec.ofNat 56 tva))

end Sys2Proof.Machine
end

