-- ==== Sys2Proof/Machine/Walker.lean ====
section
/-! DEFINITION. The task walker: its reads and writes of memory, node control blocks, edges, descriptors, launches and the placement queue (R396 to R406, R413 to R415, R425). -/

namespace Sys2Proof.Machine

/-! ## The walker's accesses (R399) -/

/-- A step of the walker: it reads and changes the state, and may end with an error code of R402. -/
abbrev Wk (α : Type) := ExceptT Nat (StateM State) α

/-- The error code of a walk that ends without a leaf (R402). -/
def WalkEnd.code : WalkEnd → Nat
  | .ue _ => 3
  | .absent => 4
  | _ => 2

/-- The page of an address; the walker's faults are not replayed. -/
def wkPage (die asid va : Nat) (write : Bool) : Wk Page := do
  let s ← get
  if 2 ^ 56 ≤ va then throw 2
  let s := s.walkCorrect die asid va
  set s
  match s.walk die asid va with
  | (_, .leaf base size e) =>
    let p := ({ asid := asid, base := base, size := size, entry := e } : TlbEntry).page va
    if write && !p.w then throw 2 else pure p
  | (_, r) =>
    set (s.walkEffect r)
    throw r.code

/-- Bytes of one page, as a load that passes the L1 reads them (R399). -/
def wkReadPart (die asid : Nat) (part : Nat × Nat) : Wk (List Byte) := do
  let p ← wkPage die asid part.1 false
  let s ← get
  if !s.segThere die (p.seg part.2) then throw 4
  match s.homeError p.pa part.2 true with
  | some s =>
    set s
    throw 3
  | none =>
    let (b, s) := if isHost p.pa then (memBytes s.mem p.pa part.2, s) else s.dieRead die p.pa p.ca part.2
    set s
    pure b

/-- Bytes at an address. -/
def wkRead (die asid va n : Nat) : Wk (List Byte) := do
  let bs ← (pageParts va n).mapM (wkReadPart die asid)
  pure bs.flatten

/-- A number at an address, read at home (R399, R406). -/
def wkHome (die asid va n : Nat) : Wk Nat := do
  let p ← wkPage die asid va false
  let s ← get
  if !s.segThere die (p.seg n) then throw 4
  match s.homeError p.pa n true with
  | some s =>
    set s
    throw 3
  | none =>
    set (s.homeCorrect p.pa n)
    pure (leNat (memBytes s.mem p.pa n))

/-- Bytes of one page written at home; the die's Copies of their lines are gone. -/
def wkWritePart (die asid : Nat) (part : Nat × List Byte) : Wk Unit := do
  let p ← wkPage die asid part.1 true
  let s ← get
  let n := part.2.length
  if !s.segThere die (p.seg n) then throw 4
  match s.homeError p.pa n true with
  | some s =>
    set s
    throw 3
  | none => set ((linesOf p.pa n).foldl (fun s l => s.dropCopy die l) ((s.homeCorrect p.pa n).homeWrite p.pa part.2 (p.ca != 2)))

/-- Bytes written at an address. -/
def wkWrite (die asid va : Nat) (data : List Byte) : Wk Unit :=
  (pageParts va data.length).forM fun e => wkWritePart die asid (e.1, (data.drop (e.1 - va)).take e.2)

/-- What a step of the walker leaves: its result, or an error code, with the state. -/
def Wk.exec {α : Type} (m : Wk α) (s : State) : Except Nat α × State := m.run.run s

/-! ## Node control blocks (R397) -/

/-- A control block as the walker reads it. -/
structure Block where
  w0 : Nat
  pred : Nat
  predn : Nat
  nsucc : Nat
  succ : Nat
  body : Nat
  args : List Word
  sound : Bool
  deriving Repr

/-- A little-endian field of a list of bytes. -/
def fieldAt (b : List Byte) (off n : Nat) : Nat := leNat ((b.drop off).take n)

/-- A control block of 64 bytes; it is sound where its reserved fields are zero. -/
def Block.ofBytes (b : List Byte) : Block :=
  let w0 := fieldAt b 0 4
  { w0 := w0, pred := fieldAt b 4 4, predn := fieldAt b 8 4, nsucc := fieldAt b 12 2, succ := fieldAt b 16 8, body := fieldAt b 24 8
    args := (upTo 8).map fun i => BitVec.ofNat 32 (fieldAt b (32 + 4 * i) 4)
    sound := w0 / 8 % 32 == 0 && w0 / 2048 % 32 == 0 && w0 / 2 ^ 25 == 0 && fieldAt b 14 2 == 0 && fieldAt b 16 8 < 2 ^ 56 && fieldAt b 24 8 < 2 ^ 56 }

/-- KIND. -/
def Block.kind (b : Block) : Nat := b.w0 % 8

/-- The control block at an address. -/
def wkBlock (die asid va : Nat) : Wk Block := do
  let b ← wkRead die asid va 64
  pure (.ofBytes b)

/-- STATE and ERR written; every other bit of the word stands (R397, R402). -/
def wkState (die asid va st : Nat) (err : Option Nat) : Wk Unit := do
  let w ← wkHome die asid va 4
  let w := w - w / 256 % 8 * 256 + st * 256
  let w := match err with | some e => w - w / 65536 % 256 * 65536 + e * 65536 | none => w
  wkWrite die asid va (leBytes 4 w)

/-! ## Nodes (R399, R400, R402) -/

/-- A node of a die's walker. -/
def State.node? (s : State) (die key : Nat) : Option Node := tfind (s.die die).nodes key

/-- A node changed by a function. -/
def State.modNode (s : State) (die key : Nat) (g : Node → Node) : State :=
  match s.node? die key with
  | some n => s.modDie die fun d => { d with nodes := tput d.nodes key (g n) }
  | none => s

/-- The number of the node whose control block lies at an address, if the walker has it. -/
def State.nodeAt (s : State) (die asid va : Nat) : Option Nat :=
  ((s.die die).nodes.find? fun e => e.2.va == va && e.2.asid == asid).map (·.1)

/-- A new node in a walker's table. -/
def State.addNode (s : State) (die : Nat) (n : Node) : Nat × State :=
  (s.nextId, { s with nextId := s.nextId + 1 }.modDie die fun d => { d with nodes := tput d.nodes s.nextId n })

/-- A node that the walker takes up. -/
def Node.make (asid va kind state : Nat) : Node :=
  { va := va, asid := asid, kind := kind, state := state, left := 0, err := 0, condw := [], launch := none, window := none }

/-- Fibres that sleep for a slot of a bin try again (R409, R448). -/
def State.wakeEmits (s : State) (key : Nat) : State :=
  s.fibres.foldl (fun s e => match e.2.sleep with
    | .binFull k _ => if k == key then s.modFib e.1 fun x => { x with sleep := .awake } else s
    | _ => s) s

/-- A node leaves the walker's table, with its bin or its window; an EMIT that sleeps for a slot of the bin tries again, and finds it gone (R409). -/
def State.dropNode (s : State) (die key : Nat) : State :=
  (s.modDie die fun d => { d with nodes := tdel d.nodes key, bins := tdel d.bins key, feeds := d.feeds.filter fun e => e.2.node != key }).wakeEmits key

/-- A node ends in error: STATE and ERR where its block can still be written, TWERRCNT, the interrupt (R402). -/
def State.nodeError (s : State) (die asid va err : Nat) : State :=
  let s := if va % 64 = 0 then ((wkState die asid va 5 (some err)).exec s).2 else s
  s.modDie die fun d => { d with r := { d.r with twerrcnt := satInc d.r.twerrcnt } }.raise irqNodeerr

/-- A node of the table ends in error; it stays there, to no effect, while what it started still runs. -/
def State.failNode (s : State) (die key err : Nat) : State :=
  match s.node? die key with
  | none => s
  | some n =>
    if n.state = 5 then s
    else
      let s := s.nodeError die n.asid n.va err
      if n.left = 0 then s.dropNode die key else (s.modNode die key fun n => { n with state := 5 }).wakeEmits key

/-! ## Descriptors and task records (R403 to R405, R408) -/

/-- A launch descriptor of 192 bytes, or none where R404 refuses it; of a bin's, C, S, the grid and the distributors are ignored (R408). -/
def Desc.ofBytes (b : List Byte) (bin : Bool) : Option Desc :=
  let f := fieldAt b
  let m := f 8 4
  let d : Desc :=
    { pc := f 0 8, width := 8 * 2 ^ (m % 4), stages := if bin then 1 else m / 4 % 4 + 1, slots := if bin then 1 else m / 16 % 32 + 1, kcnt := m / 512 % 32
      prio := m / 2 ^ 14 % 4, fuse := m / 2 ^ 16 % 2 == 1, sbchk := m / 2 ^ 17 % 2 == 1, det := m / 2 ^ 18 % 2 == 1, dgm := m / 2 ^ 19 % 4
      idem := m / 2 ^ 21 % 2 == 1, place := m / 2 ^ 22 % 4, z := (f 12 4 % 64 + 1) * 16384, plim := f 16 4, shlo := f 20 2, shn := f 22 2, bsbase := f 24 8
      gx := if bin then 1 else f 32 4, gy := if bin then 0 else f 36 4, gz := if bin then 0 else f 40 4, ndist := if bin then 0 else f 44 4 % 8
      args := (upTo 8).map fun i => BitVec.ofNat 32 (f (48 + 4 * i) 4)
      dists := if bin then [] else (upTo 4).map fun i => (f (80 + 16 * i) 4, f (84 + 16 * i) 4, f (88 + 16 * i) 4) }
  let reserved := m / 2 ^ 24 != 0 || f 12 4 / 64 != 0 || f 44 4 / 8 != 0 || f 144 48 != 0 || (upTo 4).any fun i => f (92 + 16 * i) 4 != 0
  let limits := 16 < d.kcnt || d.plim % 8 != 0 || d.plim < 1024 || 2 ^ 20 < d.plim || d.shlo % 8 != 0 || d.shn % 8 != 0 || 256 < d.shn || 1024 < d.shlo + d.shn
  let grid := d.gx = 0 || 2 ^ 32 - 1 < d.gx * max 1 d.gy * max 1 d.gz || 4 < d.ndist
    || (d.dists.take d.ndist).any fun e => 2 ^ 32 - 1 < e.1 * e.2.1 * e.2.2
  if reserved || limits || grid || d.pc % 4 != 0 || 2 ^ 56 ≤ d.pc || d.bsbase % 256 != 0 || 2 ^ 56 ≤ d.bsbase || d.dgm = 3 || d.place = 3 then none else some d

/-- The descriptor at an address; a refused one is error 1 (R404). -/
def wkDesc (die asid va : Nat) (bin : Bool) : Wk Desc := do
  let b ← wkRead die asid va 192
  match Desc.ofBytes b bin with
  | some d => pure d
  | none => throw 1

/-- A descriptor as a task record runs it: one cohort at the record's PC, with its arguments and, unless it is 0, its backing-store base (R405). -/
def Desc.task (d : Desc) (rec : List Byte) : Desc :=
  let base := fieldAt rec 48 8
  { d with
    pc := fieldAt rec 0 8, gx := 1, gy := 0, gz := 0, args := (upTo 8).map fun i => BitVec.ofNat 32 (fieldAt rec (16 + 4 * i) 4)
    bsbase := if base = 0 then d.bsbase else base }

/-- A task record that is refused (R404, R405). -/
def recordBad (rec : List Byte) : Bool :=
  fieldAt rec 56 8 != 0 || fieldAt rec 0 8 % 4 != 0 || 2 ^ 56 ≤ fieldAt rec 0 8 || fieldAt rec 48 8 % 256 != 0

/-- The descriptor a task record runs (R404, R405). -/
def wkTask (die asid : Nat) (rec : List Byte) (dva : Nat) : Wk Desc := do
  if recordBad rec then throw 1
  let d ← wkDesc die asid dva false
  pure (d.task rec)

/-- The cohorts of a launch (R161). -/
def Desc.cohorts (d : Desc) : Nat := d.gx * max 1 d.gy * max 1 d.gz

/-- The bytes of backing store of one fibre, its overflow area with them (R403). -/
def Desc.stride (d : Desc) : Nat := d.plim * d.width * 4 + 1792

/-! ## Launches and the placement queue (R400, R414, R415) -/

/-- A launch, once it is made. -/
def Launch.make (die node asid : Nat) (d : Desc) (key : List Nat) (regions : List (Nat × Nat)) : Launch :=
  { die := die, node := node, asid := asid, desc := d, key := key, left := d.cohorts, spawner := none, group := none, last := none
    dist := List.replicate 4 0, td := [], placedOn := [], cores := [], regions := regions }

/-- Entries of a die's queue, ready now. -/
def State.enqueue (s : State) (die : Nat) (l index : Nat) (again : Bool) (desc : Option Nat) : State :=
  s.modDie die fun d => { d with queue := d.queue ++ [{ launch := l, index := index, readyAt := s.dieNow die, again := again, desc := desc }] }

/-- The die whose queue a cohort joins (R415). -/
def State.placeDie (s : State) (l : Launch) : Nat :=
  let peer := otherDie l.die
  if l.desc.place = 2 then peer
  else if l.desc.place = 1 && (s.die peer).queue.length < (s.die l.die).queue.length then peer
  else l.die

/-- A launch starts: its cohorts join the queues, and it counts for its node. -/
def State.startLaunch (s : State) (l : Launch) : Nat × State :=
  let id := s.nextId
  let s : State := { s with nextId := id + 1, launches := tput s.launches id l }
  let s := s.modNode l.die l.node fun n => { n with left := n.left + 1 }
  (id, (upTo l.desc.cohorts).foldl (fun s i => s.enqueue (s.placeDie l) id i false none) s)

/-- Whether a launch asks for the peer die while it is absent (R415). -/
def State.peerMissing (s : State) (l : Launch) : Bool := l.desc.place != 0 && !s.reaches l.die (otherDie l.die)

/-! ## Edges (R227, R398, R401) -/

/-- The lines of a region, page by page; a line homed on an absent die ends the node in error (R398, R401). -/
def wkRegion (die asid base len : Nat) : Wk (List (Nat × Nat)) := do
  let lo := base / 128 * 128
  let hi := (base + len + 127) / 128 * 128
  (if len = 0 then [] else pageParts lo (hi - lo)).mapM fun e => do
    let p ← wkPage die asid e.1 false
    let s ← get
    if !isHost p.pa && !s.reaches die (homeOf p.pa) then throw 4
    pure (lineOf p.pa, lineOf (p.pa + e.2 - 1))

/-- One edge: the successor and the lines of its regions; reserved bits that are not zero refuse it. -/
def wkEdge (die asid va : Nat) : Wk (Nat × List (Nat × Nat)) := do
  let b ← wkRead die asid va 32
  let n := fieldAt b 16 4
  if 65535 < n || fieldAt b 20 12 != 0 || fieldAt b 0 8 % 64 != 0 then throw 1
  let rs ← (upTo n).mapM fun i => do
    let r ← wkRead die asid (fieldAt b 8 8 + 16 * i) 16
    wkRegion die asid (fieldAt r 0 8) (fieldAt r 8 8)
  pure (fieldAt b 0 8, rs.flatten)

/-- The edges of a node. -/
def wkEdges (die asid va : Nat) : Wk (List (Nat × List (Nat × Nat))) := do
  let b ← wkBlock die asid va
  (upTo b.nsucc).mapM fun e => wkEdge die asid (b.succ + 32 * e)

/-- Whether a write to some line of a range is still on its way to home (R227, R450). -/
def State.lineOwed (s : State) (lo hi : Nat) : Bool :=
  [0, 1].any fun d =>
    ((s.die d).wt.any fun r => lo ≤ r.line && r.line ≤ hi) || (s.die d).port.any fun w => lo ≤ lineOf (w.pa + w.data.length - 1) && lineOf w.pa ≤ hi

/-- Lines that edges list for a successor, taken by it as it becomes ready (R227). -/
def State.takeEdges (s : State) (die asid va : Nat) : List (Nat × Nat) × State :=
  let mine := fun (e : EdgeLines) => e.asid == asid && e.va == va
  (((s.die die).edges.filter mine).map fun e => (e.lo, e.hi), s.modDie die fun d => { d with edges := d.edges.filter fun e => !mine e })

end Sys2Proof.Machine
end

