-- ==== Sys2Proof/Machine/Bins.lean ====
section
/-! DEFINITION. Firn bins: rings, groups and their launch (R408 to R412). -/

namespace Sys2Proof.Machine

/-! ## Rings and groups (R408, R409) -/

/-- Records of one ring. -/
def Bin.kcap (b : Bin) : Nat := if b.ord then b.cap / b.nkey else b.cap

/-- A ring of a bin. -/
def Bin.ring (b : Bin) (r : Nat) : BinRing := nth { next := 0, pending := 0, since := none } b.rings r

/-- A bin with a ring replaced. -/
def Bin.setRing (b : Bin) (r : Nat) (x : BinRing) : Bin := { b with rings := b.rings.set r x }

/-- The record number of a slot of a ring. -/
def Bin.recordAt (b : Bin) (r slot : Nat) : Nat := r * b.kcap + slot

/-- Whether a ring's next slot is still taken: by a group that has not completed, or in deterministic mode because every slot is. -/
def Bin.fullRing (b : Bin) (r : Nat) : Bool :=
  let n := (b.ring r).next
  b.kcap ≤ n || b.groups.any fun g => g.ring == r && g.first ≤ b.recordAt r n && b.recordAt r n < g.first + g.count

/-- The pending records of a ring become a group; nothing happens to a ring without any. -/
def Bin.form (b : Bin) (r : Nat) : Bin :=
  let x := b.ring r
  if x.pending = 0 then b
  else
    let g : BinGroup := { g := b.nextG, ring := r, first := b.recordAt r (x.next - x.pending), count := x.pending, launched := false }
    { b.setRing r { next := if x.next = b.kcap then 0 else x.next, pending := 0, since := none } with groups := b.groups ++ [g], nextG := b.nextG + 1 }

/-- A record has been written to a ring's next slot; a group forms at the coalescing count and at the ring's last slot. -/
def Bin.accept (b : Bin) (r now : Nat) : Bin :=
  let x := b.ring r
  let x := { next := x.next + 1, pending := x.pending + 1, since := if x.pending = 0 then some now else x.since : BinRing }
  let b := b.setRing r x
  if x.pending = b.coal || x.next = b.kcap then b.form r else b

/-- A record held in deterministic mode until the close (R411). -/
def Bin.keep (b : Bin) (r : Nat) (key : List Nat) (seq : Nat) : Bin :=
  let x := b.ring r
  { b.setRing r { x with next := x.next + 1, pending := x.pending + 1 } with emitted := b.emitted ++ [{ ring := r, slot := x.next, key := key, seq := seq }] }

/-- The order of R411. -/
def BinRecord.lt (a b : BinRecord) : Bool := keyLt a.key b.key || (a.key == b.key && a.seq < b.seq)

/-- Inserts a held record in that order. -/
def insertRecord (x : BinRecord × List Byte) : List (BinRecord × List Byte) → List (BinRecord × List Byte)
  | [] => [x]
  | y :: t => if x.1.lt y.1 then x :: y :: t else y :: insertRecord x t

/-- The body of a bin node, or error 1 where it breaks its limits (R402, R408). -/
def wkBin (die asid : Nat) (blk : Block) : Wk Bin := do
  let b ← wkRead die asid blk.body 64
  let f := fieldAt b
  let m := f 28 4
  let cap := f 24 4
  let nkey := m / 512 % 4096 + 1
  let ord := m / 4 % 2 == 1
  if m % 4 = 3 || m / 2 ^ 21 != 0 || f 36 28 != 0 || f 16 8 % 64 != 0 || 2 ^ 56 ≤ f 16 8 || f 0 8 % 4 != 0 || 2 ^ 56 ≤ f 0 8
      || !((upTo 17).any fun i => cap = 2 ^ (i + 4)) || (ord && cap % nkey != 0) then throw 1
  let d ← wkDesc die asid (f 8 8) true
  pure
    { closed := false, desc := { d with pc := f 0 8, args := blk.args.take 6 }, store := f 16 8, cap := cap, rsize := 16 * 2 ^ (m % 4), ord := ord
      coal := m / 8 % 64 + 1, nkey := nkey, timer := f 32 4, rings := List.replicate (if ord then nkey else 1) { next := 0, pending := 0, since := none }
      groups := [], nextG := 0, emitted := [], td := [], regions := [] }

/-- The records held in deterministic mode, rewritten in the order of R411 from slot 0 of each ring, and their groups formed. -/
def wkReorder (die asid now : Nat) (b : Bin) : Wk Bin := do
  let rs ← b.emitted.mapM fun e => do
    let d ← wkRead die asid (b.store + b.recordAt e.ring e.slot * b.rsize) b.rsize
    pure (e, d)
  let empty := { b with rings := b.rings.map fun _ => { next := 0, pending := 0, since := none }, emitted := [] }
  (rs.foldl (fun l e => insertRecord e l) []).foldlM (fun (b : Bin) e => do
    wkWrite die asid (b.store + b.recordAt e.1.ring (b.ring e.1.ring).next * b.rsize) e.2
    pure (b.accept e.1.ring now)) empty

/-! ## Bins of a walker -/

/-- A bin of a die's walker, by its node. -/
def State.bin? (s : State) (die key : Nat) : Option Bin := tfind (s.die die).bins key

/-- A bin replaced. -/
def State.setBin (s : State) (die key : Nat) (b : Bin) : State := s.modDie die fun d => { d with bins := tput d.bins key b }

/-- Whether a group may be launched: the 64th before it has completed, in an ordered bin every earlier one of its key too (R409, R410). -/
def Bin.mayLaunch (b : Bin) (g : BinGroup) : Bool :=
  !g.launched && !b.groups.any fun h => h.g + 64 == g.g || (b.ord && h.ring == g.ring && h.g < g.g)

/-- A group as a launch: one fibre of `%lidx` g, with its first record, its count and the node's arguments (R412). -/
def Bin.launch (b : Bin) (die key asid va : Nat) (g : BinGroup) : Launch :=
  { Launch.make die key asid { b.desc with args := BitVec.ofNat 32 g.first :: BitVec.ofNat 32 g.count :: b.desc.args } [va] b.regions with group := some g.g, left := 1 }

/-- Every group that may be launched is (R409, R410, R412). -/
def State.launchGroups (s : State) (die key : Nat) : State :=
  match s.bin? die key, s.node? die key with
  | some b, some n =>
    (b.groups.filter b.mayLaunch).foldl (fun s g =>
      let l := b.launch die key n.asid n.va g
      if s.peerMissing l then s.failNode die key 4
      else
        let id := s.nextId
        let s : State := { s with nextId := id + 1, launches := tput s.launches id l }
        let s := s.modNode die key fun n => { n with left := n.left + 1 }
        let s := match s.bin? die key with
          | some b => s.setBin die key { b with groups := b.groups.map fun (h : BinGroup) => if h.g == g.g then { h with launched := true } else h }
          | none => s
        s.enqueue (s.placeDie l) id g.g false none) s
  | _, _ => s

/-- BIN_TIMER_EXPIRY: the countdown of a ring is over and its pending records become a group (R409). -/
def execBinTimerExpiry (die index ring : Nat) (s : State) : Host.Outcome State Fault Refusal :=
  .next <| match s.bin? die index with
    | none => s
    | some b =>
      match (b.ring ring).since with
      | none => s
      | some t =>
        if b.timer = 0 || b.desc.det || s.dieNow die < t + b.timer then s
        else (s.setBin die index (b.form ring)).launchGroups die index

end Sys2Proof.Machine
end

