-- ==== Sys2Proof/Machine/Copy.lean ====
section
/-! DEFINITION. The copy engine: TCOPY and ACOPY, the chunks it moves, and the records it leaves (R134 to R140, R144, R146, R147, R284 to R289). -/

namespace Sys2Proof.Machine

/-! ## Engines (R84, R107, R134) -/

/-- The error code of a cause (R116, R144): both tables agree on the first four. -/
def Cause.copyCode : Cause → Nat
  | .xlFault => 1 | .xlPerm => 2 | .ueData => 3 | .homeAbsent => 4 | .vaBad => 5 | .fmtBad => 6 | .scaleShort => 7 | .rmtErr => 8 | .spadUe => 9 | .pteBad => 10
  | _ => 1

/-- What an engine's access comes to: bytes or nothing, an error code, or a replayable fault that holds it. -/
inductive Reach (α : Type) where
  | ok (x : α) (s : State)
  | fail (code : Nat) (s : State)
  | hold (s : State)

/-- An engine's translation; a replayable fault is recorded for it (R84 to R86). `source`: 1 the copy engine, 2 a Moraine engine. -/
def State.engineXl (s : State) (cl asid va : Nat) (write : Bool) (source : Nat) (w : XlWaiter) : Reach Page :=
  match s.translate cl asid va write false with
  | (.ok p, s) => .ok p s
  | (.fail c none, s) => .fail c.copyCode s
  | (.fail _ (some k), s) => .hold (s.raiseFault (dieOfCluster cl)
      { asid := asid, page := va / 65536, va := va, kind := k, cls := if write then clsStore else clsLoad, cluster := cl, core := 0, source := source
        waiters := [w], count := 1, slot := none })

/-- A port accepts every host write it holds: the read that follows does not pass them (R230). -/
def State.flushPort (s : State) (die : Nat) : State :=
  ((s.die die).port.foldl (fun s w => s.homeWrite w.pa w.data false) s).modDie die fun d => { d with port := [] }

/-- Bytes a copy reads in one page, as a `.bp` load; a host read that completes with EP is an error (R23, R134, R144). -/
def State.copyReadPart (s : State) (cl asid id va n : Nat) : Reach (List Byte) :=
  match s.engineXl cl asid va false 1 (.copy cl id) with
  | .fail c s => .fail c s
  | .hold s => .hold s
  | .ok p s =>
    let die := dieOfCluster cl
    let g := p.seg n
    if !s.segThere die g then .fail 4 s
    else
      let s := if g.host then s.flushPort g.home else (linesOf g.pa n).foldl (fun s l => s.dropBadCopies die l) s
      match (if !g.host && s.cached (4 * cl) .load false g then none else s.homeError g.pa n true) with
      | some s => .fail 3 s
      | none =>
        if g.host then .ok (memBytes s.mem g.pa n) s
        else
          let (b, s) := s.dieRead die g.pa g.ca n
          .ok b s

/-- Bytes a copy reads, page by page. -/
def State.copyReadParts (s : State) (cl asid id : Nat) : List (Nat × Nat) → Reach (List Byte)
  | [] => .ok [] s
  | (va, n) :: t =>
    match s.copyReadPart cl asid id va n with
    | .ok x s => match s.copyReadParts cl asid id t with
      | .ok y s => .ok (x ++ y) s
      | e => e
    | e => e

/-- Bytes a copy reads at a virtual address. -/
def State.copyRead (s : State) (cl : Nat) (c : Copy) (va n : Nat) : Reach (List Byte) :=
  if 2 ^ 56 < va + n then .fail 5 s else s.copyReadParts cl c.asid c.id (pageParts va n)

/-- `n` bytes that no rule fixes. -/
def State.freeBytes (s : State) : Nat → List Byte × State
  | 0 => ([], s)
  | n + 1 =>
    let (w, s) := s.freeWord
    let (t, s) := s.freeBytes n
    (w.setWidth 8 :: t, s)

/-! ## Issue (R134, R135, R137, R284 to R289) -/

/-- The record of a full-empty copy's entry in the failure table. -/
def Cluster.freeFail (c : Cluster) : Option Nat := (upTo 16).find? fun i => (tfind c.fails i).isNone

/-- The stamp's page at issue (R17, R140, R432): translated for a write, its home there, aligned, not in host memory. -/
def State.stampAt (s : State) (va : Nat) : Except Beat (Page × State) :=
  if 2 ^ 56 ≤ va then .error (.stop .vaBad 0 s)
  else match s.xlPart clsStore va va with
    | .error e => .error e
    | .ok (p, s) =>
      if !isHost p.pa && !s.reaches (dieOfFibre s.iss.fibre) p.home then .error (.stop .homeAbsent (addr64 va) s)
      else if va % 8 != 0 || isHost p.pa then .error (.stop .copyBad 0 s) else .ok (p, s)

/-- The completion target of a copy at issue: where its stamp or barrier object lies (R135, R140, R286). -/
def State.copyTarget (s : State) (ck : Ck) (d : Opd) (env : Env) : Except Beat (Nat × Page × State) :=
  match ck with
  | .fe => .ok (0, default, s)
  | .bar =>
    match s.barAt (d.word env s.myRf 0 0).toNat 16 with
    | .error c => .error (.stop c (barAddr c (d.word env s.myRf 0 0).toNat) s)
    | .ok phys => .ok (phys, default, s)
  | .stamp =>
    match s.stampAt (d.dword env s.myRf 0).toNat with
    | .error e => .error e
    | .ok (p, s) => .ok ((d.dword env s.myRf 0).toNat, p, s)

end Sys2Proof.Machine

namespace Sys2Proof

open Machine

/-- Whether the source or destination of a path is memory, the scratchpad, or a peer's window. -/
def CopyPath.sides : CopyPath → Nat × Nat
  | .m2s => (0, 1) | .s2m => (1, 0) | .m2m => (0, 0) | .p2s => (2, 1) | .p2m => (2, 0) | .s2p => (1, 2) | .m2p => (0, 2)

/-- The source of a copy. -/
def CopyPath.from (p : CopyPath) : Nat := p.sides.1
/-- The destination of a copy. -/
def CopyPath.to (p : CopyPath) : Nat := p.sides.2

end Sys2Proof

namespace Sys2Proof.Machine

/-- The bytes from the first to the last of a side of a copy. -/
def Copy.span (c : Copy) (pitch : Nat) : Nat := (c.rows - 1) * pitch + c.len

/-- An entry of a die's peer-window table. -/
def Die.window (d : Die) (e : Nat) : PeerWin := tget { rbase := 0, len := 0, rkey := 0, qpn := 0, port := 0, v := false } d.peerWin e

/-- Whether a range lies in a peer window (R28, R37). DESIGN CHOICE: a LEN above 2^40 fits its 41-bit field, and the spec does not say what it does; it is
taken as the length it is written as. -/
def PeerWin.reaches (w : PeerWin) (off n : Nat) : Bool := w.v && w.len != 0 && off + n ≤ w.len.toNat

/-- Whether the connection of a peer window is in its error state (R29). -/
def Die.broken (d : Die) (w : PeerWin) : Bool := d.rcBad.any fun e => e.1 == w.port.toNat && e.2 == w.qpn.toNat

/-- The cause with which ACOPY turns a copy away at issue, before its target is looked at (R135, R289). -/
def Copy.refusal (c : Copy) : Option Cause :=
  let side := fun (k a pitch : Nat) =>
    if k = 0 then (if 2 ^ 56 ≤ a then some Cause.vaBad else none)
    else if k = 1 then (if c.winSize < a + c.span pitch then some .spadOob else none)
    else none
  let bad := c.len = 0 || c.rows = 0 || 65535 < c.rows
    || (c.ck == .fe && (c.path.to != 1 || c.dst % 16 != 0 || c.len % 16 != 0 || c.dstPitch % 16 != 0))
  let peer := (c.path.from == 2 && !c.win.reaches c.src (c.span c.srcPitch)) || (c.path.to == 2 && !c.win.reaches c.dst (c.span c.dstPitch))
  match side c.path.from c.src c.srcPitch, side c.path.to c.dst c.dstPitch with
  | some .vaBad, _ | _, some .vaBad => some .vaBad
  | some x, _ => some x
  | none, some x => some x
  | none, none => if bad then some .copyBad else if peer then some .rmtErr else none

/-- Whether a cause comes before the translation of the stamp's page (R432). -/
def Cause.beforeStamp (x : Cause) : Bool := x == .vaBad || x == .spadOob

/-- The checks and waits of a copy at issue, in the order of R432: its addresses and ranges, the stamp's page, its own causes, earlier accesses
of the fibre, room (R134, R135, R137, R139, R289). -/
def State.copyPre (s : State) (c : Copy) (d : Opd) (env : Env) (refusal : Option Cause) : Pre :=
  if c.ck == .stamp && 2 ^ 56 ≤ (d.dword env s.myRf 0).toNat then .stop .vaBad 0 s
  else if refusal.any Cause.beforeStamp then .stop (refusal.getD .copyBad) 0 s
  else match s.copyTarget c.ck d env with
    | .error (.stop x a s) => .stop x a s
    | .error (.sleep z _ s) => .sleep z s
    | .error (.ok s) => .ok s
    | .ok (_, _, s) =>
      match refusal with
      | some x => .stop x 0 s
      | none =>
      match s.orderWait true (some .die) with
      | .ok s =>
        let cl := s.clu s.myClu
        if 64 ≤ cl.copies.length then .sleep .copyQueue s
        else if c.ck == .fe && cl.freeFail.isNone then .sleep .failTable s
        else .ok s
      | e => e

/-- A copy admitted to the queue (R134, R139). -/
def State.takeCopy (s : State) (c : Copy) (d : Opd) (env : Env) : Beat :=
  match s.copyTarget c.ck d env with
  | .error e => e
  | .ok (t, p, s) =>
    let cl := s.myClu
    let fail := if c.ck == .fe then (s.clu cl).freeFail else none
    let c := { c with id := s.nextId, target := t, stampPa := p.pa, stampCa := p.ca, failIx := fail }
    let s := s.modClu cl fun y =>
      { y with
        copies := y.copies ++ [c]
        fails := match fail with | some i => tput y.fails i { cohort := c.cohort, failed := false, ranges := [] } | none => y.fails }
    .ok { s with nextId := s.nextId + 1 }

/-- A copy as its issuer describes it, with the fields both instructions share. -/
def State.copyOf (s : State) (ck : Ck) (b : Option Opd) (env : Env) : Copy :=
  let x := s.me
  { (default : Copy) with
    fibre := s.iss.fibre, lidx := x.pos.lidx, cohort := x.pos.cohort, asid := s.asidOf x, ck := ck
    seq := (b.elim 0 fun o => o.dword env s.myRf 0).setWidth 56, winBase := s.winBase x, winSize := s.winSize x }

/-- The copy an ACOPY describes (R286). -/
def State.acopyOf (s : State) (ck : Ck) (path : CopyPath) (a : Opd) (b : Option Opd) (entry : BitVec 12) (env : Env) : Copy :=
  let w := fun i => (a.word env s.myRf i 0).toNat
  { s.copyOf ck b env with
    path := path, src := w 0 + 2 ^ 32 * w 1, dst := w 2 + 2 ^ 32 * w 3, len := w 4, rows := w 5, srcPitch := w 6, dstPitch := w 7
    win := (s.die (dieOfFibre s.iss.fibre)).window entry.toNat }

/-- The copy a TCOPY describes (R286). -/
def State.tcopyOf (s : State) (ck : Ck) (a : Opd) (b : Option Opd) (tb tnm1 : BitVec 4) (env : Env) : Copy :=
  let w := fun i => (a.word env s.myRf i 0).toNat
  { s.copyOf ck b env with
    tcopy := true, src := w 0 + 2 ^ 32 * w 1, srcPitch := w 2, k := w 3, len := w 4, rows := 1, scale := w 5 + 2 ^ 32 * w 6, scaleN := w 7
    tb := tb.toNat, tn := tnm1.toNat + 1 }

/-- The cause with which TCOPY turns a copy away at issue (R135, R289): both VAs of its descriptor are looked at, whatever format its pages will have. -/
def Copy.tRefusal (c : Copy) : Option Cause :=
  if 2 ^ 56 ≤ c.src || 2 ^ 56 ≤ c.scale then some .vaBad else if c.ck == .fe || c.len = 0 || 128 < c.len then some .copyBad else none

/-- What a copy instruction reads: its descriptor group, its target and its sequence pair (R286). -/
def copyUses (ck : Ck) (d : Opd) (a : Opd) (b : Option Opd) : Uses :=
  { Uses.nil with rd := (a, 8) :: (match ck with | .fe => [] | .stamp => [(d, 2)] | .bar => [(d, 1)]) ++ (b.elim [] fun o => [(o, 2)]), uni := true }

/-- TCOPY (R284 to R289). -/
def execTcopy (h : Hdr) (ck : Ck) (d a : Opd) (b : Option Opd) (tb tnm1 : BitVec 4) (s : State) : Host.Outcome State Fault Refusal :=
  let c := fun (p : Plan) (s : State) => s.tcopyOf ck a b tb tnm1 p.env
  .next (s.perBeat h (copyUses ck d a b)
    (fun p s => s.copyPre (c p s) d p.env (c p s).tRefusal) (fun p _ s => s.takeCopy (c p s) d p.env) fun _ s => s)

/-- ACOPY (R284 to R289). -/
def execAcopy (h : Hdr) (ck : Ck) (path : CopyPath) (d : Option Opd) (a : Opd) (b : Option Opd) (entry : BitVec 12) (s : State) :
    Host.Outcome State Fault Refusal :=
  let t := d.getD .sz
  let c := fun (p : Plan) (s : State) => s.acopyOf ck path a b entry p.env
  .next (s.perBeat h (copyUses ck t a b)
    (fun p s => s.copyPre (c p s) t p.env (c p s).refusal) (fun p _ s => s.takeCopy (c p s) t p.env) fun _ s => s)

/-! ## Moving bytes (R134, R136, R139, R287, R288) -/

/-- A copy replaced in its queue. -/
def State.putCopy (s : State) (cl : Nat) (c : Copy) : State :=
  s.modClu cl fun y => { y with copies := y.copies.map fun e => if e.id == c.id then c else e }

/-- Bytes a copy writes to memory, in one page: as a store (R94, R134). -/
def State.copyStore (s : State) (cl : Nat) (c : Copy) (va : Nat) (data : List Byte) : Reach Copy :=
  if 2 ^ 56 < va + data.length then .fail 5 s
  else match s.engineXl cl c.asid va true 1 (.copy cl c.id) with
    | .fail e s => .fail e s
    | .hold s => .hold s
    | .ok p s =>
      let die := dieOfCluster cl
      let n := data.length
      let g := p.seg n
      let c := { c with sent := (cellsFrom va data).foldl (fun t (e : Nat × Byte) => tput t e.1 e.2) c.sent }
      if !s.segThere die g then .fail 4 s
      else if g.host then
        let id := (s.die g.home).portNext
        .ok { c with ports := c.ports ++ [(g.home, id)] }
          (s.modDie g.home fun d => { d with port := d.port ++ [{ id := id, fibre := none, pa := g.pa, data := data }], portNext := id + 1 })
      else match s.homeError g.pa n true with
      | some s => .fail 3 s
      | none =>
        let (ids, s) := s.dieWrite die g.pa data g.ca
        .ok { c with unacked := c.unacked ++ (ids.filter fun i => !c.unacked.contains (die, i)).map fun i => (die, i) } s

/-- Granules whose last byte lies in a range of physical locations. -/
def granulesEnding (phys n : Nat) : List Nat := (granulesOf phys n).filter fun g => 16 * g + 16 ≤ phys + n

/-- Bytes a copy writes at an offset of its destination row (R139, R287). -/
def State.copyPut (s : State) (cl : Nat) (c : Copy) (at_ : Nat) (data : List Byte) : Reach Copy :=
  if c.path.to = 0 then s.copyStore cl c at_ data
  else if c.path.to = 1 then
    let phys := c.winBase + at_
    if (s.clu cl).spadError phys data.length true then .fail 9 s
    else
      let s := s.padStore cl none phys data
      .ok c (if c.ck == .fe then (granulesEnding phys data.length).foldl (fun s g => s.setFull cl g true) s else s)
  else
    let die := dieOfCluster cl
    if (s.die die).broken c.win then .fail 8 s
    else .ok c (s.modDie die fun d => d.sendPacket
      { link := .ethernet, tag := 0, fibre := c.fibre, write := true, port := c.win.port, qpn := c.win.qpn, addr := c.win.rbase.toNat + at_
        data := data, copy := some (cl, c.id) })

/-- Bytes a copy reads at an offset of its source (R28, R134); what a peer's memory holds no rule of the package gives. -/
def State.copyGet (s : State) (cl : Nat) (c : Copy) (at_ n : Nat) : Reach (List Byte) :=
  if c.path.from = 0 then s.copyRead cl c at_ n
  else if c.path.from = 1 then
    let phys := c.winBase + at_
    if (s.clu cl).spadError phys n false then .fail 9 s else .ok (s.spadBytes cl phys n) (s.spadCorrect cl phys n)
  else if (s.die (dieOfCluster cl)).broken c.win then .fail 8 s
  else let (b, s) := s.freeBytes n; .ok b s

/-- The bytes of the next piece: to the end of the row, of the destination's 128-byte line, of the chunk. -/
def Copy.piece (c : Copy) (left : Nat) : Nat :=
  let col := c.pos % c.len
  let dst := c.dst + c.pos / c.len * c.dstPitch + col
  min left (min (c.len - col) (128 - dst % 128))

/-- An ACOPY's chunk, piece by piece, up to the first that fails or is held. DESIGN CHOICE: the spec leaves the order in which a copy's bytes and granules
land open (R139); here they land in rising order. -/
def State.moveBytes (s : State) (cl : Nat) (c : Copy) (left : Nat) : Nat → Copy × State
  | 0 => (c, s)
  | fuel + 1 =>
    let n := c.piece left
    if n = 0 || c.len * c.rows ≤ c.pos then (c, s)
    else
      let row := c.pos / c.len
      let col := c.pos % c.len
      match s.copyGet cl c (c.src + row * c.srcPitch + col) n with
      | .fail e s => ({ c with err := some e }, s)
      | .hold s => ({ c with held := true }, s)
      | .ok data s =>
        match s.copyPut cl c (c.dst + row * c.dstPitch + col) data with
        | .fail e s => ({ c with err := some e }, s)
        | .hold s => ({ c with held := true }, s)
        | .ok c s => s.moveBytes cl { c with pos := c.pos + n } (left - n) fuel

/-! ### Tile registers (R136, R185, R288) -/

/-- Bits of an element in the source rows; code 0 counts bytes (R54, R288). -/
def srcBits (fmt : Nat) : Nat := if fmt = 0 then 8 else elementBits fmt

/-- Kmax for every code from 0 to 24 (R185, R288). -/
def tileKmax (fmt : Nat) : Nat := if fmt = 0 then 128 else kMax fmt

/-- Blocks of 32 in a row. -/
def Copy.blocks (c : Copy) : Nat := (c.k + 31) / 32

/-- Bytes of a source row (R55, R56). -/
def Copy.rowBytes (c : Copy) (fmt : Nat) : Nat := if blockFmt fmt then c.blocks * (4 * srcBits fmt) else c.k * srcBits fmt / 8

/-- The address of a source row (R55). -/
def Copy.rowAt (c : Copy) (fmt geo n : Nat) : Nat := c.src + (if geo = 0 then n * (c.blocks * 32) * srcBits fmt / 8 else n * c.srcPitch)

/-- Whether a copy's K, pitch and entries fit its format (R55, R58, R288): none, or the error code. -/
def Copy.layoutError (c : Copy) (fmt geo : Nat) : Option Nat :=
  if 24 < fmt || 1 < geo || c.k = 0 || c.tn * tileKmax fmt < c.k then some 6
  else if geo = 1 && (c.srcPitch % 16 != 0 || c.srcPitch < c.rowBytes fmt) then some 6
  else if blockFmt fmt && c.scaleN < c.len * c.blocks then some 7
  else none

/-- Whether every page of a list of addresses carries one format and a geometry that is not reserved (R55, R136). -/
def State.sameLayout (s : State) (cl : Nat) (c : Copy) (fmt : Nat) : List Nat → Reach Unit
  | [] => .ok () s
  | va :: t =>
    if 2 ^ 56 ≤ va then .fail 5 s
    else match s.engineXl cl c.asid va false 1 (.copy cl c.id) with
      | .fail e s => .fail e s
      | .hold s => .hold s
      | .ok p s => if p.fmt != fmt || 1 < p.geo then .fail 6 s else s.sameLayout cl c fmt t

/-- The source pages of a TCOPY. -/
def Copy.pages (c : Copy) (fmt geo : Nat) : List Nat :=
  ((upTo c.len).foldl (fun l n => (pageParts (c.rowAt fmt geo n) (c.rowBytes fmt)).foldl (fun l e => insertPlace (e.1 / 65536) l) l) []).map (· * 65536)

/-- The check before the first write: one format, and operands that fit it and the geometry of the first page (R136). -/
def State.checkLayout (s : State) (cl : Nat) (c : Copy) : Reach (Nat × Nat) :=
  match s.engineXl cl c.asid c.src false 1 (.copy cl c.id) with
  | .fail e s => .fail e s
  | .hold s => .hold s
  | .ok p s =>
    match c.layoutError p.fmt p.geo with
    | some e => .fail e s
    | none => match s.sameLayout cl c p.fmt (c.pages p.fmt p.geo) with
      | .fail e s => .fail e s
      | .hold s => .hold s
      | .ok _ s => .ok (p.fmt, p.geo) s

/-- A UNORM8 element as UNORM16 (R62, R136). -/
def widen (b : Byte) : List Byte := leBytes 2 (b.toNat * 257)

/-- The bytes of a column of scalar elements: those of the row from an element on, then zero codes (R136, R185). -/
def State.scalarColumn (s : State) (cl : Nat) (c : Copy) (fmt row k0 : Nat) : Reach (List Byte) :=
  let e := srcBits fmt / 8
  let n := min (c.k - k0) (tileKmax fmt)
  match s.copyRead cl c (row + k0 * e) (n * e) with
  | .ok b s => .ok (let b := if fmt = 23 then b.flatMap widen else b; b ++ List.replicate (128 - b.length) 0) s
  | x => x

/-- A block with its codes at or beyond K zero (R57, R136). -/
def maskBlock (e valid : Nat) (b : List Byte) : List Byte := leBytes (4 * e) (leNat b % 2 ^ (e * valid))

/-- The blocks of a column of a block format, then their scales or headers (R56, R185). -/
def State.blockColumn (s : State) (cl : Nat) (c : Copy) (fmt row n j0 : Nat) : Nat → Reach (List Byte × List Byte)
  | 0 => .ok ([], []) s
  | m + 1 =>
    let e := srcBits fmt
    let w := scaleWidth fmt
    let rest := fun (x y : List Byte) (s : State) => match s.blockColumn cl c fmt row n (j0 + 1) m with
      | .ok (a, b) s => Reach.ok (x ++ a, y ++ b) s
      | .fail e s => .fail e s
      | .hold s => .hold s
    if c.blocks ≤ j0 then rest (List.replicate (4 * e) 0) (List.replicate w 0) s
    else match s.copyRead cl c (row + j0 * (4 * e)) (4 * e) with
      | .fail e s => .fail e s
      | .hold s => .hold s
      | .ok b s => match s.copyRead cl c (c.scale + (n * c.blocks + j0) * w) w with
        | .fail e s => .fail e s
        | .hold s => .hold s
        | .ok y s => rest (maskBlock e (min 32 (c.k - 32 * j0)) b) y s

/-- A column of a tile register as TCOPY lays it out (R185, R288). -/
def State.tileColumn (s : State) (cl : Nat) (c : Copy) (fmt geo t n : Nat) : Reach (List Byte) :=
  let km := tileKmax fmt
  let row := c.rowAt fmt geo n
  if blockFmt fmt then
    match s.blockColumn cl c fmt row n (t * km / 32) (km / 32) with
    | .ok (a, b) s => .ok (a ++ b ++ List.replicate (128 - a.length - b.length) 0) s
    | .fail e s => .fail e s
    | .hold s => .hold s
  else if c.k ≤ t * km then .ok (List.replicate 128 0) s
  else s.scalarColumn cl c fmt row (t * km)

/-- A column of a tile register written whole. -/
def State.putColumn (s : State) (cl t n : Nat) (bytes : List Byte) : State :=
  let key := tileKey t n 0
  (s.modClu cl fun c =>
    { c with tiles := tblWrite c.tiles key bytes, tileBad := without c.tileBad (key / 4) 32, tileCe := without c.tileCe (key / 4) 32 }).touch cl none fun k =>
    { k with tiles0 := tblWrite k.tiles0 key bytes }

/-- A TCOPY's chunk, column by column, up to the first that fails or is held. `pos` counts columns of 128 bytes. -/
def State.moveColumns (s : State) (cl : Nat) (c : Copy) (fmt geo : Nat) : Nat → Copy × State
  | 0 => (c, s)
  | fuel + 1 =>
    if c.len * c.tn ≤ c.pos then (c, s)
    else match s.tileColumn cl c fmt geo (c.pos / c.len) (c.pos % c.len) with
      | .fail e s => ({ c with err := some e }, s)
      | .hold s => ({ c with held := true }, s)
      | .ok b s => (s.putColumn cl (c.tb + c.pos / c.len) (c.pos % c.len) b).moveColumns cl { c with pos := c.pos + 1 } fmt geo fuel

/-- One chunk of 4 KiB of a copy (R134). -/
def State.moveChunk (s : State) (cl : Nat) (c : Copy) : Copy × State :=
  if !c.tcopy then s.moveBytes cl c 4096 4096
  else match c.layout with
    | some (f, g) => s.moveColumns cl c f g 32
    | none => match s.checkLayout cl c with
      | .fail e s => ({ c with err := some e }, s)
      | .hold s => ({ c with held := true }, s)
      | .ok (f, g) s => s.moveColumns cl { c with layout := some (f, g) } f g 32

/-! ## The engine's steps -/

/-- What a copy has to move: bytes, or columns. -/
def Copy.total (c : Copy) : Nat := if c.tcopy then c.len * c.tn else c.len * c.rows

/-- The destination bytes a barrier counts (R142, R287, R288). -/
def Copy.count (c : Copy) : Nat := if c.tcopy then 128 * c.len * c.tn else c.len * c.rows

/-- A copy that can move now. -/
def Copy.moves (c : Copy) : Bool := c.started && c.err.isNone && !c.held && c.pos < c.total

/-- The copy whose turn it is: round-robin among those that can move (R134). -/
def Cluster.turn (c : Cluster) : Option Copy :=
  let ms := c.copies.filter Copy.moves
  match ms.find? fun e => c.lastCopy < e.id with
  | some e => some e
  | none => ms.head?

/-- COPY_START: copies start in the order in which they were admitted (R134). -/
def execCopyStart (cl : Nat) (s : State) : Host.Outcome State Fault Refusal :=
  .next <| match (s.clu cl).copies.find? fun c => !c.started with
    | none => s
    | some c => s.putCopy cl { c with started := true }

/-- COPY_CHUNK: the copy whose turn it is moves up to 4 KiB (R134, R287, R288). -/
def execCopyChunk (cl index : Nat) (s : State) : Host.Outcome State Fault Refusal :=
  .next <| match (s.clu cl).copies[index]?, (s.clu cl).turn with
    | some c, some t =>
      if c.id != t.id then s
      else
        let (c, s) := (s.modClu cl fun y => { y with lastCopy := c.id }).moveChunk cl c
        s.putCopy cl c
    | _, _ => s

/-- Whether every payload write of a copy has been performed: records acknowledged, host writes accepted, remote writes acknowledged (R138). One that is lost
has left its error in the copy. -/
def State.copySettled (s : State) (cl : Nat) (c : Copy) : Bool :=
  !(c.unacked.any fun (e : Nat × Nat) => (s.die e.1).wt.any (·.id == e.2)) && !(c.ports.any fun (e : Nat × Nat) => (s.die e.1).port.any (·.id == e.2))
    && !([0, 1].any fun d => (s.die d).tracker.any (·.copy == some (cl, c.id)))

/-- The stamp of R140. -/
def Copy.stamp (c : Copy) (code : Nat) : List Byte := leBytes 8 (c.seq.toNat + 2 ^ 56 * (code % 256))

/-- The stamp is written as one access: its word is sound again, an error it meets has no requester; one whose home is lost enters no digest (R88, R138, R140, R423). -/
def State.writeStamp (s : State) (cl : Nat) (c : Copy) (code : Nat) : State :=
  let die := dieOfCluster cl
  let home := homeOf c.stampPa
  if !s.reaches die home then s.modDie die fun d => { d with r := { d.r with lostcnt := satInc d.r.lostcnt } }.raise irqPeerloss
  else
    let s := s.credit c.cohort c.lidx (digestCells (cellsFrom c.target (c.stamp code)))
    let s := if home = die then s.storeErrors c.stampPa 8 else s
    (s.dieWrite die c.stampPa (c.stamp code) c.stampCa).2

/-- The failed range a full-empty copy leaves: its destination rows (R139). -/
def Copy.ranges (c : Copy) : List (Nat × Nat) := (upTo c.rows).map fun i => ((c.winBase + c.dst + i * c.dstPitch) / 16, c.len / 16)

/-- The completion record of a copy, with an error code or 0 (R138 to R144). A barrier object whose granule has become uncorrectable keeps it. -/
def State.record (s : State) (cl : Nat) (c : Copy) (code : Nat) : State :=
  match c.ck with
  | .fe =>
    match c.failIx with
    | none => s
    | some i =>
      if code = 0 then (s.modClu cl fun y => { y with fails := tdel y.fails i }).wakeSleepers cl .failTable
      else
        let s := s.modClu cl fun y => { y with fails := tput y.fails i { cohort := c.cohort, failed := true, ranges := c.ranges } }
        s.failReaders cl .copyErr fun g => c.ranges.any fun r => r.1 ≤ g && g < r.1 + r.2
  | .stamp => s.writeStamp cl c code
  | .bar =>
    if (s.clu cl).spadError c.target 16 false then s
    else
      let s := s.spadCorrect cl c.target 16
      let s := if code = 0 then s else s.putBar cl c.target ((s.barObj cl c.target).setErr code)
      s.addPend cl c.target (-(c.count : Int))

/-- A copy leaves the queue with its record and its digest (R138, R147, R423). -/
def State.endCopy (s : State) (cl : Nat) (c : Copy) (code : Nat) : State :=
  let s := s.credit c.cohort c.lidx (digestCells c.sent)
  let s := (s.modClu cl fun y => { y with copies := y.copies.filter (·.id != c.id) }).record cl c code
  s.wakeSleepers cl .copyQueue

/-- COPY_COMPLETE (R138). -/
def execCopyComplete (cl index : Nat) (s : State) : Host.Outcome State Fault Refusal :=
  .next <| match (s.clu cl).copies[index]? with
    | none => s
    | some c => if c.started && c.err.isNone && c.total ≤ c.pos && s.copySettled cl c then s.endCopy cl c 0 else s

/-- COPY_FAIL (R144). -/
def execCopyFail (cl index : Nat) (s : State) : Host.Outcome State Fault Refusal :=
  .next <| match (s.clu cl).copies[index]? with
    | none => s
    | some c => match c.err with
      | none => s
      | some e => if s.copySettled cl c then s.endCopy cl c e else s

end Sys2Proof.Machine
end

