-- ==== Sys2Proof/Machine/Graph.lean ====
section
/-! DEFINITION. The graph: submissions, nodes made ready, decrements, retirement, conditions, loops and host feeds (R396 to R402, R406, R407, R413, R424, R425). -/

namespace Sys2Proof.Machine

/-! ## Nodes made ready (R400, R402) -/

/-- What a ready node names, read and checked. -/
inductive Work where
  | launch (d : Desc)
  | bin
  | walker
  | feed (window ack desc : Nat)

/-- The body of a ready node, by its KIND (R397, R400). -/
def wkBody (die asid va : Nat) : Wk (Block × Work) := do
  if va % 64 != 0 then throw 1
  let b ← wkBlock die asid va
  if !b.sound then throw 1
  match b.kind with
  | 0 =>
    let d ← wkDesc die asid b.body false
    pure (b, .launch d)
  | 1 =>
    let r ← wkRead die asid b.body 64
    let d ← wkTask die asid r (fieldAt r 8 8)
    pure (b, .launch d)
  | 2 => pure (b, .bin)
  | 3 | 4 => pure (b, .walker)
  | 5 =>
    let r ← wkRead die asid b.body 24
    if 4095 < fieldAt r 0 2 || 2 ^ 56 ≤ fieldAt r 8 8 || 2 ^ 56 ≤ fieldAt r 16 8 then throw 1
    pure (b, .feed (fieldAt r 0 2) (fieldAt r 8 8) (fieldAt r 16 8))
  | _ => throw 1

/-- A bin closes: its pending records become groups, in deterministic mode in the order of R411 (R409). -/
def State.closeBin (s : State) (die key : Nat) (regions : List (Nat × Nat)) : State :=
  match s.bin? die key, s.node? die key with
  | some b, some n =>
    match (if b.desc.det then (wkReorder die n.asid (s.dieNow die) b).exec s else (.ok b, s)) with
    | (.error e, s) => s.failNode die key e
    | (.ok b, s) =>
      let b := (upTo b.rings.length).foldl (fun (b : Bin) r => b.form r) b
      (s.setBin die key { b with closed := true, regions := regions }).launchGroups die key
  | _, _ => s

/-- A node that the peer's walker has taken up for an EMIT comes to the walker that runs its graph, with its bin and its groups (R409). -/
def State.adoptNode (s : State) (die asid va : Nat) : State :=
  let peer := otherDie die
  match s.nodeAt die asid va, s.nodeAt peer asid va with
  | none, some key =>
    match s.node? peer key, s.bin? peer key with
    | some n, some b =>
      let s : State := { s with launches := s.launches.map fun e => if e.2.die == peer && e.2.node == key then (e.1, { e.2 with die := die }) else e }
      (s.modDie peer fun d => { d with nodes := tdel d.nodes key, bins := tdel d.bins key }).modDie die fun d =>
        { d with nodes := tput d.nodes key n, bins := tput d.bins key b }
    | _, _ => s
  | _, _ => s

/-- A host-feed node with the window it owns (R413). -/
def State.claimFeed (s : State) (die asid va state win ack desc : Nat) : State :=
  let (key, s) := s.addNode die { Node.make asid va 5 state with window := some win }
  let x : Feed := { node := key, last := 0, held := none, reading := none, ack := ack, desc := desc, closing := false, bytes := [], snap := [] }
  s.modDie die fun d => { d with feeds := tput d.feeds win x }

/-- A node is made ready and runs (R400): `STATE` reads 1 for a node that a step of its own runs, and 2 for one that runs at once (R397). -/
def State.startNode (s : State) (die asid va : Nat) : State :=
  let (regions, s) := (s.adoptNode die asid va).takeEdges die asid va
  let fail := fun (s : State) (e : Nat) => match s.nodeAt die asid va with | some k => s.failNode die k e | none => s.nodeError die asid va e
  match (wkBody die asid va).exec s with
  | (.error e, s) => fail s e
  | (.ok (b, w), s) =>
    let st := match w with | .walker => 1 | _ => 2
    match (wkState die asid va st none).exec s with
    | (.error e, s) => fail s e
    | (.ok _, s) =>
      match w with
      | .launch d =>
        let (key, s) := s.addNode die (.make asid va b.kind 2)
        let l := Launch.make die key asid d [va] regions
        if s.peerMissing l then s.failNode die key 4
        else
          let (id, s) := s.startLaunch l
          s.modNode die key fun n => { n with launch := some id }
      | .walker => (s.addNode die (.make asid va b.kind 1)).2
      | .feed win ack desc =>
        match s.nodeAt die asid va with
        | some key => s.modNode die key fun n => { n with state := 2 }
        | none => if (tfind (s.die die).feeds win).isSome then s.nodeError die asid va 1 else s.claimFeed die asid va 2 win ack desc
      | .bin =>
        match s.nodeAt die asid va with
        | some key => (s.modNode die key fun n => { n with state := 2 }).closeBin die key regions
        | none =>
          match (wkBin die asid b).exec s with
          | (.error e, s) => s.nodeError die asid va e
          | (.ok x, s) =>
            let (key, s) := s.addNode die (.make asid va 2 2)
            (s.setBin die key x).closeBin die key regions

/-- A node whose every decrement was a skip (R399): STATE 4; its skips go on when it leaves the table. -/
def State.skipNode (s : State) (die asid va : Nat) : State :=
  let (_, s) := (s.adoptNode die asid va).takeEdges die asid va
  match (wkState die asid va 4 none).exec s with
  | (.error e, s) => s.nodeError die asid va e
  | (.ok _, s) =>
    let s := match s.nodeAt die asid va with | some k => s.dropNode die k | none => s
    (s.addNode die (.make asid va 0 4)).2

/-- One decrement of PRED at home; the values left in PRED and REAL (R399). -/
def wkDecrement (die asid va : Nat) (real : Bool) : Wk (Nat × Bool) := do
  let w ← wkHome die asid va 4
  let p ← wkHome die asid (va + 4) 4
  let r := real || w / 2 ^ 24 % 2 == 1
  let p := (p + 2 ^ 32 - 1) % 2 ^ 32
  wkWrite die asid va (leBytes 4 (if r && w / 2 ^ 24 % 2 == 0 then w + 2 ^ 24 else w) ++ leBytes 4 p)
  pure (p, r)

/-- A successor receives a decrement, and becomes ready or is skipped at the one that leaves 0 (R399). -/
def State.decrement (s : State) (die asid va : Nat) (real : Bool) : State :=
  match (wkDecrement die asid va real).exec s with
  | (.error e, s) => s.nodeError die asid va e
  | (.ok (p, r), s) => if p != 0 then s else if r then s.startNode die asid va else s.skipNode die asid va

/-- Lines that an edge lists are kept for its successor (R227). -/
def State.keepEdge (s : State) (die asid va : Nat) (lines : List (Nat × Nat)) : State :=
  s.modDie die fun d => { d with edges := d.edges ++ lines.map fun e => { asid := asid, va := va, lo := e.1, hi := e.2 } }

/-! ## Submission (R396, R413) -/

/-- Bytes at an address as a walker finds them at submission, before any node of the graph runs; none where they cannot be reached. -/
def State.seen (s : State) (die asid va n : Nat) : Option (List Byte) :=
  if 2 ^ 56 < va + n then none
  else (pageParts va n).foldr (fun e (rest : Option (List Byte)) =>
    match (s.walk die asid e.1).2, rest with
    | .leaf base size x, some t => some (memBytes s.mem ((({ asid := asid, base := base, size := size, entry := x } : TlbEntry).page e.1).pa) e.2 ++ t)
    | _, _ => none) (some [])

/-- The nodes that the edges of a node lead to. -/
def State.edgesSeen (s : State) (die asid va : Nat) : List Nat :=
  match s.seen die asid va 64 with
  | none => []
  | some b =>
    let blk := Block.ofBytes b
    if !blk.sound then [] else (upTo blk.nsucc).filterMap fun i => (s.seen die asid (blk.succ + 32 * i) 8).map leNat

/-- The nodes of a graph, from those still to be looked at on. -/
def State.graphSeen (s : State) (die asid : Nat) : Nat → List Nat → List Nat → List Nat
  | 0, _, found => found
  | _, [], found => found
  | n + 1, va :: t, found => if found.contains va then s.graphSeen die asid n t found else s.graphSeen die asid n (s.edgesSeen die asid va ++ t) (va :: found)

/-- A host-feed node of a graph submitted takes its window, unless a node has it already: that one gets ERR 1 when it is ready (R413). -/
def State.claimWindow (s : State) (die asid va : Nat) : State :=
  match (s.seen die asid va 64).map Block.ofBytes with
  | none => s
  | some blk =>
    if blk.kind != 5 || !blk.sound || va % 64 != 0 || (s.nodeAt die asid va).isSome then s
    else match s.seen die asid blk.body 24 with
      | none => s
      | some r =>
        if 4095 < fieldAt r 0 2 || 2 ^ 56 ≤ fieldAt r 8 8 || 2 ^ 56 ≤ fieldAt r 16 8 || (tfind (s.die die).feeds (fieldAt r 0 2)).isSome then s
        else s.claimFeed die asid va 0 (fieldAt r 0 2) (fieldAt r 8 8) (fieldAt r 16 8)

/-- A submission joins the list; from now on the host-feed nodes of its graph own their windows (R396, R413). -/
def State.submit (s : State) (die : Nat) (x : Submission) : State :=
  let s := s.modDie die fun d => { d with subs := d.subs ++ [x] }
  (s.graphSeen die x.asid (2 ^ 20) [x.node] []).foldl (fun s va => s.claimWindow die x.asid va) s

/-- TWSUB: a submission joins the list, or is dropped and counted (R396). -/
def execTwsub (die : Nat) (node : BitVec 64) (asid : BitVec 16) (s : State) : Host.Outcome State Fault Refusal :=
  .next (if s.shut die then s
    else if 256 ≤ (s.die die).subs.length then s.register die fun d => { d with r := { d.r with twerrcnt := satInc d.r.twerrcnt } }
    else s.submit die { node := node.toNat % 2 ^ 56, asid := asid.toNat, grun := false })

/-- SUBMISSION_START: the oldest submission's entry node is made ready, and a GRUN that slept for room tries again; a graph that a GRUN
submitted sees what its issuer had done (R396, R451). -/
def execSubmissionStart (die : Nat) (s : State) : Host.Outcome State Fault Refusal :=
  .next <| if s.shut die then s else match (s.die die).subs with
    | [] => s
    | x :: t =>
      let s := s.modDie die fun d => { d with subs := t }
      let s := s.fibres.foldl (fun s e => if dieOfFibre e.1 == die && e.2.sleep == .grun then s.modFib e.1 fun x => { x with sleep := .awake } else s) s
      let s := if x.grun then [0, 1].foldl (fun s d => s.modDie d Die.newEpoch) s else s
      s.startNode die x.asid x.node

/-! ## Digests of a launch (R424, R425) -/

/-- The digest of a launch from those of its cohorts, by ascending index (R424). -/
def launchDigest (td : List (Nat × Dword)) : Dword := td.foldl (fun d e => mix (d ^^^ e.2)) 0

/-- The address of a launch's digest table; `f` is its fibre count, 64 for a bin (R425). -/
def Desc.table (d : Desc) (f : Nat) : Nat := d.bsbase + f * d.stride

/-- The fibres that share a launch's backing store (R425). -/
def Launch.fibreCount (l : Launch) : Nat := if l.group.isSome then 64 else l.desc.cohorts * l.desc.slots * l.desc.stages

/-- LD written where the digest mode records (R425). -/
def wkRecord (die asid : Nat) (d : Desc) (f : Nat) (td : List (Nat × Dword)) : Wk Unit :=
  if d.dgm = 1 then wkWrite die asid (d.table f) (leBytes 8 (launchDigest td).toNat) else pure ()

/-! ## Retirement (R227, R400, R401) -/

/-- Whether everything a node runs is over (R400). -/
def State.nodeDone (s : State) (die key : Nat) (n : Node) : Bool :=
  n.left = 0 &&
    (match n.kind with
     | 0 | 1 => true
     | 2 => (s.bin? die key).any fun b => b.closed && b.groups.isEmpty && b.rings.all (·.pending = 0)
     | 5 => (s.die die).feeds.any fun e => e.2.node == key && e.2.closing && e.2.reading.isNone
     | _ => false)

/-- What retirement reads and writes: the edges, LD, STATE 3. The edges are given where the caller has read them. -/
def wkRetire (s : State) (die key : Nat) (n : Node) : Wk Unit := do
  match n.kind with
  | 2 => match s.bin? die key with
    | some b => wkRecord die n.asid b.desc 64 b.td
    | none => pure ()
  | 5 => pure ()
  | _ => match n.launch.bind s.launch? with
    | some l => wkRecord die n.asid l.desc l.fibreCount l.td
    | none => pure ()
  wkState die n.asid n.va 3 none

/-- A node retires over its edges: what each of them lists is kept for its successor, whether its decrement is real or a skip, then each is decremented;
`real` tells which decrements are (R227, R400). -/
def State.retire (s : State) (die key : Nat) (n : Node) (es : List (Nat × List (Nat × Nat))) (real : Nat → Bool) : State :=
  match (wkRetire s die key n).exec s with
  | (.error e, s) => s.failNode die key e
  | (.ok _, s) =>
    let s := match n.launch with | some l => { s with launches := tdel s.launches l } | none => s
    let s := s.dropNode die key
    let s := es.foldl (fun s e => s.keepEdge die n.asid e.1 e.2) s
    es.zipIdx.foldl (fun s e => s.decrement die n.asid e.1.1 (real e.2)) s

/-- Whether a write that must be at home before a node retires is still on its way (R227, R450). -/
def State.retireOwed (s : State) (n : Node) (es : List (Nat × List (Nat × Nat))) : Bool :=
  es.any (fun e => e.2.any fun r => s.lineOwed r.1 r.2) || n.condw.any fun l => s.lineOwed l l

/-- NODE_RETIRE: a node whose work is over retires or ends with the error it met; a skipped one passes its skips on (R227, R399 to R402, R449). -/
def execNodeRetire (die index : Nat) (s : State) : Host.Outcome State Fault Refusal :=
  .next <| match s.node? die index with
    | none => s
    | some n =>
      if n.state = 4 then
        match (do
          let b ← wkBlock die n.asid n.va
          (upTo b.nsucc).mapM fun e => wkHome die n.asid (b.succ + 32 * e) 8 : Wk (List Nat)).exec s with
        | (.error e, s) => s.failNode die index e
        | (.ok l, s) => l.foldl (fun s va => s.decrement die n.asid va false) (s.dropNode die index)
      else if n.state = 5 then if n.left = 0 then s.dropNode die index else s
      else if !s.nodeDone die index n then s
      else if n.err != 0 then s.failNode die index n.err
      else match (wkEdges die n.asid n.va).exec s with
        | (.error e, s) => s.failNode die index e
        | (.ok es, s) => if s.retireOwed n es then s else s.retire die index n es fun _ => true

/-- CONDITION_NODE_EVAL: the word chooses one edge, every other receives a skip (R406). -/
def execConditionNodeEval (die index : Nat) (s : State) : Host.Outcome State Fault Refusal :=
  .next <| match s.node? die index with
    | none => s
    | some n =>
      if n.kind != 3 || (n.state != 1 && n.state != 2) then s
      else match (do
          wkState die n.asid n.va 2 none
          let es ← wkEdges die n.asid n.va
          let b ← wkBlock die n.asid n.va
          let va ← wkRead die n.asid b.body 8
          let w ← if es.isEmpty then pure 0 else wkHome die n.asid (leNat va) 4
          pure (es, w) : Wk (List (Nat × List (Nat × Nat)) × Nat)).exec s with
        | (.error e, s) => s.failNode die index e
        | (.ok (es, w), s) => if s.retireOwed n es then s.modNode die index fun n => { n with state := 2 } else s.retire die index n es fun i => i == min w (es.length - 1)

/-- A node of a loop's body made as it was before its first run (R407). -/
def wkReset (die asid va : Nat) : Wk Unit := do
  let w ← wkHome die asid va 4
  let p ← wkHome die asid (va + 8) 4
  let w := w - w / 256 % 8 * 256 - w / 2 ^ 24 % 2 * 2 ^ 24
  wkWrite die asid va (leBytes 4 w ++ leBytes 4 p)

/-- Whether a loop continues; if so its nodes, ITER and its own PRED are set for the next run (R407). -/
def wkLoop (die : Nat) (n : Node) (b : Block) : Wk Bool := do
  if b.nsucc != 2 then throw 1
  let r ← wkRead die n.asid b.body 32
  let f := fieldAt r
  if 1 < f 4 4 then throw 1
  let more ← if f 4 4 = 1 then do let w ← wkHome die n.asid (f 8 8) 4; pure (w != 0) else pure (decide (f 28 4 < f 0 4))
  if more then
    (upTo (f 24 4)).forM fun i => do
      let va ← wkRead die n.asid (f 16 8 + 8 * i) 8
      wkReset die n.asid (leNat va)
    wkWrite die n.asid (b.body + 28) (leBytes 4 (f 28 4 + 1))
    wkWrite die n.asid (n.va + 4) (leBytes 4 1)
    wkState die n.asid n.va 0 none
  pure more

/-- LOOP_NODE_RUN: the loop enters its body again along edge 0, or retires along edge 1 (R407). -/
def execLoopNodeRun (die index : Nat) (s : State) : Host.Outcome State Fault Refusal :=
  .next <| match s.node? die index with
    | none => s
    | some n =>
      if n.kind != 4 || (n.state != 1 && n.state != 2) then s
      else match (do
          wkState die n.asid n.va 2 none
          let b ← wkBlock die n.asid n.va
          if b.nsucc != 2 then throw 1
          let es ← wkEdges die n.asid n.va
          pure (b, es) : Wk (Block × List (Nat × List (Nat × Nat)))).exec s with
        | (.error e, s) => s.failNode die index e
        | (.ok (b, es), s) =>
          if s.retireOwed n es then s.modNode die index fun n => { n with state := 2 }
          else match (wkLoop die n b).exec s with
            | (.error e, s) => s.failNode die index e
            | (.ok more, s) =>
              let e := nth (0, []) es (if more then 0 else 1)
              if more then ((s.dropNode die index).keepEdge die n.asid e.1 e.2).decrement die n.asid e.1 true
              else s.retire die index n [e] fun _ => true

/-! ## Host feeds (R22, R413) -/

/-- A feed window replaced. -/
def State.setFeed (s : State) (die win : Nat) (x : Feed) : State := s.modDie die fun d => { d with feeds := tput d.feeds win x }

/-- A feed write is dropped and counted (R22, R413). -/
def State.dropFeed (s : State) (die : Nat) : State := s.modDieRegs die fun r => { r with feeddrop := satInc r.feeddrop }

/-- A doorbell that is taken: its batch is read from then on (R413). -/
def Feed.take (x : Feed) (v : Dword) : Feed := { x with last := v.toNat % 2 ^ 32, reading := some v, held := none, snap := x.bytes }

/-- A doorbell: taken where its SEQ is the next, held while a batch is read, else dropped and counted; the node reads its batch once it runs (R413). -/
def State.ringFeed (s : State) (die win : Nat) (v : Dword) : State :=
  match tfind (s.die die).feeds win with
  | none => s.dropFeed die
  | some x =>
    let want := (x.last + 1) % 2 ^ 32
    if x.closing || !(s.node? die x.node).any (fun n => n.state == 0 || n.state == 2) || v.toNat % 2 ^ 32 != want then s.dropFeed die
    else if x.reading.isNone then s.setFeed die win (x.take v)
    else if x.held.isNone then s.setFeed die win { x with held := some v }
    else s.dropFeed die

/-- Bytes written to a window's records; a record that is being read gives, per byte, the old or the new value (R413). -/
def State.feedBytes (s : State) (die win off : Nat) : List Byte → State
  | [] => s
  | b :: t =>
    match tfind (s.die die).feeds win with
    | none => s
    | some x =>
      let n := x.reading.elim 0 fun v => v.toNat / 2 ^ 32 % 64
      let (new, s) := if off < 64 * n then s.freeBit else (false, s)
      let s := s.setFeed die win { x with bytes := tset 0 x.bytes off b, snap := if new then tset 0 x.snap off b else x.snap }
      s.feedBytes die win (off + 1) t

/-- The descriptor that a record of a window runs; a record that names none runs the node's (R413). -/
def wkFeedTask (die asid : Nat) (x : Feed) (rec : List Byte) : Wk Desc := wkTask die asid rec (if fieldAt rec 8 8 = 0 then x.desc else fieldAt rec 8 8)

/-- One record of a batch run as a task (R405, R413, R418). -/
def State.feedTask (s : State) (die asid va : Nat) (x : Feed) (seq i : Nat) : State :=
  match (wkFeedTask die asid x (tblBytes x.snap (64 * i) 64)).exec s with
  | (.error e, s) => s.failNode die x.node e
  | (.ok d, s) =>
    let l := Launch.make die x.node asid d [va, seq * 64 + i] []
    if s.peerMissing l then s.failNode die x.node 4 else (s.startLaunch l).2

/-- A node has read its batch: the records run as tasks in slot order, SEQ is acknowledged at `.sys`, and a doorbell that was held is taken (R413). -/
def State.feedBatch (s : State) (die win : Nat) : State :=
  match tfind (s.die die).feeds win with
  | none => s
  | some x =>
    match x.reading, s.node? die x.node with
    | some v, some n =>
      if n.state != 2 then s
      else
        let s := (upTo (v.toNat / 2 ^ 32 % 64)).foldl (fun s i => s.feedTask die n.asid n.va x x.last i) s
        match (wkWrite die n.asid x.ack (leBytes 8 x.last)).exec s with
        | (.error e, s) => s.failNode die x.node e
        | (.ok _, s) =>
          match tfind (s.die die).feeds win with
          | none => s
          | some y =>
            let y := { y with reading := none, closing := v.getLsbD 63 }
            s.setFeed die win (match y.held with | some h => if y.closing then { y with held := none } else y.take h | none => y)
    | _, _ => s

end Sys2Proof.Machine
end

