-- ==== Sys2Proof/Machine/HomeEvents.lean ====
section
/-! DEFINITION. Device steps of the memory system: walks and faults, accesses performed and answered, write-through records, ports, monitors (R81 to R105, R211 to R230). -/

namespace Sys2Proof.Machine

/-! ## Walks and replayable faults (R81, R84 to R86) -/

/-- The die a waiter waits on goes on: a fibre issues again under a fresh walk, an engine takes its access up again, an overflow level is written (R86,
R155). -/
def State.retryWaiter (s : State) (die asid va : Nat) : XlWaiter → State
  | .fibre f =>
    (s.dropPage (clusterOfFibre f) asid va).modFib f fun x =>
      match x.sleep with
      | .walk d a p | .replay d a p _ => if d == die && a == asid && p == va / 65536 then { x with sleep := .awake } else x
      | _ => x
  | .copy c k => (s.dropPage c asid va).modClu c fun y => { y with copies := y.copies.map fun e => if e.id == k then { e with held := false } else e }
  | .ring c k =>
    let s := s.modDie die fun d => { d with wcache := d.wcache.filter fun w => !(w.asid == asid && w.index == va / 2 ^ w.level) }
    match s.ring? c k with
    | some r => s.setRing c k { r with xlw := false }
    | none => s
  | .spill f => (s.dropPage (clusterOfFibre f) asid va).flushLevels f

/-- A waiter receives the fault: a fibre traps at its beat or before its next issue, or is frozen where it was entering its handler; an engine reports it, but
a ring already in error keeps its error (R84, R116, R144, R155, R435). -/
def State.failXl (s : State) (die asid va : Nat) (c : Cause) : XlWaiter → State
  | .fibre f =>
    match s.fib? f with
    | none => s
    | some x =>
      let here := match x.sleep with
        | .walk d a p | .replay d a p _ => d == die && a == asid && p == va / 65536
        | _ => false
      if !here then s
      else match x.trap, x.onFail with
        | some r, _ => s.freeze f x r.cause.code c.code r.fpc
        | none, some r => s.trap f { r with cause := c }
        | none, none => s.setFib f { x with sleep := .awake, failure := some (c, 0) }
  | .copy cl k => s.modClu cl fun y => { y with copies := y.copies.map fun e => if e.id == k then { e with held := false, err := some 1 } else e }
  | .ring cl k =>
    match s.ring? cl k with
    | some r => s.setRing cl k (if r.state = 3 || r.err != 0 then { r with xlw := false } else { r with xlw := false, err := 1 })
    | none => s
  | .spill f => s.modFib f fun x => { x with failure := some (c, 0) }

/-- WALK_COMPLETE: a walk that one of the 64 walk engines makes ends in a leaf, which fills the TLBs, or as a fault of every requester; the engine is
free for the next (R80, R81, R84, R87). -/
def execWalkComplete (die index : Nat) (s : State) : Host.Outcome State Fault Refusal :=
  .next <| match (s.die die).walks[index]? with
    | none => s
    | some w =>
      if w.stage != 2 then s
      else
      let s := s.modDie die fun d => d.setWalks (dropNth d.walks index)
      let (ws, r) := s.walk die w.asid w.va
      match r with
      | .leaf base size e =>
        let s := s.fillTlb w.cluster w.asid base size e ws
        w.waiters.foldl (fun s x => match x with
          | .fibre f =>
            (s.fillCoreTlb (coreOfFibre f) w.asid base size e).modFib f fun y =>
              match y.sleep with
              | .walk d a p => if d == die && a == w.asid && p == w.page then { y with sleep := .awake } else y
              | _ => y
          | _ => s) s
      | _ =>
        let s := s.walkEffect r
        match r.kind, s.replays die w.asid with
        | some k, true =>
          let s := w.waiters.foldl (fun s x => match x with
            | .fibre f => s.modFib f fun y =>
              match y.sleep with
              | .walk d a p => if d == die && a == w.asid && p == w.page then { y with sleep := .replay d a p k } else y
              | _ => y
            | _ => s) s
          if w.waiters.isEmpty then s else
            s.raiseFault die
              { asid := w.asid, page := w.page, va := w.va, kind := k, cls := w.cls, cluster := w.cluster, core := w.core, source := 0, waiters := w.waiters
                count := w.waiters.length, slot := none }
        | _, _ => w.waiters.foldl (fun s x => s.failXl die w.asid w.va r.cause x) s

/-- FAULT_RECORD_APPEND: a fault enters the ring when it has room (R85, R86). DESIGN CHOICE: one that still waits for a slot when FQSIZE becomes 0 goes on
waiting; the spec does not say what becomes of it. -/
def execFaultRecordAppend (die index : Nat) (s : State) : Host.Outcome State Fault Refusal :=
  .next <|
    let d := s.die die
    match d.faults[index]? with
    | none => s
    | some p =>
      let size := d.r.fqsize.toNat
      let tail := d.r.fqtail.toNat
      let next := if tail + 1 ≥ size then 0 else tail + 1
      if p.slot.isSome || size = 0 || next = d.r.fqhead.toNat || d.faults.any (·.slot == some tail) then s
      else
        let s := s.homeWrite (d.r.fqbase.toNat + 32 * tail) p.bytes true
        s.modDie die fun d =>
          { d with faults := d.faults.set index { p with slot := some tail }, r := { d.r with fqtail := BitVec.ofNat 16 next } }.raise irqFaultq

/-- A write of FQREPLY that names no outstanding record is counted (R85). -/
def Die.badReply (d : Die) : Die := { d with r := { d.r with fqerr := satInc d.r.fqerr } }

/-- FQREPLY with FAIL = 0 (R86). -/
def execFqreplyRetry (die : Nat) (index : BitVec 16) (s : State) : Host.Outcome State Fault Refusal :=
  .next <| if s.shut die then s else match (s.die die).faults.find? (·.slot == some index.toNat) with
    | none => s.modDie die Die.badReply
    | some p =>
      let s := s.modDie die fun d => { d with faults := d.faults.filter (·.slot != some index.toNat) }
      p.waiters.foldl (fun s w => s.retryWaiter die p.asid p.va w) s

/-- FQREPLY with FAIL = 1 (R84, R86). -/
def execFqreplyFail (die : Nat) (index : BitVec 16) (s : State) : Host.Outcome State Fault Refusal :=
  .next <| if s.shut die then s else match (s.die die).faults.find? (·.slot == some index.toNat) with
    | none => s.modDie die Die.badReply
    | some p =>
      let s := s.modDie die fun d => { d with faults := d.faults.filter (·.slot != some index.toNat) }
      p.waiters.foldl (fun s w => s.failXl die p.asid p.va (if p.kind = 0 then .xlFault else .xlPerm) w) s

/-- FQSIZE: 1 to 15 is ignored and counted (R85). -/
def execFqsizeWrite (die : Nat) (x : BitVec 16) (s : State) : Host.Outcome State Fault Refusal :=
  .next <| s.register die fun d => if x != 0 && x.toNat < 16 then d.badReply else { d with r := { d.r with fqsize := x } }

/-! ## Invalidation (R82, R83) -/

/-- A TLBINV write; ignored while the last is not complete (R82). -/
def State.tlbinv (s : State) (die : Nat) (kind : BitVec 2) (both : Bool) (asid : BitVec 16) (va : BitVec 56) : State :=
  s.register die fun d =>
    if d.r.invDone then { d with r := { d.r with invKind := kind, invBoth := both, invDone := false, invAsid := asid, invVa := va } } else d

/-- TLBINV of one page (R82). -/
def execTlbinvPage (die : Nat) (both : Bool) (asid : BitVec 16) (va : BitVec 56) (s : State) : Host.Outcome State Fault Refusal :=
  .next (s.tlbinv die 0 both asid va)

/-- TLBINV of an address space (R82). -/
def execTlbinvAsid (die : Nat) (both : Bool) (target : InvTarget) (s : State) : Host.Outcome State Fault Refusal :=
  .next (s.tlbinv die 1 both target.asid target.va)

/-- TLBINV of everything (R82). -/
def execTlbinvAll (die : Nat) (w : InvWrite) (s : State) : Host.Outcome State Fault Refusal :=
  .next (s.tlbinv die 2 w.both w.target.asid w.target.va)

/-- Whether an invalidation covers a translation of a page (R82). -/
def DieRegs.covers (r : DieRegs) (asid base size : Nat) : Bool :=
  if r.invKind = 2 then true
  else if r.invKind = 1 then asid == r.invAsid.toNat
  else asid == r.invAsid.toNat && base ≤ r.invVa.toNat && r.invVa.toNat < base + size

/-- The dies an invalidation covers (R82, R83): the peer is left out while it is absent. -/
def State.invDies (s : State) (die : Nat) : List Nat :=
  if (s.die die).r.invBoth && s.reaches die (otherDie die) then [die, otherDie die] else [die]

/-- Whether a fibre of a die translates under an entry that an invalidation can match. -/
def State.invMeets (s : State) (r : DieRegs) (die f : Nat) : Bool :=
  dieOfFibre f == die && (r.invKind == 2 || (s.fib? f).elim true fun x => s.asidOf x == r.invAsid.toNat)

/-- Whether an access translated under a matching entry is still to be performed at its home (R83): an access of a fibre or an arm in flight, a record
of the write-through buffer, a host write at a port, the stamp of a copy. Records and an engine's host writes carry no context, so all of them count. -/
def State.invBusy (s : State) (r : DieRegs) (die : Nat) : Bool :=
  s.fibres.any (fun e => s.invMeets r die e.1 && e.2.out.any fun a => a.reply.isNone && !a.failed)
    || (s.die die).wt.any (fun w => !w.atHome)
    || [0, 1].any (fun d => (s.die d).port.any (fun w => w.fibre.elim true (s.invMeets r die)) || (s.die d).arms.any fun a => !a.live && s.invMeets r die a.fibre)
    || (clustersOf die).any fun c => (s.clu c).copies.any fun k => k.ck == .stamp && (r.invKind == 2 || k.asid == r.invAsid.toNat)

/-- What an invalidation removes from a die (R83). -/
def State.invalidate (s : State) (r : DieRegs) (die : Nat) : State :=
  let keep := fun (e : TlbEntry) => !r.covers e.asid e.base e.size
  let s := (clustersOf die).foldl (fun s c =>
    let s := if (s.clu c).tlb.isEmpty then s else s.modClu c fun x => { x with tlb := x.tlb.filter keep }
    (coresOf c).foldl (fun s k => if (s.core k).tlb.isEmpty then s else s.modCore k fun x => { x with tlb := x.tlb.filter keep }) s) s
  s.modDie die fun d => { d with wcache := d.wcache.filter fun w => !r.covers w.asid (w.index * 2 ^ w.level) (2 ^ w.level) }

/-- TLBINV_DONE: no matching entry remains, and DONE reads 1 (R83). -/
def execTlbinvDone (die : Nat) (s : State) : Host.Outcome State Fault Refusal :=
  .next <|
    let r := (s.die die).r
    let dies := s.invDies die
    if r.invDone || dies.any (s.invBusy r) then s
    else (dies.foldl (fun s d => s.invalidate r d) s).modDieRegs die fun r => { r with invDone := true }

/-! ## Accesses performed and answered -/

/-- LOAD_COMPLETE: a load of a fibre is performed and its value delivered (R91, R92, R119, R165, R268). -/
def execLoadComplete (f index : Nat) (s : State) : Host.Outcome State Fault Refusal :=
  .next <| match s.fib? f with
    | none => s
    | some x => match x.out[index]? with
      | none => s
      | some a =>
        match a.kind with
        | .load | .const =>
          if x.mayPerform index a && a.segs.all (fun g => s.segThere (dieOfFibre f) g && !s.posted g) then s.loadNow f a else s
        | _ => s

/-- ACCESS_PERFORMED_AT_HOME: a store, an atomic, a reducing write or a staging step takes its place in coherence order (R94, R95, R102, R212,
R220). -/
def execAccessPerformedAtHome (f index : Nat) (s : State) : Host.Outcome State Fault Refusal :=
  .next <| match s.fib? f with
    | none => s
    | some x => match x.out[index]? with
      | none => s
      | some a =>
        if !x.mayPerform index a then s
        else match a.kind with
          | .store => s.storeNow f a
          | .atomic _ _ | .red _ _ | .rstg _ _ => s.rmwNow f a
          | .load | .const | .rmtr => s

/-- REMOTE_ATOMIC_RESPONSE: the value read at home arrives, and the die's Copy of the line is Invalid (R100). -/
def execRemoteAtomicResponse (f index : Nat) (s : State) : Host.Outcome State Fault Refusal :=
  .next <| match s.fib? f with
    | none => s
    | some x => match x.out[index]? with
      | none => s
      | some a =>
        if a.reply.isSome && a.home then
          let s := a.segs.foldl (fun s g => s.dropCopy (dieOfFibre f) (lineOf g.pa)) s
          (s.modFib f fun x => { x with out := x.out.map fun y => if y.seq == a.seq then { y with home := false } else y }).tryFinish f a.seq
        else s

/-- INFLIGHT_HOME_ABSENT: an access in flight to an absent die or port ends with HOME_ABSENT; a reducing write there is lost like a store (R17, R24). -/
def execInflightHomeAbsent (f index : Nat) (s : State) : Host.Outcome State Fault Refusal :=
  .next <| match s.fib? f with
    | none => s
    | some x => match x.out[index]? with
      | none => s
      | some a =>
        if a.kind == .store then s else s.dropFlight f a

/-! ## Write-through records (R94, R95, R98) -/

/-- The bytes of a record written at home, which meets the line's errors as any store does (R87, R95, R102). A record issued before its frame was quarantined
is still performed (assumption 126). -/
def State.applyRecord (s : State) (r : WtRec) : State :=
  let pa := r.line * 128
  let s := s.storeErrors pa 1
  r.bytes.foldl (fun s e => s.homeWrite (pa + e.1) [e.2] r.cached) s

/-- A record leaves the buffer for home: later stores to its line make a record of their own (R94). -/
def State.sendRecord (s : State) (die index : Nat) : State :=
  s.modDie die fun d => match d.wt[index]? with | some r => { d with wt := d.wt.set index { r with sent := true } } | none => d

/-- WT_RECORD_AT_HOME: a record of an incarnation that home does not know is dropped (R14, R15, R95). -/
def execWtRecordAtHome (die index : Nat) (s : State) : Host.Outcome State Fault Refusal :=
  .next <| match (s.die die).wt[index]? with
    | none => s
    | some r =>
      let home := homeOf (r.line * 128)
      if r.atHome || !s.reaches die home || s.sentBefore die r.line r.id then s
      else if r.inc != (s.die home).r.pinc then
        (s.modDie die fun d => { d with wt := dropNth d.wt index }).modDieRegs home fun r => { r with stalecnt := satInc r.stalecnt }
      else (s.applyRecord r).modDie die fun d => { d with wt := d.wt.set index { r with atHome := true, sent := true } }

/-- WT_ACK: the acknowledgement reaches the sender, and acquires that waited for it may end (R95, R98). -/
def execWtAck (die index : Nat) (s : State) : Host.Outcome State Fault Refusal :=
  .next <| match (s.die die).wt[index]? with
    | none => s
    | some r => if r.atHome then (s.modDie die fun d => { d with wt := dropNth d.wt index }).finishWaits else s

/-! ## Ports (R14, R15, R23, R24, R99, R230) -/

/-- HOST_WRITE_ACCEPT: the oldest posted write is performed (R230). -/
def execHostWriteAccept (die : Nat) (s : State) : Host.Outcome State Fault Refusal :=
  .next <| match (s.die die).port with
    | [] => s
    | w :: t => if (s.die die).r.hlink then ((s.homeWrite w.pa w.data false).modDie die fun d => { d with port := t }).finishWaits else s

/-- A copy some of whose host writes a port has lost ends with HOME_ABSENT (R24, R138, R144). -/
def Copy.losePosted (c : Copy) (die : Nat) (ids : List Nat) : Copy :=
  let lost := fun (e : Nat × Nat) => e.1 == die && ids.contains e.2
  if c.ports.any lost then { c with err := some (c.err.getD 4), ports := c.ports.filter fun e => !lost e } else c

/-- The copies whose payload was among host writes that a port has lost (R138). -/
def State.losePosted (s : State) (die : Nat) (ids : List Nat) : State :=
  { s with clusters := s.clusters.map fun e => (e.1, { e.2 with copies := e.2.copies.map fun c => c.losePosted die ids }) }

/-- HOST_WRITE_ABANDON: the oldest posted write is lost (R16, R99). -/
def execHostWriteAbandon (die : Nat) (s : State) : Host.Outcome State Fault Refusal :=
  .next <| match (s.die die).port with
    | [] => s
    | w :: t => ((s.modDie die fun d => { d with port := t }.loseHostWrite).losePosted die [w.id]).finishWaits

/-- A stale response: dropped and counted (R15). -/
def State.stale (s : State) (die : Nat) : State := s.modDieRegs die fun r => { r with stalecnt := satInc r.stalecnt }

/-- The place of the access of a fibre that a request belongs to. -/
def Fibre.accessAt (x : Fibre) (seq : Nat) : Option Nat := posOf (fun (a : Access) => a.seq == seq) x.out

/-- A read through a peer window has its answer, or has failed: then the beat that waits for its result faults (R29, R298). -/
def State.remoteRead (s : State) (f : Nat) (a : Access) (ok : Bool) (data : List Byte) : State :=
  if ok then s.answer f a data false
  else if a.regs = 0 then (s.untrack f a.seq).modFib f fun x => x.drop a.seq
  else (s.untrack f a.seq).modFib f fun x => { x with out := x.out.map fun y => if y.seq == a.seq then { y with failed := true } else y }

/-- RESPONSE_ARRIVAL: a stale response is dropped; that of a host read or AtomicOp is that access performed, or UE_DATA where it is poisoned (R14, R15,
R23). -/
def execResponseArrival (die : Nat) (link : LinkKind) (inc : BitVec 8) (tag : Nat) (poisoned : Bool) (data : BitVec 128) (s : State) :
    Host.Outcome State Fault Refusal :=
  .next <|
    if link == .bridge then (if inc == (s.die die).r.inc then s else s.stale die)
    else match (s.die die).tracker.find? fun t => t.link == link && t.tag == tag && t.inc == (s.die die).r.inc with
      | none => s.stale die
      | some t =>
        if t.write then s.modDie die fun d => { d with tracker := d.tracker.filter (· != t) }
        else match s.fib? t.fibre with
          | none => s
          | some x =>
            match x.accessAt t.seq with
            | none => s
            | some i => match x.out[i]? with
              | none => s
              | some a =>
                if link != .pcie then s.remoteRead t.fibre a true ((leBytes 16 data.toNat).take a.n)
                else if poisoned then s.failAccess t.fibre a .ueData
                else if !x.mayPerform i a || a.segs.any s.posted then s
                else if a.rmw then s.rmwNow t.fibre a
                else s.loadNow t.fibre a

/-- RMTR_RESPONSE (R29, R298). -/
def execRmtrResponse (f index : Nat) (ok : Bool) (data : BitVec 64) (s : State) : Host.Outcome State Fault Refusal :=
  .next <| match s.fib? f with
    | none => s
    | some x => match x.out[index]? with
      | none => s
      | some a => if a.kind == .rmtr && !a.failed then s.remoteRead f a ok (leBytes a.n data.toNat) else s

/-- RMTW_ACK: a remote write is acknowledged, or has failed; a copy's reaches its record (R29, R144, R298). -/
def execRmtwAck (die index : Nat) (ok : Bool) (s : State) : Host.Outcome State Fault Refusal :=
  .next <| match (s.die die).tracker[index]? with
    | none => s
    | some t =>
      if t.link == .ethernet && t.write then
        let s := s.modDie die fun d => { d with tracker := dropNth d.tracker index }
        if ok then s
        else match t.copy with
          | some (c, id) => s.modClu c fun y => { y with copies := y.copies.map fun e => if e.id == id then { e with err := some (e.err.getD 8) } else e }
          | none => s.modFib t.fibre fun x => { x with rmtBad := true }
      else s

/-! ## Monitors (R101 to R105) -/

/-- MONITOR_ARM_REGISTERED: the slice registers the arm, or an overflow waiter; the issuing die's Copy of the line is Invalid (R101, R104). -/
def execMonitorArmRegistered (die index : Nat) (s : State) : Host.Outcome State Fault Refusal :=
  .next <| match (s.die die).arms[index]? with
    | none => s
    | some a =>
      if a.live || !s.reaches (dieOfFibre a.fibre) die then s
      else
        let full := 4096 ≤ ((s.die die).arms.filter fun b => b.live && !b.overflow && sliceOf b.line == sliceOf a.line).length
        let s := s.modDie die fun d => { d with arms := d.arms.set index { a with live := true, overflow := full } }
        (s.dropCopy (dieOfFibre a.fibre) a.line).modFib a.fibre fun x =>
          let x := { x with mon := x.mon.map fun m => if m.line == a.line then { m with registered := true, overflow := full } else m }
          if x.sleep == .reply then x.pastBeat (x.mid.elim 0 (·.beat)) else x

/-- MWAIT_WAKE: a latched event ends the sleep with reason 0 (R102, R103). -/
def execMwaitWake (f : Nat) (s : State) : Host.Outcome State Fault Refusal :=
  .next <| s.modFib f fun x =>
    match x.sleep with
    | .mwait _ => if x.monEvent then { x with sleep := .awake, mwaitCode := some 0 } else x
    | _ => x

/-- MWAIT_TIMEOUT: the sleep ends with reason 1 once the count is over, or a monitored line's home is absent (R17, R103, R104). -/
def execMwaitTimeout (f : Nat) (s : State) : Host.Outcome State Fault Refusal :=
  .next <| match s.fib? f with
    | none => s
    | some x =>
      match x.sleep with
      | .mwait d => if d ≤ s.nowOf f || s.monGone f x then s.setFib f { x with sleep := .awake, mwaitCode := some 1 } else s
      | _ => s

end Sys2Proof.Machine
end

