-- ==== Sys2Proof/Machine/Place.lean ====
section
/-! DEFINITION. Cohorts placed and completed: windows, slots and fibres, digests recorded and verified, groups, re-execution and mismatch reports (R118, R123, R124, R143, R146, R149 to R154, R161, R162, R403, R409, R414, R424 to R428). -/

namespace Sys2Proof.Machine

/-! ## What a cluster has to give (R124, R154, R414) -/

/-- The cohorts on a cluster. -/
def State.cohortsOn (s : State) (cl : Nat) : List (Nat × Cohort) := s.cohorts.filter fun e => e.2.cluster == cl

/-- The descriptor of a launch. -/
def State.descOf (s : State) (l : Nat) : Desc := (s.launch? l).elim default (·.desc)

/-- The smallest power of two that is not below a window's size, from 16 KiB up (R124). -/
def windowAlign (z : Nat) : Nat := ([2 ^ 14, 2 ^ 15, 2 ^ 16, 2 ^ 17, 2 ^ 18, 2 ^ 19].find? (z ≤ ·)).getD (2 ^ 20)

/-- The bases where a window of a size fits beside those a cluster holds. -/
def State.freeWindows (s : State) (cl z : Nat) : List Nat :=
  ((upTo (2 ^ 20 / windowAlign z)).map (· * windowAlign z)).filter fun b =>
    b + z ≤ 2 ^ 20 && (s.cohortsOn cl).all fun e => b + z ≤ e.2.win || e.2.win + e.2.z ≤ b

/-- The convergence registers of a cluster that no cohort holds. -/
def State.freeK (s : State) (cl : Nat) : List Nat := (upTo 16).filter fun i => !(s.cohortsOn cl).any fun e => e.2.kbase.contains i

/-- The register-file bytes that one slot of a launch reserves: four blocks for each fibre, and its shared window (R154). -/
def Desc.slotBytes (d : Desc) : Nat := d.stages * 128 * d.width + 4 * d.shn * d.width

/-- The target slot that an accepted migration holds in reserve (R439). -/
def State.reservedSlot (s : State) (cl : Nat) : Option (Nat × Nat) :=
  match (s.die (dieOfCluster cl)).req with
  | .migrate c a b => if c = cl then some (b, a) else none
  | _ => none

/-- The bytes of a core's register file that are spoken for. -/
def State.coreBytes (s : State) (core : Nat) : Nat :=
  let bytes := fun (slot : Nat) => (s.cohorts.find? fun e => e.2.slots.contains slot).elim 0 fun e => (s.descOf e.2.launch).slotBytes
  let held := (s.cohortsOn (clusterOfCore core)).foldl (fun n e => n + (e.2.slots.filter fun k => coreOfSlot k == core).length * (s.descOf e.2.launch).slotBytes) 0
  match s.reservedSlot (clusterOfCore core) with
  | some (b, a) => if coreOfSlot b = core then held + bytes a else held
  | none => held

/-- The slots of a core that are free for a launch: none where its register file has no room for one more. -/
def State.freeSlots (s : State) (d : Desc) (core : Nat) : List Nat :=
  if 2 ^ 20 < s.coreBytes core + d.slotBytes then []
  else ((upTo 32).map (core * 32 + ·)).filter fun k =>
    !(s.cohortsOn (clusterOfCore core)).any (fun e => e.2.slots.contains k) && (s.reservedSlot (clusterOfCore core)).all (·.1 != k)

/-- How many slots of a launch a core can still take. -/
def State.coreRoom (s : State) (d : Desc) (core : Nat) : Nat := min (s.freeSlots d core).length ((2 ^ 20 - s.coreBytes core) / d.slotBytes)

/-- Whether a cluster fits an entry (R414): a re-executed cohort needs one core of a cluster with no other cohort (R426). -/
def State.fits (s : State) (d : Desc) (again : Bool) (cl : Nat) : Bool :=
  let on := s.cohortsOn cl
  let c := s.clu cl
  !c.saving && !(s.freeWindows cl d.z).isEmpty && d.kcnt ≤ (s.freeK cl).length && (on.isEmpty || c.fused == d.fuse)
    && !on.any (·.2.mode == .again)
    && (if again then on.isEmpty && (coresOf cl).any fun k => d.slots ≤ s.coreRoom d k
        else d.slots ≤ ((coresOf cl).map (s.coreRoom d)).foldl (· + ·) 0)

/-- An element of a list that no rule chooses. -/
def State.pick {α : Type} (s : State) (d : α) (l : List α) : α × State :=
  let (w, s) := s.freeWord
  (nth d l (w.toNat % l.length), s)

/-- Slots taken from cores, one after another, each wherever there is room; `taken` are those taken so far (R162). -/
def State.pickSlots (s : State) (d : Desc) (cores : List Nat) : Nat → List Nat → List Nat × State
  | 0, taken => (taken, s)
  | n + 1, taken =>
    let room := fun (k : Nat) => (taken.filter fun t => coreOfSlot t == k).length < s.coreRoom d k
    let free := (cores.filter room).flatMap fun k => (s.freeSlots d k).filter fun t => !taken.contains t
    let (k, s) := s.pick 0 free
    s.pickSlots d cores n (taken ++ [k])

/-! ## Placement (R120, R123, R124, R132, R149 to R152, R227, R403) -/

/-- A fibre of a cohort at its creation: its position, the launch's arguments in s0 to s7, checking as the descriptor says (R152, R170, R403). -/
def Cohort.fibre (c : Cohort) (cid : Nat) (l : Launch) (fib : Nat) : Fibre :=
  let d := l.desc
  let lidx := c.index * (d.slots * d.stages) + fib
  let det := d.det || c.mode == .again
  let pos : Position :=
    { launch := c.launch, cohort := cid, fib := fib, lidx := lidx, stage := fib % d.stages, width := d.width, key := l.key ++ [lidx]
      bsbase := d.bsbase + (if l.group.isSome then lidx % 64 else lidx) * d.stride, plim := d.plim, shlo := d.shlo, shn := d.shn, det := det }
  let x := Fibre.fresh pos (BitVec.ofNat 56 d.pc)
  { x with regs := { x.regs with
      sbchk := d.sbchk
      s := (upTo 8).foldl (fun t i => tset 0 t i (nth 0 d.args i)) [] } }

/-- The window of a cohort at placement: every byte zero and sound, every granule empty (R124). -/
def Cluster.clearWindow (c : Cluster) (win z : Nat) : Cluster :=
  let out := fun (g : Nat) => !(win / 16 ≤ g && g < (win + z) / 16)
  { c with
    spad := c.spad.filter fun e => !(win ≤ e.1 && e.1 < win + z)
    full := c.full.filter out, spadBad := c.spadBad.filter out, spadCe := c.spadCe.filter out }

/-- What a launch does to a cluster on which it places its first cohort: an event of the constant cache, and the lines of its edges gone from every
cache that could hold them (R132, R227). -/
def State.enterCluster (s : State) (l : Launch) (cl : Nat) : State :=
  if l.placedOn.contains cl then s
  else
    let s := s.modClu cl fun c => { c with const := [] }
    l.regions.foldl (fun s r =>
      (s.modDie (dieOfCluster cl) fun d => { d with copies := d.copies.filter fun c => !(r.1 ≤ c.line && c.line ≤ r.2) }).edgeInvalidate cl r.1 r.2) s

/-- A cohort is placed on a cluster: its window, its convergence registers, its slots and its fibres (R124, R143, R152, R161, R162). A task that a
fibre spawned, and a bin's group, see what was done before at package scope (R448, R449). -/
def State.place (s : State) (lid : Nat) (l : Launch) (e : PlaceEntry) (cl : Nat) : State :=
  let d := l.desc
  let cid := s.nextId
  let (win, s) := s.pick 0 (s.freeWindows cl d.z)
  let (core, s) := s.pick 0 ((coresOf cl).filter fun k => d.slots ≤ s.coreRoom d k)
  let (slots, s) := s.pickSlots d (if e.again then [core] else coresOf cl) d.slots []
  let gy := max 1 d.gy
  let i := if l.group.isSome then 0 else e.index
  let c : Cohort :=
    { launch := lid, index := e.index, cx := i % d.gx, cy := i / d.gx % gy, cz := i / (d.gx * gy), cluster := cl, win := win, z := d.z
      kbase := (s.freeK cl).take d.kcnt, slots := slots, fds := [], tvec0 := 0, mode := if e.again then .again else .first, pending := none }
  let s := if (s.clu cl).fused == d.fuse then s
    else (coresOf cl).foldl (fun s k => s.modCore k fun x => { x with l1 := [], l1ev := x.l1ev + 1 }) (s.modClu cl fun y => { y with fused := d.fuse })
  let s := s.enterCluster l cl
  let s := s.modClu cl fun y => y.clearWindow win d.z
  let fresh := ((coresOf cl).filter fun k => slots.any fun t => coreOfSlot t == k).filter fun k => !l.cores.contains k
  let s := fresh.foldl (fun s k => s.l1Event k) s
  let s := if l.spawner.isSome || l.group.isSome then s.modDie (dieOfCluster cl) Die.newEpoch else s
  let s := slots.foldl (fun s k => s.setSlot k .reset) s
  let s := (upTo (d.slots * d.stages)).foldl (fun s f => s.setFib (nth 0 slots (f / d.stages) * 4 + f % d.stages) (c.fibre cid l f)) s
  let s := s.modLaunch lid fun x => { x with last := some cl, placedOn := cl :: x.placedOn.filter (· != cl), cores := fresh ++ x.cores }
  let s := s.modDie (dieOfCluster cl) fun x => { x with lastPlaced := some cl }
  { s with nextId := cid + 1, cohorts := tput s.cohorts cid c }

/-- An entry's effective priority at a time (R414). -/
def PlaceEntry.prio (e : PlaceEntry) (d : Desc) (now : Nat) : Nat := min 3 (d.prio + (now - e.readyAt) / 65536)

/-- Whether an entry holds placement until it fits (R414). -/
def PlaceEntry.holds (e : PlaceEntry) (d : Desc) (now : Nat) : Bool := (3 - d.prio + 1) * 65536 ≤ now - e.readyAt

/-- The order of a queue (R414). -/
def State.entryLt (s : State) (now : Nat) (a b : PlaceEntry) : Bool :=
  let la := (s.launch? a.launch).getD default
  let lb := (s.launch? b.launch).getD default
  keyLt [3 - a.prio la.desc now, a.readyAt, la.key.headD 0, a.index] [3 - b.prio lb.desc now, b.readyAt, lb.key.headD 0, b.index]

/-- Inserts an entry in that order. -/
def State.insertEntry (s : State) (now : Nat) (x : PlaceEntry) : List PlaceEntry → List PlaceEntry
  | [] => [x]
  | y :: t => if s.entryLt now x y then x :: y :: t else y :: s.insertEntry now x t

/-- The clusters of a die in the order in which an entry tries them (R414). -/
def State.clusterOrder (s : State) (die : Nat) (l : Launch) : List Nat :=
  let start := match l.last, (s.die die).lastPlaced with
    | some c, _ => c % 48 + 1
    | none, some c => c % 48 + 1
    | none, none => 0
  (upTo 48).map fun i => 48 * die + (start + i) % 48

/-- The first entry that a cluster fits, with that cluster; one that holds placement lets none behind it pass (R414). -/
def State.nextEntry (s : State) (die now : Nat) : List PlaceEntry → Option (PlaceEntry × Launch × Nat)
  | [] => none
  | e :: t =>
    match s.launch? e.launch with
    | none => s.nextEntry die now t
    | some l =>
      match (s.clusterOrder die l).find? (s.fits l.desc e.again) with
      | some c => some (e, l, c)
      | none => if e.holds l.desc now then none else s.nextEntry die now t

/-! ## The end of a launch (R400, R425, R449) -/

/-- Fibres of a die that sleep for room to spawn try again (R449). -/
def State.wakeSpawns (s : State) (die : Nat) : State :=
  s.fibres.foldl (fun s e => if dieOfFibre e.1 == die && e.2.sleep == .spawnLimit then s.modFib e.1 fun x => { x with sleep := .awake } else s) s

/-- A launch leaves its node's count; one that is not its node's own is gone, a spawned one from the count of its die too. -/
def State.endLaunch (s : State) (lid : Nat) : State :=
  match s.launch? lid with
  | none => s
  | some l =>
    let n := s.node? l.die l.node
    let own := n.any fun n => n.launch == some lid && n.state != 5
    let s := if own then s else { s with launches := tdel s.launches lid }
    let s := match l.spawner with
      | some d => (s.modDie d fun x => { x with spawned := x.spawned - 1 }).wakeSpawns d
      | none => s
    let s := s.modNode l.die l.node fun n => { n with left := n.left - 1 }
    match s.node? l.die l.node with
    | some n => if n.state = 5 && n.left = 0 then s.dropNode l.die l.node else s
    | none => s

/-- A launch whose every cohort is complete: a task that is no node's own records its digest now (R425). -/
def State.finishLaunch (s : State) (lid : Nat) : State :=
  match s.launch? lid with
  | none => s
  | some l =>
    let own := (s.node? l.die l.node).any fun n => n.launch == some lid
    if own || l.group.isSome then s.endLaunch lid
    else match (wkRecord l.die l.asid l.desc l.fibreCount l.td).exec s with
      | (.error e, s) => (s.failNode l.die l.node e).endLaunch lid
      | (.ok _, s) => s.endLaunch lid

/-- A spawned task that cannot run: counted in the die that was to place it, and its node will end with the error (R449). -/
def State.refuseSpawn (s : State) (die lid err : Nat) : State :=
  match s.launch? lid with
  | none => s
  | some l =>
    let s := s.modDie die fun d => { d with queue := d.queue.filter fun e => e.launch != lid, r := { d.r with twerrcnt := satInc d.r.twerrcnt } }
    (s.modNode l.die l.node fun n => { n with err := if n.err = 0 then err else n.err }).endLaunch lid

/-- The descriptor of a spawned task is read (R449). -/
def State.readSpawn (s : State) (die : Nat) (e : PlaceEntry) : State :=
  match e.desc, s.launch? e.launch with
  | some va, some l =>
    match (wkDesc die l.asid va false).exec s with
    | (.error x, s) => s.refuseSpawn die e.launch x
    | (.ok d, s) =>
      let d := { d with pc := l.desc.pc, gx := 1, gy := 0, gz := 0, args := l.desc.args, bsbase := if l.desc.bsbase = 0 then d.bsbase else l.desc.bsbase }
      (s.modLaunch e.launch fun l => { l with desc := d }).modDie die fun x =>
        { x with queue := x.queue.map fun y => if y.launch == e.launch then { y with desc := none } else y }
  | _, _ => s

/-- COHORT_PLACE: the first entry of the queue that a cluster fits is placed there (R414); descriptors of spawned tasks are read first (R449). -/
def execCohortPlace (die : Nat) (s : State) : Host.Outcome State Fault Refusal :=
  .next <| if s.shut die then s else
    let s := (s.die die).queue.foldl (fun s e => s.readSpawn die e) s
    let now := s.dieNow die
    match s.nextEntry die now ((s.die die).queue.foldl (fun l e => s.insertEntry now e l) []) with
    | none => s
    | some (e, l, c) => (s.place e.launch l e c).modDie die fun d => { d with queue := d.queue.erase e }

/-! ## The end of a cohort (R118, R143, R146, R424 to R427) -/

/-- The positions of a cohort. -/
def State.members (s : State) (c : Cohort) : List Nat := c.slots.flatMap fun k => (upTo (s.descOf c.launch).stages).map (k * 4 + ·)

/-- Whether a cohort has nothing left to do: its fibres have exited and their accesses are performed, no continuation waits, its copies have
written their records, its answers have landed, its output rings are pulled, its drains and passes are over. -/
def State.cohortDone (s : State) (cid : Nat) (c : Cohort) : Bool :=
  let ms := s.members c
  let y := s.clu c.cluster
  (c.pending.isNone || c.mode == .report)
    && ms.all (fun f => (s.fib? f).elim true fun x => x.div.live == 0 && x.out.all (·.failed))
    && !y.conts.any (fun e => ms.contains e.fibre)
    && !y.copies.any (·.cohort == cid)
    && !y.queries.any (fun q => ms.contains q.fibre) && !y.waiters.any (fun w => w.query.isSome && ms.contains w.fibre)
    && !y.rings.any (fun e => e.2.cohort == cid && e.2.dir && e.2.state != 3 && e.2.head != e.2.tail)
    && !y.drains.any (fun d => ms.contains d.fibre)
    && !c.kbase.any fun k => let n := (s.kreg c.cluster k).state; 2 ≤ n && n ≤ 4

/-- A cohort leaves its cluster: its fibres, slots, window and registers are free, its subscriptions end (R118, R139, R201). -/
def State.freeCohort (s : State) (cid : Nat) : State :=
  match s.cohort? cid with
  | none => s
  | some c =>
    let ms := s.members c
    let s := ms.foldl (fun s f => s.delFib f) s
    let s := c.slots.foldl (fun s k => { s with slots := tdel s.slots k }) s
    let s := s.modClu c.cluster fun y =>
      { y with
        k := c.kbase.foldl (fun t k => tdel t k) y.k
        rings := y.rings.filter fun e => e.2.cohort != cid
        fails := y.fails.filter fun e => e.2.cohort != cid
        arrivals := y.arrivals.filter fun a => !ms.contains a.fibre
        waiters := y.waiters.filter fun w => !ms.contains w.fibre }
    { s with cohorts := tdel s.cohorts cid }.wakeSleepers c.cluster .failTable

/-- The digest of a cohort (R424). -/
def Cohort.digest (c : Cohort) (nfib : Nat) : Dword :=
  (upTo nfib).foldl (fun d f => mix (d ^^^ tget 0 c.fds (c.index * nfib + f))) 0

/-- A bin's group has completed: its slots are free, its digest is kept, later groups and sleeping EMITs go on (R409, R424). -/
def State.groupOver (s : State) (die key g : Nat) (td : Dword) : State :=
  match s.bin? die key with
  | none => s
  | some b => ((s.setBin die key { b with groups := b.groups.filter (·.g != g), td := tput b.td g td }).launchGroups die key).wakeEmits key

/-- A cohort completes with a digest. -/
def State.finishCohort (s : State) (cid : Nat) (c : Cohort) (td : Dword) : State :=
  let s := (s.freeCohort cid).modLaunch c.launch fun l => { l with left := l.left - 1, td := tput l.td c.index td }
  match s.launch? c.launch with
  | none => s
  | some l =>
    let s := if l.left = 0 then s.finishLaunch c.launch else s
    match l.group with
    | some g => s.groupOver l.die l.node g td
    | none => s

/-- The end of a cohort under its launch's digest mode (R425, R426); a mismatch waits for what follows it. -/
def State.closeCohort (s : State) (cid : Nat) (c : Cohort) (l : Launch) : State :=
  let d := l.desc
  let td := c.digest (d.slots * d.stages)
  let va := d.table l.fibreCount + 8 + 8 * c.index
  let done := fun (s : State) (r : Except Nat Unit) => match r with
    | .error e => (s.failNode l.die l.node e).finishCohort cid c td
    | .ok _ => s.finishCohort cid c td
  if c.mode == .report then s.finishCohort cid c ((c.pending.getD (0, 0)).1)
  else if d.dgm = 1 then let (r, s) := (wkWrite l.die l.asid va (leBytes 8 td.toNat)).exec s; done s r
  else if d.dgm = 2 then
    match (wkRead l.die l.asid va 8).exec s with
    | (.error e, s) => done s (.error e)
    | (.ok b, s) =>
      let old := BitVec.ofNat 64 (leNat b)
      if old = td then done s (.ok ()) else s.modCohort cid fun c => { c with pending := some (td, old) }
  else done s (.ok ())

/-- COHORT_COMPLETE (R118, R143, R146, R424, R425). -/
def execCohortComplete (index : Nat) (s : State) : Host.Outcome State Fault Refusal :=
  .next <| match s.cohort? index with
    | none => s
    | some c => match s.launch? c.launch with
      | none => s
      | some l => if l.group.isNone && s.cohortDone index c then s.closeCohort index c l else s

/-- GROUP_COMPLETE: the fibre of a bin's group has exited; in an ordered bin its writes are at home before the next group of its key starts (R228,
R409, R412). -/
def execGroupComplete (die index : Nat) (s : State) : Host.Outcome State Fault Refusal :=
  .next <| match s.cohort? index with
    | none => s
    | some c => match s.launch? c.launch with
      | none => s
      | some l =>
        let ordered := (s.bin? l.die l.node).any (·.ord)
        if l.group.isSome && l.die == die && s.cohortDone index c && !(ordered && (s.die (dieOfCluster c.cluster)).wt.any fun r => !r.atHome) then
          s.closeCohort index c l
        else s

/-- IDEM_REEXEC: the first mismatch of an idempotent cohort is counted, and the cohort waits to be placed again, alone (R426). -/
def execIdemReexec (index : Nat) (s : State) : Host.Outcome State Fault Refusal :=
  .next <| match s.cohort? index with
    | none => s
    | some c => match s.launch? c.launch with
      | none => s
      | some l =>
        if c.pending.isSome && c.mode == .first && l.desc.idem then
          let s := s.modDieRegs l.die fun r => { r with dgrexcnt := satInc r.dgrexcnt }
          (s.freeCohort index).enqueue (dieOfCluster c.cluster) c.launch c.index true none
        else s

/-- DGST_MM_SPAWN: a mismatch is counted and reported by a fibre in the position of `%fib` 0, which enters its handler at once (R427, R458). -/
def execDgstMmSpawn (index : Nat) (s : State) : Host.Outcome State Fault Refusal :=
  .next <| match s.cohort? index with
    | none => s
    | some c => match s.launch? c.launch, c.pending with
      | some l, some (td, old) =>
        if c.mode == .report || (c.mode == .first && l.desc.idem) then s
        else
          let s := s.modDieRegs l.die fun r => { r with dgmmcnt := satInc r.dgmmcnt }
          let f := nth 0 c.slots 0 * 4
          let x := c.fibre index l 0
          let words := natWords 2 td.toNat ++ natWords 2 old.toNat ++ [BitVec.ofNat 32 c.index]
          let x := { x with dgst := true, regs := { x.regs with tvec := c.tvec0, s := (upTo 5).foldl (fun t i => tset 0 t i (nth 0 words i)) [] } }
          let s := (s.modCohort index fun c => { c with mode := .report }).setFib f x
          s.trap f { cause := .dgstMm, addr := 0, beat := 0, fpc := BitVec.ofNat 56 l.desc.pc, op := none, run := allBeats l.desc.width, xbuf := none, carry := none
                     word := 0, entry := none }
      | _, _ => s

end Sys2Proof.Machine
end

