-- ==== Sys2Proof/Machine/Residence.lean ====
section
/-! DEFINITION. Residence of register blocks, lanes and the freeze queue: spills, fills, the 256 cycles of a holder, the privileged acts on frozen fibres (R155, R175, R438). -/

namespace Sys2Proof.Machine

/-! ## Spill and fill (R155, R159) -/

/-- The bytes of a block as they lie in the backing store (R154). -/
def Fibre.blockBytes (x : Fibre) (block : Nat) : List Byte :=
  (upTo (8 * x.pos.width)).flatMap fun j => let (r, b) := x.pos.blockWord block j; leBytes 4 (({ regs := x.regs, slot := .reset } : RF).read r b).toNat

/-- How many words of a block have a residue mismatch (R159, R160). -/
def Fibre.blockBad (x : Fibre) (block : Nat) : Nat :=
  ((upTo (8 * x.pos.width)).filter fun j => let (r, b) := x.pos.blockWord block j; ({ regs := x.regs, slot := .reset } : RF).bad r b).length

/-- The bytes of a block written to the backing store, chunk by chunk. -/
def State.writeChunks (s : State) (f : Nat) (x : Fibre) (va : Nat) (bytes : List Byte) : List Nat → FillOut
  | [] => .ok s
  | o :: t =>
    match s.backWrite f x (va + o) ((bytes.drop o).take 256) with
    | .ok s => s.writeChunks f x va bytes t
    | e => e

/-- A block leaves the register file: spilled where it has been written since its last fill (R155). -/
def State.spillBlock (s : State) (f block : Nat) : FillOut :=
  match s.fib? f with
  | none => .ok s
  | some x =>
    let out := fun (s : State) => s.modFib f fun x =>
      { x with regs := { x.regs with
          spilled := block :: x.regs.spilled, dirty := x.regs.dirty.filter (· != block), filled := x.regs.filled.filter (· != block) } }
    if !x.regs.dirty.contains block then .ok (out s)
    else if x.blockBad block != 0 then .fault .resErr (s.countRes f (x.blockBad block))
    else match s.writeChunks f x (x.pos.backing (8 * block) 0) (x.blockBytes block) x.pos.chunks with
      | .ok s => .ok (out s)
      | e => e

/-- The blocks of a fibre that hold a value of it in the register file. -/
def Fibre.residentBlocks (x : Fibre) : List Nat := x.regs.dirty ++ x.regs.filled.filter fun b => !x.regs.dirty.contains b

/-- What a spill that fails leaves: the block resident, and the fibre to fault before its next issue, or once the fault is answered (R155). -/
def FillOut.spilled (f : Nat) : FillOut → State
  | .ok s' => s'
  | .fault c s' => s'.modFib f fun x => { x with failure := some (c, 0) }
  | .replay die asid va kind s' => s'.spillFault f die asid va kind

/-- Whether a spill of a block waits for the answer of a fault: it stays resident and pinned (R155). -/
def State.spillHeld (s : State) (f : Nat) (x : Fibre) (block : Nat) : Bool :=
  let va := x.pos.backing (8 * block) 0
  (s.die (dieOfFibre f)).faults.any fun p =>
    p.asid == s.asidOf x && p.waiters.contains (.spill f) && va / 65536 ≤ p.page && p.page ≤ (va + 32 * x.pos.width - 1) / 65536

/-- The blocks of a fibre that may be evicted, each with the step of its last use (R155). -/
def State.victims (s : State) (f : Nat) (x : Fibre) : List (Nat × Nat) :=
  let pinned := s.pinnedBlocks f
  (x.residentBlocks.filter fun b => !pinned.contains b && !s.spillHeld f x b).map fun b => (b, tget 0 x.used b)

/-- Whether a block is the least recently used unpinned block of its core, whichever fibre owns it (R155). -/
def State.oldest (s : State) (f block : Nat) : Bool :=
  match s.fib? f with
  | none => false
  | some x =>
    match (s.victims f x).find? fun e => e.1 == block with
    | none => false
    | some e => s.fibres.all fun g => coreOfFibre g.1 != coreOfFibre f || (s.victims g.1 g.2).all fun v => e.2 ≤ v.2

/-- The bytes of a core's register file that are taken: the shared windows of its slots, and the blocks that are resident (R154). -/
def State.fileBytes (s : State) (core : Nat) : Nat :=
  let windows := ((s.cohortsOn (clusterOfCore core)).flatMap fun e => (e.2.slots.filter fun k => coreOfSlot k == core).map fun _ => e.2.launch)
  windows.foldl (fun n l => n + 4 * (s.descOf l).shn * (s.descOf l).width)
    (s.fibres.foldl (fun n e => if coreOfFibre e.1 == core then n + e.2.residentBlocks.length * (32 * e.2.pos.width) else n) 0)

/-- The blocks that a fibre sleeps for (R155). -/
def Fibre.fillNeed (x : Fibre) : Option (List Nat) :=
  match x.sleep with
  | .fill l => some l
  | .awake => if x.rettDue then some x.frameBlocks else none
  | _ => none

/-- Whether a core's register file of 1 MiB has room for the blocks that a fibre sleeps for (R3, R155). -/
def State.fillRoom (s : State) (f : Nat) (x : Fibre) : Bool :=
  let need := (x.fillNeed.getD []).filter x.regs.spilled.contains
  need.isEmpty || s.fileBytes (coreOfFibre f) + need.length * (32 * x.pos.width) ≤ 2 ^ 20

/-- Whether a core has to make room: it holds more than its register file, or a fibre sleeps for blocks that do not fit (R155). -/
def State.fileFull (s : State) (core : Nat) : Bool :=
  2 ^ 20 < s.fileBytes core || s.fibres.any fun e => coreOfFibre e.1 == core && !s.fillRoom e.1 e.2

/-- REG_SPILL_COMPLETE: where a core has to make room, its least recently used unpinned block is evicted (R155). -/
def execRegSpillComplete (f block : Nat) (s : State) : Host.Outcome State Fault Refusal :=
  .next <| match s.fib? f with
    | none => s
    | some x => if x.failure.isSome || !s.oldest f block || !s.fileFull (coreOfFibre f) then s else (s.spillBlock f block).spilled f

/-- REG_FILL_COMPLETE: the blocks are filled and the fibre can issue again, or it faults at the instruction that needs them; a fibre that a
restore owes its RETT returns from its handler (R155, R440). -/
def execRegFillComplete (f : Nat) (s : State) : Host.Outcome State Fault Refusal :=
  .next <| match s.fib? f with
    | none => s
    | some x =>
      let pc := (x.div.threads.find? fun t => t.st != .exited).elim 0 (·.pc)
      match x.fillNeed with
      | none => s
      | some l =>
        if !s.fillRoom f x then s
        else match s.fillBlocks f l with
        | .ok s =>
          let s := s.modFib f fun x => { x with sleep := .awake, onFail := none, rettDue := false }
          if x.rettDue then s.rett f pc else s
        | .fault c s =>
          if x.rettDue then s.freeze f ((s.fib? f).getD x) x.regs.hcause.toNat c.code pc
          else match x.onFail with
            | some r => s.trap f { r with cause := c }
            | none => s
        | .replay die asid va kind s =>
          (s.raiseFault die
            { asid := asid, page := va / 65536, va := va, kind := kind, cls := clsLoad, cluster := clusterOfFibre f, core := coreOfFibre f % 4, source := 0
              waiters := [.fibre f], count := 1, slot := none }).modFib f fun x =>
            { x with sleep := .replay die asid (va / 65536) kind }

/-! ## Lanes (R175) -/

/-- LANE_QUANTUM_EXPIRY: the holder's 256 cycles are over while another fibre is ready (R175). -/
def execLaneQuantumExpiry (lane : Nat) (s : State) : Host.Outcome State Fault Refusal :=
  .next <|
    let l := s.lane lane
    match l.holder with
    | none => s
    | some h =>
      let others := (fibresOfLane lane).any fun f => f != h && (s.fib? f).elim false Fibre.ready
      if others && l.since + 256 ≤ s.nowOf h then s.setLane lane { l with expired := true } else s

/-! ## The freeze queue (R438) -/

/-- The head record of a die's freeze queue leaves it; a record that waits for room enters. -/
def Die.popFreeze (d : Die) : Die :=
  let d := { d with freeze := d.freeze.drop 1 }
  match d.freezeWait with
  | [] => d
  | r :: t => { d with freezeWait := t }.pushFreeze r

/-- A frozen fibre is ended as by an EXIT of every live thread; one that is saved, once it is restored (R392, R438). -/
def State.endFrozen (s : State) (f : Nat) : State :=
  if f < 2 ^ 20 then (s.modFib f fun x => { x with frozen := false }).exitAll f
  else { s with images := s.images.map fun m => if m.id == f / 2 ^ 20 then { m with ended := f % 2 ^ 20 :: m.ended } else m }

/-- A frozen fibre, resident or saved. -/
def State.frozenFibre (s : State) (f : Nat) : Option Fibre :=
  if f < 2 ^ 20 then s.fib? f
  else (s.images.find? fun m => m.id == f / 2 ^ 20).bind fun m => tfind m.fibres (f % 2 ^ 20)

/-- A write of the freeze queue's ACT. -/
def State.freezeAct (s : State) (die : Nat) (stop abort : Bool) : State :=
  if s.shut die then s else match (s.die die).freeze with
  | [] => s
  | r :: _ =>
    let s := s.modDie die Die.popFreeze
    let s := match s.frozenFibre r.fibre with
      | some x => if abort then let l := s.launchOf x; s.failNode l.die l.node 5 else s
      | none => s
    if stop then s.endFrozen r.fibre else s

/-- FREEZE_ACT_EXIT (R438). -/
def execFreezeActExit (die : Nat) (s : State) : Host.Outcome State Fault Refusal := .next (s.freezeAct die true false)

/-- FREEZE_ACT_ABORT (R402, R438). -/
def execFreezeActAbort (die : Nat) (s : State) : Host.Outcome State Fault Refusal := .next (s.freezeAct die true true)

/-- FREEZE_ACT_POP (R438). -/
def execFreezeActPop (die : Nat) (s : State) : Host.Outcome State Fault Refusal := .next (s.freezeAct die false false)

end Sys2Proof.Machine
end

