-- ==== Sys2Proof/Machine/Ring.lean ====
section
/-! DEFINITION. Moraine rings: SUBS, RREL and RFIN, and what their engines do (R106 to R118, R295, R296). -/

namespace Sys2Proof.Machine

/-! ## A ring (R108 to R110) -/

/-- Slots of a ring. -/
def Ring.slots (r : Ring) : Nat := 2 ^ r.logn

/-- Tiles of a ring's region. -/
def Ring.tiles (r : Ring) : Nat := r.tx * r.ty

/-- Bytes from a ring's base to its end. -/
def Ring.extent (r : Ring) : Nat := 64 + r.slots * (16 * r.slotG)

/-- The location of slot `k` mod N. -/
def Ring.slotAt (r : Ring) (k : Nat) : Nat := r.base + 64 + k % r.slots * (16 * r.slotG)

/-- The address of row `i` of tile `k` (R110). -/
def Ring.rowAt (r : Ring) (k i : Nat) : Nat := r.region + (k / r.tx * r.th + i) * r.pitch + k % r.tx * r.tw * 16

/-- Whether a ring is open (R295). -/
def Ring.isOpen (r : Ring) : Bool := r.state = 0 || r.state = 1

/-- Slots counted from one count to another, modulo 2^32 (R109). -/
def gap (hi lo : Nat) : Nat := (hi + 2 ^ 32 - lo) % 2 ^ 32

/-- Whether two rings' extents meet. -/
def Ring.meets (a b : Ring) : Bool := a.base < b.base + b.extent && b.base < a.base + a.extent

/-- The bytes of a header as SUBS writes them (R109). -/
def Ring.header (r : Ring) : List Byte :=
  leBytes 8 0 ++ leBytes 4 (r.logn + 16 * r.dir.toNat + 256 * r.slotG + 2 ^ 24 * r.sub) ++ leBytes 4 0 ++ leBytes 8 r.region ++ leBytes 4 r.pitch
    ++ leBytes 2 r.tw ++ leBytes 2 r.th ++ leBytes 4 r.tx ++ leBytes 4 r.ty ++ leBytes 24 0

/-! ## SUBS (R106, R108, R295) -/

/-- The ring a SUBS describes; its engine and number come at admission. -/
def State.ringOf (s : State) (a b : Opd) (logn : BitVec 4) (dir : Bool) (env : Env) : Ring :=
  let x := s.me
  let w := fun i => (b.word env s.myRf i 0).toNat
  { (default : Ring) with
    cohort := x.pos.cohort, lidx := x.pos.lidx, asid := s.asidOf x, base := s.winBase x + (a.word env s.myRf 0 0).toNat, logn := logn.toNat, dir := dir
    region := w 0 + 2 ^ 32 * w 1, pitch := w 2, tw := w 3 % 65536, th := w 3 / 65536, tx := w 4, ty := w 5, slotG := (w 3 % 65536) * (w 3 / 65536) }

/-- The rows of a ring's region: address and bytes. -/
def Ring.rows (r : Ring) : List (Nat × Nat) := (upTo (r.ty * r.th)).map fun i => (r.region + i * r.pitch, r.tx * r.tw * 16)

/-- Whether a ring keeps the limits of R108 (its place in the window apart). -/
def Ring.ok (r : Ring) : Bool :=
  r.base % 64 == 0 && r.logn ≤ 8 && 1 ≤ r.tw && r.tw ≤ 4096 && 1 ≤ r.th && r.th ≤ 4096 && r.slotG ≤ 4096 && r.pitch % 16 == 0
    && 1 ≤ r.tx && 1 ≤ r.ty && r.tiles < 2 ^ 32 && r.base / 2 ^ 18 == (r.base + r.extent - 1) / 2 ^ 18

/-- The home dies of the pages of a region, translated as loads (R84, R295). -/
def State.regionHomes (s : State) (ea : Nat) : List (Nat × Nat) → Except Beat (List (Nat × Bool) × State)
  | [] => .ok ([], s)
  | (va, n) :: t =>
    match s.xlParts clsLoad ea (pageParts va n) with
    | .error e => .error e
    | .ok (l, s) => match s.regionHomes ea t with
      | .error e => .error e
      | .ok (m, s) => .ok (l.map (fun e => (e.1.home, isHost e.1.pa)) ++ m, s)

/-- The checks of SUBS, in the order of R295: the window and the address, the region's pages, then the limits. The home die of the region
follows. -/
def State.subsCheck (s : State) (r : Ring) : Except Beat (Nat × State) :=
  let x := s.me
  if 2 ^ 56 ≤ r.region || r.rows.any (fun e => 2 ^ 56 < e.1 + e.2) then .error (.stop .vaBad 0 s)
  else if s.winSize x < r.base - s.winBase x + r.extent then .error (.stop .spadOob (addr64 (r.base - s.winBase x)) s)
  else match s.regionHomes r.region r.rows with
    | .error e => .error e
    | .ok (homes, s) =>
      let home := (homes.head?.elim 0 (·.1))
      let rings := (s.clu s.myClu).rings
      if !r.ok || homes.any (fun e => e.2 || e.1 != home) || (rings.any fun e => e.2.isOpen && e.2.meets r) || 16 ≤ (rings.filter (·.2.isOpen)).length then
        .error (.stop .ringBad 0 s)
      else if !s.reaches (dieOfFibre s.iss.fibre) home then .error (.stop .homeAbsent 0 s)
      else .ok (home, s)

/-- The engine of a die that holds the fewest subscriptions (R106). DESIGN CHOICE: among engines that hold equally few it is the lowest-numbered one, where
the spec gives no rule. -/
def State.engineFor (s : State) (die : Nat) : Nat :=
  let load := fun e => (s.clusters.map fun c => (c.2.rings.filter fun r => r.2.isOpen && r.2.die == die && r.2.engine == e).length).foldl (· + ·) 0
  (upTo 32).foldl (fun best e => if load e < load best then e else best) 0

/-- A ring opened: the ones it closes are gone, its header is written, every granule of it is empty (R109, R295). -/
def State.openRing (s : State) (r : Ring) (home : Nat) : Nat × State :=
  let cl := s.myClu
  let used := ((s.clu cl).rings.filter (·.2.isOpen)).map (·.2.sub)
  let sub := ((upTo 16).find? fun i => !used.contains i).getD 0
  let r := { r with sub := sub, die := home, engine := s.engineFor home }
  let s := s.modClu cl fun c => { c with rings := tput (c.rings.filter fun e => !e.2.meets r) s.nextId r }
  let s := ({ s with nextId := s.nextId + 1 } : State).padStore cl (some s.iss.fibre) r.base r.header
  (sub, (granulesOf r.base r.extent).foldl (fun s g => s.setFull cl g false) s)

/-- SUBS (R106, R108, R224, R295). -/
def execSubs (h : Hdr) (d a b : Opd) (logn : BitVec 4) (dir : Bool) (s : State) : Host.Outcome State Fault Refusal :=
  .next (s.perBeat h { Uses.nil with rd := [(a, 1), (b, 6)], wr := [(d, 1)], uni := true }
    (fun p s => match s.subsCheck (s.ringOf a b logn dir p.env) with
      | .error (.stop c x s) => .stop c x s
      | .error (.sleep z _ s) => .sleep z s
      | .error (.ok s) => .ok s
      | .ok (_, s) => s.orderWait true (some .pkg))
    (fun p _ s => match s.subsCheck (s.ringOf a b logn dir p.env) with
      | .error e => e
      | .ok (home, s) =>
        let (sub, s) := s.openRing (s.ringOf a b logn dir p.env) home
        .ok (s.putMy (d.put p.env s.myRf 0 0 (BitVec.ofNat 32 sub))))
    fun _ s => s)

/-! ## RREL and RFIN (R112, R113, R296) -/

/-- The ring of the issuing fibre's cohort whose header lies at an offset of its window (R124, R296). -/
def State.ringAt (s : State) (off : Nat) : Option (Nat × Ring) :=
  if s.winSize s.me ≤ off then none
  else (s.clu s.myClu).rings.find? fun e => e.2.cohort == s.me.pos.cohort && e.2.base == s.winBase s.me + off

/-- TAIL as the header holds it. -/
def State.tailOf (s : State) (cl : Nat) (r : Ring) : Nat := leNat (s.spadBytes cl (r.base + 4) 4)

/-- The checks of RREL and RFIN (R112, R113, R296). DESIGN CHOICE: the HEAD they count with is the engine's own, the TAIL is the header's; the spec does not
say which HEAD counts after a program has overwritten the header's. -/
def State.releaseCheck (s : State) (out : Bool) (off n : Nat) : Except (Cause × Dword) (Nat × Ring) :=
  match s.ringAt off with
  | none => .error (.ringBad, 0)
  | some (key, r) =>
    let t := s.tailOf s.myClu r
    if (s.clu s.myClu).spadError r.base 16 false then .error (.spadUe, addr64 off)
    else if r.dir != out then .error (.ringBad, 0)
    else if r.state = 3 then .error (.ringErr, 0)
    else if !out && gap r.head t < n then .error (.ringBad, 0)
    else if out && (r.slots < gap t r.head + n || r.tiles < t + n) then .error (.ringBad, 0)
    else .ok (key, r)

/-- A release of a ring: TAIL grows in one step and the engine is told; an input ring's slots are emptied first, an output ring notes who finished
its slots (R112, R113, R423). -/
def State.release (s : State) (out : Bool) (off n : Nat) : State :=
  match s.releaseCheck out off n with
  | .error _ => s
  | .ok (key, r) =>
    let cl := s.myClu
    let t := s.tailOf cl r
    let s := if out then s
      else (upTo (min n r.slots)).foldl (fun s i => (granulesOf (r.slotAt (t + i)) (16 * r.slotG)).foldl (fun s g => s.setFull cl g false) s) s
    let tail := (t + n) % 2 ^ 32
    let r := { r with tail := tail, finishers := if out then r.finishers ++ [(tail, s.me.pos.lidx)] else r.finishers }
    (s.putRing cl key r).padStore cl (some s.iss.fibre) (r.base + 4) (leBytes 4 tail)

/-- RREL and RFIN as one operation. -/
def State.releaseRing (s : State) (h : Hdr) (out : Bool) (a : Opd) (n : Src) : State :=
  let off := fun (p : Plan) (s : State) => (a.word p.env s.myRf 0 0).toNat
  let count := fun (p : Plan) (s : State) => (n.word p.env s.myRf false 0 0).toNat
  s.perBeat h { Uses.nil with rd := (a, 1) :: srcGroup n 1, uni := true }
    (fun p s =>
      if count p s = 0 then .ok s
      else match s.releaseCheck out (off p s) (count p s) with
        | .error (c, x) => .stop c x s
        | .ok _ => s.orderWait true (some .clu))
    (fun p _ s => .ok (if count p s = 0 then s else s.release out (off p s) (count p s)))
    fun _ s => s

/-- RREL (R112, R296). -/
def execRrel (h : Hdr) (a : Opd) (n : Src) (s : State) : Host.Outcome State Fault Refusal := .next (s.releaseRing h false a n)

/-- RFIN (R113, R296). -/
def execRfin (h : Hdr) (a : Opd) (n : Src) (s : State) : Host.Outcome State Fault Refusal := .next (s.releaseRing h true a n)

/-! ## The engine's accesses (R107, R116) -/

/-- A Moraine engine's page, through its die's walker (R107). -/
def State.ringPage (s : State) (cl key : Nat) (r : Ring) (va : Nat) (write : Bool) : Reach Page :=
  let fault := fun (k : Nat) (code : Nat) (s : State) =>
    if s.replays r.die r.asid then
      Reach.hold (s.raiseFault r.die
        { asid := r.asid, page := va / 65536, va := va, kind := k, cls := if write then clsStore else clsLoad, cluster := cl, core := 0, source := 2
          waiters := [.ring cl key], count := 1, slot := none })
    else .fail code s
  if 2 ^ 56 ≤ va then .fail 5 s
  else if !s.reaches (dieOfCluster cl) r.die then .fail 4 s
  else
    let s := s.walkCorrect r.die r.asid va
    match s.walk r.die r.asid va with
    | (_, .leaf base size e) =>
      let t : TlbEntry := { asid := r.asid, base := base, size := size, entry := e }
      match (t.page va).check write false with
      | .ok p => .ok p s
      | .denied k => fault k 2 s
      | .miss => .fail 1 s
    | (_, w) => match w.kind with
      | some k => fault k 1 (s.walkEffect w)
      | none => .fail (match w with | .bad => 6 | .noContext => 1 | .ue _ => 3 | .absent => 4 | _ => 1) (s.walkEffect w)

/-- Bytes an engine reads at the home of each line (R107). -/
def State.ringRead (s : State) (cl key : Nat) (r : Ring) : List (Nat × Nat) → Reach (List Byte)
  | [] => .ok [] s
  | (va, n) :: t =>
    match s.ringPage cl key r va false with
    | .fail e s => .fail e s
    | .hold s => .hold s
    | .ok p s =>
      if !s.segThere r.die (p.seg n) then .fail 4 s
      else match s.homeError p.pa n true with
        | some s => .fail 3 s
        | none =>
          let s := s.homeCorrect p.pa n
          let b := memBytes s.mem p.pa n
          match s.ringRead cl key r t with
          | .ok x s => .ok (b ++ x) s
          | e => e

/-- Bytes an engine writes at the home of each line (R107, R113). -/
def State.ringWrite (s : State) (cl key : Nat) (r : Ring) : List (Nat × Nat) → List Byte → Reach Unit
  | [], _ => .ok () s
  | (va, n) :: t, data =>
    match s.ringPage cl key r va true with
    | .fail e s => .fail e s
    | .hold s => .hold s
    | .ok p s =>
      if !s.segThere r.die (p.seg n) then .fail 4 s
      else match s.homeError p.pa n true with
      | some s => .fail 3 s
      | none => ((s.homeCorrect p.pa n).homeWrite p.pa (data.take n) (p.ca != 2)).ringWrite cl key r t (data.drop n)

/-- An engine access that fails (R116). -/
def State.ringStop (s : State) (cl key : Nat) (r : Ring) (code : Nat) : State := s.putRing cl key { r with err := code }

/-- Whether an engine's access to a ring's header meets an uncorrectable granule. -/
def State.headerBad (s : State) (cl : Nat) (r : Ring) : Bool := (s.clu cl).spadError r.base 16 false

/-- A replayable fault holds a ring: XLW is set in its header (R116). -/
def State.ringHold (s : State) (cl key : Nat) (r : Ring) : State :=
  if s.headerBad cl r then s.ringStop cl key r 3 else s.setRing cl key { r with xlw := true }

/-- HEAD counts a slot: the header is written, and the subscription ends with its last tile; an engine that cannot read the header stops before it
(R111, R113, R116). -/
def State.countSlot (s : State) (cl key : Nat) (r : Ring) : State :=
  if s.headerBad cl r then s.ringStop cl key r 3
  else
    let r := { r with head := r.head + 1, pushed := [], parts := 0, cells := [], state := if r.head + 1 = r.tiles then 2 else r.state }
    let s := (s.putRing cl key r).padStore cl none r.base (leBytes 4 r.head)
    if r.state = 2 then s.setRing cl key r else s

/-- Whether a ring's engine has a slot in flight. -/
def Ring.inFlight (r : Ring) : Bool := !r.pushed.isEmpty || r.parts != 0

/-- Whether a ring is to pause: its cluster is being saved, or a slot of its cohort migrated (R117, R441). -/
def State.ringPauses (s : State) (cl : Nat) (r : Ring) : Bool :=
  (s.clu cl).saving || match (s.die (dieOfCluster cl)).req with
    | .migrate c a _ => c == cl && (s.cohort? r.cohort).any fun x => x.slots.contains a
    | _ => false

/-- A ring whose engine may work: running, sound, not held; during a save or a migration only a slot in flight goes on (R117). -/
def State.ringRuns (s : State) (cl : Nat) (r : Ring) : Bool :=
  r.state = 0 && !r.xlw && r.err = 0 && r.head < r.tiles && (!s.ringPauses cl r || r.inFlight)

/-- A ring as its engine goes on with it: at a new slot it reads TAIL from the header (R115). None where the header cannot be read. -/
def State.ringNow (s : State) (cl : Nat) (r : Ring) : Option (Ring × State) :=
  if r.inFlight then some (r, s)
  else if s.headerBad cl r then none
  else some ({ r with tail := s.tailOf cl r }, s.spadCorrect cl r.base 16)

/-! ## The engines' steps -/

/-- MORAINE_GRANULE_PUSH: a granule of the slot in flight lands and becomes full; with its last one the slot is counted (R110, R111, R115). -/
def execMoraineGranulePush (cl key i : Nat) (s : State) : Host.Outcome State Fault Refusal :=
  .next <| match s.ring? cl key with
    | none => s
    | some r =>
      if !s.ringRuns cl r || r.dir then s
      else match s.ringNow cl r with
      | none => s.ringStop cl key r 3
      | some (r, s) =>
        let s := s.putRing cl key r
        if r.slots ≤ gap r.head r.tail || r.slotG ≤ i || r.pushed.contains i then s
        else match s.ringRead cl key r (pageParts (r.rowAt r.head (i / r.tw) + i % r.tw * 16) 16) with
          | .fail e s => s.ringStop cl key r e
          | .hold s => s.ringHold cl key r
          | .ok b s =>
            let at_ := r.slotAt r.head + 16 * i
            let r := { r with pushed := i :: r.pushed }
            let s := ((s.putRing cl key r).padStore cl none at_ b).setFull cl (at_ / 16) true
            if r.pushed.length = r.slotG then s.countSlot cl key r else s

/-- The parts of a slot in the order in which its rows are written: where each lies in the scratchpad, its address, its bytes (R110). -/
def Ring.slotParts (r : Ring) : List (Nat × Nat × Nat) :=
  (upTo r.th).flatMap fun i =>
    let va := r.rowAt r.head i
    (pageParts va (r.tw * 16)).map fun e => (r.slotAt r.head + i * r.tw * 16 + (e.1 - va), e.1, e.2)

/-- The parts of a slot that are still to be written, in order; the ring keeps count of those that are, and what they wrote. -/
def State.pullParts (s : State) (cl key : Nat) (r : Ring) : List (Nat × Nat × Nat) → Ring × Reach Unit
  | [] => (r, .ok () s)
  | (phys, va, n) :: t =>
    let data := s.spadBytes cl phys n
    match s.ringWrite cl key r [(va, n)] data with
    | .ok _ s =>
      s.pullParts cl key { r with parts := r.parts + 1, cells := (cellsFrom va data).foldl (fun (l : List (Nat × Byte)) e => tput l e.1 e.2) r.cells } t
    | e => (r, e)

/-- The position that finished a slot: that of the RFIN that counted it, else the subscriber's (R423). -/
def Ring.finisher (r : Ring) : Nat := ((r.finishers.find? fun e => r.head < e.1).map (·.2)).getD r.lidx

/-- What a slot wrote enters the digest of the position that finished it (R423). -/
def State.creditSlot (s : State) (r : Ring) : State := s.credit r.cohort r.finisher (digestCells r.cells)

/-- MORAINE_SLOT_PULLED: a finished slot's rows are performed at home, its granules become empty and HEAD counts it; a part that a fault holds is
taken up again where it stood (R113, R115, R116, R423). DESIGN CHOICE: what no fault holds of a slot is written in one step, so no other agent sees a slot
partly pulled; the spec gives no such atomicity. -/
def execMoraineSlotPulled (cl key : Nat) (s : State) : Host.Outcome State Fault Refusal :=
  .next <| match s.ring? cl key with
    | none => s
    | some r =>
      if !s.ringRuns cl r || !r.dir then s
      else match s.ringNow cl r with
      | none => s.ringStop cl key r 3
      | some (r, s) =>
        let n := 16 * r.slotG
        let s := s.putRing cl key r
        if r.head = r.tail then s
        else if (s.clu cl).spadError (r.slotAt r.head) n false then s.ringStop cl key r 3
        else
          let (r, out) := (s.spadCorrect cl (r.slotAt r.head) n).pullParts cl key r (r.slotParts.drop r.parts)
          match out with
          | .hold s => s.ringHold cl key r
          | .fail e s => s.ringStop cl key r e
          | .ok _ s => ((granulesOf (r.slotAt r.head) n).foldl (fun s g => s.setFull cl g false) (s.creditSlot r)).countSlot cl key { r with cells := [] }

/-- RING_TAIL_READ: the engine takes TAIL from the header (R115, R116). -/
def execRingTailRead (cl key : Nat) (s : State) : Host.Outcome State Fault Refusal :=
  .next <| match s.ring? cl key with
    | none => s
    | some r =>
      if !r.isOpen || r.err != 0 then s
      else if s.headerBad cl r then s.ringStop cl key r 3
      else (s.spadCorrect cl r.base 16).putRing cl key { r with tail := s.tailOf cl r }

/-- RING_ERROR: the ring stops in error, what its slot in flight wrote enters the digest, and every LDFE that waits on it faults (R116, R423). -/
def execRingError (cl key : Nat) (s : State) : Host.Outcome State Fault Refusal :=
  .next <| match s.ring? cl key with
    | none => s
    | some r =>
      if r.err = 0 || r.state = 3 then s
      else
        let s := s.creditSlot r
        let r := { r with state := 3, pushed := [], parts := 0, cells := [], xlw := false }
        (s.setRing cl key r).failReaders cl .ringErr r.holds

/-- RING_PAUSE: during a save or a migration, a ring with no slot in flight is paused (R117). -/
def execRingPause (cl key : Nat) (s : State) : Host.Outcome State Fault Refusal :=
  .next <| match s.ring? cl key with
    | none => s
    | some r => if s.ringPauses cl r && r.state = 0 && !r.inFlight && r.err = 0 then s.setRing cl key { r with state := 1 } else s

end Sys2Proof.Machine
end

