-- ==== Sys2Proof/Machine/Package.lean ====
section
/-! DEFINITION. Dies as wholes: boot, reset, bridge training, an absent peer, ownership change, attestation (R13 to R19, R30 to R34, R39, R40, R79, R105, R240, R415). -/

namespace Sys2Proof.Machine

/-! ## A die reset (R14, R32, R35, R37, R96, R105, R240) -/

/-- The records a die has sent when it resets: each may still reach home or be lost on the way (R16). -/
def State.spendRecords (s : State) (d : Nat) : State :=
  (s.die d).wt.foldl (fun s r =>
    if r.atHome || !s.reaches d (homeOf (r.line * 128)) then s
    else let (b, s) := s.freeBit; if b then s.applyRecord r else s) s

/-- What DRAM holds of a die's lines stands once its L2 is gone (R278). -/
def State.loseL2 (s : State) (d : Nat) : State := { s with mem := (s.die d).dirty.foldl (fun m e => memWrite m (e.1 * 128) e.2) s.mem }

/-- A die as its reset leaves it: a new incarnation, every register at its reset value; the quarantine table, the one-time keys used, the
temperature and an ownership change in progress outlast it (R14, R34, R36, R38, R40). -/
def Die.afterReset (d : Die) (tick : Nat) : Die :=
  { Die.reset with
    since := tick, sent := d.sent, quar := d.quar, nextKey := d.nextKey, wtNext := d.wtNext, portNext := d.portNext
    r := { DieRegs.reset with inc := d.r.inc + 1, temp := d.r.temp, ownbusy := d.r.ownbusy } }

/-- The work of a die: clusters, cores, lanes, slots, fibres and cohorts are gone with it; so are the launches that only it knew. -/
def State.clearDie (s : State) (d : Nat) : State :=
  let cohorts := s.cohorts.filter fun e => dieOfCluster e.2.cluster != d
  let kept := fun (l : Nat) (x : Launch) => x.die != d || cohorts.any (·.2.launch == l) || (s.die (otherDie d)).queue.any (·.launch == l)
  { s with
    clusters := s.clusters.filter fun e => dieOfCluster e.1 != d
    cores := s.cores.filter fun e => dieOfCluster (clusterOfCore e.1) != d
    lanes := s.lanes.filter fun e => dieOfCluster (clusterOfCore (e.1 / 16)) != d
    slots := s.slots.filter fun e => dieOfCluster (clusterOfCore (coreOfSlot e.1)) != d
    fibres := s.fibres.filter fun e => dieOfFibre e.1 != d
    cohorts := cohorts
    launches := (s.launches.filter fun e => kept e.1 e.2).map fun e => (e.1, if e.2.spawner = some d then { e.2 with spawner := none } else e.2) }

/-- A die resets. -/
def State.resetDie (s : State) (d : Nat) : State :=
  let s := (((s.spendRecords d).loseL2 d).clearDie d).losePosted d ((s.die d).port.map (·.id))
  s.modDie d fun x => x.afterReset s.tick

/-- DIE_RESET (R14). -/
def execDieReset (die : Nat) (s : State) : Host.Outcome State Fault Refusal := .next (s.resetDie die)

/-! ## An absent peer (R17, R99, R105, R415) -/

/-- What a fibre of a die takes note of when the peer becomes absent: lost records in what it waits for (number 0 stands for them), and the lines of its
monitor set whose home has gone (R17, R99, R103). -/
def Fibre.loseRecords (x : Fibre) (die : Nat) (ids : List Nat) : Fibre :=
  let gone := fun (i : Nat) => ids.contains i
  { x with
    out := x.out.map fun a => { a with waits := a.waits.map fun e => if e.1 == die && gone e.2 then (die, 0) else e }
    wait := x.wait.map fun n => { n with lost := n.lost || n.wt.any gone }
    mon := x.mon.map fun m => if homeOf (m.line * 128) = die then m else { m with gone := true } }

/-- A fibre that waits for home to register an arm on a line of the absent die takes HOME_ABSENT at its beat (R17). -/
def State.failArm (s : State) (f : Nat) (x : Fibre) : State :=
  if x.sleep == .reply && x.mon.any (fun m => !m.registered && !s.reaches (dieOfFibre f) (homeOf (m.line * 128))) then
    match x.onFail with
    | some r => s.trap f { r with cause := .homeAbsent }
    | none => s
  else s

/-- A launch of a die that has lost cohorts with the peer: its node ends with ERR 4, and the launch counts what is left of it (R415). -/
def State.loseWork (s : State) (die lid : Nat) (l : Launch) : State :=
  let mine := (s.cohorts.filter fun e => e.2.launch == lid && dieOfCluster e.2.cluster == die).length
    + ((s.die die).queue.filter (·.launch == lid)).length
    + (s.images.foldl (fun n m => n + if dieOfCluster m.home = die then (m.cohorts.filter (·.2.launch == lid)).length else 0) 0)
  if l.die != die || l.left ≤ mine then s
  else
    let s := (s.failNode die l.node 4).modLaunch lid fun x => { x with left := mine }
    if mine = 0 then s.endLaunch lid else s

/-- A die learns that its peer is absent (R17, R105, R116, R415). -/
def State.losePeer (s : State) (die : Nat) : State :=
  let peer := otherDie die
  let lost := (s.die die).wt
  let ids := lost.map (·.id)
  let s := s.modDie die fun d =>
    { d with
      wt := [], copies := [], arms := d.arms.filter fun a => dieOfFibre a.fibre == die
      r := { d.r with peer := false, lostcnt := lost.foldl (fun n _ => satInc n) d.r.lostcnt } }.raise irqPeerloss
  let s := s.modDie peer fun d => { d with queue := d.queue.filter fun e => (s.launch? e.launch).elim true (·.die != die) }
  let s : State := { s with fibres := s.fibres.map fun e => (e.1, if dieOfFibre e.1 = die then e.2.loseRecords die ids else e.2) }
  let s : State := { s with clusters := s.clusters.map fun e => (e.1, if dieOfCluster e.1 != die then e.2 else
    { e.2 with
      copies := e.2.copies.map fun c =>
        if c.unacked.any fun u => u.1 == die && ids.contains u.2 then
          { c with err := some (c.err.getD 4), unacked := c.unacked.filter fun u => !(u.1 == die && ids.contains u.2) }
        else c
      rings := e.2.rings.map fun r => (r.1, if r.2.die = peer && r.2.isOpen && r.2.err = 0 then { r.2 with err := 4 } else r.2) }) }
  let s := s.fibres.foldl (fun s e => if dieOfFibre e.1 == die then s.failArm e.1 e.2 else s) s
  let s := s.modDie peer fun d => { d with arms := d.arms.filter fun a => a.live || dieOfFibre a.fibre != die }
  (s.launches.foldl (fun s e => s.loseWork die e.1 e.2) s).finishWaits

/-- PEER_ABSENT: the peer has reset or halted since the bridge trained (R17). -/
def execPeerAbsent (die : Nat) (s : State) : Host.Outcome State Fault Refusal :=
  let p := (s.die (otherDie die)).r
  .next (if (s.die die).r.peer && (p.halt || p.inc != (s.die die).r.pinc || !p.peer) then s.losePeer die else s)

/-! ## Bridge training (R17, R39, R240) -/

/-- The control stores of a die take the content of the other's. -/
def State.copyStores (s : State) (src : Nat) : State :=
  let t := (s.core (192 * src)).cstore
  ((upTo 192).map (· + 192 * otherDie src)).foldl (fun s c => if (s.core c).cstore == t then s else s.modCore c fun x => { x with cstore := t }) s

/-- The bridge trains: each die has first learnt that its peer was absent, and no access of before is in flight (R17); incarnations are exchanged, control
stores copied, PEER set. -/
def State.train (s : State) : State :=
  let s := [0, 1].foldl (fun s d => if (s.die d).r.peer then s.losePeer d else s) s
  let s := (s.dropFlights 0).dropFlights 1
  let s := s.copyStores (if (s.die 0).resetSince && !(s.die 1).resetSince then 1 else 0)
  [0, 1].foldl (fun s d =>
    let inc := (s.die (otherDie d)).r.inc
    s.modDie d fun x => { x with resetSince := false, r := { x.r with peer := true, pinc := inc } }) s

/-- Whether the bridge stands between the two dies as they are. -/
def State.trained (s : State) : Bool := [0, 1].all fun d => (s.die d).r.peer && (s.die d).r.pinc == (s.die (otherDie d)).r.inc

/-- BRIDGE_TRAINED: two dies that have booted past step 2 and are apart come together (R17, R18). -/
def execBridgeTrained (s : State) : Host.Outcome State Fault Refusal :=
  .next (if s.trained || [0, 1].any (fun d => s.shut d || (s.die d).boot.isSome || (s.die d).r.step.toNat < 2) then s else s.train)

/-! ## Boot (R18, R19, R39) -/

/-- The die controller halts its die at a step (R33, R39). -/
def State.halt (s : State) (d step cause : Nat) : State :=
  s.modDieRegs d fun r => { r with step := BitVec.ofNat 3 step, halt := true, hcause := BitVec.ofNat 3 cause }

/-- The feature register that boot step 4 composes (R19, R462). -/
def features (dual : Bool) : BitVec 512 := BitVec.ofNat 512 (1 + 2 ^ 16 * dual.toNat + 2 ^ 17)

/-- Boot steps 4 to 6 of a die (R19, R39). -/
def State.finishBoot (s : State) (d : Nat) (o : BootOutcome) : State :=
  let s := s.modDie d fun x => { x with boot := none, r := { x.r with step := 4, feathw := features x.r.peer } }
  if !o.portsOk then s.halt d 4 3 else s.modDieRegs d fun r => { r with step := 6, ready := true, hlink := o.linkUp }

/-- A die that waits at step 3 for its peer goes on alone (R18). -/
def State.bootAlone (s : State) (d : Nat) : State := match (s.die d).boot with | some o => s.finishBoot d o | none => s

/-- Boot steps 1 to 6 of a die with their outcomes. Step 3 trains the bridge once both dies stand there, or the other has booted; a die whose training fails,
or whose peer has halted or is fused off, goes on alone, and one whose peer has still to boot waits for it (R18, R33, R39). -/
def State.boot (s : State) (d : Nat) (o : BootOutcome) : State :=
  let e := otherDie d
  if !o.firmwareOk then (s.halt d 0 1).bootAlone e
  else if !o.dramOk then (s.halt d 1 2).bootAlone e
  else
    let s := s.modDieRegs d fun r => { r with step := 2 }
    if !o.bridgeOk || s.off e then (s.bootAlone e).finishBoot d o
    else if (s.die e).boot.isSome || 2 < (s.die e).r.step.toNat then (s.train.bootAlone e).finishBoot d o
    else s.modDie d fun x => { x with boot := some o }

/-- POWER_ON_BOOT: a die that has not booted since it was powered or reset does so; one that waits at step 3 waits no longer (R18, R39). -/
def execPowerOnBoot (die : Nat) (o : BootOutcome) (s : State) : Host.Outcome State Fault Refusal :=
  .next (if s.shut die then s else if (s.die die).boot.isSome then s.bootAlone die else if (s.die die).r.step != 0 then s else s.boot die o)

/-! ## Ownership (R34, R79) -/

/-- The dies of the package. -/
def State.diesHere (s : State) : List Nat := if s.half then [0] else [0, 1]

/-- OWNCHG_GO: both dies reset and OWNBUSY stands; ignored while it does (R34). -/
def execOwnchgGo (s : State) : Host.Outcome State Fault Refusal :=
  .next (if s.shut 0 then s
    else s.diesHere.foldl (fun s d => (s.resetDie d).modDieRegs d fun r => { r with ownbusy := true }) s)

/-- OWNCHG_COMPLETE: device memory, L2, scratchpads, register files and tile registers are zero, and OWNBUSY clears (R34, R79). -/
def execOwnchgComplete (s : State) : Host.Outcome State Fault Refusal :=
  .next (if !(s.die 0).r.ownbusy then s
    else
      let s : State := { s with mem := s.mem.filter fun e => isHost e.1, memBad := s.memBad.filter isHost, memCe := [], images := [] }
      s.diesHere.foldl (fun s d => (s.clearDie d).modDie d fun x => { x with dirty := [], copies := [], r := { x.r with ownbusy := false } }) s)

/-! ## Attestation (R40) -/

/-- ATTEST_REQUEST: the one-time-key state advances before the signature is released; with none left the request is refused (R40). -/
def execAttestRequest (die : Nat) (s : State) : Host.Outcome State Fault Refusal :=
  .next (s.register die fun d => if d.nextKey < Config.attestKeys then { d with nextKey := d.nextKey + 1 } else d)

end Sys2Proof.Machine
end

