-- ==== Sys2Proof/Machine/Remote.lean ====
section
/-! DEFINITION. Work queries and remote register access: WQRY, RMTW, RMTR (R28, R29, R297, R298, R416, R474). -/

namespace Sys2Proof.Machine

/-! ## Work queries (R297, R416) -/

/-- The queries of a fibre that are not yet answered. -/
def State.queriesOf (s : State) (f : Nat) : Nat :=
  let c := s.clu (clusterOfFibre f)
  (c.queries.filter (·.fibre == f)).length + (c.waiters.filter fun w => w.fibre == f && w.query.isSome).length

/-- How often a fibre has asked a distributor (R297). -/
def Fibre.asked (x : Fibre) (d : Nat) : Nat := tget 0 x.queries d

/-- WQRY (R297). -/
def execWqry (h : Hdr) (a b : Opd) (s : State) : Host.Outcome State Fault Refusal :=
  let off := fun (p : Plan) (s : State) => (a.word p.env s.myRf 0 0).toNat
  let dist := fun (p : Plan) (s : State) => (b.word p.env s.myRf 0 0).toNat
  .next (s.perBeat h { Uses.nil with rd := [(a, 1), (b, 1)], uni := true }
    (fun p s =>
      let o := off p s
      if o % 16 != 0 then .stop .feSpan (addr64 o) s
      else if s.winSize s.me < o + 16 then .stop .spadOob (addr64 o) s
      else if (s.launchOf s.me).desc.ndist ≤ dist p s then .stop .wqBad 0 s
      else if 4 ≤ s.queriesOf s.iss.fibre then .sleep .wqry s
      else .ok s)
    (fun p _ s =>
      let x := s.me
      let d := dist p s
      let q : Query := { fibre := s.iss.fibre, granule := (s.winBase x + off p s) / 16, launch := x.pos.launch, dist := d, q := x.asked d, lidx := x.pos.lidx, det := x.pos.det }
      .ok ((s.modClu s.myClu fun c => { c with queries := c.queries ++ [q] }).modFib s.iss.fibre fun x => { x with queries := tput x.queries d (x.asked d + 1) }))
    fun _ s => s)

/-- The item count of a distributor (R416). -/
def Desc.items (d : Desc) (i : Nat) : Nat := let e := nth (0, 0, 0) d.dists i; e.1 * e.2.1 * e.2.2

/-- The fibres of a launch (R416). -/
def Desc.fibres (d : Desc) : Nat := d.gx * max 1 d.gy * max 1 d.gz * d.slots * d.stages

/-- The bytes of an answer: an item with its coordinates, or end of work (R297, R416). -/
def Desc.answer (d : Desc) (dist i : Nat) : List Byte :=
  let e := nth (0, 0, 0) d.dists dist
  if d.items dist ≤ i then leBytes 16 (2 ^ 128 - 1)
  else leBytes 4 i ++ leBytes 4 (i % e.1) ++ leBytes 4 (i / e.1 % e.2.1) ++ leBytes 4 (i / (e.1 * e.2.1))

/-- WQRY_ANSWER: the distributor hands out an item; it is written once its granule is empty (R129, R297, R416). -/
def execWqryAnswer (cl index : Nat) (s : State) : Host.Outcome State Fault Refusal :=
  .next <| match (s.clu cl).queries[index]? with
    | none => s
    | some q =>
      match s.launch? q.launch with
      | none => s
      | some l =>
        if !s.reaches (dieOfCluster cl) l.die then s
        else
          let n := tget 0 (l.dist.mapIdx fun i x => (i, x)) q.dist
          let item := if q.det then q.q * l.desc.fibres + q.lidx else n
          let data := l.desc.answer q.dist item
          let s := s.modClu cl fun c => { c with queries := dropNth c.queries index }
          let s := if q.det then s else s.modLaunch q.launch fun l => { l with dist := l.dist.set q.dist (n + 1) }
          let w : FeWait :=
            { fibre := q.fibre, beat := 0, granule := q.granule, wantFull := false, clr := false, off := 16 * q.granule, n := 16, data := data, dst := .none
              ty := .b32, uni := true, query := some data }
          let s := s.modClu cl fun c => { c with waiters := c.waiters ++ [w] }
          if s.isFull cl q.granule then s else s.serveGranule cl q.granule ((s.clu cl).waiters.length + 1)

/-! ## Remote register access (R298) -/

/-- What RMTW and RMTR check at a beat: alignment, then the entry and its length (R28, R298, R432). -/
def State.remoteAt (s : State) (entry : BitVec 12) (off n : Nat) : Except Cause PeerWin :=
  let w := (s.die (dieOfFibre s.iss.fibre)).window entry.toNat
  if off % n != 0 then .error .memAlign else if !w.reaches off n then .error .rmtErr else .ok w

/-- The offset of a beat in its entry: the sum is not narrowed (R12, R298). -/
def remoteOff (a : Opd) (off : BitVec 40) (env : Env) (rf : RF) (b : Nat) : Nat := (a.dword env rf b).toNat + off.toNat

/-- RMTW: each beat is sent and tracked; over a broken connection it has failed (R29, R298, R423). -/
def execRmtw (h : Hdr) (ty : Ty) (d a : Opd) (entry : BitVec 12) (off : BitVec 40) (s : State) : Host.Outcome State Fault Refusal :=
  let n := ty.width / 8
  .next (s.perBeat h { Uses.nil with rd := [(d, accessRegs n), (a, 2)], uni := !(d.perThread || a.perThread) } (fun _ s => .ok s)
    (fun p b s =>
      let f := s.iss.fibre
      let die := dieOfFibre f
      let o := remoteOff a off p.env s.myRf b
      match s.remoteAt entry o n with
      | .error c => .stop c (addr64 o) s
      | .ok w =>
        let data := wordBytes n (d.words p.env s.myRf (accessRegs n) b)
        let s := s.creditFib f (digestEntry 0x300 (entry.toNat * 2 ^ 40 + o) data)
        .ok (if (s.die die).broken w then s.modFib f fun x => { x with rmtBad := true }
          else s.modDie die fun x => x.sendPacket
            { link := .ethernet, tag := 0, fibre := f, write := true, port := w.port, qpn := w.qpn, addr := w.rbase.toNat + o, data := data, copy := none }))
    fun _ s => s)

/-- RMTR: each beat is sent and tracked, and its result comes with the response; over a broken connection it has failed, which the beat that waits for
the result meets (R28, R29, R298). -/
def execRmtr (h : Hdr) (ty : Ty) (d a : Opd) (entry : BitVec 12) (off : BitVec 40) (s : State) : Host.Outcome State Fault Refusal :=
  let n := ty.width / 8
  let u := { Uses.nil with rd := [(a, 2)], wr := [(d, accessRegs n)], uni := !(d.perThread || a.perThread) }
  .next (s.perBeat h u (fun _ s => .ok s)
    (fun p b s =>
      let f := s.iss.fibre
      let die := dieOfFibre f
      let o := remoteOff a off p.env s.myRf b
      match s.remoteAt entry o n with
      | .error c => .stop c (addr64 o) s
      | .ok w =>
        let (dst, k) := destOf p.env d (accessRegs n)
        let a : Access := { Access.make .rmtr o [] n (if n = 4 then .b32 else .n64) dst k with failed := (s.die die).broken w }
        if a.failed then (if k = 0 then .ok s else s.issueAccess u p b a)
        else
          (s.modDie die fun x => x.sendPacket
            { link := .ethernet, tag := 0, fibre := f, write := false, port := w.port, qpn := w.qpn, addr := w.rbase.toNat + o, data := [], copy := none
              seq := x.wtNext }).issueAccess u p b a)
    fun _ s => s)

end Sys2Proof.Machine
end

