-- ==== Sys2Proof/Machine/HostPort.lean ====
section
/-! DEFINITION. What comes in through a die's ports: the aperture, host-feed windows, links, reliable connections, incoming writes, and the registers that no other mechanism owns (R20 to R24, R29, R33 to R38, R43, R102, R463, R464). -/

namespace Sys2Proof.Machine

/-- A posted write with a poisoned TLP is dropped and counted (R23). -/
def State.dropPoisoned (s : State) (die : Nat) : State := s.dropFeed die

/-! ## Aperture (R20, R21, R23) -/

/-- Whether the host reaches a range of device memory through a die's port. -/
def State.apertureReach (s : State) (die pa n : Nat) : Bool :=
  (s.die die).r.hlink && !s.shut die && pa + n ≤ 2 ^ 39 && s.reaches die (homeOf pa) && s.reaches die (homeOf (pa + n - 1))

/-- HOST_APERTURE_WRITE (R21, R23); an error that the write meets at home has no requester (R87). -/
def execHostApertureWrite (die pa : Nat) (data : List Byte) (poisoned : Bool) (s : State) : Host.Outcome State Fault Refusal :=
  .next (if !(s.die die).r.hlink || s.shut die then s
    else if poisoned then s.dropPoisoned die
    else if s.apertureReach die pa data.length then
      (lineParts pa data.length).foldl (fun s e =>
        (s.storeErrors e.1 e.2).homeWrite e.1 ((data.drop (e.1 - pa)).take e.2) true) s
    else s)

/-- HOST_APERTURE_READ: the bytes go back to the host; where home is absent, or holds an uncorrectable error, they are free (R21, R23, R87). DESIGN CHOICE:
the refusal of R88 names fibres and engines only, so what comes through the aperture or as an incoming remote write to a quarantined frame is performed. -/
def execHostApertureRead (die pa n : Nat) (s : State) : Host.Outcome State Fault Refusal :=
  .next (if !(s.die die).r.hlink || s.shut die || 2 ^ 39 < pa + n then s
    else if s.apertureReach die pa n && !s.badLines pa n then
      let s := s.homeCorrect pa n
      s.modDie die fun d => { d with completion := memBytes s.mem pa n }
    else
      let s := if s.apertureReach die pa n then (lineParts pa n).foldl (fun s e => if s.badLines e.1 e.2 then s.uncorrectable e.1 false else s) s else s
      let (b, s) := s.freeBytes n
      s.modDie die fun d => { d with completion := b })

/-! ## Host-feed windows (R22, R23, R413) -/

/-- HOST_FEED_WINDOW_WRITE: bytes at an offset of BAR2; a window that no node owns drops and counts them, beyond the windows they are only dropped (R20,
R22). -/
def execHostFeedWindowWrite (die off : Nat) (data : List Byte) (poisoned : Bool) (s : State) : Host.Outcome State Fault Refusal :=
  .next (if !(s.die die).r.hlink || s.shut die then s
    else if poisoned then s.dropPoisoned die
    else if 2 ^ 24 ≤ off then s
    else if (tfind (s.die die).feeds (off / 4096)).isNone then s.dropFeed die
    else s.feedBytes die (off / 4096) (off % 4096) (data.take (0xFF8 - off % 4096)))

/-- HOST_FEED_DOORBELL (R22, R23, R413). -/
def execHostFeedDoorbell (die window : Nat) (value : BitVec 64) (poisoned : Bool) (s : State) : Host.Outcome State Fault Refusal :=
  .next (if !(s.die die).r.hlink || s.shut die then s else if poisoned then s.dropPoisoned die else s.ringFeed die window value)

/-! ## The PCI Express link (R24, R33, R99) -/

/-- HOST_LINK_DOWN: host writes accepted and not yet sent are lost, each of them counted (R24). -/
def execHostLinkDown (die : Nat) (s : State) : Host.Outcome State Fault Refusal :=
  .next (((s.modDie die fun d =>
    let d := d.port.foldl (fun d _ => d.loseHostWrite) d
    { d with port := [], r := { d.r with hlink := false } }).losePosted die ((s.die die).port.map (·.id))).finishWaits)

/-- PCIE_LINK_TRAINED: a booted die's link is up again (R33). -/
def execPcieLinkTrained (die : Nat) (s : State) : Host.Outcome State Fault Refusal :=
  .next (s.modDieRegs die fun r => if s.shut die || r.step.toNat < 5 then r else { r with hlink := true })

/-! ## Reliable connections (R29, R102) -/

/-- What a failed operation leaves: a remote read faults the beat that waits for it, a write is remembered for the fibre's next `.sys` release, a copy ends with
RMT_ERR. -/
def State.failTrack (s : State) (t : Track) : State :=
  match t.copy with
  | some (c, id) => s.modClu c fun y => { y with copies := y.copies.map fun e => if e.id == id then { e with err := some (e.err.getD 8) } else e }
  | none =>
    if t.write then s.modFib t.fibre fun x => { x with rmtBad := true }
    else match (s.fib? t.fibre).bind fun x => x.out.find? fun a => a.seq == t.seq && a.kind == .rmtr with
      | some a => s.remoteRead t.fibre a false []
      | none => s

/-- RC_ERROR: every operation outstanding on a connection fails, and every later one (R29). -/
def execRcError (die : Nat) (port : BitVec 3) (qpn : BitVec 24) (s : State) : Host.Outcome State Fault Refusal :=
  .next <|
    let mine := fun (t : Track) => t.link == .ethernet && t.port == port && t.qpn == qpn
    let hit := (s.die die).tracker.filter mine
    let e := (port.toNat, qpn.toNat)
    let s := s.modDie die fun d => { d with rcBad := if d.rcBad.contains e then d.rcBad else e :: d.rcBad, tracker := d.tracker.filter fun t => !mine t }
    hit.foldl State.failTrack s

/-- CONNECTION_REESTABLISHED (R29). -/
def execConnectionReestablished (die : Nat) (port : BitVec 3) (qpn : BitVec 24) (s : State) : Host.Outcome State Fault Refusal :=
  .next (s.modDie die fun d => { d with rcBad := d.rcBad.filter (· != (port.toNat, qpn.toNat)) })

/-- INCOMING_RDMA_WRITE: a remote peer's write is performed at home and latches monitors (R102). -/
def execIncomingRdmaWrite (die pa : Nat) (data : List Byte) (s : State) : Host.Outcome State Fault Refusal :=
  .next (if s.shut die || 2 ^ 39 < pa + data.length || !s.reaches die (homeOf pa) || !s.reaches die (homeOf (pa + data.length - 1)) then s
    else (lineParts pa data.length).foldl (fun s e => (s.storeErrors e.1 e.2).homeWrite e.1 ((data.drop (e.1 - pa)).take e.2) true) s)

/-! ## Interrupts and temperature (R35, R36, R43) -/

/-- IRQEN_WRITE: a bit that rises while its event stands sends the message (R35). -/
def execIrqenWrite (die : Nat) (x : BitVec 32) (s : State) : Host.Outcome State Fault Refusal :=
  .next (s.register die fun d =>
    let rise := (upTo 8).filter fun b => x.getLsbD b && !d.r.irqen.getLsbD b && d.r.irqstat.getLsbD b
    rise.foldl Die.message { d with r := { d.r with irqen := x.extractLsb' 0 8 } })

/-- IRQSTAT_CLEAR (R35). -/
def execIrqstatClear (die : Nat) (x : BitVec 32) (s : State) : Host.Outcome State Fault Refusal :=
  .next (s.register die fun d => { d with r := { d.r with irqstat := d.r.irqstat &&& ~~~(x.extractLsb' 0 8) } })

/-- A new temperature: the warning rises at WARN and falls at WARN − 5 (R36, R43). -/
def Die.heat (d : Die) (temp : BitVec 8) : Die :=
  let d := { d with r := { d.r with temp := temp } }
  if !d.r.hot && d.r.warn.toNat ≤ temp.toNat then { d with r := { d.r with hot := true } }.raise irqThermw
  else if d.r.hot && temp.toNat + 5 ≤ d.r.warn.toNat then { d with r := { d.r with hot := false } } else d

/-- THERM_REFRESH: at CRIT the die halts, and a peer that waits for it at boot goes on alone (R18, R36, R43). -/
def execThermRefresh (die : Nat) (temp : BitVec 8) (s : State) : Host.Outcome State Fault Refusal :=
  .next <|
    if s.off die then s
    else
      let s := s.modDie die fun d => d.heat temp
      if (s.die die).r.crit.toNat ≤ temp.toNat then
        (s.modDie die fun d => { d with boot := none, r := { d.r with halt := true, hcause := 4 } }).bootAlone (otherDie die)
      else s

/-- THERM_WARN_WRITE: a threshold at or above CRIT is ignored (R36). -/
def execThermWarnWrite (die : Nat) (warn : BitVec 8) (s : State) : Host.Outcome State Fault Refusal :=
  .next (s.register die fun d => if d.r.crit.toNat ≤ warn.toNat then d else { d with r := { d.r with warn := warn } })

/-! ## Tables (R37, R38, R87, R88) -/

/-- An entry of the peer-window table with one of its 8-byte words written (R37). -/
def PeerWin.write (w : PeerWin) (dword : BitVec 2) (x : BitVec 64) : PeerWin :=
  if dword = 0 then { w with rbase := x }
  else if dword = 1 then { w with len := x.extractLsb' 0 41 }
  else if dword = 2 then { w with rkey := x.extractLsb' 0 32, qpn := x.extractLsb' 32 24, port := x.extractLsb' 56 3, v := x.getLsbD 63 }
  else w

/-- PEER_WINDOW_WRITE (R37). -/
def execPeerWindowWrite (die : Nat) (entry : BitVec 12) (dword : BitVec 2) (x : BitVec 64) (s : State) : Host.Outcome State Fault Refusal :=
  .next (s.register die fun d => { d with peerWin := tput d.peerWin entry.toNat ((d.window entry.toNat).write dword x) })

/-- QUARANTINE_CLEAR: accesses to the entry's frame are no longer refused (R38). DESIGN CHOICE: FRAME of the entry that is free now reads as it did; the spec
does not say. -/
def execQuarantineClear (die : Nat) (q : BitVec 6) (s : State) : Host.Outcome State Fault Refusal :=
  .next (s.register die fun d =>
    match tfind d.quar q.toNat with
    | some e => { d with quar := tput d.quar q.toNat { e with v := false } }
    | none => d)

/-- SCRUB: a line of this die's DRAM is read through; an uncorrectable error there has no requester (R87). -/
def execScrub (die pa : Nat) (s : State) : Host.Outcome State Fault Refusal :=
  .next <|
    let a := lineOf pa * 128
    if !isDram a || homeOf a != die then s
    else
      let s := s.homeCorrect a 128
      if s.badLines a 128 then s.uncorrectable a false else s

/-! ## Other registers (R34, R35, R85, R439, R463, R464) -/

/-- FEATREQ_WRITE: the enabled mask is computed anew where no fibre is resident (R464). -/
def execFeatreqWrite (die : Nat) (x : BitVec 512) (s : State) : Host.Outcome State Fault Refusal :=
  .next <|
    let busy := s.fibres.any fun e => dieOfFibre e.1 == die
    s.register die fun d =>
      if busy then { d with r := { d.r with featerr := satInc d.r.featerr } }
      else { d with r := { d.r with featreq := x, featen := (x &&& d.r.feathw) ||| 1 } }

/-- A word of the MSI-X table written: its vector's mask is bit 32 of the second word, and a message left pending goes out once it is clear (R35). -/
def Die.msixWrite (d : Die) (i : Nat) (x : Dword) : Die :=
  let d := { d with msix := tput d.msix i x }
  if i % 2 = 0 then d
  else
    let b := BitVec.ofNat 8 (2 ^ (i / 2))
    let d := { d with r := { d.r with msixMask := if x.getLsbD 32 then d.r.msixMask ||| b else d.r.msixMask &&& ~~~b } }
    if !x.getLsbD 32 && d.r.msixPend &&& b != 0 then { d with sent := d.sent ++ [i / 2], r := { d.r with msixPend := d.r.msixPend &&& ~~~b } } else d

/-- A register of the privileged view that is plain storage, written (R34, R35, R85, R439, R463). -/
def Die.store (d : Die) (off : Nat) (x : Dword) : Die :=
  if off = 0x20 then { d with r := { d.r with ctxbase := x.extractLsb' 20 32 ++ (0 : BitVec 20) } }
  else if off = 0x120 then { d with r := { d.r with fqbase := x.extractLsb' 0 52 } }
  else if off = 0x130 then { d with r := { d.r with fqhead := x.extractLsb' 0 16 } }
  else if off = 0x308 then { d with r := { d.r with prearea := x.extractLsb' 0 52 } }
  else if off = 0x4C0 then { d with r := { d.r with emubase := x.extractLsb' 0 52 } }
  else if 0x1FF0000 ≤ off && off < 0x1FF0080 && off % 8 = 0 then d.msixWrite ((off - 0x1FF0000) / 8) x
  else d

/-- REGISTER_WRITE: the unprivileged view has no field that can be written; a write that carries EP is dropped, whatever register it names (R6, R23, R31, R33). -/
def execRegisterWrite (die : Nat) (priv : Bool) (off : Nat) (x : RegData) (s : State) : Host.Outcome State Fault Refusal :=
  .next (if x.poisoned then (if s.shut die then s else s.dropPoisoned die) else if priv then s.register die fun d => d.store off x.value else s)

end Sys2Proof.Machine
end

