-- ==== Sys2Proof/Machine/Preempt.lean ====
section
/-! DEFINITION. Pre-emption, saves, restores and migration (R117, R146, R209, R213, R292, R393, R439 to R444). -/

namespace Sys2Proof.Machine

/-! ## Requests (R439, R440) -/

/-- The fibres of a cluster. -/
def State.fibresOn (s : State) (cl : Nat) : List Nat := (s.fibres.filter fun e => clusterOfFibre e.1 == cl).map (·.1)

/-- The fibres of a slot. -/
def State.fibresIn (s : State) (slot : Nat) : List Nat := (s.fibres.filter fun e => slotOfFibre e.1 == slot).map (·.1)

/-- A fibre is pre-empted: PREEMPT is pending, at once from a sleep; one that has exited or is frozen stays as it is (R440). -/
def State.preempt (s : State) (f : Nat) : State :=
  match s.fib? f with
  | none => s
  | some x =>
    if x.frozen || x.div.live == 0 then s
    else
      let s := s.setFib f { x with pre := .requested, preAt := s.nowOf f, regs := { x.regs with prep := true } }
      if x.sleep.abandoned && x.trap.isNone && !x.regs.inh then s.takePending f else s

/-- A request is taken up (R439). -/
def State.takeRequest (s : State) (die : Nat) (q : PreReq) : State :=
  s.modDie die fun d => { d with req := q, r := { d.r with preBusy := true, preForced := false, preRefused := false } }

/-- A request is refused with no change (R439). -/
def State.refuse (s : State) (die : Nat) : State := s.modDieRegs die fun r => { r with preRefused := true }

/-- The fields that a write of PRECTL leaves in it, whatever its KIND (R6, R439). -/
def DieRegs.prectl (r : DieRegs) (cluster : BitVec 6) (score : BitVec 2) (sslot : BitVec 5) (tcore : BitVec 2) : DieRegs :=
  { r with preClu := cluster, preScore := score, preSslot := sslot, preTcore := tcore }

/-- PRECTL_SAVE: placement stops on the cluster, and every fibre there is pre-empted; ignored while BUSY = 1 (R439). -/
def execPrectlSave (die : Nat) (w : PreWrite) (s : State) : Host.Outcome State Fault Refusal :=
  .next <|
    if (s.die die).r.preBusy || s.shut die then s
    else
      let s := s.modDieRegs die fun r => r.prectl w.cluster w.score w.sslot w.tcore
      if 48 ≤ w.cluster.toNat then s.refuse die
      else
        let cl := die * 48 + w.cluster.toNat
        let s := (s.takeRequest die (.save cl)).modClu cl fun c => { c with saving := true }
        (s.fibresOn cl).foldl State.preempt s

/-- PRECTL_MIGRATE: the slot's fibres are pre-empted and a target slot is kept for them, or the request is refused (R439). -/
def execPrectlMigrate (die : Nat) (cluster : BitVec 6) (score : BitVec 2) (sslot : BitVec 5) (tcore : BitVec 2) (s : State) :
    Host.Outcome State Fault Refusal :=
  .next <|
    if (s.die die).r.preBusy || s.shut die then s
    else
      let s := s.modDieRegs die fun r => r.prectl cluster score sslot tcore
      let cl := die * 48 + cluster.toNat
      let a := (cl * 4 + score.toNat) * 32 + sslot.toNat
      match (s.cohortsOn cl).find? fun e => e.2.slots.contains a with
      | none => s.refuse die
      | some (_, c) =>
        match s.freeSlots (s.descOf c.launch) (cl * 4 + tcore.toNat) with
        | [] => s.refuse die
        | b :: _ =>
          if 48 ≤ cluster.toNat || (s.fibresIn a).isEmpty then s.refuse die
          else (s.fibresIn a).foldl State.preempt (s.takeRequest die (.migrate cl a b))

/-! ## Fibres that are ready to be saved (R440) -/

/-- FORCED_SAVE: a fibre that has had its 20,000 cycles is saved at its next boundary or from a sleep that is abandoned (R440). -/
def execForcedSave (f : Nat) (s : State) : Host.Outcome State Fault Refusal :=
  .next <| match s.fib? f with
    | none => s
    | some x =>
      let due := (x.pre == .requested || x.pre == .entered) && !x.frozen && x.div.live != 0 && x.preAt + 20000 ≤ s.nowOf f
      let still := x.trap.isNone && (x.sleep.abandoned || (x.sleep == .awake && x.mid.all (·.resumed)))
      if !due || !still then s
      else (s.abandonSleep f).modFib f fun x => { x.stopTimer (s.nowOf f) with pre := .forced, mid := x.mid.map fun m => { m with resumed := true } }

/-- Whether a fibre has ended its part: by PRDONE, exit, freeze or force. -/
def Fibre.parted (x : Fibre) : Bool := x.frozen || x.div.live == 0 || x.pre == .done || x.pre == .forced

/-- Whether the accesses of fibres are over, as FENCE.ar.pkg would have them, their remote writes with them, and their queries answered (R213, R297,
R441). -/
def State.restful (s : State) (die : Nat) (fs : List Nat) : Bool :=
  fs.all (fun f => (s.fib? f).elim true fun x => x.parted && x.out.all (·.failed) && !s.owing f)
    && (s.die die).wt.isEmpty
    && !(s.die die).tracker.any (fun t => fs.contains t.fibre)
    && fs.all fun f =>
      let c := s.clu (clusterOfFibre f)
      !c.queries.any (·.fibre == f) && !c.waiters.any (fun w => w.fibre == f && w.query.isSome) && !c.copies.any (·.fibre == f) && !c.drains.any (·.fibre == f)
        && !c.k.any fun e => e.2.state == 4 && e.2.members.any (·.1 == f)

/-- Posted passes go back to Posting, those of a slot's fibres or all (R209). -/
def State.unpost (s : State) (cl : Nat) (fs : List Nat) : State :=
  s.modClu cl fun c => { c with k := c.k.map fun e => if e.2.state == 3 && e.2.members.any (fun m => fs.contains m.1) then (e.1, { e.2 with state := 2 }) else e }

/-- How the spills of a save end: done, or held by a fault that has to be answered first. -/
inductive Spills where
  | done (s : State)
  | held (s : State)

/-- A fibre's resident blocks spilled; one that cannot be stays resident (R155, R441). -/
def State.spillAll (s : State) (f : Nat) : List Nat → Spills
  | [] => .done s
  | b :: t =>
    match s.spillBlock f b with
    | .ok s => s.spillAll f t
    | .fault c s' => ((FillOut.fault c s').spilled f).spillAll f t
    | .replay die asid va k s' => .held ((FillOut.replay die asid va k s').spilled f)

/-- Every fibre's overflow levels written and its resident blocks spilled. -/
def State.spillEach (s : State) : List Nat → Spills
  | [] => .done s
  | f :: t =>
    let s := s.flushLevels f
    if (s.fib? f).any fun x => !x.levels.isEmpty && x.failure.isNone then .held s
    else match s.spillAll f ((s.fib? f).elim [] fun x => if x.div.live == 0 then [] else x.residentBlocks) with
    | .done s => s.spillEach t
    | .held s => .held s

/-! ## Numbers changed -/

/-- A convergence register whose members go by other numbers. -/
def KReg.move (g : Nat → Nat) (k : KReg) : KReg :=
  { k with members := k.members.map fun e => (g e.1, e.2), signed := k.signed.map fun e => (g e.1, e.2), cols := k.cols.map fun c => { c with fibre := g c.fibre } }

/-- A cluster whose fibres go by other numbers. -/
def Cluster.move (g : Nat → Nat) (c : Cluster) : Cluster :=
  { c with
    k := c.k.map fun e => (e.1, e.2.move g)
    waiters := c.waiters.map fun w => { w with fibre := g w.fibre }
    arrivals := c.arrivals.map fun a => { a with fibre := g a.fibre }
    conts := c.conts.map fun e => { e with fibre := g e.fibre }
    queries := c.queries.map fun q => { q with fibre := g q.fibre }
    drains := c.drains.map fun d => { d with fibre := g d.fibre } }

/-- A slot whose fibres go by other numbers. -/
def Slot.move (g : Nat → Nat) (k : Slot) : Slot := { k with bars := k.bars.map fun b => { b with owed := b.owed.map fun e => (g e.1, e.2) } }

/-- What the dies hold of fibres that go by other numbers: freeze records and posted host writes. -/
def State.renumber (s : State) (g : Nat → Nat) : State :=
  [0, 1].foldl (fun s d => s.modDie d fun x =>
    { x with
      freeze := x.freeze.map fun r => { r with fibre := g r.fibre }, freezeWait := x.freezeWait.map fun r => { r with fibre := g r.fibre }
      port := x.port.map fun w => { w with fibre := w.fibre.map g } }) s

/-- A fibre as it is saved: nothing of the core it leaves stays with it. -/
def State.quiet (s : State) (f : Nat) : State :=
  let s := (s.abandonSleep f).dropMonitor f
  let s := [0, 1].foldl (fun s d => s.leaveWalks d (.fibre f)) s
  s.modFib f fun x => { x.stopTimer (s.nowOf f) with pend := [], chained := false }

/-- A fibre as it resumes: by RETT from its handler's frame, or where it stood; a call reads its definition anew (R244, R440). -/
def Fibre.resumed (x : Fibre) (now : Nat) : Fibre :=
  let x : Fibre := { x with regs := { x.regs with tbase := now }, nom := 0, lastRun := 0, atSwitch := false, passed := [] }
  let x : Fibre := { x with div := x.div.mapThreads (allBeats x.pos.width) fun _ t => { t with call := none } }
  if x.pre == .done then { x with pre := .none, rettDue := true, sleep := .fill x.frameBlocks, onFail := none } else { x with pre := .none }

/-! ## The image (R442) -/

/-- Bytes in the device's own form, from a number of free words on (R442). -/
def ownBytes (n : Nat) : Nat → List Byte
  | 0 => []
  | k + 1 => leBytes 8 (Config.freeWord n).toNat ++ ownBytes (n + 1) k

/-- The header of an image: magic, saving die, cluster, incarnation. -/
def imageHeader (die cluster : Nat) (inc : BitVec 8) : List Byte :=
  leBytes 2 0x8E5A ++ leBytes 1 die ++ leBytes 1 cluster ++ leBytes 1 inc.toNat ++ List.replicate 59 0

/-- Where the header lies in an image. -/
def headerOff : Nat := 0x162000

/-- The first bytes of a fibre's record: the frame layout for its current state, up to the exchange buffer (R434, R442). -/
def Fibre.record (x : Fibre) : List Byte :=
  ((x.frame (x.boundary .preempt)).take 336).flatMap fun w => leBytes 4 w.toNat

/-- The record of a position, the rest of it in the device's own form. -/
def State.fibreRecord (s : State) (cl n k : Nat) : List Byte :=
  ((s.fib? (cl * 512 + k)).elim (List.replicate 1344 0) Fibre.record) ++ ownBytes (n + 24 * k) 24

/-- The bytes of a cluster image. Free words mark it, from the 64 bytes of the header on. -/
def State.imageBytes (s : State) (die cl : Nat) : List Byte :=
  let c := s.clu cl
  tblBytes c.spad 0 (2 ^ 20) ++ tblBytes c.tiles 0 (2 ^ 18)
    ++ ((upTo 32768).flatMap fun k => leBytes 4 (tget 0 c.acc k).toNat)
    ++ ((upTo 8192).flatMap fun i => leBytes 1 ((upTo 8).foldl (fun n b => n + (c.full.contains (8 * i + b)).toNat * 2 ^ b) 0))
    ++ imageHeader die (cl % 48) (s.die die).r.inc ++ ownBytes s.free 7160
    ++ (upTo 512).flatMap fun k => s.fibreRecord cl (s.free + 7160) k

/-- The bytes that mark an image, next to its header. -/
def imageTag (s : State) : List Byte := ownBytes s.free 8

/-- What an image holds of a cluster: its fibres, slots and cohorts, with the digests in progress. -/
def State.imageOf (s : State) (cl : Nat) : Image :=
  { tag := imageTag s, id := s.nextId, home := cl, clu := s.clu cl, cohorts := s.cohortsOn cl
    slots := s.slots.filter fun e => clusterOfCore (coreOfSlot e.1) == cl, fibres := s.fibres.filter fun e => clusterOfFibre e.1 == cl, ended := [] }

/-- A cluster that has been saved is empty. -/
def State.emptyCluster (s : State) (cl : Nat) : State :=
  let s : State :=
    { s with
      fibres := s.fibres.filter fun e => clusterOfFibre e.1 != cl
      slots := s.slots.filter fun e => clusterOfCore (coreOfSlot e.1) != cl
      cohorts := s.cohorts.filter fun e => e.2.cluster != cl
      lanes := s.lanes.filter fun e => clusterOfCore (e.1 / 16) != cl }
  s.modClu cl fun c => { c with k := [], waiters := [], copies := [], fails := [], rings := [], arrivals := [], conts := [], queries := [], drains := [], saving := false }

/-- The image is written and the cluster left (R441). -/
def State.writeImage (s : State) (die cl : Nat) : State :=
  let m := s.imageOf cl
  let forced := m.fibres.any fun e => e.2.pre == .forced
  let s := s.homeWrite (s.die die).r.prearea.toNat (s.imageBytes die cl) false
  let s := s.renumber fun f => if f < 2 ^ 20 && clusterOfFibre f = cl then m.id * 2 ^ 20 + f else f
  let s := s.emptyCluster cl
  { s with images := m :: s.images, nextId := s.nextId + 1, free := s.free + 7160 + 24 * 512 }.modDie die fun d =>
    { d with req := .none, r := { d.r with preBusy := false, preForced := forced } }

/-! ## Completion of a request (R441, R443) -/

/-- Rings that are to pause and have not hold a save or a migration (R117, R441). -/
def State.ringsStill (s : State) (cl : Nat) : Bool := (s.clu cl).rings.all fun e => e.2.state != 0 || !s.ringPauses cl e.2

/-- A ring is bound again to an engine of its region's die (R117). -/
def State.rebindRing (s : State) (cl : Nat) (e : Nat × Ring) : State :=
  if e.2.state = 1 then s.setRing cl e.1 { e.2 with state := 0, engine := s.engineFor e.2.die, xlw := false } else s

/-- Every ring that has paused is bound again. -/
def State.rebindRings (s : State) (cl : Nat) : State := (s.clu cl).rings.foldl (fun s e => s.rebindRing cl e) s

/-- What the restore does to a core: its instruction cache is empty, and its L1 has an invalidation event (R120, R443). -/
def State.freshCore (s : State) (core : Nat) : State := (s.l1Event core).modCore core fun c => { c with icache := [] }

/-- The migrated slot is placed and its fibres resume (R441, R443). -/
def State.placeMigrated (s : State) (die cl a b : Nat) : State :=
  let fs := s.fibresIn a
  let g := fun f => if f < 2 ^ 20 && slotOfFibre f = a then b * 4 + f % 4 else f
  let xs := fs.filterMap fun f => (s.fib? f).map fun x => (f, x)
  let now := s.now (coreOfSlot b)
  let s := fs.foldl (fun s f => s.delFib f) s
  let s := xs.foldl (fun s e => s.setFib (g e.1) (e.2.resumed now)) s
  let s := ({ s with slots := tdel s.slots a }.setSlot b ((s.slot a).move g)).modClu cl (Cluster.move g)
  let s : State := { s with cohorts := s.cohorts.map fun e => (e.1, { e.2 with slots := e.2.slots.map fun k => if k = a then b else k }) }
  let lane := a / 32 * 16 + a % 16
  let s := if (s.lane lane).holder.any fun h => slotOfFibre h == a then s.setLane lane .reset else s
  let s := ((s.renumber g).freshCore (coreOfSlot b)).modDie die Die.newEpoch
  let s := (s.modDie die fun d => { d with req := .none, r := { d.r with preBusy := false } }).rebindRings cl
  ((s.clu cl).conts.filter fun c => c.due && slotOfFibre c.fibre == b).foldl (fun s c => s.spawnCont cl c) s

/-- SAVE_COMPLETE: every fibre has ended its part, what is under way is over, the blocks are spilled, and the image is written or the slot placed
(R117, R146, R209, R441). -/
def execSaveComplete (die : Nat) (s : State) : Host.Outcome State Fault Refusal :=
  .next <| match (s.die die).req with
    | .save cl =>
      let fs := s.fibresOn cl
      if !s.restful die fs || !s.ringsStill cl || !(s.clu cl).copies.isEmpty || !s.reaches die (homeOf (s.die die).r.prearea.toNat) then s
      else match (s.unpost cl fs).spillEach fs with
        | .held s => s
        | .done s => (fs.foldl State.quiet s).writeImage die cl
    | .migrate cl a b =>
      let fs := s.fibresIn a
      if !s.restful die fs || !s.ringsStill cl then s
      else match (s.unpost cl fs).spillEach fs with
        | .held s => s
        | .done s => (fs.foldl State.quiet s).placeMigrated die cl a b
    | _ => s

/-- The image that an area holds, if its header is that of one saved by this package in the saving die's incarnation (R442). -/
def State.imageAt (s : State) (die : Nat) : Option Image :=
  let pa := (s.die die).r.prearea.toNat
  if !s.reaches die (homeOf pa) then none
  else
    let h := memBytes s.mem (pa + headerOff) 64
    let src := fieldAt h 2 1
    if fieldAt h 0 2 != 0x8E5A || 1 < src || fieldAt h 4 1 != (s.die src).r.inc.toNat then none
    else s.images.find? fun m => m.tag == memBytes s.mem (pa + headerOff + 64) 64 && m.home == src * 48 + fieldAt h 3 1

/-- PRECTL_RESTORE: the header is checked, and the cluster must have no fibre (R439, R442, R443). -/
def execPrectlRestore (die : Nat) (w : PreWrite) (s : State) : Host.Outcome State Fault Refusal :=
  .next <|
    if (s.die die).r.preBusy || s.shut die then s
    else
      let s := s.modDieRegs die fun r => r.prectl w.cluster w.score w.sslot w.tcore
      let cl := die * 48 + w.cluster.toNat
      if 48 ≤ w.cluster.toNat || !(s.fibresOn cl).isEmpty || (s.imageAt die).isNone then s.refuse die
      else (s.takeRequest die (.restore cl)).modClu cl fun c => { c with saving := true }

/-- An image is put back on a cluster (R117, R120, R132, R146, R209, R213, R443). -/
def State.putImage (s : State) (die cl : Nat) (m : Image) : State :=
  let g := fun f => if clusterOfFibre f = m.home then f - m.home * 512 + cl * 512 else f
  let slot := fun k => k - m.home * 128 + cl * 128
  let y := m.clu.move g
  let s := s.modClu cl fun c =>
    { y with
      const := [], tlb := c.tlb, saving := false, lastCopy := max c.lastCopy y.lastCopy
      k := y.k.map fun e => (e.1, if e.2.state == 2 then { e.2 with since := s.tick } else e.2) }
  let s : State :=
    { s with
      cohorts := m.cohorts.foldl (fun t e => tput t e.1 { e.2 with cluster := cl, slots := e.2.slots.map slot }) s.cohorts
      slots := m.slots.foldl (fun t e => tput t (slot e.1) (e.2.move g)) s.slots
      fibres := m.fibres.foldl (fun t e => tput t (g e.1) (e.2.resumed (s.now (coreOfFibre (g e.1))))) s.fibres
      images := s.images.filter fun i => i.id != m.id }
  let s := s.renumber fun f => if f / 2 ^ 20 = m.id then g (f % 2 ^ 20) else f
  let s := ((coresOf cl).foldl State.freshCore s).modDie die Die.newEpoch
  let s := s.rebindRings cl
  let s := ((s.clu cl).conts.filter (·.due)).foldl (fun s c => s.spawnCont cl c) s
  m.ended.foldl (fun s f => s.endFrozen (g f)) s

/-- RESTORE_COMPLETE (R443). -/
def execRestoreComplete (die : Nat) (s : State) : Host.Outcome State Fault Refusal :=
  .next <| match (s.die die).req with
    | .restore cl =>
      let s' := s.modDie die fun d => { d with req := .none, r := { d.r with preBusy := false } }
      match s.imageAt die with
      | some m => s'.putImage die cl m
      | none => (s'.modClu cl fun c => { c with saving := false }).refuse die
    | _ => s

end Sys2Proof.Machine
end

