-- ==== Sys2Proof/Machine/SoftError.lean ====
section
/-! DEFINITION. Bit errors that strike a storage (R87, R128, R159, R184). -/

namespace Sys2Proof.Machine

/-- A number added to a list that does not hold it. -/
def addTo (l : List Nat) (x : Nat) : List Nat := if l.contains x then l else x :: l

/-- A correctable or an uncorrectable place added to one of two lists. -/
def strike (correctable : Bool) (ce bad : List Nat) (x : Nat) : List Nat × List Nat :=
  if correctable then (if bad.contains x then ce else addTo ce x, bad) else (ce.filter (· != x), addTo bad x)

/-- Whether a load that has been issued, and whose beat would have met the error, has still to read a line (R87). -/
def State.demanded (s : State) (line : Nat) : Bool :=
  s.fibres.any fun e => e.2.out.any fun a => !a.block && a.reads && a.reply.isNone && a.lines.contains line

/-- A byte of device DRAM or of its Home line struck (R87). An uncorrectable error comes to be known to loads that are issued after it (assumption 13). -/
def State.strikeMem (s : State) (pa : Nat) (correctable : Bool) : State :=
  if !isDram pa || (!correctable && s.demanded (lineOf pa)) then s
  else let (ce, bad) := strike correctable s.memCe s.memBad pa; { s with memCe := ce, memBad := bad }

/-- The code stored with a word, among the codes of a table that lists those that are not the word's residue. -/
def storedCode (codes : List (Nat × BitVec 5)) (k : Nat) (x : Word) : BitVec 5 := (tfind codes k).getD (rho x)

/-- Bits of a private word and of its stored code flipped (R159). -/
def Regs.strikeV (r : Regs) (k : Nat) (flip : Word) (code : BitVec 5) : Regs :=
  let x := tget 0 r.v k
  { r with v := tset 0 r.v k (x ^^^ flip), badV := tput r.badV k (storedCode r.badV k x ^^^ code) }

/-- Bits of a scalar word and of its stored code flipped (R159). -/
def Regs.strikeS (r : Regs) (n : Nat) (flip : Word) (code : BitVec 5) : Regs :=
  let x := tget 0 r.s n
  { r with s := tset 0 r.s n (x ^^^ flip), badS := tput r.badS n (storedCode r.badS n x ^^^ code) }

/-- Bits of a word of a slot's shared window and of its stored code flipped (R159). -/
def Slot.strike (y : Slot) (k : Nat) (flip : Word) (code : BitVec 5) : Slot :=
  let x := tget 0 y.shared k
  { y with shared := tset 0 y.shared k (x ^^^ flip), bad := tput y.bad k (storedCode y.bad k x ^^^ code) }

/-- SOFT_ERROR: what later reads of the storage meet. A parity error makes a line of the L1 or the constant cache a miss for the access that meets it; an
error in a register or on the way from it is found by the residues; a correctable error of a Copy is counted (R87, R128, R159, R172, R184). -/
def execSoftError (site : ErrSite) (correctable : Bool) (s : State) : Host.Outcome State Fault Refusal :=
  .next <| match site with
    | .dram pa | .l2 pa => s.strikeMem pa correctable
    | .copyLine die line =>
      if !(s.die die).copies.any (·.line == line) then s
      else if correctable then s.modDie die Die.countCe
      else s.modDie die fun d => { d with copies := d.copies.map fun c => if c.line == line then { c with bad := true } else c }
    | .spad cl g => s.modClu cl fun c => let (ce, bad) := strike correctable c.spadCe c.spadBad g; { c with spadCe := ce, spadBad := bad }
    | .tile cl t byte =>
      s.modClu cl fun c => let (ce, bad) := strike correctable c.tileCe c.tileBad ((t * 16384 + byte) / 4); { c with tileCe := ce, tileBad := bad }
    | .acc cl bank row col =>
      s.modClu cl fun c => let (ce, bad) := strike correctable c.accCe c.accBad (accKey (bank == 1) row col); { c with accCe := ce, accBad := bad }
    | .vreg f i b flip code => s.modFib f fun x =>
      if x.regs.spilled.contains (i / 8) then x else { x with regs := x.regs.strikeV (regKey i b) flip code }
    | .sreg f n flip code => s.modFib f fun x => { x with regs := x.regs.strikeS n flip code }
    | .shreg k i b flip code => if (tfind s.slots k).isNone then s else s.setSlot k ((s.slot k).strike (regKey i b) flip code)
    | .carry f b => s.modFib f fun x => { x with regs := { x.regs with badCarry := addTo x.regs.badCarry b } }
    | .alu f flip => s.modFib f fun x => { x with regs := { x.regs with aluErr := some flip } }
    | .path f o b => s.modFib f fun x =>
      match o.ref x.pos x.regs.woff 0 with
      | .none => x
      | r => { x with regs := { x.regs with badPath := (r, b) :: x.regs.badPath } }
    | .xbuf f b => s.modFib f fun x => { x with regs := { x.regs with badPath := (.none, b) :: x.regs.badPath } }
    | .l1 core line => s.modCore core fun c => { c with l1 := c.l1.map fun l => if l.line == line then { l with bad := true } else l }
    | .const cl line => s.modClu cl fun c => { c with const := c.const.map fun l => if l.line == line then { l with bad := true } else l }

end Sys2Proof.Machine
end

