-- ==== Sys2Proof/Machine/Staging.lean ====
section
/-! DEFINITION. Reduction staging and the digest register: RSTG, RCMB and DGSTR (R419 to R424, R452 to R454). -/

namespace Sys2Proof.Machine

/-- RSTG: each beat is one step at home on the fibre's slot (R420, R452). -/
def execRstg (h : Hdr) (ty : Ty) (op : ROp) (a b : Src) (s : State) : Host.Outcome State Fault Refusal :=
  let k := regsOf ty.is64
  let u := Uses.mem [] [] a 2 b k true
  .next (s.perBeat h u (fun _ s => .ok s)
    (fun p t s =>
      let rf := s.myRf
      let va := (a.dword p.env rf false t).toNat + 16 * s.me.pos.lidx
      match s.openAccess clsAtomic (.rstg op ty) false true va 16 16 with
      | .error e => e
      | .ok (_, segs, s) =>
        if segs.any (·.host) then .stop .hostatomAbsent (addr64 va) s
        else s.issueRmw u p t { Access.make (.rstg op ty) va segs 16 ty .none 0 with data := wordBytes (4 * k) (b.words p.env rf true k t) })
    fun _ s => s)

/-! ## RCMB (R421, R453) -/

/-- The fold of R421 over the slots from one on: the accumulator and the events, or the number of a slot that holds another operation or type. -/
def foldSlots (op : ROp) (ty : Ty) (bytes : List Byte) : Nat → Nat → Nat × Events → Except Nat (Nat × Events)
  | 0, _, a => .ok a
  | n + 1, i, a =>
    let slot := (bytes.drop (16 * i)).take 16
    let b := fun k => (nth 0 slot k).toNat
    if b 10 % 2 = 0 then foldSlots op ty bytes n (i + 1) a
    else if b 8 % 8 != ropNumber op || b 9 % 16 != ty.code.toNat then .error i
    else
      let (v, e) := foldStep op ty a.1 (leNat (slot.take (if ty.is64 then 8 else 4)))
      foldSlots op ty bytes n (i + 1) (v, a.2 ||| e)

/-- Bytes written at home from an address of the issuing fibre, part by part, as a store meets its lines; its die's Copies of them are gone (R87, R95, R100). -/
def State.putSegs (s : State) : List Seg → List Byte → State
  | [], _ => s
  | g :: t, data =>
    let s := (if g.host then s else s.storeErrors g.pa g.n).homeWrite g.pa (data.take g.n) (g.ca != 2)
    let s := (linesOf g.pa g.n).foldl (fun s l => s.dropCopy (dieOfFibre s.iss.fibre) l) s
    s.putSegs t (data.drop g.n)

/-- The bytes of parts as home holds them. -/
def State.homeBytes (s : State) : List Seg → List Byte
  | [] => []
  | g :: t => memBytes s.mem g.pa g.n ++ s.homeBytes t

/-- RCMB's one step (R421): slots that hold another operation or type end it with nothing written; the target is written before the slots are cleared. -/
def State.combine (s : State) (op : ROp) (ty : Ty) (t base n : Nat) : Beat :=
  let k := if ty.is64 then 8 else 4
  match s.openAccess clsAtomic .load false true t k 0 with
  | .error e => e
  | .ok (_, tsegs, s) =>
    match s.openAccess clsAtomic .load false true base (16 * n) 0 with
    | .error e => e
    | .ok (_, ssegs, s) =>
      match foldSlots op ty (s.homeBytes ssegs) n 0 (leNat (s.homeBytes tsegs), 0) with
      | .error i => .stop .redBad (addr64 (base + 16 * i)) s
      | .ok (v, e) =>
        let data := leBytes k v
        let s := (s.putSegs tsegs data).putSegs ssegs (leBytes (16 * n) 0)
        let s := s.creditFib s.iss.fibre (digestCells (cellsFrom t data))
        .ok (s.modFib s.iss.fibre fun x => { x with regs := x.regs.raise e })

/-- Whether records of the issuing die, or host writes, are still on their way, so that home does not yet hold what the fibre has written (R95, R230). -/
def State.onTheWay (s : State) : Bool :=
  (s.die (dieOfFibre s.iss.fibre)).wt.any (fun r => !r.atHome) || !(s.die 0).port.isEmpty || !(s.die 1).port.isEmpty

/-- RCMB (R421, R453): its checks in their order, whatever N holds; the fibre's earlier accesses are performed first. -/
def execRcmb (h : Hdr) (ty : Ty) (op : ROp) (a b : Opd) (s : State) : Host.Outcome State Fault Refusal :=
  let k := if ty.is64 then 8 else 4
  .next (s.perBeat h { Uses.nil with rd := [(a, 2), (b, 4)], uni := true }
    (fun p s =>
      let rf := s.myRf
      let t := (a.dword p.env rf 0).toNat
      let base := (b.dword p.env rf 0).toNat
      let n := (b.word p.env rf 2 0).toNat
      if 2 ^ 56 < t + k then .stop .vaBad (addr64 t) s
      else if 2 ^ 56 ≤ base then .stop .vaBad (addr64 base) s
      else if t % k != 0 then .stop .memAlign (addr64 t) s
      else if base % 16 != 0 then .stop .memAlign (addr64 base) s
      else if 2 ^ 24 < n then .stop .redBad 0 s
      else if n != 0 && (!s.settled || s.onTheWay) then .wait s.hold
      else .ok s)
    (fun p _ s =>
      let rf := s.myRf
      let n := (b.word p.env rf 2 0).toNat
      if n = 0 then .ok s else s.combine op ty (a.dword p.env rf 0).toNat (b.dword p.env rf 0).toNat n)
    fun _ s => s)

/-! ## DGSTR (R454) -/

/-- DGSTR waits for the fibre's accesses and for the records of its die that home has not acknowledged. -/
def State.digestWait (s : State) : Pre :=
  match s.noteOf with
  | none => if s.settled && s.unacked s.iss.fibre true == ([], []) then .ok s else .wait (s.noteWait true)
  | some n => if !s.settled || s.owes n true then .wait s.hold else .ok s.dropWait

/-- DGSTR (R424, R454). -/
def execDgstr (h : Hdr) (d : Opd) (s : State) : Host.Outcome State Fault Refusal :=
  .next (s.perBeat h { Uses.nil with wr := [(d, 2)], uni := true } (fun _ s => s.digestWait)
    (fun p _ s =>
      let fd := (s.cohort? s.me.pos.cohort).elim 0 fun c => tget 0 c.fds s.me.pos.lidx
      .ok (s.putMy (d.putD p.env s.myRf 0 fd)))
    fun _ s => s)

end Sys2Proof.Machine
end

