-- ==== Sys2Proof/Machine/Surroundings.lean ====
section
/-! DEFINITION. Changes that no row of the table names: the host's stores to its own memory and the completions it poisons, records sent, evictions, write-backs (R23, R89, R94, R119, R132, R278). -/

namespace Sys2Proof.Machine

/-- The effect of a choice that is neither an issue nor a device step. -/
def State.surround (s : State) : Choice → State
  | .hostStore pa data => if isHost pa && pa + data.length ≤ 2 ^ 52 then
      { s with mem := memWrite s.mem pa data, memBad := without s.memBad pa data.length } else s
  | .hostPoison pa => if isHost pa && pa < 2 ^ 52 && !s.memBad.contains pa then { s with memBad := pa :: s.memBad } else s
  | .sendRecord die index => s.sendRecord die index
  | .evictL1 core line => s.dropL1 core line
  | .evictConst cluster line => s.modClu cluster fun c => { c with const := c.const.filter (·.line != line) }
  | .evictCopy die line => s.dropCopy die line
  | .evictCode core line => s.modCore core fun c => { c with icache := c.icache.filter (·.line != line) }
  | .evictTlb core asid va =>
    let keep := fun (e : TlbEntry) => !(e.asid == asid && e.base ≤ va && va < e.base + e.size)
    if core < 384 then s.modCore core fun c => { c with tlb := c.tlb.filter keep }
    else if core < 480 then s.modClu (core - 384) fun c => { c with tlb := c.tlb.filter keep }
    else if core < 482 then s.modDie (core - 480) fun d => { d with wcache := d.wcache.filter fun w => !(w.asid == asid && w.index == va / 2 ^ w.level) }
    else s
  | .writeBack line => s.modDie (homeOf (line * 128)) fun d => { d with dirty := tdel d.dirty line }
  | .feedBatch die win => s.feedBatch die win
  | .issue _ | .issueSome _ _ | .cycle _ | .event _ | .idle => s

/-- The parts a choice names exist. -/
def choiceOk : Choice → Bool
  | .issue l | .issueSome l _ => laneOk l
  | .event i => i.wf
  | .cycle core | .evictL1 core _ | .evictCode core _ => coreOk core
  | .evictConst cluster _ => clusterOk cluster
  | .evictCopy die _ | .feedBatch die _ | .sendRecord die _ => dieOk die
  | .hostStore _ _ | .hostPoison _ | .evictTlb _ _ _ | .writeBack _ | .idle => true

/-- The choice a step takes: the head of the agenda, or a free one (R2, R175). -/
def State.choice (s : State) : Choice :=
  match s.agenda with
  | c :: _ => c
  | [] => Config.freeChoice s.tick

/-- The state after its choice is taken: the agenda is shorter and time has moved on. -/
def State.ticked (s : State) : State := { s with tick := s.tick + 1, agenda := s.agenda.drop 1 }

/-! ## One instruction placed for the next step -/

/-- The virtual and physical address of the instruction that `State.placeWord` places. -/
def fetchBase : Nat := 65536

/-- The position of the fibre that runs a placed instruction: fibre 0 of a cohort of one fibre of width 8. -/
def placedPos : Position :=
  { launch := 0, cohort := 0, fib := 0, lidx := 0, stage := 0, width := 8, key := [0], bsbase := 2 ^ 30, plim := 1024, shlo := 0, shn := 0, det := false }

/-- The launch of a placed instruction. -/
def placedLaunch : Launch :=
  { (default : Launch) with
    desc := { (default : Desc) with pc := fetchBase, width := 8, stages := 1, slots := 1, z := 0, plim := 1024, bsbase := 2 ^ 30, gx := 1, gy := 1, gz := 1 }
    left := 1 }

/-- The leaf entry of the placed page: valid, writable, executable, frame 1 of die 0 (R74). -/
def placedLeaf : Dword := 0x1000F

/-- The bytes of an instruction placed for a fibre on lane 0 of die 0's first core. -/
def State.placeWord (s : State) (bytes : List Byte) : State :=
  { s with
    agenda := [.issue 0]
    mem := memWrite s.mem fetchBase bytes
    launches := tput s.launches 0 placedLaunch
    cohorts := tput s.cohorts 0 { (default : Cohort) with slots := [0] }
    lanes := tput s.lanes 0 .reset
    cores := tput s.cores 0 { s.core 0 with icache := [], tlb := [{ asid := 0, base := fetchBase, size := 65536, entry := placedLeaf }] }
    fibres := tput s.fibres 0 (Fibre.fresh placedPos (BitVec.ofNat 56 fetchBase)) }

end Sys2Proof.Machine
end

