-- ==== Sys2Proof/Machine/System.lean ====
section
/-! DEFINITION. Control and status registers, counters and the feature mask: CSRR, CSRW, CLOCK and FEATR (R457 to R461). -/

namespace Sys2Proof.Machine

/-- A control and status register of a fibre at a cycle of its core (R457). -/
def Fibre.csr (x : Fibre) (now n : Nat) : Word :=
  if n = 0 then x.regs.flagsWord
  else if n = 1 then x.exctl
  else if n = 2 then x.div.divst
  else if n = 3 then x.regs.tvec.setWidth 32
  else if n = 4 then (x.regs.tvec >>> 32).setWidth 32
  else if n = 5 then x.count now
  else if n = 6 then x.regs.hstat
  else BitVec.ofNat 32 ((x.div.jreg ((n - 0x20) / 6)).toNat / 2 ^ (32 * ((n - 0x20) % 6)))

/-- A control and status register written (R170, R457 to R459): a 0 to SBCHK is ignored while DETM = 1, a write of COUNT ends a pending TIMER. -/
def Fibre.putCsr (x : Fibre) (now n : Nat) (v : Word) : Fibre :=
  let r := x.regs
  let r :=
    if n = 0 then r.writeFlags v
    else if n = 1 then { r with sbchk := v.getLsbD 0 || (r.sbchk && x.pos.det) }
    else if n = 3 then { r with tvec := r.tvec.extractLsb' 32 24 ++ (v.extractLsb' 2 30 ++ (0 : BitVec 2)) }
    else if n = 4 then { r with tvec := v.extractLsb' 0 24 ++ r.tvec.extractLsb' 0 32 }
    else if n = 5 then { r with ttimer := v, tbase := now, timp := false }
    else r
  { x with regs := r }

/-- CSRR (R457). -/
def execCsrr (h : Hdr) (d : Opd) (n : BitVec 8) (s : State) : Host.Outcome State Fault Refusal :=
  if n == 0 && s.unsettled then .next s.hold
  else
    let v := s.me.csr (s.nowOf s.iss.fibre) n.toNat
    .next (s.compute h { Uses.nil with wr := [(d, 1)], uni := true } fun env b rf => d.put env rf 0 b v)

/-- CSRW (R457). -/
def execCsrw (h : Hdr) (n : BitVec 8) (x : Src) (s : State) : Host.Outcome State Fault Refusal :=
  if n == 0 && s.unsettled then .next s.hold
  else
    .next (s.perBeat h { Uses.nil with rd := srcGroup x 1, uni := true } (fun _ s => .ok s)
      (fun p _ s =>
        let v := x.word p.env s.myRf false 0 0
        .ok (s.modFib s.iss.fibre fun y => y.putCsr (s.nowOf s.iss.fibre) n.toNat v))
      fun _ s => s)

/-- CLOCK: the counter of the issuing core or of its die (R460). -/
def execClock (h : Hdr) (dieClock : Bool) (d : Opd) (s : State) : Host.Outcome State Fault Refusal :=
  let f := s.iss.fibre
  let c := s.clock (dieOfFibre f) (if dieClock then 384 + dieOfFibre f else coreOfFibre f)
  .next (s.compute h { Uses.nil with wr := [(d, 2)], uni := true } fun env b rf => d.putD env rf b (BitVec.ofNat 64 c))

/-- FEATR: a word of the enabled mask or of the feature register; an index from 16 upward reads 0 (R461). -/
def execFeatr (h : Hdr) (hw : Bool) (d a : Opd) (s : State) : Host.Outcome State Fault Refusal :=
  let r := (s.die (dieOfFibre s.iss.fibre)).r
  let m := if hw then r.feathw else r.featen
  .next (s.compute h { Uses.nil with rd := [(a, 1)], wr := [(d, 1)], uni := true } fun env b rf =>
    let i := (a.word env rf 0 b).toNat
    d.put env rf 0 b (if i < 16 then m.extractLsb' (32 * i) 32 else 0))

end Sys2Proof.Machine
end

