-- ==== Sys2Proof/Machine/Tasks.lean ====
section
/-! DEFINITION. Tasks from fibres: EMIT, TSPAWN, CONDW and GRUN (R405, R408 to R411, R448 to R451). -/

namespace Sys2Proof.Machine

/-- The wait of a release at `.pkg` before the first beat (R448, R449, R451). -/
def pkgRelease (p : Plan) (s : State) : Pre := relPre { scope := some .pkg, ord := .rel, x := false } p s

/-! ## EMIT (R448) -/

/-- The bin whose control block lies at an address, with its number: one that the walker has, or one that it makes from the block (R409). None
where the node is no bin, or is closed, skipped or in error. -/
def State.openBin (s : State) (die asid va : Nat) (blk : Block) : Option (Nat × Bin) × State :=
  match s.nodeAt die asid va with
  | some k =>
    match s.bin? die k, s.node? die k with
    | some b, some n => (if b.closed || n.state = 5 then none else some (k, b), s)
    | _, _ => (none, s)
  | none =>
    if blk.kind != 2 || 3 ≤ blk.w0 / 256 % 8 then (none, s)
    else match (if blk.sound then (wkBin die asid blk).exec s else (.error 1, s)) with
      | (.error e, s) => (none, s.nodeError die asid va e)
      | (.ok b, s) =>
        let (k, s) := s.addNode die (.make asid va 2 0)
        (some (k, b), s.setBin die k b)

/-- The die whose walker has the bin at an address: that of the launch's graph, or the peer where the node is known only there (R409). -/
def State.binDie (s : State) (die asid va : Nat) : Nat :=
  if (s.nodeAt die asid va).isNone && (s.nodeAt (otherDie die) asid va).isSome then otherDie die else die

/-- The bytes of a record of the bin at an address, as far as they can be told without changing anything: they say which registers an EMIT reads. -/
def State.recordBytes (s : State) (die asid va : Nat) : Nat :=
  match (wkBlock die asid va).exec s with
  | (.ok blk, _) => ((s.openBin die asid va blk).1).elim 16 (·.2.rsize)
  | _ => 16

/-- The registers of the longest record that the issuing EMIT's beats give. -/
def State.emitRegs (s : State) (h : Hdr) (a : Opd) : Nat :=
  let f := s.iss.fibre
  let x := s.me
  let act := x.regs.guarded h x.pos.width s.iss.run
  let env := s.envOf f x act
  (maskBeats x.pos.width act).foldl (fun n b =>
    let va := (a.dword env (s.rf f x) b).toNat
    max n (s.recordBytes (s.binDie (s.launchOf x).die (s.asidOf x) va) (s.asidOf x) va / 4)) 1

/-- A record group that passes the last register of its file (R44, R448). -/
def passesLast (b : Opd) (n : Nat) : Bool :=
  match b with
  | .v k => 1024 < k.toNat + n
  | .s k => 128 < k.toNat + n
  | .sp _ | .sz => false

/-- A record enters its bin: written to its slot at home, then counted (R409 to R411). -/
def State.emitTo (s : State) (die key ring : Nat) (bin : Bin) (va : Nat) (data : List Byte) : Beat :=
  let f := s.iss.fibre
  let x := s.me
  let slot := bin.store + bin.recordAt ring (bin.ring ring).next * bin.rsize
  match s.openAccess clsStore .store false false slot bin.rsize 0 with
  | .error e => e
  | .ok (_, segs, s) =>
    let s := s.putSegs segs data
    let s := s.modFib f fun x => { x with emits := tput x.emits va (tget 0 x.emits va + 1) }
    .ok (if bin.desc.det then s.setBin die key (bin.keep ring x.pos.key (tget 0 x.emits va))
      else (s.setBin die key (bin.accept ring (s.dieNow die))).launchGroups die key)

/-- One beat of EMIT (R410, R411, R448). -/
def State.emitBeat (s : State) (p : Plan) (t : Nat) (a b : Opd) : Beat :=
  let f := s.iss.fibre
  let x := s.me
  let va := (a.dword p.env s.myRf t).toNat
  let die := s.binDie (s.launchOf x).die (s.asidOf x) va
  match s.openAccess clsLoad .load false true va 64 64 with
  | .error e => e
  | .ok (_, segs, s) =>
    if !s.reaches (dieOfFibre f) die then .stop .homeAbsent (addr64 va) s
    else
      let (bytes, s) := s.readSegs f (Access.make .load va segs 64 .b32 .none 0) segs
      match s.openBin die (s.asidOf x) va (.ofBytes bytes) with
      | (none, s) => .stop .binBad (addr64 va) s
      | (some (key, bin), s) =>
        let ws := b.words p.env s.myRf (bin.rsize / 4) t
        let w0 := (nth 0 ws 0).toNat
        let ring := if bin.ord then w0 else 0
        if bin.ord && bin.nkey ≤ w0 then .stop .binBad (addr64 va) s
        else if bin.fullRing ring then if bin.desc.det then .stop .binBad (addr64 va) s else .sleep (.binFull key ring) (addr64 va) s
        else s.emitTo die key ring bin va (wordBytes bin.rsize ws)

/-- EMIT (R448). -/
def execEmit (h : Hdr) (a b : Opd) (s : State) : Host.Outcome State Fault Refusal :=
  let n := s.emitRegs h a
  .next <| if passesLast b n then s.trapPre .illop 0 else
    s.perBeat h { Uses.nil with rd := [(a, 2), (b, n)], uni := !(a.perThread || b.perThread) } pkgRelease (fun p t s => s.emitBeat p t a b) fun _ s => s

/-! ## TSPAWN (R449) -/

/-- The task of a record joins the placement queue of the issuing die; its descriptor is read when it is placed. A record that is refused is not
run, and its node will end with ERR 1; it counts as a TSPAWN that the fibre has issued (R418). -/
def State.spawn (s : State) (rec : List Byte) : State :=
  let f := s.iss.fibre
  let x := s.me
  let die := dieOfFibre f
  let l := s.launchOf x
  let s := s.modFib f fun x => { x with nspawn := x.nspawn + 1 }
  if recordBad rec then
    (s.modDieRegs die fun r => { r with twerrcnt := satInc r.twerrcnt }).modNode l.die l.node fun n => { n with err := if n.err = 0 then 1 else n.err }
  else
    let t := { Launch.make l.die l.node l.asid ((default : Desc).task rec) (x.pos.key ++ [x.nspawn]) [] with spawner := some die }
    let id := s.nextId
    let s : State := { s with nextId := id + 1, launches := tput s.launches id t }
    let s := s.modNode l.die l.node fun n => { n with left := n.left + 1 }
    (s.modDie die fun d => { d with spawned := d.spawned + 1 }).enqueue die id 0 false (some (fieldAt rec 8 8))

/-- TSPAWN (R449). -/
def execTspawn (h : Hdr) (a : Opd) (off : BitVec 32) (s : State) : Host.Outcome State Fault Refusal :=
  let ea := fun (p : Plan) (s : State) => (a.dword p.env s.myRf 0 + off.signExtend 64).toNat
  .next (s.perBeat h { Uses.nil with rd := [(a, 2)], uni := true }
    (fun p s =>
      let va := ea p s
      if 2 ^ 56 ≤ va then .stop .vaBad (addr64 va) s
      else if va % 64 != 0 then .stop .memAlign (addr64 va) s
      else if 4096 ≤ (s.die (dieOfFibre s.iss.fibre)).spawned then .sleep .spawnLimit s
      else pkgRelease p s)
    (fun p _ s =>
      let va := ea p s
      match s.openAccess clsLoad .load false true va 64 64 with
      | .error e => e
      | .ok (_, segs, s) =>
        let (bytes, s) := s.readSegs s.iss.fibre (Access.make .load va segs 64 .b32 .none 0) segs
        .ok (s.spawn bytes))
    fun _ s => s)

/-! ## CONDW (R450) -/

/-- The lines of a CONDW are noted in its node, which does not retire before they are at home (R400, R450). -/
def State.noteCondw (s : State) (va : Nat) : State :=
  let l := s.launchOf s.me
  match s.lookup (coreOfFibre s.iss.fibre) l.asid va true false with
  | .ok p => s.modNode l.die l.node fun n => { n with condw := if n.condw.contains (lineOf p.pa) then n.condw else lineOf p.pa :: n.condw }
  | _ => s

/-- CONDW (R450). -/
def execCondw (h : Hdr) (a : Opd) (x : Src) (s : State) : Host.Outcome State Fault Refusal :=
  let u := { Uses.nil with rd := (a, 2) :: srcGroup x 1, uni := true }
  .next (s.perBeat h u (fun _ s => .ok s)
    (fun p t s =>
      let va := (a.dword p.env s.myRf 0).toNat
      match s.storeBeat u p t va (wordBytes 4 [x.word p.env s.myRf false 0 0]) 4 with
      | .ok s => .ok (s.noteCondw va)
      | e => e)
    fun _ s => s)

/-! ## GRUN (R451) -/

/-- GRUN (R451). -/
def execGrun (h : Hdr) (a : Opd) (off : BitVec 32) (s : State) : Host.Outcome State Fault Refusal :=
  let ea := fun (p : Plan) (s : State) => (a.dword p.env s.myRf 0 + off.signExtend 64).toNat
  .next (s.perBeat h { Uses.nil with rd := [(a, 2)], uni := true }
    (fun p s =>
      let va := ea p s
      if 2 ^ 56 ≤ va then .stop .vaBad (addr64 va) s
      else if va % 64 != 0 then .stop .memAlign (addr64 va) s
      else if 256 ≤ (s.die (dieOfFibre s.iss.fibre)).subs.length then .sleep .grun s
      else pkgRelease p s)
    (fun p _ s =>
      .ok (s.submit (dieOfFibre s.iss.fibre) { node := ea p s, asid := s.asidOf s.me, grun := true }))
    fun _ s => s)

end Sys2Proof.Machine
end

