-- ==== Sys2Proof/Machine/Dispatch.lean ====
section
/-! DEFINITION. The meaning of each instruction and device step, one arm per constructor. -/

namespace Sys2Proof.Machine

def exec (i : Instr) (s : State) : Host.Outcome State Fault Refusal :=
  match i with
  | .nop h => Sys2Proof.Machine.execNop h s
  | .bra h off => Sys2Proof.Machine.execBra h off s
  | .brx h a => Sys2Proof.Machine.execBrx h a s
  | .call h d sl off => Sys2Proof.Machine.execCall h d sl off s
  | .callx h d a sl => Sys2Proof.Machine.execCallx h d a sl s
  | .ret h a => Sys2Proof.Machine.execRet h a s
  | .join h n off => Sys2Proof.Machine.execJoin h n off s
  | .joinPush h off => Sys2Proof.Machine.execJoinPush h off s
  | .jdrop h n => Sys2Proof.Machine.execJdrop h n s
  | .wait h n => Sys2Proof.Machine.execWait h n s
  | .waitPop h => Sys2Proof.Machine.execWaitPop h s
  | .exit h => Sys2Proof.Machine.execExit h s
  | .yield h => Sys2Proof.Machine.execYield h s
  | .mcall h n p0 p1 p2 p3 p4 p5 p6 p7 => Sys2Proof.Machine.execMcall h n p0 p1 p2 p3 p4 p5 p6 p7 s
  | .mdef h a n c => Sys2Proof.Machine.execMdef h a n c s
  | .fbar h b mask p => Sys2Proof.Machine.execFbar h b mask p s
  | .fwinGet h d => Sys2Proof.Machine.execFwinGet h d s
  | .fwinSet h a => Sys2Proof.Machine.execFwinSet h a s
  | .ldg h q ty qw touch d a b off => Sys2Proof.Machine.execLdg h q ty qw touch d a b off s
  | .stg h q ty qw d a b off => Sys2Proof.Machine.execStg h q ty qw d a b off s
  | .lde h q ty touch d a b c off => Sys2Proof.Machine.execLde h q ty touch d a b c off s
  | .lds h q ty qw touch d a b off => Sys2Proof.Machine.execLds h q ty qw touch d a b off s
  | .sts h q ty qw d a b off => Sys2Proof.Machine.execSts h q ty qw d a b off s
  | .ldc h ty qw touch d a b off => Sys2Proof.Machine.execLdc h ty qw touch d a b off s
  | .ldfe h clr ty qw d a b off => Sys2Proof.Machine.execLdfe h clr ty qw d a b off s
  | .stfe h ty qw d a b off => Sys2Proof.Machine.execStfe h ty qw d a b off s
  | .feset h full a b off => Sys2Proof.Machine.execFeset h full a b off s
  | .atomg h q op ty d a b c => Sys2Proof.Machine.execAtomg h q op ty d a b c s
  | .atoms h q op ty d a b c => Sys2Proof.Machine.execAtoms h q op ty d a b c s
  | .redg h q op ty a b => Sys2Proof.Machine.execRedg h q op ty a b s
  | .pref h l1 touch a b off => Sys2Proof.Machine.execPref h l1 touch a b off s
  | .fence h ord scope => Sys2Proof.Machine.execFence h ord scope s
  | .icinv h scope a b => Sys2Proof.Machine.execIcinv h scope a b s
  | .cinv h kind => Sys2Proof.Machine.execCinv h kind s
  | .cwb h a b => Sys2Proof.Machine.execCwb h a b s
  | .marm h a b => Sys2Proof.Machine.execMarm h a b s
  | .mwait h d a => Sys2Proof.Machine.execMwait h d a s
  | .tcopy h ck d a b tb tnm1 => Sys2Proof.Machine.execTcopy h ck d a b tb tnm1 s
  | .acopy h ck path d a b entry => Sys2Proof.Machine.execAcopy h ck path d a b entry s
  | .barinit h a n => Sys2Proof.Machine.execBarinit h a n s
  | .barexp h a n => Sys2Proof.Machine.execBarexp h a n s
  | .bararv h d a p => Sys2Proof.Machine.execBararv h d a p s
  | .barwt h a b => Sys2Proof.Machine.execBarwt h a b s
  | .barcont h a b off => Sys2Proof.Machine.execBarcont h a b off s
  | .subs h d a b logn dir => Sys2Proof.Machine.execSubs h d a b logn dir s
  | .rrel h a n => Sys2Proof.Machine.execRrel h a n s
  | .rfin h a n => Sys2Proof.Machine.execRfin h a n s
  | .wqry h a b => Sys2Proof.Machine.execWqry h a b s
  | .rmtw h ty d a entry off => Sys2Proof.Machine.execRmtw h ty d a entry off s
  | .rmtr h ty d a entry off => Sys2Proof.Machine.execRmtr h ty d a entry off s
  | .iadd h ty co ci d a b => Sys2Proof.Machine.execIadd h ty co ci d a b s
  | .isub h ty co ci d a b => Sys2Proof.Machine.execIsub h ty co ci d a b s
  | .iadd3 h ty d a b c => Sys2Proof.Machine.execIadd3 h ty d a b c s
  | .imul h ty d a b => Sys2Proof.Machine.execImul h ty d a b s
  | .imulh h ty d a b => Sys2Proof.Machine.execImulh h ty d a b s
  | .imad h ty d a b c => Sys2Proof.Machine.execImad h ty d a b c s
  | .imadw h ty d a b c => Sys2Proof.Machine.execImadw h ty d a b c s
  | .ineg h ty d a => Sys2Proof.Machine.execIneg h ty d a s
  | .iabs h ty d a => Sys2Proof.Machine.execIabs h ty d a s
  | .imin h ty d a b => Sys2Proof.Machine.execImin h ty d a b s
  | .imax h ty d a b => Sys2Proof.Machine.execImax h ty d a b s
  | .ishl h ty d a b => Sys2Proof.Machine.execIshl h ty d a b s
  | .ishr h ty d a b => Sys2Proof.Machine.execIshr h ty d a b s
  | .isar h ty d a b => Sys2Proof.Machine.execIsar h ty d a b s
  | .rot h ty d a b => Sys2Proof.Machine.execRot h ty d a b s
  | .land h ty d a b => Sys2Proof.Machine.execLand h ty d a b s
  | .lor h ty d a b => Sys2Proof.Machine.execLor h ty d a b s
  | .lxor h ty d a b => Sys2Proof.Machine.execLxor h ty d a b s
  | .lnot h ty d a => Sys2Proof.Machine.execLnot h ty d a s
  | .bfn3 h lut d a b c => Sys2Proof.Machine.execBfn3 h lut d a b c s
  | .popc h ty d a => Sys2Proof.Machine.execPopc h ty d a s
  | .clz h ty d a => Sys2Proof.Machine.execClz h ty d a s
  | .ctz h ty d a => Sys2Proof.Machine.execCtz h ty d a s
  | .brev h ty d a => Sys2Proof.Machine.execBrev h ty d a s
  | .bfe h ty d a b => Sys2Proof.Machine.execBfe h ty d a b s
  | .bfi h d a b c => Sys2Proof.Machine.execBfi h d a b c s
  | .bysel h d a b sel => Sys2Proof.Machine.execBysel h d a b sel s
  | .iset h ty cmp p a b => Sys2Proof.Machine.execIset h ty cmp p a b s
  | .isel h ty p neg d a b => Sys2Proof.Machine.execIsel h ty p neg d a b s
  | .lea h ty sh d a b => Sys2Proof.Machine.execLea h ty sh d a b s
  | .mov h ty d a => Sys2Proof.Machine.execMov h ty d a s
  | .movi h ty d x => Sys2Proof.Machine.execMovi h ty d x s
  | .pset h lut pd pa pb pc => Sys2Proof.Machine.execPset h lut pd pa pb pc s
  | .fadd h rm na nb d a b => Sys2Proof.Machine.execFadd h rm na nb d a b s
  | .fmul h rm na nb d a b => Sys2Proof.Machine.execFmul h rm na nb d a b s
  | .ffma h rm na nb nc d a b c => Sys2Proof.Machine.execFfma h rm na nb nc d a b c s
  | .fmin h d a b => Sys2Proof.Machine.execFmin h d a b s
  | .fmax h d a b => Sys2Proof.Machine.execFmax h d a b s
  | .fset h cmp p a b => Sys2Proof.Machine.execFset h cmp p a b s
  | .frcp h rm d a => Sys2Proof.Machine.execFrcp h rm d a s
  | .frsq h d a => Sys2Proof.Machine.execFrsq h d a s
  | .fsqrt h rm d a => Sys2Proof.Machine.execFsqrt h rm d a s
  | .fex2 h d a => Sys2Proof.Machine.execFex2 h d a s
  | .flg2 h d a => Sys2Proof.Machine.execFlg2 h d a s
  | .fsin h d a => Sys2Proof.Machine.execFsin h d a s
  | .fcos h d a => Sys2Proof.Machine.execFcos h d a s
  | .frnd h rm d a => Sys2Proof.Machine.execFrnd h rm d a s
  | .fclass h ty d a => Sys2Proof.Machine.execFclass h ty d a s
  | .dadd h rm na nb d a b => Sys2Proof.Machine.execDadd h rm na nb d a b s
  | .dmul h rm na nb d a b => Sys2Proof.Machine.execDmul h rm na nb d a b s
  | .dfma h rm na nb nc d a b c => Sys2Proof.Machine.execDfma h rm na nb nc d a b c s
  | .dset h cmp p a b => Sys2Proof.Machine.execDset h cmp p a b s
  | .hadd2 h ty rm na nb d a b => Sys2Proof.Machine.execHadd2 h ty rm na nb d a b s
  | .hmul2 h ty rm na nb d a b => Sys2Proof.Machine.execHmul2 h ty rm na nb d a b s
  | .hfma2 h ty rm na nb nc d a b c => Sys2Proof.Machine.execHfma2 h ty rm na nb nc d a b c s
  | .cvt h rm dfmt sfmt d a rs => Sys2Proof.Machine.execCvt h rm dfmt sfmt d a rs s
  | .pack h rm fmt lm1 d a rs => Sys2Proof.Machine.execPack h rm fmt lm1 d a rs s
  | .fstk h d a => Sys2Proof.Machine.execFstk h d a s
  | .xch h ty wrap d a b => Sys2Proof.Machine.execXch h ty wrap d a b s
  | .vote h mode na pd pa => Sys2Proof.Machine.execVote h mode na pd pa s
  | .ballot h ty na d pa => Sys2Proof.Machine.execBallot h ty na d pa s
  | .scan h ty op exc d a b => Sys2Proof.Machine.execScan h ty op exc d a b s
  | .redx h ty op d a b => Sys2Proof.Machine.execRedx h ty op d a b s
  | .matchB h ty d a => Sys2Proof.Machine.execMatchB h ty d a s
  | .first h ty d a => Sys2Proof.Machine.execFirst h ty d a s
  | .rand h count inc d b c => Sys2Proof.Machine.execRand h count inc d b c s
  | .mxcfg h x => Sys2Proof.Machine.execMxcfg h x s
  | .mxpre h x => Sys2Proof.Machine.execMxpre h x s
  | .mxpost h w x => Sys2Proof.Machine.execMxpost h w x s
  | .unf h w x => Sys2Proof.Machine.execUnf h w x s
  | .kset h k fibSet d a b count => Sys2Proof.Machine.execKset h k fibSet d a b count s
  | .sign h k a => Sys2Proof.Machine.execSign h k a s
  | .mxwait h k scope => Sys2Proof.Machine.execMxwait h k scope s
  | .mxdrain h k dst rel d a ctl => Sys2Proof.Machine.execMxdrain h k dst rel d a ctl s
  | .mxclr h k => Sys2Proof.Machine.execMxclr h k s
  | .mxstat h k d => Sys2Proof.Machine.execMxstat h k d s
  | .tlds h t a ctl => Sys2Proof.Machine.execTlds h t a ctl s
  | .edgec h d a b => Sys2Proof.Machine.execEdgec h d a b s
  | .txw h mode tb d a b => Sys2Proof.Machine.execTxw h mode tb d a b s
  | .emit h a b => Sys2Proof.Machine.execEmit h a b s
  | .tspawn h a off => Sys2Proof.Machine.execTspawn h a off s
  | .condw h a x => Sys2Proof.Machine.execCondw h a x s
  | .grun h a off => Sys2Proof.Machine.execGrun h a off s
  | .rstg h ty op a b => Sys2Proof.Machine.execRstg h ty op a b s
  | .rcmb h ty op a b => Sys2Proof.Machine.execRcmb h ty op a b s
  | .dgstr h d => Sys2Proof.Machine.execDgstr h d s
  | .trap h code => Sys2Proof.Machine.execTrap h code s
  | .rett h => Sys2Proof.Machine.execRett h s
  | .prdone h => Sys2Proof.Machine.execPrdone h s
  | .csrr h d n => Sys2Proof.Machine.execCsrr h d n s
  | .csrw h n x => Sys2Proof.Machine.execCsrw h n x s
  | .clock h dieClock d => Sys2Proof.Machine.execClock h dieClock d s
  | .featr h hw d a => Sys2Proof.Machine.execFeatr h hw d a s
  | .unimpDispatch w => Sys2Proof.Machine.execUnimpDispatch w s
  | .powerOnBoot die o => Sys2Proof.Machine.execPowerOnBoot die o s
  | .dieReset die => Sys2Proof.Machine.execDieReset die s
  | .bridgeTrained => Sys2Proof.Machine.execBridgeTrained s
  | .peerAbsent die => Sys2Proof.Machine.execPeerAbsent die s
  | .inflightHomeAbsent fibre index => Sys2Proof.Machine.execInflightHomeAbsent fibre index s
  | .responseArrival die link inc tag poisoned data => Sys2Proof.Machine.execResponseArrival die link inc tag poisoned data s
  | .hostApertureWrite die pa data poisoned => Sys2Proof.Machine.execHostApertureWrite die pa data poisoned s
  | .hostApertureRead die pa n => Sys2Proof.Machine.execHostApertureRead die pa n s
  | .hostFeedWindowWrite die off data poisoned => Sys2Proof.Machine.execHostFeedWindowWrite die off data poisoned s
  | .hostFeedDoorbell die window value poisoned => Sys2Proof.Machine.execHostFeedDoorbell die window value poisoned s
  | .hostLinkDown die => Sys2Proof.Machine.execHostLinkDown die s
  | .hostWriteAccept die => Sys2Proof.Machine.execHostWriteAccept die s
  | .hostWriteAbandon die => Sys2Proof.Machine.execHostWriteAbandon die s
  | .rcError die port qpn => Sys2Proof.Machine.execRcError die port qpn s
  | .incomingRdmaWrite die pa data => Sys2Proof.Machine.execIncomingRdmaWrite die pa data s
  | .attestRequest die => Sys2Proof.Machine.execAttestRequest die s
  | .irqenWrite die x => Sys2Proof.Machine.execIrqenWrite die x s
  | .irqstatClear die x => Sys2Proof.Machine.execIrqstatClear die x s
  | .thermRefresh die temp => Sys2Proof.Machine.execThermRefresh die temp s
  | .thermWarnWrite die warn => Sys2Proof.Machine.execThermWarnWrite die warn s
  | .peerWindowWrite die entry dword x => Sys2Proof.Machine.execPeerWindowWrite die entry dword x s
  | .quarantineClear die q => Sys2Proof.Machine.execQuarantineClear die q s
  | .scrub die pa => Sys2Proof.Machine.execScrub die pa s
  | .ownchgGo => Sys2Proof.Machine.execOwnchgGo s
  | .ownchgComplete => Sys2Proof.Machine.execOwnchgComplete s
  | .tlbinvPage die both asid va => Sys2Proof.Machine.execTlbinvPage die both asid va s
  | .tlbinvAsid die both target => Sys2Proof.Machine.execTlbinvAsid die both target s
  | .tlbinvAll die w => Sys2Proof.Machine.execTlbinvAll die w s
  | .tlbinvDone die => Sys2Proof.Machine.execTlbinvDone die s
  | .fqsizeWrite die x => Sys2Proof.Machine.execFqsizeWrite die x s
  | .fqreplyRetry die index => Sys2Proof.Machine.execFqreplyRetry die index s
  | .fqreplyFail die index => Sys2Proof.Machine.execFqreplyFail die index s
  | .featreqWrite die x => Sys2Proof.Machine.execFeatreqWrite die x s
  | .registerWrite die priv off x => Sys2Proof.Machine.execRegisterWrite die priv off x s
  | .walkComplete die index => Sys2Proof.Machine.execWalkComplete die index s
  | .faultRecordAppend die index => Sys2Proof.Machine.execFaultRecordAppend die index s
  | .loadComplete fibre index => Sys2Proof.Machine.execLoadComplete fibre index s
  | .wtRecordAtHome die index => Sys2Proof.Machine.execWtRecordAtHome die index s
  | .wtAck die index => Sys2Proof.Machine.execWtAck die index s
  | .remoteAtomicResponse fibre index => Sys2Proof.Machine.execRemoteAtomicResponse fibre index s
  | .monitorArmRegistered die index => Sys2Proof.Machine.execMonitorArmRegistered die index s
  | .mwaitWake fibre => Sys2Proof.Machine.execMwaitWake fibre s
  | .mwaitTimeout fibre => Sys2Proof.Machine.execMwaitTimeout fibre s
  | .moraineGranulePush cluster ring granule => Sys2Proof.Machine.execMoraineGranulePush cluster ring granule s
  | .moraineSlotPulled cluster ring => Sys2Proof.Machine.execMoraineSlotPulled cluster ring s
  | .ringTailRead cluster ring => Sys2Proof.Machine.execRingTailRead cluster ring s
  | .ringError cluster ring => Sys2Proof.Machine.execRingError cluster ring s
  | .ringPause cluster ring => Sys2Proof.Machine.execRingPause cluster ring s
  | .copyStart cluster => Sys2Proof.Machine.execCopyStart cluster s
  | .copyChunk cluster index => Sys2Proof.Machine.execCopyChunk cluster index s
  | .copyComplete cluster index => Sys2Proof.Machine.execCopyComplete cluster index s
  | .copyFail cluster index => Sys2Proof.Machine.execCopyFail cluster index s
  | .regFillComplete fibre => Sys2Proof.Machine.execRegFillComplete fibre s
  | .regSpillComplete fibre block => Sys2Proof.Machine.execRegSpillComplete fibre block s
  | .laneQuantumExpiry lane => Sys2Proof.Machine.execLaneQuantumExpiry lane s
  | .passPost cluster k => Sys2Proof.Machine.execPassPost cluster k s
  | .passGrant cluster => Sys2Proof.Machine.execPassGrant cluster s
  | .passEnd cluster => Sys2Proof.Machine.execPassEnd cluster s
  | .drainComplete cluster => Sys2Proof.Machine.execDrainComplete cluster s
  | .wqryAnswer cluster index => Sys2Proof.Machine.execWqryAnswer cluster index s
  | .rmtrResponse fibre index ok data => Sys2Proof.Machine.execRmtrResponse fibre index ok data s
  | .rmtwAck die index ok => Sys2Proof.Machine.execRmtwAck die index ok s
  | .twsub die node asid => Sys2Proof.Machine.execTwsub die node asid s
  | .cohortPlace die => Sys2Proof.Machine.execCohortPlace die s
  | .cohortComplete index => Sys2Proof.Machine.execCohortComplete index s
  | .nodeRetire die index => Sys2Proof.Machine.execNodeRetire die index s
  | .conditionNodeEval die index => Sys2Proof.Machine.execConditionNodeEval die index s
  | .loopNodeRun die index => Sys2Proof.Machine.execLoopNodeRun die index s
  | .binTimerExpiry die index ring => Sys2Proof.Machine.execBinTimerExpiry die index ring s
  | .groupComplete die index => Sys2Proof.Machine.execGroupComplete die index s
  | .idemReexec index => Sys2Proof.Machine.execIdemReexec index s
  | .dgstMmSpawn index => Sys2Proof.Machine.execDgstMmSpawn index s
  | .trapEntry fibre => Sys2Proof.Machine.execTrapEntry fibre s
  | .timerExpiry fibre => Sys2Proof.Machine.execTimerExpiry fibre s
  | .prectlSave die w => Sys2Proof.Machine.execPrectlSave die w s
  | .prectlMigrate die cluster score sslot tcore => Sys2Proof.Machine.execPrectlMigrate die cluster score sslot tcore s
  | .prectlRestore die w => Sys2Proof.Machine.execPrectlRestore die w s
  | .preemptTaken fibre => Sys2Proof.Machine.execPreemptTaken fibre s
  | .forcedSave fibre => Sys2Proof.Machine.execForcedSave fibre s
  | .saveComplete die => Sys2Proof.Machine.execSaveComplete die s
  | .restoreComplete die => Sys2Proof.Machine.execRestoreComplete die s
  | .freezeActExit die => Sys2Proof.Machine.execFreezeActExit die s
  | .freezeActAbort die => Sys2Proof.Machine.execFreezeActAbort die s
  | .freezeActPop die => Sys2Proof.Machine.execFreezeActPop die s
  | .pcieLinkTrained die => Sys2Proof.Machine.execPcieLinkTrained die s
  | .connectionReestablished die port qpn => Sys2Proof.Machine.execConnectionReestablished die port qpn s
  | .softError site correctable => Sys2Proof.Machine.execSoftError site correctable s
  | .accessPerformedAtHome fibre index => Sys2Proof.Machine.execAccessPerformedAtHome fibre index s
  | .submissionStart die => Sys2Proof.Machine.execSubmissionStart die s

end Sys2Proof.Machine
end

