-- ==== Sys2Proof/Machine/Arbiter.lean ====
section
/-! DEFINITION. The four issue slots of a core and its ports: which lanes may start, and what losing an arbitration counts (R125, R175, R180, R181). -/

namespace Sys2Proof

/-- The registers that a source names. -/
def Src.opds : Src → List Opd
  | .reg o _ => [o]
  | .imm _ => []

/-- The register operands that an instruction names. -/
def Instr.opds (i : Instr) : List Opd :=
  match i with
  | .brx _ a | .ret _ a | .mdef _ a _ _ | .fwinSet _ a | .sign _ _ a | .tspawn _ a _ | .grun _ a _ => [a]
  | .call _ d _ _ | .fwinGet _ d | .movi _ _ d _ | .ballot _ _ _ d _ | .first _ _ d _ | .mxstat _ _ d | .dgstr _ d | .csrr _ d _
  | .clock _ _ d => [d]
  | .callx _ d a _ | .mwait _ d a | .bararv _ d a _ | .rmtw _ _ d a _ _ | .rmtr _ _ d a _ _ | .pack _ _ _ _ d a _ | .fstk _ d a
  | .featr _ _ d a => [d, a]
  | .ldg _ _ _ _ _ d a b _ | .stg _ _ _ _ d a b _ | .lds _ _ _ _ _ d a b _ | .sts _ _ _ _ d a b _ | .ldc _ _ _ _ d a b _
  | .ldfe _ _ _ _ d a b _ | .stfe _ _ _ d a b _ | .iadd _ _ _ _ d a b | .isub _ _ _ _ d a b | .imul _ _ d a b | .imulh _ _ d a b
  | .imin _ _ d a b | .imax _ _ d a b | .ishl _ _ d a b | .ishr _ _ d a b | .isar _ _ d a b | .rot _ _ d a b | .land _ _ d a b
  | .lor _ _ d a b | .lxor _ _ d a b | .bfe _ _ d a b | .bysel _ d a b _ | .isel _ _ _ _ d a b | .lea _ _ _ d a b | .fadd _ _ _ _ d a b
  | .fmul _ _ _ _ d a b | .fmin _ d a b | .fmax _ d a b | .dadd _ _ _ _ d a b | .dmul _ _ _ _ d a b | .hadd2 _ _ _ _ _ d a b
  | .hmul2 _ _ _ _ _ d a b | .xch _ _ _ d a b => [d] ++ a.opds ++ b.opds
  | .lde _ _ _ _ d a b c _ | .atomg _ _ _ _ d a b c | .atoms _ _ _ _ d a b c => [d] ++ a.opds ++ b.opds ++ c.toList
  | .feset _ _ a b _ | .pref _ _ _ a b _ | .icinv _ _ a b | .cwb _ a b | .barwt _ a b | .barcont _ a b _ | .wqry _ a b | .emit _ a b
  | .rcmb _ _ _ a b => [a, b]
  | .redg _ _ _ _ a b | .marm _ a b | .iset _ _ _ _ a b | .fset _ _ _ a b | .dset _ _ _ a b | .rstg _ _ _ a b => a.opds ++ b.opds
  | .tcopy _ _ d a b _ _ => [d, a] ++ b.toList
  | .acopy _ _ _ d a b _ => d.toList ++ [a] ++ b.toList
  | .barinit _ a n | .barexp _ a n | .rrel _ a n | .rfin _ a n => [a] ++ n.opds
  | .subs _ d a b _ _ | .kset _ _ _ d a b _ | .edgec _ d a b | .txw _ _ _ d a b => [d, a, b]
  | .iadd3 _ _ d a b c | .imad _ _ d a b c | .imadw _ _ d a b c | .bfn3 _ _ d a b c | .bfi _ d a b c | .ffma _ _ _ _ _ d a b c
  | .dfma _ _ _ _ _ d a b c | .hfma2 _ _ _ _ _ _ d a b c => [d] ++ a.opds ++ b.opds ++ [c]
  | .ineg _ _ d a | .iabs _ _ d a | .lnot _ _ d a | .popc _ _ d a | .clz _ _ d a | .ctz _ _ d a | .brev _ _ d a | .mov _ _ d a
  | .frcp _ _ d a | .frsq _ d a | .fsqrt _ _ d a | .fex2 _ d a | .flg2 _ d a | .fsin _ d a | .fcos _ d a | .frnd _ _ d a | .fclass _ _ d a
  | .cvt _ _ _ _ d a _ | .matchB _ _ d a => [d] ++ a.opds
  | .scan _ _ _ _ d a b | .redx _ _ _ d a b => [d] ++ a.opds ++ b.toList
  | .rand _ _ _ d b c => [d, b, c]
  | .mxcfg _ x | .mxpre _ x | .mxpost _ _ x | .unf _ _ x | .csrw _ _ x => x.opds
  | .mxdrain _ _ _ _ d a ctl => d.toList ++ a.toList ++ ctl.opds
  | .tlds _ _ a ctl => [a] ++ ctl.opds
  | .condw _ a x => [a] ++ x.opds
  | .nop .. | .bra .. | .join .. | .joinPush .. | .jdrop .. | .wait .. | .waitPop .. | .exit .. | .yield .. | .mcall .. | .fbar ..
  | .fence .. | .cinv .. | .pset .. | .vote .. | .mxwait .. | .mxclr .. | .trap .. | .rett .. | .prdone .. | .unimpDispatch ..
  | .powerOnBoot .. | .dieReset .. | .bridgeTrained | .peerAbsent .. | .inflightHomeAbsent .. | .responseArrival .. | .hostApertureWrite ..
  | .hostApertureRead .. | .hostFeedWindowWrite .. | .hostFeedDoorbell .. | .hostLinkDown .. | .hostWriteAccept .. | .hostWriteAbandon ..
  | .rcError .. | .incomingRdmaWrite .. | .attestRequest .. | .irqenWrite .. | .irqstatClear .. | .thermRefresh .. | .thermWarnWrite ..
  | .peerWindowWrite .. | .quarantineClear .. | .scrub .. | .ownchgGo | .ownchgComplete | .tlbinvPage .. | .tlbinvAsid .. | .tlbinvAll ..
  | .tlbinvDone .. | .fqsizeWrite .. | .fqreplyRetry .. | .fqreplyFail .. | .featreqWrite .. | .registerWrite .. | .walkComplete ..
  | .faultRecordAppend .. | .loadComplete .. | .wtRecordAtHome .. | .wtAck .. | .remoteAtomicResponse .. | .monitorArmRegistered ..
  | .mwaitWake .. | .mwaitTimeout .. | .moraineGranulePush .. | .moraineSlotPulled .. | .ringTailRead .. | .ringError .. | .ringPause ..
  | .copyStart .. | .copyChunk .. | .copyComplete .. | .copyFail .. | .regFillComplete .. | .regSpillComplete .. | .laneQuantumExpiry ..
  | .passPost .. | .passGrant .. | .passEnd .. | .drainComplete .. | .wqryAnswer .. | .rmtrResponse .. | .rmtwAck .. | .twsub ..
  | .cohortPlace .. | .cohortComplete .. | .nodeRetire .. | .conditionNodeEval .. | .loopNodeRun .. | .binTimerExpiry ..
  | .groupComplete .. | .idemReexec .. | .dgstMmSpawn .. | .trapEntry .. | .timerExpiry .. | .prectlSave .. | .prectlMigrate ..
  | .prectlRestore .. | .preemptTaken .. | .forcedSave .. | .saveComplete .. | .restoreComplete .. | .freezeActExit .. | .freezeActAbort ..
  | .freezeActPop .. | .pcieLinkTrained .. | .connectionReestablished .. | .softError .. | .accessPerformedAtHome .. | .submissionStart .. => []

end Sys2Proof

namespace Sys2Proof.Machine

/-! ## What starts (R175, R372) -/

/-- A lane tries its fibres and runs in turn, until one does more than wait (R175, R372). -/
def tryRuns (l : Nat) (s : State) : List (Nat × Option BeatMask) → Host.Outcome State Fault Refusal
  | [] => .next s
  | (f, run) :: rest =>
    let s1 := s.takeLane l f
    match (match run with | none => Offer.done (s1.boundaryTrap f) | some r => s1.offer f r) with
    | .done s2 => if s2.iss.held then tryRuns l s rest else .next s2
    | .run i s2 =>
      match exec i s2 with
      | .next s3 => if s3.iss.held then tryRuns l s rest else .next s3
      | .fault r => .fault r
      | .refused r => .refused r

/-- The instruction that a lane would start, with the state in which it would: none where it has only to wait, or takes a trap. -/
def contender (l : Nat) (s : State) : List (Nat × Option BeatMask) → Option (Instr × State)
  | [] => none
  | (f, run) :: rest =>
    let s1 := s.takeLane l f
    match (match run with | none => Offer.done (s1.boundaryTrap f) | some r => s1.offer f r) with
    | .done s2 => if s2.iss.held then contender l s rest else none
    | .run i s2 =>
      match exec i s2 with
      | .next s3 => if s3.iss.held then contender l s rest else some (i, s2)
      | .fault _ | .refused _ => some (i, s2)

/-! ## Ports (R125, R180) -/

/-- A port of a core. -/
inductive Port where
  | shared (group : Nat)
  | slice (i : Nat)
  | reservation
  | convergence
  deriving DecidableEq, Repr

/-- The offsets in its window that an instruction of the scratchpad addresses, those of its active beats (R261). -/
def State.padOffsets (s : State) (i : Instr) : List Int :=
  let f := s.iss.fibre
  let x := s.me
  let rf := s.rf f x
  let env := fun (h : Hdr) (a b : Src) =>
    let env := s.envOf f x (x.regs.guarded h x.pos.width s.iss.run)
    { env with xb := (Uses.pad [] [] a 1 b 1 false).collect env rf, both := permuted a && permuted b }
  let beats := fun (h : Hdr) (g : Nat → Int) => (maskBeats x.pos.width (x.regs.guarded h x.pos.width s.iss.run)).map g
  let one := fun (h : Hdr) (a : Opd) => beats h fun t => ((a.word (env h (.imm 0) (.imm 0)) rf 0 t).toNat : Int)
  match i with
  | .lds h _ _ _ _ _ a b off | .sts h _ _ _ _ a b off | .ldfe h _ _ _ _ a b off | .stfe h _ _ _ a b off => beats h fun t => padEa a b off (env h a b) rf t
  | .atoms h _ _ _ _ a _ _ => beats h fun t => ((a.word (env h a (.imm 0)) rf false 0 t).toNat : Int)
  | .feset h _ a _ off => beats h fun t => ((a.word (env h (.imm 0) (.imm 0)) rf 0 t).toNat : Int) + off.toInt
  | .barinit h a _ | .barexp h a _ | .bararv h _ a _ | .barwt h a _ | .rrel h a _ | .rfin h a _ | .subs h _ a _ _ _ => one h a
  | _ => []

/-- The ports that an instruction needs, on a lane (R125, R180). -/
def State.portsOf (s : State) (l : Nat) (i : Instr) : List Port :=
  let x := s.me
  let shared := i.opds.any fun o => match o.ref x.pos x.regs.woff 0 with | .shared _ => true | _ => false
  let slices := ((s.padOffsets i).map fun o => ((s.winBase x + o.toNat) / 2 ^ 18) % 4).eraseDups
  (if shared then [.shared (l % 16 / 4)] else []) ++ slices.map .slice
    ++ match i with
      | .kset .. | .sign .. => [.reservation, .convergence]
      | .mxstat .. => [.convergence]
      | _ => []

/-! ## Arbitration (R180) -/

/-- A lane that has an instruction to start, with what ranks it; `alone`: its cohort is executed again, on a core that starts one instruction at a time
(R426). -/
structure Rival where
  lane : Nat
  age : Nat
  losses : Nat
  key : List Nat
  det : Bool
  alone : Bool
  ports : List Port
  deriving DecidableEq, Repr

/-- A lane of a core as a rival, if it has an instruction to start. -/
def State.rival (s : State) (l : Nat) : Option Rival :=
  (contender l s (s.laneTries l)).map fun e =>
    { lane := l, age := (s.lane l).age, losses := (s.lane l).losses, key := e.2.me.pos.key, det := e.2.me.pos.det,
      alone := (s.cohort? e.2.me.pos.cohort).any (·.mode == .again), ports := e.2.portsOf l e.1 }

/-- The rivals of a core. -/
def State.rivals (s : State) (core : Nat) : List Rival := (upTo 16).filterMap fun i => s.rival (core * 16 + i)

/-- Whether a rival has the lower ordering key, or an equal one on a lower lane (R418). -/
def Rival.lower (a b : Rival) : Bool := keyLt a.key b.key || (a.key == b.key && a.lane < b.lane)

/-- Whether one of two rivals goes before the other: in free mode by age, in deterministic mode by ordering key once neither has lost 16 times more
than the other, then by lane; `free`: some contender is of free mode (R180, R418). -/
def Rival.before (free : Bool) (a b : Rival) : Bool :=
  if free then b.age < a.age || (a.age == b.age && a.lane < b.lane)
  else if 16 ≤ a.losses && b.losses < a.losses then true
  else if 16 ≤ b.losses && a.losses < b.losses then false
  else a.lower b

/-- How many rivals of a list go before one of them. -/
def Rival.rank (a : Rival) (rs : List Rival) : Nat := (rs.filter fun b => b.lane != a.lane && b.before (rs.any fun r => !r.det) a).length

/-- Whether a rival starts: it is among the four that the issue slots admit, and first at each port that it needs (R180); of a cohort that is executed
again the lowest starts (R426). -/
def Rival.wins (a : Rival) (rs : List Rival) : Bool :=
  if a.alone then rs.all fun b => b.lane == a.lane || a.lower b
  else a.rank rs < 4 && a.ports.all fun p => a.rank (rs.filter (·.ports.contains p)) == 0

/-- Whether a lane may start now: no other lane of its core contends, or it wins (R180). -/
def State.wins (s : State) (l : Nat) : Bool :=
  match ((upTo 16).map (l / 16 * 16 + ·)).filterMap fun k => if k == l then none else s.rival k with
  | [] => true
  | rs => (s.rival l).all fun a => a.wins (a :: rs)

/-- A lane has started: its counts begin anew, and those that needed a port of its have lost once more (R180). -/
def State.started (s : State) (l : Nat) : State :=
  match ((upTo 16).map (l / 16 * 16 + ·)).filterMap fun k => if k == l then none else s.rival k with
  | [] => s
  | rs => match s.rival l with
    | none => s
    | some a =>
      (rs.filter fun b => b.ports.any a.ports.contains).foldl (fun s b => s.setLane b.lane { s.lane b.lane with losses := b.losses + 1 })
        (s.setLane l { s.lane l with age := 0, losses := 0 })

/-- One cycle of a core: the lanes that have an instruction to start are a cycle older, and those beyond the four that may start have lost once more;
the counts of any other begin anew (R180). -/
def State.coreCycle (s : State) (core : Nat) : State :=
  let rs := s.rivals core
  ((upTo 16).map (core * 16 + ·)).foldl (fun t l =>
    match rs.find? fun (r : Rival) => r.lane == l with
    | some r => t.setLane l { t.lane l with age := r.age + 1, losses := if r.rank rs < 4 then r.losses else r.losses + 1 }
    | none => if (s.lane l).age = 0 && (s.lane l).losses = 0 then t else t.setLane l { t.lane l with age := 0, losses := 0 }) s

/-- A lane issues: nothing happens where it loses its arbitration (R175, R180). -/
def issueLane (l : Nat) (s : State) : Host.Outcome State Fault Refusal :=
  if s.wins l then tryRuns l (s.started l) (s.laneTries l) else .next s

end Sys2Proof.Machine
end

