-- ==== Sys2Proof/Machine/Step.lean ====
section
/-! DEFINITION. One step: the choice it takes, and what comes of it. -/

namespace Sys2Proof.Machine

/-- One step of the package: a lane issues, a device step happens, or the surroundings change (R2, R175, R180, R211). -/
def step (s : State) : Host.Outcome State Fault Refusal :=
  let s1 := { s.ticked with iss := .idle }
  if !choiceOk s.choice then .fault .noSuchPart
  else
    match s.choice with
    | .issue l => issueLane l s1
    | .issueSome l n => issueLane l { s1 with iss := { s1.iss with limit := some n } }
    | .cycle core => .next (s1.coreCycle core)
    | .event i => exec i s1
    | c => .next (s1.surround c)

/-! ## Placing one instruction where the next step fetches it -/

/-- The state with one instruction placed where its next step fetches it: a fibre on lane 0, its page in the core's TLB, the bytes in memory, and
that lane next on the agenda. -/
def State.withFetchWord (s : State) (nbits w : Nat) : State := s.placeWord (leBytes 16 (w % 2 ^ nbits))

end Sys2Proof.Machine
end

