-- ==== Sys2Proof/Safety.lean ====
section
/-! DEFINITION. What claims call a sound state, a fibre with nothing outstanding, an operand that its fibre can reach, the value of an operand, what an instruction wrote and what it left alone, and a safe run. -/

namespace Sys2Proof.Machine

/-- The memory keeps its canonical form. -/
def State.memOk (s : State) : Prop := Memory.wf s.mem = true

/-- A step that does not stop. -/
def safeStep (s : State) : Prop := ∃ t, step s = .next t

/-- The fibre that issues, to which nothing is owed and whose words are all resident and sound: no result is outstanding, no instruction is in
progress and none left off before, no block is spilled, no residue mismatches; its core has room for requests; and its lane starts every beat (R3, R98,
R155, R159, R166, R168, R180). -/
structure State.Settled (s : State) (x : Fibre) : Prop where
  here : s.fib? s.iss.fibre = some x
  pend : x.pend = []
  out : x.out = []
  mid : x.mid = none
  spilled : x.regs.spilled = []
  badV : x.regs.badV = []
  badS : x.regs.badS = []
  badPath : x.regs.badPath = []
  badCarry : x.regs.badCarry = []
  aluErr : x.regs.aluErr = none
  wait : x.wait = []
  doneAt : x.doneAt = none
  drained : x.drained = []
  levels : x.levels = []
  room : s.crowded s.iss.fibre = false
  limit : s.iss.limit = none
  badSh : (s.slot (slotOfFibre s.iss.fibre)).bad = []
  drains : ∀ d ∈ (s.clu (clusterOfFibre s.iss.fibre)).drains, d.fibre ≠ s.iss.fibre

/-- The active threads of an issue: those of the run whose guard is true (R163, R237). -/
def State.active (s : State) (h : Hdr) (x : Fibre) : BeatMask := x.regs.guarded h x.pos.width s.iss.run

/-- The beats that execute: every active one, or one alone where the instruction acts once for its fibre (R163, R165). -/
def State.beatsOf (s : State) (h : Hdr) (uni : Bool) (x : Fibre) : List Nat :=
  if s.active h x == 0 then [] else if uni then [0] else maskBeats x.pos.width (s.active h x)

/-- A register word of a fibre. -/
def State.word (s : State) (f : Nat) (r : Ref) (b : Nat) : Word := (s.fib? f).elim 0 fun x => (s.rf f x).read r b

/-- A predicate of a fibre at a thread. -/
def State.pred (s : State) (f : Nat) (p : BitVec 3) (b : Nat) : Bool := (s.fib? f).elim true fun x => x.regs.pred p b

end Sys2Proof.Machine

namespace Sys2Proof

open Machine

/-- A group of `n` registers that lies in the shared window or outside it, and within the fibre's registers (R151). -/
def Opd.Fits (o : Opd) (x : Fibre) (n : Nat) : Prop := o.mixes x.pos n = false ∧ Ref.none ∉ o.refs x.pos x.regs.woff n

/-- A source whose registers fit. -/
def Src.Fits (a : Src) (x : Fibre) (n : Nat) : Prop :=
  match a with
  | .reg o _ => o.Fits x n
  | .imm _ => True

/-- The value of an operand at a thread before the instruction: a register, or a pair where it is wide (R44, R148 to R151). -/
def Opd.value (o : Opd) (s : State) (x : Fibre) (wide : Bool) (b : Nat) : Nat := o.nat (s.envOf s.iss.fibre x 0) (s.rf s.iss.fibre x) wide b

/-- The value of a source at a thread: that of the thread its permutation names, zero where it names none (R156), or the immediate. -/
def Src.value (a : Src) (s : State) (x : Fibre) (wide : Bool) (b : Nat) : Nat :=
  match a with
  | .imm v => if wide then v.toNat else v.toNat % 2 ^ 32
  | .reg o p => match p.from x.pos.width b with
    | some q => o.value s x wide q
    | none => 0

end Sys2Proof

namespace Sys2Proof.Machine

/-- All of the state stands but for one fibre and the shared words of its slot: memory, dies, clusters, cores, lanes, launches, cohorts, images,
every other fibre, every other slot, the barriers of its slot. -/
structure State.Apart (s t : State) (f : Nat) : Prop where
  mem : t.mem = s.mem
  memBad : t.memBad = s.memBad
  memCe : t.memCe = s.memCe
  dies : t.dies = s.dies
  clusters : t.clusters = s.clusters
  cores : t.cores = s.cores
  lanes : t.lanes = s.lanes
  launches : t.launches = s.launches
  cohorts : t.cohorts = s.cohorts
  images : t.images = s.images
  half : t.half = s.half
  fibres : ∀ g, g ≠ f → t.fib? g = s.fib? g
  slots : ∀ k, k ≠ slotOfFibre f → t.slot k = s.slot k
  bars : (t.slot (slotOfFibre f)).bars = (s.slot (slotOfFibre f)).bars

/-- The control state of a fibre's registers stands: window offset, handler, timer, staging, arming (R68, R151, R186, R457 to R459). -/
structure Regs.Control (r q : Regs) : Prop where
  satarm : q.satarm = r.satarm
  sbchk : q.sbchk = r.sbchk
  woff : q.woff = r.woff
  tvec : q.tvec = r.tvec
  ttimer : q.ttimer = r.ttimer
  tbase : q.tbase = r.tbase
  timp : q.timp = r.timp
  inh : q.inh = r.inh
  prep : q.prep = r.prep
  hcause : q.hcause = r.hcause
  stg : q.stg = r.stg

/-- What an instruction that acts on registers alone leaves: everything apart from its fibre; of the fibre its position, accesses, monitors,
divergence and control state; and the threads of the run stand at the next instruction (R243, R384). -/
structure State.Stepped (s t : State) (x y : Fibre) : Prop where
  apart : s.Apart t s.iss.fibre
  here : t.fib? s.iss.fibre = some y
  pos : y.pos = x.pos
  out : y.out = x.out
  mon : y.mon = x.mon
  trap : y.trap = x.trap
  sleep : y.sleep = x.sleep
  div : y.div = x.div.mapThreads s.iss.run fun _ => s.iss.step
  control : x.regs.Control y.regs

/-- What an instruction that moves threads leaves: everything apart from its fibre and the words of its slot; of the fibre its position, accesses
and monitors; no trap and no sleep. -/
structure State.Kept (s t : State) (x y : Fibre) : Prop where
  apart : s.Apart t s.iss.fibre
  here : t.fib? s.iss.fibre = some y
  slot : t.slot (slotOfFibre s.iss.fibre) = s.slot (slotOfFibre s.iss.fibre)
  pos : y.pos = x.pos
  out : y.out = x.out
  mon : y.mon = x.mon
  trap : y.trap = x.trap
  sleep : y.sleep = x.sleep

/-- Where the threads of the fibre stand: the active ones where the instruction places them, the others of the run at the next instruction, the
rest where they were (R163, R384). -/
def State.Placed (s : State) (x : Fibre) (h : Hdr) (y : Fibre) (place : Nat → Thread → Thread) : Prop :=
  ∀ b : Nat, y.div.threads[b]? = (x.div.threads[b]?).map fun t =>
    if (s.active h x).getLsbD b then place b t else if s.iss.run.getLsbD b then s.iss.step t else t

/-- A control instruction places the active threads; registers, predicates, flags and the rest of the divergence stand. -/
structure State.Moved (s t : State) (x y : Fibre) (h : Hdr) (place : Nat → Thread → Thread) : Prop where
  kept : s.Kept t x y
  regs : y.regs = x.regs
  placed : s.Placed x h y place
  rest : { y.div with threads := x.div.threads } = x.div

/-- The threads of the run stand at the next instruction; registers, predicates, flags and the rest of the divergence stand. -/
structure State.WentOn (s : State) (x : Fibre) (h : Hdr) (y : Fibre) : Prop where
  regs : y.regs = x.regs
  placed : s.Placed x h y fun _ => s.iss.step
  rest : { y.div with threads := x.div.threads } = x.div
  pos : y.pos = x.pos

/-- The package around an instruction that issues accesses: memory, clusters, cores, lanes, launches, slots, images and the other fibres stand. -/
structure State.Around (s t : State) : Prop where
  mem : t.mem = s.mem
  memBad : t.memBad = s.memBad
  memCe : t.memCe = s.memCe
  clusters : t.clusters = s.clusters
  cores : t.cores = s.cores
  lanes : t.lanes = s.lanes
  launches : t.launches = s.launches
  slots : t.slots = s.slots
  images : t.images = s.images
  fibres : ∀ g, g ≠ s.iss.fibre → t.fib? g = s.fib? g

/-- A thread at a branch target: it runs no call (R388). -/
def Thread.goto (t : Thread) (pc : BitVec 56) : Thread := { t with pc := pc, op := none, call := none }

/-- The instruction wrote a value into its destination at every beat that executed, and no other register word (R44, R163); sz takes nothing
(R148). -/
structure State.Wrote (s t : State) (x : Fibre) (h : Hdr) (d : Opd) (wide : Bool) (value : Nat → Nat) : Prop where
  value : ∀ b ∈ s.beatsOf h (!d.perThread) x, ∀ i, i < regsOf wide → d.ref x.pos x.regs.woff i ≠ .none →
    t.word s.iss.fibre (d.ref x.pos x.regs.woff i) b = BitVec.ofNat 32 (value b / 2 ^ (32 * i))
  rest : ∀ r b, b < 64 → ¬(r ∈ d.refs x.pos x.regs.woff (regsOf wide) ∧ (b ∈ s.beatsOf h (!d.perThread) x ∨
      d.perThread = false ∧ s.active h x ≠ 0)) →
    t.word s.iss.fibre r b = s.word s.iss.fibre r b

/-- The instruction wrote a predicate at every active thread, and no other predicate; a write to pt is discarded (R148). -/
structure State.WrotePred (s t : State) (x : Fibre) (h : Hdr) (p : BitVec 3) (value : Nat → Bool) : Prop where
  value : ∀ b ∈ s.beatsOf h false x, p ≠ 7 → t.pred s.iss.fibre p b = value b
  rest : ∀ q b, b < 64 → ¬(q = p ∧ p ≠ 7 ∧ b ∈ s.beatsOf h false x) → t.pred s.iss.fibre q b = s.pred s.iss.fibre q b

/-- The carry out: the predicate takes the value at every beat that executed, and no other predicate changes; a write to pt is discarded (R305,
R148). -/
structure State.Carried (s t : State) (x : Fibre) (h : Hdr) (d : Opd) (p : BitVec 3) (value : Nat → Bool) : Prop where
  value : ∀ b ∈ s.beatsOf h (!d.perThread) x, p ≠ 7 → t.pred s.iss.fibre p b = value b
  rest : ∀ q b, b < 64 → ¬(q = p ∧ p ≠ 7 ∧ b ∈ s.beatsOf h (!d.perThread) x) → t.pred s.iss.fibre q b = s.pred s.iss.fibre q b

/-- Every predicate of the fibre stands. -/
def State.PredsStand (s t : State) : Prop := ∀ p b, b < 64 → t.pred s.iss.fibre p b = s.pred s.iss.fibre p b

/-- Every register word of the fibre stands. -/
def State.WordsStand (s t : State) : Prop := ∀ r b, b < 64 → t.word s.iss.fibre r b = s.word s.iss.fibre r b

/-- A word of an operand at a thread before the instruction (R44, R148, R149). -/
def State.opWord (s : State) (x : Fibre) (o : Opd) (i k : Nat) : Word := o.word (s.envOf s.iss.fibre x 0) (s.rf s.iss.fibre x) i k

/-- The `n` bytes of a datum held in the registers of an operand (R263). -/
def State.opBytes (s : State) (x : Fibre) (o : Opd) (n k : Nat) : List Byte := leBytes n (wordsNat ((List.range (max 1 (n / 4))).map fun i => s.opWord x o i k))

/-- The `n` bytes of a source that may be permuted: 4 or 8 bytes, or 16 of registers as they are (R157, R273). -/
def State.srcBytes (s : State) (x : Fibre) (a : Src) (n k : Nat) : List Byte :=
  match a with
  | .reg o .id => s.opBytes x o n k
  | .imm v => leBytes n (wordsNat ((List.range (max 1 (n / 4))).map fun i => if i = 0 then v.extractLsb' 0 32 else v.extractLsb' 32 32))
  | a => leBytes n (a.value s x (n == 8) k)

/-- The effective address of a thread's access to memory (R261). -/
def State.eaOf (s : State) (x : Fibre) (a b : Src) (off : BitVec 32) (k : Nat) : Nat :=
  (BitVec.ofNat 64 (a.value s x true k) + (BitVec.ofNat 32 (b.value s x false k)).signExtend 64 + off.signExtend 64).toNat

/-- The offset of a thread's access to the scratchpad (R261). -/
def State.padOf (s : State) (x : Fibre) (a b : Src) (off : BitVec 32) (k : Nat) : Int :=
  (a.value s x false k : Int) + (BitVec.ofNat 32 (b.value s x false k)).toInt + off.toInt

/-- The die of the issuing fibre. -/
def State.myDie (s : State) : Nat := dieOfFibre s.iss.fibre

/-- The cluster of the issuing fibre. -/
def State.mine (s : State) : Cluster := s.clu (clusterOfFibre s.iss.fibre)

/-- The instruction wrote `n` registers at every beat that executed, and no other register word (R44, R163, R263). -/
structure State.Loaded (s t : State) (x : Fibre) (h : Hdr) (uni : Bool) (d : Opd) (n : Nat) (value : Nat → Nat → Word) : Prop where
  value : ∀ b ∈ s.beatsOf h uni x, ∀ i, i < n → d.ref x.pos x.regs.woff i ≠ .none → t.word s.iss.fibre (d.ref x.pos x.regs.woff i) b = value b i
  rest : ∀ r b, b < 64 → ¬(r ∈ d.refs x.pos x.regs.woff n ∧ (b ∈ s.beatsOf h uni x ∨ d.perThread = false)) →
    t.word s.iss.fibre r b = s.word s.iss.fibre r b

/-- What an access to the scratchpad leaves: memory, dies, cores, lanes, launches, cohorts, images, the other clusters; of its fibre position,
accesses, predicates and flags; the run stands at the next instruction. -/
structure State.InCluster (s t : State) (x y : Fibre) : Prop where
  mem : t.mem = s.mem
  dies : t.dies = s.dies
  cores : t.cores = s.cores
  lanes : t.lanes = s.lanes
  launches : t.launches = s.launches
  cohorts : t.cohorts = s.cohorts
  images : t.images = s.images
  clusters : ∀ c, c ≠ clusterOfFibre s.iss.fibre → t.clu c = s.clu c
  here : t.fib? s.iss.fibre = some y
  pos : y.pos = x.pos
  out : y.out = x.out
  preds : s.PredsStand t
  flags : y.regs.flags = x.regs.flags
  div : y.div = x.div.mapThreads s.iss.run fun _ => s.iss.step

/-- What an instruction that acts on its cluster and its own fibre leaves: the rest of the package; of its fibre position and accesses; the run
stands at the next instruction. -/
structure State.OnCluster (s t : State) (x y : Fibre) : Prop where
  mem : t.mem = s.mem
  dies : t.dies = s.dies
  cores : t.cores = s.cores
  lanes : t.lanes = s.lanes
  launches : t.launches = s.launches
  cohorts : t.cohorts = s.cohorts
  images : t.images = s.images
  clusters : ∀ c, c ≠ clusterOfFibre s.iss.fibre → t.clu c = s.clu c
  here : t.fib? s.iss.fibre = some y
  pos : y.pos = x.pos
  out : y.out = x.out
  div : y.div = x.div.mapThreads s.iss.run fun _ => s.iss.step

/-- What trap entry leaves (R433 to R436): every live thread Ready at the handler's address, the divergence clear, the cause in HSTAT, the frame in the
top of the fibre's private registers; memory, every other register word, predicates, flags and window stand. -/
structure State.Entered (s t : State) (f : Nat) (x : Fibre) (r : TrapReq) (vec : BitVec 56) (y : Fibre) : Prop where
  mem : t.mem = s.mem
  here : t.fib? f = some y
  pos : y.pos = x.pos
  threads : ∀ b : Nat, y.div.threads[b]? = (x.div.threads[b]?).map fun k => if k.st = .exited then k else { pc := vec, op := none, st := .ready, call := none }
  rejoin : y.div.j = List.replicate 8 .reset ∧ y.div.depth = 0 ∧ y.div.ser = false ∧ y.div.ovd = 0
  handler : y.regs.inh = true ∧ y.regs.hcause.toNat = r.cause.code
  trap : y.trap = none
  sleep : y.sleep = .awake
  mon : y.mon = []
  frame : ∀ j, j < 512 → y.frameWord j = nth 0 (x.frame r) j
  rest : ∀ q b, b < 64 → (∀ j, j < 512 → x.pos.frameAt j ≠ (q, b)) → t.word f q b = s.word f q b
  preds : y.regs.p = x.regs.p
  flags : y.regs.flags = x.regs.flags
  woff : y.regs.woff = x.regs.woff

/-- A fibre that can enter its handler: outside it, nothing owed to it, its registers resident, a width of R8 and room for the frame (R161, R433). -/
structure State.CanEnter (s : State) (f : Nat) (x : Fibre) : Prop where
  here : s.fib? f = some x
  outside : x.regs.inh = false
  owing : s.owing f = false
  spilled : x.regs.spilled = []
  width : x.pos.width = 8 ∨ x.pos.width = 16 ∨ x.pos.width = 32 ∨ x.pos.width = 64
  room : 512 / x.pos.width ≤ x.pos.plim
  threads : x.div.threads.length = x.pos.width
  rejoin : x.div.j.length = 8

/-- Parts of an access that lie in DRAM of the issuing die. -/
def State.local (s : State) (l : List Seg) : Prop := ∀ g ∈ l, g.host = false ∧ g.home = s.myDie

/-- An access as it is recorded at its issue: its thread or the threads it stands for, its number, the step of its instruction, and the counts of
invalidations of the L1 that may serve it (R119, R121, R211, R213). -/
def State.numbered (s : State) (a : Access) (act : BeatMask) (uni : Bool) (k seq : Nat) : Access :=
  { a with beat := k, uni := uni, seq := seq, block := false, waits := [], l1ev := s.l1Events (coreOfFibre s.iss.fibre), act := act, keep := [], group := s.tick }

/-- The instruction issued one access for each beat that executes, in ascending order; they are numbered from the die's next number on, and
nothing is performed yet (R165, R211 to R213). -/
structure State.Issued (s t : State) (x y : Fibre) (h : Hdr) (uni : Bool) (acc : Nat → Access) : Prop where
  around : s.Around t
  here : t.fib? s.iss.fibre = some y
  wentOn : s.WentOn x h y
  out : y.out = x.out ++ (s.beatsOf h uni x).zipIdx.map fun e => s.numbered (acc e.1) (s.active h x) uni e.1 ((s.die s.myDie).wtNext + e.2)
  dies : ∀ d, t.die d = if d = s.myDie then { s.die d with wtNext := (s.die d).wtNext + (s.beatsOf h uni x).length } else s.die d

/-- The digest of the fibre takes in entries; every other digest and cohort stands (R424). -/
def State.Credited (s t : State) (x : Fibre) (entries : List Dword) : Prop :=
  ∀ c, t.cohort? c = (s.cohort? c).map fun k => if c = x.pos.cohort then { k with fds := entries.foldl (fun m e => tput m x.pos.lidx (tget 0 m x.pos.lidx + e)) k.fds } else k

/-- A release may go ahead: everything it orders has been performed (R98, R216). -/
def State.released (s : State) (q : Qual) : Prop := releases q.ord = true → s.orderWait true q.scope = .ok s

/-- An atomic may go ahead: everything its release orders has been performed, and at package scope what its acquire waits for (R98, R212, R216). -/
def State.mayRmw (s : State) (q : Qual) : Prop := (releases q.ord || Scope.package q.acquire) = true → s.orderWait (releases q.ord) q.scope = .ok s

/-- Events of the beats that executed, together (R69). -/
def orAll (l : List Events) : Events := l.foldl (· ||| ·) 0

/-! ## How an instruction completes -/

/-- An instruction whose fields decode (R239) completes: its destination takes a value at every beat that executes; predicates and flags stand. -/
def Computes (s : State) (x : Fibre) (i : Instr) (h : Hdr) (d : Opd) (wide : Bool) (value : Nat → Nat) : Prop :=
  i.legal = true → ∃ t y, exec i s = .next t ∧ s.Stepped t x y ∧ s.Wrote t x h d wide value ∧ s.PredsStand t ∧ y.regs.flags = x.regs.flags

/-- An instruction whose fields decode completes with events: its destination takes the first of each pair, and the flags take in the second of each (R69). -/
def ComputesF (s : State) (x : Fibre) (i : Instr) (h : Hdr) (d : Opd) (wide : Bool) (value : Nat → Nat × Events) : Prop :=
  i.legal = true → ∃ t y, exec i s = .next t ∧ s.Stepped t x y ∧ (s.Wrote t x h d wide fun b => (value b).1) ∧ s.PredsStand t ∧
    y.regs.flags = x.regs.flags ||| orAll ((s.beatsOf h (!d.perThread) x).map fun b => (value b).2)

/-- An instruction whose fields decode completes: a predicate takes the first of each pair at every active thread, and the flags take in the second; register words
stand. -/
def Compares (s : State) (x : Fibre) (i : Instr) (h : Hdr) (p : BitVec 3) (value : Nat → Bool × Events) : Prop :=
  i.legal = true → ∃ t y, exec i s = .next t ∧ s.Stepped t x y ∧ (s.WrotePred t x h p fun b => (value b).1) ∧ s.WordsStand t ∧
    y.regs.flags = x.regs.flags ||| orAll ((s.beatsOf h false x).map fun b => (value b).2)

end Sys2Proof.Machine
end

