-- ==== Sys2Proof/Certificates/Slice0/Obligations.lean ====
section
/-! DEFINITION. The statements for the provers. -/

open Sys2Proof Sys2Proof.Machine

/-! ## Words, the step and reset -/

/-- R234 to R237: words that the spec writes out decode to the instructions they stand for: the worked encodings of an FFMA, an IADD, a CVT, a SCAN, an
LDG, an ACOPY, a BRA, a SIGN and a CSRR (chapters 12, 14 to 19, 21 and 25), and the two NOPs of R233. -/
def Obligations.DecodeWords : Prop :=
  decode [0xAD, 0x11, 0x48, 0x01, 0x02, 0x20, 0x20, 0x02, 0x0B, 0xC8, 0x00, 0x00] =
    .ok (.ffma ⟨.b96, true, 5, 3, false⟩ .rn false false false (.v 10) (.reg (.v 2) (.rot 3)) (.reg (.s 4) .id) (.v 11)) ∧
  decode [0x98, 0x03, 0x86, 0x00, 0x00, 0x10, 0x40, 0x0C] =
    .ok (.iadd ⟨.b64, false, 3, 7, false⟩ .n32 3 0 (.v 4) (.reg (.v 0) .id) (.reg (.v 2) .id)) ∧
  decode [0x81, 0xB3, 0xC8, 0x00, 0x05, 0x50, 0x0B, 0x10, 0x14, 0x00, 0x00, 0x02] =
    .ok (.cvt ⟨.b96, false, 0, 7, false⟩ .rs 10 11 (.v 6) (.reg (.v 5) .id) (some (4, .v 20))) ∧
  decode [0x80, 0x1B, 0x8A, 0x00, 0x02, 0x00, 0x00, 0x20] =
    .ok (.scan ⟨.b64, false, 0, 7, false⟩ .i32 .add true (.v 4) (.reg (.v 2) .id) none) ∧
  decode [0x80, 0x03, 0x02, 0x01, 0x02, 0x28, 0x60, 0x30] =
    .ok (.ldg ⟨.b64, false, 0, 7, false⟩ ⟨some .die, .acq, false⟩ .n32 false false (.v 8) (.reg (.v 2) .id) (.reg (.s 5) .id) 0) ∧
  decode [0x82, 0x0B, 0x44, 0x80, 0x08, 0x04, 0x80, 0x00, 0, 0, 0, 0, 0, 0, 0, 0] =
    .ok (.acopy ⟨.b128, false, 0, 7, false⟩ .bar .m2s (some (.s 2)) (.s 8) none 0) ∧
  decode [0x02, 0x11, 0, 0, 0, 0, 0, 0, 0xC0, 0xFF, 0xFF, 0xFF, 0, 0, 0, 0] = .ok (.bra ⟨.b128, false, 0, 2, false⟩ (-64)) ∧
  decode [0x80, 0x2B, 0x0C, 0x00, 0x08, 0x00, 0xC0, 0x00] = .ok (.sign ⟨.b64, false, 0, 7, false⟩ 3 (.v 8)) ∧
  decode [0x80, 0x53, 0xCE, 0x80, 0x00, 0x00, 0x40, 0x01] = .ok (.csrr ⟨.b64, false, 0, 7, false⟩ (.s 6) 5) ∧
  decode [0x80, 0x0F, 0, 0, 0, 0, 0, 0] = .ok (.nop ⟨.b64, false, 0, 7, true⟩) ∧
  decode [0x81, 0x0F, 0, 0, 0, 0, 0, 0, 0, 0, 0, 0] = .ok (.nop ⟨.b96, false, 0, 7, true⟩)

/-- R234 to R236: the decoder gives back every instruction that has a word and whose operands R239 admits, from the bytes the encoder writes for it and
whatever follows them: no bit of an encoding is dropped. -/
def Obligations.RoundTrip : Prop :=
  ∀ (i : Instr) (rest : List Byte), i.encoded = true → i.wf = true → i.legal = true → decode (encode i ++ rest) = .ok i

/-- R231, R232, R237, R239: the checks of decoding and their order. LEN 0b11 is ILLEN; a word that crosses its fetch block is ILLFB; of the words that
fit, the never guard makes a NOP of any, an opcode of 0x200 or above is named with its word, opcode 0x000 and the unassigned ones are ILLOP; and what decodes to
another instruction is exactly that instruction's word. -/
def Obligations.DecodeChecks : Prop :=
  (∀ at32 bytes, leNat bytes % 4 = 3 → decodeAt at32 bytes = .error .illen) ∧
  (∀ (r : Raw) (at32 : Nat) (rest : List Byte), r.tidy = true →
    let bytes := leBytes r.len.bytes r.toWord.toNat ++ rest
    (32 < at32 + r.len.bytes → decodeAt at32 bytes = .error .illfb) ∧
    (at32 + r.len.bytes ≤ 32 →
      (r.hdr.never = true → decodeAt at32 bytes = .ok (.nop r.hdr)) ∧
      (r.hdr.never = false →
        (0x200 ≤ r.opcode.toNat → decodeAt at32 bytes = .ok (.unimpDispatch r)) ∧
        (r.opcode.toNat = 0 ∨ 0x010 ≤ r.opcode.toNat ∧ r.opcode.toNat < 0x040 ∨ 0x053 ≤ r.opcode.toNat ∧ r.opcode.toNat < 0x080 ∨
          0x08D ≤ r.opcode.toNat ∧ r.opcode.toNat < 0x0C0 ∨ 0x0E1 ≤ r.opcode.toNat ∧ r.opcode.toNat < 0x100 ∨
          0x119 ≤ r.opcode.toNat ∧ r.opcode.toNat < 0x140 ∨ 0x148 ≤ r.opcode.toNat ∧ r.opcode.toNat < 0x180 ∨
          0x18D ≤ r.opcode.toNat ∧ r.opcode.toNat < 0x1C0 ∨ 0x1CE ≤ r.opcode.toNat ∧ r.opcode.toNat < 0x200 →
          decodeAt at32 bytes = .error .illop) ∧
        (∀ i, decodeAt at32 bytes = .ok i → i.toRaw = r ∧ i.wf = true ∧ i.legal = true))))

/-- R175, R180, R239: a step runs the decoded instruction. Where the agenda names a lane that wins its arbitration, the lane offers a run of a fibre first, the
threads of that run stand at the start of an instruction, and the bytes fetched there decode to an instruction, the step is that instruction's effect on the
state with the issue noted, where it can start; where it cannot, the lane goes on to what it offers next. A lane that loses its arbitration does nothing. A
step that the agenda gives to a device is that device step's effect. The order in which lanes and devices act is the model's agenda (assumption 4). -/
def Obligations.StepRunsDecoded : Prop :=
  ∀ (s : State) (rest : List Choice),
    (∀ l (part : Option Nat), s.agenda = part.elim (.issue l) (.issueSome l) :: rest → laneOk l = true →
      let s1 := { s.ticked with iss := { Issue.idle with limit := part } }
      (s1.wins l = false → step s = .next s1) ∧
      (∀ f run more x bytes i s4, s1.wins l = true → s1.laneTries l = (f, some run) :: more →
        let s2 := (s1.started l).takeLane l f
        s2.fib? f = some x →
        let b := (maskBeats x.pos.width run).headD 0
        let th := nth default x.div.threads b
        let iss : Issue := { fibre := f, run := run, pc := th.pc, op := none, len := 0, last := true, held := false, limit := part }
        let s3 := if x.div.ser then ({ s2 with iss := iss }).setFib f { x with div := { x.div with cur := b, curLive := true } } else { s2 with iss := iss }
        th.op = none → s3.fetch (coreOfFibre f) (s2.asidOf x) th.pc.toNat = .bytes bytes s4 → decodeAt (th.pc.toNat % 32) bytes = .ok i →
        ∀ t, exec i { s4 with iss := { iss with len := i.toRaw.len.bytes } } = .next t →
          (t.iss.held = false → step s = .next t) ∧ (t.iss.held = true → step s = tryRuns l (s1.started l) more))) ∧
    (∀ i, s.agenda = .event i :: rest → i.wf = true → step s = exec i { s.ticked with iss := .idle })

/-- The memory keeps its canonical form at every step: addresses rise, and no entry holds what an unlisted address reads as. -/
def Obligations.MemoryForm : Prop := ∀ s t : State, s.memOk → step s = .next t → t.memOk

/-- R14, R31 to R38, R86, R88, R96, R463: what the spec gives at power-on. Both dies have incarnation 0 and no peer; boot has not begun; the counters, the fault
queue's and the context's registers are zero; no interrupt is pending or enabled; the thresholds are 95 and 105; the tables of peer windows and of quarantined
frames are empty; the copy epoch is 0; FEATEN has bit 0 alone. The memory has its canonical form, and no fibre is resident. -/
def Obligations.ResetState : Prop :=
  State.reset.memOk ∧ (∀ f, State.reset.fib? f = none) ∧
  ∀ d, dieOk d = true →
    let k := State.reset.die d
    let r := k.r
    r.inc = 0 ∧ r.peer = false ∧ r.pinc = 0 ∧ r.step = 0 ∧ r.ready = false ∧ r.halt = false ∧ r.hcause = 0 ∧ r.hlink = false ∧ r.ownbusy = false ∧
    r.stalecnt = 0 ∧ r.lostcnt = 0 ∧ r.feeddrop = 0 ∧ r.ctxbase = 0 ∧ r.irqstat = 0 ∧ r.irqen = 0 ∧ r.warn = 95 ∧ r.crit = 105 ∧ r.hot = false ∧
    r.fqbase = 0 ∧ r.fqsize = 0 ∧ r.fqtail = 0 ∧ r.fqhead = 0 ∧ r.fqerr = 0 ∧ r.cecnt = 0 ∧ r.uecnt = 0 ∧ r.qovf = 0 ∧ r.dgrexcnt = 0 ∧ r.dgmmcnt = 0 ∧
    r.featreq = 0 ∧ r.featen = 1 ∧ r.emubase = 0 ∧ r.featerr = 0 ∧ k.peerWin = [] ∧ k.quar = [] ∧ k.cepoch = 0

/-! ## Integer and logic instructions -/

/-- R305: IADD and ISUB give the low bits of the sum or difference with the carry or borrow of the named predicate, and write the carry or borrow
out where CO names a predicate. -/
def Obligations.AddSubtract : Prop :=
  ∀ (s : State) (x : Fibre) (h : Hdr) (ty : Ty) (co ci : BitVec 3) (d : Opd) (a b : Src), s.Settled x →
    d.Fits x (regsOf ty.is64) → a.Fits x (regsOf ty.is64) → b.Fits x (regsOf ty.is64) →
    let u := fun c => a.value s x ty.is64 c
    let v := fun c => b.value s x ty.is64 c
    let cin := fun c => (ci ≠ 0 ∧ s.pred s.iss.fibre (ci - 1) c = true)
    ((Instr.iadd h ty co ci d a b).legal = true → ∃ t y, exec (.iadd h ty co ci d a b) s = .next t ∧ s.Stepped t x y ∧
      (s.Wrote t x h d ty.is64 fun c => (u c + v c + if cin c then 1 else 0) % 2 ^ ty.width) ∧ y.regs.flags = x.regs.flags ∧
      (if co = 0 then s.PredsStand t else s.Carried t x h d (co - 1) fun c => decide (2 ^ ty.width ≤ u c + v c + if cin c then 1 else 0))) ∧
    ((Instr.isub h ty co ci d a b).legal = true → ∃ t y, exec (.isub h ty co ci d a b) s = .next t ∧ s.Stepped t x y ∧
      (s.Wrote t x h d ty.is64 fun c => (((u c : Int) - v c - if cin c then 1 else 0) % (2 ^ ty.width : Nat)).toNat) ∧ y.regs.flags = x.regs.flags ∧
      (if co = 0 then s.PredsStand t else s.Carried t x h d (co - 1) fun c => decide ((u c : Int) - v c - (if cin c then 1 else 0) < 0)))

/-- R306, R307, R311, R314: the instructions of three sources. -/
def Obligations.ThreeSources : Prop :=
  ∀ (s : State) (x : Fibre) (h : Hdr) (ty : Ty) (lut : BitVec 8) (d : Opd) (a b : Src) (c : Opd), s.Settled x → a.Fits x 1 → b.Fits x 1 →
    let u := fun k => a.value s x false k
    let v := fun k => b.value s x false k
    (d.Fits x 1 → c.Fits x 1 →
      Computes s x (.iadd3 h ty d a b c) h d false (fun k => u k + v k + c.value s x false k) ∧
      Computes s x (.imad h ty d a b c) h d false (fun k => u k * v k + c.value s x false k) ∧
      Computes s x (.bfn3 h lut d a b c) h d false (fun k => ofBits ((List.range 32).map fun i =>
        bitOf lut.toNat ((bitOf (u k) i).toNat + 2 * (bitOf (v k) i).toNat + 4 * (bitOf (c.value s x false k) i).toNat))) ∧
      Computes s x (.bfi h d a b c) h d false (fun k =>
        let p := min (c.value s x false k % 256) 32
        let n := min (c.value s x false k / 256 % 256) (32 - p)
        let mask := (2 ^ n - 1) * 2 ^ p
        (BitVec.ofNat 32 (v k) &&& ~~~(BitVec.ofNat 32 mask) ||| BitVec.ofNat 32 (u k * 2 ^ p) &&& BitVec.ofNat 32 mask).toNat)) ∧
    (d.Fits x 2 → c.Fits x 2 → Computes s x (.imadw h ty d a b c) h d true (fun k => ((ty.ext (u k) * ty.ext (v k) + c.value s x true k) % (2 ^ 64 : Nat)).toNat))

/-- R307 to R310, R317, R319: the instructions of two sources whose result is the low bits of a number. -/
def Obligations.TwoSources : Prop :=
  ∀ (s : State) (x : Fibre) (h : Hdr) (ty : Ty) (d : Opd) (a b : Src), s.Settled x →
    let w := ty.is64
    d.Fits x (regsOf w) → a.Fits x (regsOf w) → b.Fits x (regsOf w) →
    let u := fun k => a.value s x w k
    let v := fun k => b.value s x w k
    Computes s x (.imul h ty d a b) h d w (fun k => u k * v k) ∧
    Computes s x (.imulh h ty d a b) h d w (fun k => (ty.ext (u k) * ty.ext (v k) % (2 ^ (2 * ty.width) : Nat)).toNat / 2 ^ ty.width) ∧
    Computes s x (.imin h ty d a b) h d w (fun k => if ty.ext (u k) ≤ ty.ext (v k) then u k else v k) ∧
    Computes s x (.imax h ty d a b) h d w (fun k => if ty.ext (v k) ≤ ty.ext (u k) then u k else v k) ∧
    Computes s x (.land h ty d a b) h d w (fun k => u k &&& v k) ∧
    Computes s x (.lor h ty d a b) h d w (fun k => u k ||| v k) ∧
    Computes s x (.lxor h ty d a b) h d w (fun k => u k ^^^ v k) ∧
    (∀ p neg, Computes s x (.isel h ty p neg d a b) h d w (fun k => if s.pred s.iss.fibre p k ≠ neg then u k else v k))

/-- R309, R313, R315, R319: the instructions whose second source is one register: shifts, BFE, BYSEL and LEA. -/
def Obligations.ShiftsAndFields : Prop :=
  ∀ (s : State) (x : Fibre) (h : Hdr) (ty : Ty) (d : Opd) (a b : Src), s.Settled x → b.Fits x 1 →
    let v := fun k => b.value s x false k
    (d.Fits x (regsOf ty.is64) → a.Fits x (regsOf ty.is64) →
      let u := fun k => a.value s x ty.is64 k
      Computes s x (.ishl h ty d a b) h d ty.is64 (fun k => u k * 2 ^ v k % 2 ^ ty.width) ∧
      Computes s x (.ishr h ty d a b) h d ty.is64 (fun k => u k / 2 ^ v k) ∧
      Computes s x (.isar h ty d a b) h d ty.is64 (fun k => (ty.ext (u k) / (2 ^ v k : Nat) % (2 ^ ty.width : Nat)).toNat) ∧
      Computes s x (.rot h ty d a b) h d ty.is64 (fun k => (u k * 2 ^ (v k % ty.width) + u k / 2 ^ (ty.width - v k % ty.width)) % 2 ^ ty.width)) ∧
    (d.Fits x 2 → a.Fits x 2 → ∀ sh : BitVec 4,
      Computes s x (.lea h ty sh d a b) h d true (fun k => (((a.value s x true k : Int) + ty.ext (v k) * 2 ^ sh.toNat) % (2 ^ 64 : Nat)).toNat)) ∧
    (d.Fits x 1 → a.Fits x 1 →
      Computes s x (.bfe h ty d a b) h d false (fun k =>
        let p := min (v k % 256) 32
        let n := min (v k / 256 % 256) (32 - p)
        let f := a.value s x false k / 2 ^ p % 2 ^ n
        if n = 0 then 0 else if ty.signed = true ∧ 2 ^ (n - 1) ≤ f then f + 2 ^ 32 - 2 ^ n else f) ∧
      Computes s x (.bysel h d a b none) h d false (fun k => byselValue (a.value s x false k) 0 (v k)) ∧
      ∀ c : Src, c.Fits x 1 → permuted c = false →
        Computes s x (.bysel h d a b (some c)) h d false (fun k => byselValue (a.value s x false k) (v k) (c.value s x false k)))

/-- R308, R310, R312, R320: the instructions of one source. -/
def Obligations.OneSource : Prop :=
  ∀ (s : State) (x : Fibre) (h : Hdr) (ty : Ty) (d : Opd) (a : Src) (imm : BitVec 64), s.Settled x → a.Fits x (regsOf ty.is64) →
    let u := fun k => a.value s x ty.is64 k
    (d.Fits x (regsOf ty.is64) →
      Computes s x (.ineg h ty d a) h d ty.is64 (fun k => (-ty.ext (u k) % (2 ^ ty.width : Nat)).toNat) ∧
      Computes s x (.iabs h ty d a) h d ty.is64 (fun k => (ty.ext (u k)).natAbs) ∧
      Computes s x (.lnot h ty d a) h d ty.is64 (fun k => 2 ^ ty.width - 1 - u k) ∧
      Computes s x (.brev h ty d a) h d ty.is64 (fun k => ofBits ((List.range ty.width).map fun i => bitOf (u k) (ty.width - 1 - i))) ∧
      Computes s x (.mov h ty d a) h d ty.is64 u ∧
      Computes s x (.movi h ty d imm) h d ty.is64 (fun _ => imm.toNat)) ∧
    (d.Fits x 1 →
      Computes s x (.popc h ty d a) h d false (fun k => ((List.range ty.width).filter (bitOf (u k))).length) ∧
      Computes s x (.clz h ty d a) h d false (fun k => if u k = 0 then ty.width else ty.width - 1 - Nat.log2 (u k)) ∧
      Computes s x (.ctz h ty d a) h d false (fun k => ((List.range ty.width).find? (bitOf (u k))).getD ty.width))

/-- R316, R318, R326: the comparisons into a predicate and the function of three predicates; a write to pt is discarded (R148). -/
def Obligations.Predicates : Prop :=
  ∀ (s : State) (x : Fibre) (h : Hdr) (p : BitVec 3) (a b : Src), s.Settled x →
    (∀ (ty : Ty) (cmp : ICmp), a.Fits x (regsOf ty.is64) → b.Fits x (regsOf ty.is64) →
      Compares s x (.iset h ty cmp p a b) h p fun k =>
        (let u := ty.ext (a.value s x ty.is64 k)
         let v := ty.ext (b.value s x ty.is64 k)
         match cmp with
         | .eq => decide (u = v) | .ne => decide (u ≠ v) | .lt => decide (u < v) | .le => decide (u ≤ v) | .gt => decide (v < u) | .ge => decide (v ≤ u), 0)) ∧
    (∀ (lut : BitVec 8) (pa pb pc : BitVec 3),
      Compares s x (.pset h lut p pa pb pc) h p fun k =>
        (bitOf lut.toNat ((s.pred s.iss.fibre pa k).toNat + 2 * (s.pred s.iss.fibre pb k).toNat + 4 * (s.pred s.iss.fibre pc k).toNat), 0)) ∧
    (∀ cmp : FCmp, a.Fits x 1 → b.Fits x 1 →
      Compares s x (.fset h cmp p a b) h p fun k => fcmpHolds cmp (fp32.unpack (a.value s x false k)) (fp32.unpack (b.value s x false k))) ∧
    (∀ cmp : FCmp, a.Fits x 2 → b.Fits x 2 →
      Compares s x (.dset h cmp p a b) h p fun k => fcmpHolds cmp (fp64.unpack (a.value s x true k)) (fp64.unpack (b.value s x true k)))

/-! ## Floating point, conversion, blocks -/

/-- R321, R324, R325: FP32 addition, multiplication, fused multiply-add, minimum and maximum; the flags take in each beat's events (R69). -/
def Obligations.SinglePrecision : Prop :=
  ∀ (s : State) (x : Fibre) (h : Hdr) (rm : Rm) (na nb nc : Bool) (d : Opd) (a b : Src) (c : Opd), s.Settled x → d.Fits x 1 → a.Fits x 1 → b.Fits x 1 → c.Fits x 1 →
    let u := fun k => (fp32.unpack (a.value s x false k)).negate na
    let v := fun k => (fp32.unpack (b.value s x false k)).negate nb
    ComputesF s x (.fadd h rm na nb d a b) h d false (fun k => fp32.sum rm (u k) (v k)) ∧
    ComputesF s x (.fmul h rm na nb d a b) h d false (fun k => fp32.product rm (u k) (v k)) ∧
    ComputesF s x (.ffma h rm na nb nc d a b c) h d false (fun k => fp32.fused rm (u k) (v k) ((fp32.unpack (c.value s x false k)).negate nc)) ∧
    ComputesF s x (.fmin h d a b) h d false (fun k => fminmax false (a.value s x false k) (b.value s x false k)) ∧
    ComputesF s x (.fmax h d a b) h d false (fun k => fminmax true (a.value s x false k) (b.value s x false k))

/-- R327 to R335: the FP32 functions of one source, and FCLASS of every format. -/
def Obligations.FloatFunctions : Prop :=
  ∀ (s : State) (x : Fibre) (h : Hdr) (rm : Rm) (d : Opd) (a : Src), s.Settled x → d.Fits x 1 →
    (a.Fits x 1 →
      let u := fun k => fp32.unpack (a.value s x false k)
      ComputesF s x (.frcp h rm d a) h d false (fun k => frcpValue rm (u k)) ∧
      ComputesF s x (.frsq h d a) h d false (fun k => frsqValue (u k)) ∧
      ComputesF s x (.fsqrt h rm d a) h d false (fun k => fsqrtValue rm (u k)) ∧
      ComputesF s x (.fex2 h d a) h d false (fun k => fex2Value (u k)) ∧
      ComputesF s x (.flg2 h d a) h d false (fun k => flg2Value (u k)) ∧
      ComputesF s x (.fsin h d a) h d false (fun k => trigValue false (u k)) ∧
      ComputesF s x (.fcos h d a) h d false (fun k => trigValue true (u k)) ∧
      ComputesF s x (.frnd h rm d a) h d false (fun k => frndValue rm (a.value s x false k))) ∧
    (∀ ty : Ty, a.Fits x (regsOf ty.is64) → Computes s x (.fclass h ty d a) h d false (fun k => fclassValue (classFmt ty) (a.value s x ty.is64 k)))

/-- R323, R324: FP64 arithmetic on pairs. R44, R324: paired halves: each half of the register is the result of the halves of the sources. -/
def Obligations.PairsAndHalves : Prop :=
  (∀ (s : State) (x : Fibre) (h : Hdr) (rm : Rm) (na nb nc : Bool) (d : Opd) (a b : Src) (c : Opd), s.Settled x → d.Fits x 2 → a.Fits x 2 → b.Fits x 2 → c.Fits x 2 →
    let u := fun k => (fp64.unpack (a.value s x true k)).negate na
    let v := fun k => (fp64.unpack (b.value s x true k)).negate nb
    ComputesF s x (.dadd h rm na nb d a b) h d true (fun k => fp64.sum rm (u k) (v k)) ∧
    ComputesF s x (.dmul h rm na nb d a b) h d true (fun k => fp64.product rm (u k) (v k)) ∧
    ComputesF s x (.dfma h rm na nb nc d a b c) h d true (fun k => fp64.fused rm (u k) (v k) ((fp64.unpack (c.value s x true k)).negate nc))) ∧
  (∀ (s : State) (x : Fibre) (h : Hdr) (ty : Ty) (rm : Rm) (na nb nc : Bool) (d : Opd) (a b : Src) (c : Opd), s.Settled x → d.Fits x 1 → a.Fits x 1 → b.Fits x 1 →
    c.Fits x 1 →
    let f := if ty = .bf16 then bf16 else fp16
    let u := fun k i => (f.unpack (a.value s x false k / 65536 ^ i % 65536)).negate na
    let v := fun k i => (f.unpack (b.value s x false k / 65536 ^ i % 65536)).negate nb
    let w := fun k i => (f.unpack (c.value s x false k / 65536 ^ i % 65536)).negate nc
    let both := fun (r : Nat → Nat × Events) => ((r 0).1 + 65536 * (r 1).1, (r 0).2 ||| (r 1).2)
    ComputesF s x (.hadd2 h ty rm na nb d a b) h d false (fun k => both fun i => f.sum rm (u k i) (v k i)) ∧
    ComputesF s x (.hmul2 h ty rm na nb d a b) h d false (fun k => both fun i => f.product rm (u k i) (v k i)) ∧
    ComputesF s x (.hfma2 h ty rm na nb nc d a b c) h d false (fun k => both fun i => f.fused rm (u k i) (v k i) (w k i)))

/-- The word a thread draws under RS (R337, R352): word 0 of Philox at its counter pair, under its logical id and the named seed pair; zero without RS. -/
def drawn (s : State) (x : Fibre) (rs : Option (BitVec 6 × Opd)) (k : Nat) : Word :=
  rs.elim 0 fun e => nth 0 (philox (BitVec.ofNat 64 (e.2.value s x true k)) (BitVec.ofNat 64 (x.pos.lidx * 64 + k))
    (s.word s.iss.fibre (.scal (2 * e.1.toNat)) k) (s.word s.iss.fibre (.scal (2 * e.1.toNat + 1)) k)) 0

/-- The registers RS names fit. -/
def drawFits (x : Fibre) (rs : Option (BitVec 6 × Opd)) : Prop := rs.elim True fun e => e.2.Fits x 2

/-- R336 to R339: CVT converts the value of its element; PACK gives each thread the code of its value in the block of its 32 beats, and the
block's scale or header. -/
def Obligations.Conversions : Prop :=
  ∀ (s : State) (x : Fibre) (h : Hdr) (rm : Rm) (d : Opd) (rs : Option (BitVec 6 × Opd)), s.Settled x → drawFits x rs →
    (∀ (df sf : BitVec 5) (a : Src), d.Fits x (regsOf (cvtWide df.toNat)) → a.Fits x (regsOf (cvtWide sf.toNat)) →
      ComputesF s x (.cvt h rm df sf d a rs) h d (cvtWide df.toNat) fun k =>
        cvtTo df.toNat rm (drawn s x rs k) (elementValue sf.toNat (a.value s x (cvtWide sf.toNat) k))) ∧
    (∀ (fmt lm1 : BitVec 5) (a : Opd), d.Fits x 2 → a.Fits x 1 →
      ComputesF s x (.pack h rm fmt lm1 d a rs) h d true fun k =>
        let mine := fun j => fp32.unpack (a.value s x false j)
        let block := ((List.range 32).filter fun i => decide (i < lm1.toNat + 1 ∧ 32 * (k / 32) + i ∈ s.beatsOf h false x)).map fun i => mine (32 * (k / 32) + i)
        let p := packBlock fmt.toNat block
        let r := if k % 32 < lm1.toNat + 1 then p.2 rm (drawn s x rs k) (mine k) else (0, 0)
        (r.1 % 2 ^ 32 + 2 ^ 32 * p.1, r.2))

/-- R340: with every result in, FSTK delivers the whole FLAGS word and clears the flags its operand names; SATARM stands. -/
def Obligations.StickyFlags : Prop :=
  ∀ (s : State) (x : Fibre) (h : Hdr) (d a : Opd), s.Settled x → d.Fits x 1 → a.Fits x 1 → (Instr.fstk h d a).legal = true →
    ∃ t y, exec (.fstk h d a) s = .next t ∧ s.Stepped t x y ∧ (s.Wrote t x h d false fun _ => x.regs.flags.toNat + 65536 * x.regs.satarm.toNat) ∧ s.PredsStand t ∧
      y.regs.flags = if s.active h x = 0 then x.regs.flags else x.regs.flags &&& ~~~(BitVec.ofNat 7 (a.value s x false 0))

/-! ## Exchange, vote, scan, random numbers -/

/-- R156, R344, R346, R350, R351, over the permuted A: XCH takes A from the thread its index names, zero beyond the width unless it wraps; MATCH gives each active thread the
mask of the active threads of its value; FIRST gives the value of the lowest active thread, or its number; BALLOT the mask of the active threads
whose predicate holds. R345: VOTE writes one answer about the active threads to the predicate of each of them. -/
def Obligations.ExchangesAndVotes : Prop :=
  (∀ (s : State) (x : Fibre) (h : Hdr) (ty : Ty) (d : Opd) (o : Opd) (m : Perm), s.Settled x →
    let a := Src.reg o m
    let w := ty.is64
    let n := regsOf w
    let all := s.beatsOf h false x
    (d.Fits x n → a.Fits x n → ∀ (wrap : Bool) (b : Src), b.Fits x 1 →
      Computes s x (.xch h ty wrap d a b) h d w fun k =>
        let i := if wrap then b.value s x false k % x.pos.width else b.value s x false k
        if i < x.pos.width then a.value s x w i else 0) ∧
    (d.Fits x 2 → a.Fits x n →
      Computes s x (.matchB h ty d a) h d true fun k => (maskOf (all.filter fun j => a.value s x w j == a.value s x w k)).toNat) ∧
    (d.Fits x n → a.Fits x n → Computes s x (.first h ty d (some a)) h d w fun _ => a.value s x w (all.headD 0)) ∧
    (d.Fits x n → Computes s x (.first h ty d none) h d w fun _ => all.headD 0) ∧
    (d.Fits x n → ∀ (neg : Bool) (p : BitVec 3), Computes s x (.ballot h ty neg d p) h d w fun _ => (maskOf (all.filter fun j => s.pred s.iss.fibre p j != neg)).toNat)) ∧
  (∀ (s : State) (x : Fibre) (h : Hdr) (mode : VoteMode) (neg : Bool) (p q : BitVec 3), s.Settled x →
    let all := s.beatsOf h false x
    let yes := all.filter fun j => s.pred s.iss.fibre q j != neg
    Compares s x (.vote h mode neg p q) h p fun _ =>
      (match mode with
        | .every => decide (yes.length = all.length)
        | .some => decide (0 < yes.length)
        | .same => decide (yes.length = 0 ∨ yes.length = all.length)
        | .most => decide (all.length < 2 * yes.length), 0))

/-- The carry of a fold over a list of beats, with the events of each step (R347). -/
def foldOver (op : ROp) (ty : Ty) (value : Nat → Nat) (l : List Nat) (start : Nat) : Nat × Events :=
  l.foldl (fun c j => let r := foldStep op ty c.1 (value j); (r.1, c.2 ||| r.2)) (start, 0)

/-- R172, R347 to R349: SCAN gives each active thread, in ascending order, the fold up to it, without it in the exclusive form; REDX gives every
active thread the fold of all of them, and its events once. -/
def Obligations.Folds : Prop :=
  ∀ (s : State) (x : Fibre) (h : Hdr) (ty : Ty) (op : ROp) (d o : Opd) (m : Perm) (b : Option Opd), s.Settled x →
    let a := Src.reg o m
    let w := ty.is64
    let n := regsOf w
    d.Fits x n → a.Fits x n → (∀ c ∈ b, c.Fits x n) →
    let all := s.beatsOf h false x
    let start := b.elim (foldIdentity op ty) fun c => c.value s x w 0
    (∀ exc : Bool, (Instr.scan h ty op exc d a b).legal = true → ∃ t y, exec (.scan h ty op exc d a b) s = .next t ∧ s.Stepped t x y ∧
      (s.Wrote t x h d w fun k => (foldOver op ty (a.value s x w) (all.filter fun j => decide (if exc then j < k else j ≤ k)) start).1) ∧ s.PredsStand t ∧
      y.regs.flags = x.regs.flags ||| (foldOver op ty (a.value s x w) all start).2) ∧
    ((Instr.redx h ty op d a b).legal = true → ∃ t y, exec (.redx h ty op d a b) s = .next t ∧ s.Stepped t x y ∧
      (s.Wrote t x h d w fun _ => (foldOver op ty (a.value s x w) all start).1) ∧ s.PredsStand t ∧
      y.regs.flags = x.regs.flags ||| (foldOver op ty (a.value s x w) all start).2)

/-- R352, R353: RAND writes words of Philox at each active thread's counter, under its logical id and the seed pair; under INC each counter
advances by one, and one that wraps sets RNGWRAP. -/
def Obligations.Random : Prop :=
  ∀ (s : State) (x : Fibre) (h : Hdr) (count : RandCount) (inc : Bool) (d b c : Opd), s.Settled x →
    let n := match count with | .x1 => 1 | .x2 => 2 | .x4 => 4
    d.Fits x n → b.Fits x 2 → c.Fits x 2 → (Instr.rand h count inc d b c).legal = true →
    let all := s.beatsOf h false x
    let f := s.iss.fibre
    let counter := fun k => c.value s x true k
    ∃ t y, exec (.rand h count inc d b c) s = .next t ∧ s.Stepped t x y ∧ s.PredsStand t ∧
      (∀ k ∈ all, ∀ i, i < n → t.word f (d.ref x.pos x.regs.woff i) k = nth 0 (philox (BitVec.ofNat 64 (counter k))
        (BitVec.ofNat 64 (x.pos.lidx * 64 + k)) (s.word f (b.ref x.pos x.regs.woff 0) k) (s.word f (b.ref x.pos x.regs.woff 1) k)) i) ∧
      (inc = true → ∀ k ∈ all, ∀ i, i < 2 → t.word f (c.ref x.pos x.regs.woff i) k = BitVec.ofNat 32 ((counter k + 1) / 2 ^ (32 * i))) ∧
      (∀ r k, k < 64 → ¬(k ∈ all ∧ (r ∈ d.refs x.pos x.regs.woff n ∨ inc = true ∧ r ∈ c.refs x.pos x.regs.woff 2)) → t.word f r k = s.word f r k) ∧
      y.regs.flags = x.regs.flags ||| if inc = true ∧ ∃ k ∈ all, counter k = 2 ^ 64 - 1 then evWRAP else 0

/-! ## Control flow -/

/-- R163, R176, R384, R386 to R388: NOP moves the run on; YIELD also offers the lane, which the fibres of the lane that have yielded take note of; a branch
sends the active threads to its target; the other threads of the run take the next instruction. -/
def Obligations.Branches : Prop :=
  ∀ (s : State) (x : Fibre) (h : Hdr), s.Settled x →
    (∃ t y, exec (.nop h) s = .next t ∧ s.Moved t x y h fun _ => s.iss.step) ∧
    (s.active h x ≠ 0 → ∃ t y, exec (.yield h) s = .next t ∧ { t with fibres := s.fibres } = s ∧ t.fib? s.iss.fibre = some y ∧ y.pos = x.pos ∧ y.out = x.out ∧
      y.mon = x.mon ∧ y.trap = x.trap ∧ y.sleep = x.sleep ∧ y.regs = x.regs ∧ s.Placed x h y (fun _ => s.iss.step) ∧
      { y.div with threads := x.div.threads } = { x.div with curLive := x.div.curLive && !x.div.ser } ∧ y.yielded = true ∧ y.atSwitch = true ∧
      ∀ g, g ≠ s.iss.fibre → t.fib? g = (s.fib? g).map fun z =>
        if g ∈ fibresOfLane (laneOfFibre s.iss.fibre) ∧ z.yielded = true then { z with passed := s.iss.fibre :: z.passed } else z) ∧
    (∀ off : BitVec 32, ∃ t y, exec (.bra h off) s = .next t ∧ s.Moved t x y h fun _ t => t.goto (s.iss.pc + off.signExtend 56)) ∧
    (∀ a : Opd, a.Fits x 2 → (∀ b ∈ s.beatsOf h (!a.perThread) x, a.value s x true b < 2 ^ 56 ∧ a.value s x true b % 4 = 0) →
      ∃ t y, exec (.brx h a) s = .next t ∧ s.Moved t x y h fun b t => t.goto (BitVec.ofNat 56 (a.value s x true b)))

/-- The link pair of a call, written under the new window (R388): the words it takes and the words that stand. -/
def Linked (s t : State) (x : Fibre) (h : Hdr) (d : Opd) (uni : Bool) (woff : Nat) (link : Nat) : Prop :=
  (∀ b ∈ s.beatsOf h uni x, ∀ i, i < 2 → d.ref x.pos woff i ≠ .none → t.word s.iss.fibre (d.ref x.pos woff i) b = BitVec.ofNat 32 (link / 2 ^ (32 * i))) ∧
  ∀ r b, b < 64 → ¬(r ∈ d.refs x.pos woff 2 ∧ (b ∈ s.beatsOf h uni x ∨ d.perThread = false)) → t.word s.iss.fibre r b = s.word s.iss.fibre r b

/-- R388, R389: CALL and CALLX slide the window, write the link of the next instruction under the new window, and send the active threads to the
target; RET restores window and position; a slide needs every live thread active. R390: FWIN reads the window offset into a scalar register; written with a multiple of 8 below the limit, all live threads active, it becomes the
offset. -/
def Obligations.CallsAndWindow : Prop :=
  (∀ (s : State) (x : Fibre) (h : Hdr) (d a : Opd) (sl : BitVec 7) (off : BitVec 32), s.Settled x → s.active h x ≠ 0 →
    let woff := x.regs.woff + 8 * sl.toNat
    let link := (s.iss.pc + BitVec.ofNat 56 s.iss.len).toNat + 2 ^ 56 * sl.toNat
    let whole := x.div.live &&& ~~~s.active h x = 0
    let here := fun (t : State) (y : Fibre) => s.Apart t s.iss.fibre ∧ t.fib? s.iss.fibre = some y ∧ y.pos = x.pos ∧ y.out = x.out ∧ y.regs.woff = woff ∧
      y.regs.flags = x.regs.flags ∧ s.PredsStand t ∧ { y.div with threads := x.div.threads } = x.div
    (d.mixes x.pos 2 = false → Ref.none ∉ d.refs x.pos woff 2 → woff < x.pos.plim → (sl ≠ 0 → whole) →
      ((Instr.call h d sl off).legal = true → ∃ t y, exec (.call h d sl off) s = .next t ∧ here t y ∧ Linked s t x h d (!d.perThread) woff link ∧
        s.Placed x h y fun _ t => t.goto (s.iss.pc + off.signExtend 56)) ∧
      (a.Fits x 2 → (∀ b ∈ s.beatsOf h (!a.perThread) x, a.value s x true b < 2 ^ 56 ∧ a.value s x true b % 4 = 0) → (Instr.callx h d a sl).legal = true →
        ∃ t y, exec (.callx h d a sl) s = .next t ∧ here t y ∧ Linked s t x h d (!(d.perThread || a.perThread)) woff link ∧
          s.Placed x h y fun b t => t.goto (BitVec.ofNat 56 (a.value s x true b)))) ∧
    (∀ k : Nat, a.Fits x 2 → (k ≠ 0 → whole) → 8 * k ≤ x.regs.woff →
      (∀ b ∈ s.beatsOf h (!a.perThread) x, a.value s x true b / 2 ^ 56 = k ∧ a.value s x true b % 4 = 0) → k < 128 →
      ∃ t y, exec (.ret h a) s = .next t ∧ s.Kept t x y ∧ y.regs = { x.regs with woff := x.regs.woff - 8 * k } ∧
        s.Placed x h y (fun b t => t.goto (BitVec.ofNat 56 (a.value s x true b))) ∧ { y.div with threads := x.div.threads } = x.div)) ∧
  (∀ (s : State) (x : Fibre) (h : Hdr) (d a : Opd), s.Settled x →
    (d.Fits x 1 → Computes s x (.fwinGet h d) h d false fun _ => x.regs.woff) ∧
    (a.Fits x 1 → s.active h x ≠ 0 → x.div.live &&& ~~~s.active h x = 0 → (Instr.fwinSet h a).legal = true →
      a.value s x false 0 % 8 = 0 → a.value s x false 0 < x.pos.plim →
      ∃ t y, exec (.fwinSet h a) s = .next t ∧ s.Kept t x y ∧ y.regs = { x.regs with woff := a.value s x false 0 } ∧
        s.Placed x h y (fun _ => s.iss.step) ∧ { y.div with threads := x.div.threads } = x.div))

/-- R376, R380, R391: JOIN arms a named register for the active threads, JOIN.push the next register of the push form or, with all eight in use, an
overflow level in the fibre's backing store, which starts serial mode. -/
def Obligations.Joins : Prop :=
  ∀ (s : State) (x : Fibre) (h : Hdr) (n : BitVec 3) (off : BitVec 32), s.Settled x → s.active h x ≠ 0 →
    let armed := fun stk => ({ mask := s.active h x, park := 0, addr := s.iss.pc + off.signExtend 56, v := true, stk := stk } : JReg)
    let top := nth .reset x.div.j x.div.depth
    (x.div.depth ≤ n.toNat → (nth JReg.reset x.div.j n.toNat).park = 0 →
      ∃ t y, exec (.join h n off) s = .next t ∧ s.Kept t x y ∧ y.regs = x.regs ∧ s.Placed x h y (fun _ => s.iss.step) ∧
        { y.div with threads := x.div.threads } = { x.div with j := x.div.j.set n.toNat (armed false) }) ∧
    (x.div.depth < 8 → ¬(top.v = true ∧ top.stk = false) →
      ∃ t y, exec (.joinPush h off) s = .next t ∧ s.Kept t x y ∧ y.regs = x.regs ∧ s.Placed x h y (fun _ => s.iss.step) ∧
        { y.div with threads := x.div.threads } = { x.div with j := x.div.j.set x.div.depth (armed true), depth := x.div.depth + 1 }) ∧
    (x.div.depth = 8 → x.div.ovd + x.div.base < 56 → ∀ u, s.backWrite s.iss.fibre x (x.levelAt x.div.ovd) (armed true).levelBytes = .ok u →
      ∃ t y, exec (.joinPush h off) s = .next t ∧ t.fib? s.iss.fibre = some y ∧ t.mem = u.mem ∧ y.regs = x.regs ∧ s.Placed x h y (fun _ => s.iss.step) ∧
        { y.div with threads := x.div.threads } = { x.div with ovd := x.div.ovd + 1, ser := true })

/-- The divergence of a fibre where the active threads have left the run, before R377's test. -/
def leaving (s : State) (x : Fibre) (h : Hdr) : Diverge := x.div.mapThreads (s.iss.run &&& ~~~s.active h x) fun _ => s.iss.step

/-- R376, R377, R391, without overflow levels: WAIT and WAIT.pop park the active threads, JDROP takes them out of a mask, and then R377's test is
made of every register. R377 of one register: with every live thread of its mask parked and one at least, the parked threads become Ready at its address and it is
disarmed; with no live thread left and none parked it is cleared; otherwise nothing changes. -/
def Obligations.WaitsAndRejoin : Prop :=
  (∀ (s : State) (x : Fibre) (h : Hdr) (n : BitVec 3), s.Settled x → s.active h x ≠ 0 → x.div.ovd = 0 →
    let act := s.active h x
    let reg := fun i => nth JReg.reset x.div.j i
    let parked := fun i => ({ (leaving s x h).mapThreads act (fun _ t => { t with st := .parked }) with
      j := x.div.j.set i { reg i with park := (reg i).park ||| act } } : Diverge).turn
    (x.div.depth ≤ n.toNat → (reg n.toNat).v = true → act &&& ~~~(reg n.toNat).mask = 0 →
      ∃ t y, exec (.wait h n) s = .next t ∧ s.Kept t x y ∧ y.regs = x.regs ∧ y.div = ((parked n.toNat).settle []).1) ∧
    (0 < x.div.depth → act &&& ~~~(reg (x.div.depth - 1)).mask = 0 →
      ∃ t y, exec (.waitPop h) s = .next t ∧ s.Kept t x y ∧ y.regs = x.regs ∧ y.div = ((parked (x.div.depth - 1)).settle []).1) ∧
    (x.div.depth ≤ n.toNat →
      ∃ t y, exec (.jdrop h n) s = .next t ∧ s.Kept t x y ∧ y.regs = x.regs ∧
        y.div = (({ (leaving s x h).mapThreads act (fun _ => s.iss.step) with
          j := if (reg n.toNat).v then x.div.j.set n.toNat { reg n.toNat with mask := (reg n.toNat).mask &&& ~~~act } else x.div.j } : Diverge).settle []).1)) ∧
  (∀ (d : Diverge) (j : JReg), j.v = true → d.ovd = 0 → d.depth = 0 → d.j = [j] → d.threads.length ≤ 64 → j.stk = false →
    let l := j.mask &&& d.live
    let clear := { j with v := false, mask := 0, park := 0 }
    let e := (d.settle []).1
    (j.park ≠ 0 ∧ l &&& ~~~j.park = 0 →
      e.j = [clear] ∧ ∀ b : Nat, e.threads[b]? = (d.threads[b]?).map fun t =>
        if j.park.getLsbD b ∧ t.st = .parked then { pc := j.addr, op := none, st := .ready, call := none } else t) ∧
    (j.park = 0 ∧ l = 0 → e.j = [clear] ∧ e.threads = d.threads) ∧
    (¬(j.park ≠ 0 ∧ l &&& ~~~j.park = 0) → ¬(j.park = 0 ∧ l = 0) → e.j = [j] ∧ e.threads = d.threads))

/-- The active threads of an issue that are Held, the others of its run at the next instruction. -/
def heldBy (s : State) (x : Fibre) (h : Hdr) : Diverge := (leaving s x h).mapThreads (s.active h x) fun _ t => { t with st := .held }

/-- R178, R179, R393: FBAR makes the active threads Held and opens the phase; the fibre arrives when all its live threads are Held; a barrier of its
own stage alone lets it go on at once as the closer. -/
def Obligations.FibreBarrier : Prop :=
  ∀ (s : State) (x : Fibre) (h : Hdr) (b : BitVec 2) (mask : BitVec 4) (q : BitVec 3), s.Settled x → s.active h x ≠ 0 →
    x.regs.satTrap = false → (∀ g, g < 4 → mask.getLsbD g = true → g < max 1 (s.launchOf x).desc.stages) → mask.getLsbD x.pos.stage = true →
    x.pos.stage = s.iss.fibre % 4 → x.div.threads.length = x.pos.width → x.pos.width ≤ 64 → x.div.heldBar = none → x.regs.inh = false →
    let f := s.iss.fibre
    let bar := (s.slot (slotOfFibre f)).bar b.toNat
    bar.isOpen = false ∨ bar.mask = mask ∧ bar.arrived.getLsbD (f % 4) = false →
    let after := fun (t : State) => (t.slot (slotOfFibre f)).bar b.toNat
    let opened := if bar.isOpen then bar else { bar with isOpen := true, mask := mask, arrived := 0 }
    let all := (heldBy s x h).live = (heldBy s x h).inState .held
    let others := fun (a : BitVec 4) => ∀ g, g < 4 → mask.getLsbD g = true → a.getLsbD g = true ∨ s.stageGone (slotOfFibre f) g = true
    ∃ t y, exec (.fbar h b mask q) s = .next t ∧ t.fib? f = some y ∧ t.mem = s.mem ∧ t.dies = s.dies ∧ y.out = x.out ∧
      (¬all → after t = opened ∧ y.regs = x.regs ∧ y.div = ({ heldBy s x h with heldBar := some (b.toNat, q) } : Diverge).turn) ∧
      (all → ¬others (opened.arrived ||| BitVec.ofNat 4 (2 ^ (f % 4))) →
        after t = { opened with arrived := opened.arrived ||| BitVec.ofNat 4 (2 ^ (f % 4)), last := f } ∧ y.regs = x.regs ∧
        y.div = ({ heldBy s x h with heldBar := some (b.toNat, q) } : Diverge).turn) ∧
      (all → mask = BitVec.ofNat 4 (2 ^ (f % 4)) → bar.isOpen = false →
        (after t).isOpen = false ∧ y.div.heldBar = none ∧
        (∀ k, (s.active h x).getLsbD k = true → y.regs.pred q k = true) ∧
        ∀ k : Nat, y.div.threads[k]? = ((heldBy s x h).threads[k]?).map fun t => if t.st = .held then t.pastBar else t)

/-- The divergence of a fibre whose active threads have exited, before R377's test: they are in no rejoin mask (R392). -/
def departed (s : State) (x : Fibre) (h : Hdr) : Diverge :=
  let d := (leaving s x h).mapThreads (s.active h x) fun _ t => { t with st := .exited, op := none, call := none }
  { d with j := d.j.map fun j => if j.v then { j with mask := j.mask &&& ~~~s.active h x } else j }

/-- R377, R392, without overflow levels and with no thread Held: EXIT makes the active threads Exited and takes them out of every rejoin mask, and then
R377's test is made of every register; the other threads of the run move on, and memory, the registers' words and predicates stand. Of a fibre with no live
thread left the owed values, the monitor set, the staging words and the window offset are gone. -/
def Obligations.Exits : Prop :=
  ∀ (s : State) (x : Fibre) (h : Hdr), s.Settled x → s.active h x ≠ 0 → x.div.ovd = 0 → x.div.heldBar = none →
    let d := ((departed s x h).settle []).1
    ∃ t y, exec (.exit h) s = .next t ∧ t.fib? s.iss.fibre = some y ∧ t.mem = s.mem ∧ t.lanes = s.lanes ∧ t.launches = s.launches ∧ t.images = s.images ∧
      y.pos = x.pos ∧ s.WordsStand t ∧ s.PredsStand t ∧ y.regs.flags = x.regs.flags ∧ y.div.threads = d.threads ∧ y.div.j = d.j ∧ y.div.depth = d.depth ∧
      (y.div.live = 0 → y.out = [] ∧ y.mon = [] ∧ y.regs.woff = 0 ∧ y.regs.stg = { cfg := 0, pre := 0, post0 := 0, post1 := 0, unf0 := 0, unf1 := 0 })

/-- R240, R243, R394, R395: MDEF reads its records and writes the entry of every control store its die reaches; MCALL of a defined entry places the
active threads at its first operation with the parameters it names. -/
def Obligations.Macros : Prop :=
  ∀ (s : State) (x : Fibre) (h : Hdr), s.Settled x → s.active h x ≠ 0 →
    (∀ (n : BitVec 6) (p0 p1 p2 p3 p4 p5 p6 p7 : BitVec 11), tget [] (s.core (coreOfFibre s.iss.fibre)).cstore n.toNat ≠ [] →
      ∃ t y, exec (.mcall h n p0 p1 p2 p3 p4 p5 p6 p7) s = .next t ∧ s.Moved t x y h fun _ t =>
        { t with op := some 0, call := some ⟨tget [] (s.core (coreOfFibre s.iss.fibre)).cstore n.toNat, [p0, p1, p2, p3, p4, p5, p6, p7], s.iss.len, n.toNat⟩ }) ∧
    (∀ (a : Opd) (n c : BitVec 6) (ops : List Raw) (u : State), a.Fits x 2 → (Instr.mdef h a n c).legal = true →
      s.readMacro (a.value s x true 0) c.toNat = .ok (ops, u) →
      ∃ t y, exec (.mdef h a n c) s = .next t ∧ t.fib? s.iss.fibre = some y ∧ y.regs = x.regs ∧ s.Placed x h y (fun _ => s.iss.step) ∧ t.mem = u.mem ∧
        ∀ k, k < 384 → (s.reaches (dieOfFibre s.iss.fibre) (dieOfCluster (clusterOfCore k)) = true → tget [] (t.core k).cstore n.toNat = ops) ∧
          (s.reaches (dieOfFibre s.iss.fibre) (dieOfCluster (clusterOfCore k)) = false → (t.core k).cstore = (u.core k).cstore))

/-! ## Accesses to memory -/

/-- R211, R261, R263, R266 to R268: LDG without an acquire and LDC, whose address translates to DRAM of the fibre's die, issue one load for each
active thread, or one for all where no operand is per thread; the value comes when the load is performed. -/
def Obligations.Loads : Prop :=
  ∀ (s : State) (x : Fibre) (h : Hdr) (q : Qual) (ty : Ty) (qw touch : Bool) (d : Opd) (a b : Src) (off : BitVec 32) (segs : Nat → List Seg), s.Settled x →
    let n := accessBytes ty qw
    let uni := !(d.perThread || a.perThread || b.perThread)
    let dst := if d = .sz then (Ref.none, 0) else (d.ref x.pos x.regs.woff 0, accessRegs n)
    let at_ := fun (kind : AccKind) (plain : Bool) => ∀ k ∈ s.beatsOf h uni x,
      (∃ pg, s.openAccess clsLoad kind plain true (s.eaOf x a b off k) n 0 = .ok (pg, segs k, s)) ∧ s.local (segs k)
    let made := fun (kind : AccKind) (plain : Bool) k => { Access.make kind (s.eaOf x a b off k) (segs k) n ty dst.1 dst.2 with
      plain := plain && !(segs k).any fun g => g.ca == 2 }
    d.Fits x (accessRegs n) → a.Fits x 2 → b.Fits x 1 → (d = .sz → touch = true) →
    (acquires q.ord = false → (Instr.ldg h q ty qw touch d a b off).legal = true → at_ .load (q.ord == .none && !q.x) →
      ∃ t y, exec (.ldg h q ty qw touch d a b off) s = .next t ∧ s.Issued t x y h uni (made .load (q.ord == .none && !q.x)) ∧ t.cohorts = s.cohorts) ∧
    ((Instr.ldc h ty qw touch d a b off).legal = true → at_ .const true →
      ∃ t y, exec (.ldc h ty qw touch d a b off) s = .next t ∧ s.Issued t x y h uni (made .const true) ∧ t.cohorts = s.cohorts)

/-- R50, R53, R57, R58, R269: LDE, where the page of the row start and the page of the element have one format, issues a load of the element's bytes at its
index in the row, with the scale or header of its block, that will be decoded in that format; an index of a block row at or beyond the row's length delivers
zero. Which format an element has where the two pages differ is the model's reading (assumption 125). -/
def Obligations.ElementLoads : Prop :=
  ∀ (s : State) (x : Fibre) (h : Hdr) (q : Qual) (ty : Ty) (touch : Bool) (d : Opd) (a b : Src) (c : Option Opd) (off : BitVec 32) (fmt : Nat → Nat)
    (segs more : Nat → List Seg), s.Settled x →
    let uni := !(d.perThread || a.perThread || b.perThread)
    let k := regsOf ty.is64
    let row := fun t => (BitVec.ofNat 64 (a.value s x true t) + off.signExtend 64).toNat
    let index := fun t => b.value s x false t
    let plain := q.ord == .none && !q.x
    let dst := if d = .sz then (Ref.none, 0) else (d.ref x.pos x.regs.woff 0, k)
    let page := fun va t => ∃ pg, s.quietPage s.iss.fibre va = (some pg, s) ∧ pg.fmt = fmt t
    let opens := fun va n t (l : List Seg) => s.local l ∧ ∃ ps, s.openAccess clsLoad .load plain true va n 0 = .ok (ps, l, s) ∧ ∀ p ∈ ps, p.fmt = fmt t ∧ p.geo < 2
    let made := fun va (l : List Seg) n t bit scale => { Access.make .load va l n ty dst.1 dst.2 with
      plain := plain && !l.any fun g => g.ca == 2, lde := some { fmt := fmt t, ty := ty, bit := bit, width := elementBits (fmt t), scale := scale } }
    d.Fits x k → a.Fits x 2 → b.Fits x 1 → (∀ o ∈ c, o.Fits x 4) → (d = .sz → touch = true) → acquires q.ord = false →
    (Instr.lde h q ty touch d a b c off).legal = true →
    (∀ t ∈ s.beatsOf h uni x, row t < 2 ^ 56 ∧ page (row t) t ∧ ldeTypes (fmt t) ty = true) →
    ((∀ t ∈ s.beatsOf h uni x, isBlock (fmt t) = false ∧
        let va := row t + index t * (elementBits (fmt t) / 8)
        page va t ∧ opens va (elementBits (fmt t) / 8) t (segs t)) →
      ∃ u y, exec (.lde h q ty touch d a b c off) s = .next u ∧ u.cohorts = s.cohorts ∧
        s.Issued u x y h uni fun t => made (row t + index t * (elementBits (fmt t) / 8)) (segs t) (elementBits (fmt t) / 8) t 0 0) ∧
    (∀ o, c = some o →
      let words := fun i => (s.opWord x o i 0).toNat
      let in_ := fun t => index t % 32 * elementBits (fmt t)
      let va := fun t => row t + index t / 32 * (4 * elementBits (fmt t)) + in_ t / 8
      let n := fun t => (in_ t % 8 + elementBits (fmt t) + 7) / 8
      let scale := fun t => if fmt t = 21 ∨ fmt t = 22 then 2 else 1
      ((∀ t ∈ s.beatsOf h uni x, isBlock (fmt t) = true ∧ index t < words 2 ∧ index t / 32 < words 3 ∧ page (va t) t ∧ opens (va t) (n t) t (segs t) ∧
          s.local (more t) ∧ ∃ ps, s.openAccess clsLoad .load plain true (words 0 + 2 ^ 32 * words 1 + index t / 32 * scale t) (scale t) 0 = .ok (ps, more t, s)) →
        ∃ u y, exec (.lde h q ty touch d a b c off) s = .next u ∧ u.cohorts = s.cohorts ∧
          s.Issued u x y h uni fun t => made (va t) (segs t ++ more t) (n t + scale t) t (in_ t % 8) (scale t)) ∧
      ((∀ t ∈ s.beatsOf h uni x, isBlock (fmt t) = true ∧ words 2 ≤ index t) →
        ∃ u y, exec (.lde h q ty touch d a b c off) s = .next u ∧ s.Stepped u x y ∧ s.Wrote u x h d ty.is64 (fun _ => 0) ∧ s.PredsStand u ∧ y.regs.flags = x.regs.flags))

/-- R261, R263, R270, R273 to R275, R423: STG, REDG and ATOMG to DRAM of the fibre's die issue one access for each beat that executes, with the
bytes of the datum; a store enters the fibre's digest at once. -/
def Obligations.StoresAndAtomics : Prop :=
  ∀ (s : State) (x : Fibre) (h : Hdr) (q : Qual) (op : AOp) (ty : Ty) (a b : Src) (segs : Nat → List Seg), s.Settled x → a.Fits x 2 → s.released q →
    (∀ (qw : Bool) (d : Opd) (off : BitVec 32),
      let n := accessBytes ty qw
      let uni := !(d.perThread || a.perThread || b.perThread)
      d.Fits x (accessRegs n) → b.Fits x 1 → (Instr.stg h q ty qw d a b off).legal = true →
      (∀ k ∈ s.beatsOf h uni x, (∃ pg, s.openAccess clsStore .store false false (s.eaOf x a b off k) n 0 = .ok (pg, segs k, s)) ∧ s.local (segs k)) →
      ∃ t y, exec (.stg h q ty qw d a b off) s = .next t ∧
        (s.Issued t x y h uni fun k => { Access.make .store (s.eaOf x a b off k) (segs k) n .b32 .none 0 with data := s.opBytes x d n k }) ∧
        s.Credited t x ((s.beatsOf h uni x).map fun k => digestCells (cellsFrom (s.eaOf x a b off k) (s.opBytes x d n k)))) ∧
    (let n := ty.width / 8
     let uni := !(a.perThread || b.perThread)
     b.Fits x (accessRegs n) → (Instr.redg h q op ty a b).legal = true →
      (∀ k ∈ s.beatsOf h uni x, (∃ pg, s.openAccess clsAtomic (.red op ty) false false (a.value s x true k) n n = .ok (pg, segs k, s)) ∧ s.local (segs k)) →
      ∃ t y, exec (.redg h q op ty a b) s = .next t ∧ t.cohorts = s.cohorts ∧
        s.Issued t x y h uni fun k => { Access.make (.red op ty) (a.value s x true k) (segs k) n ty .none 0 with data := s.srcBytes x b n k }) ∧
    (∀ (d : Opd) (c : Option Opd),
      let n := atomicBytes q op ty
      let uni := !(d.perThread || c.elim false Opd.perThread || a.perThread || b.perThread)
      let dst := if d = .sz then (Ref.none, 0) else (d.ref x.pos x.regs.woff 0, accessRegs n)
      d.Fits x (accessRegs n) → b.Fits x (accessRegs n) → (∀ o ∈ c, o.Fits x (accessRegs n)) → acquires q.ord = false → (Instr.atomg h q op ty d a b c).legal = true →
      (∀ k ∈ s.beatsOf h uni x, (∃ pg, s.openAccess clsAtomic (.atomic op ty) false true (a.value s x true k) n n = .ok (pg, segs k, s)) ∧ s.local (segs k)) →
      ∃ t y, exec (.atomg h q op ty d a b c) s = .next t ∧ t.cohorts = s.cohorts ∧
        s.Issued t x y h uni fun k => { Access.make (.atomic op ty) (a.value s x true k) (segs k) n (if n = 4 then .b32 else .n64) dst.1 dst.2 with
          rmt := q.x && op != .cas, data := s.srcBytes x b n k, cmp := c.elim [] fun o => s.opBytes x o n k })

/-- R17, R87, R98, R216, R266: an access that only ends at its beat leaves the fibre waiting for its reply, at the first executing beat, with that one
access outstanding: a load or an atomic with an acquire or of another die. -/
def Obligations.BlockingAccesses : Prop :=
  ∀ (s : State) (x : Fibre) (h : Hdr) (q : Qual) (op : AOp) (ty : Ty) (d : Opd) (a b : Src) (segs : List Seg), s.Settled x → a.Fits x 2 → s.active h x ≠ 0 →
    let first := fun uni => (s.beatsOf h uni x).headD 0
    let waits := fun (t : State) (kind : AccKind) (va n k : Nat) => ∃ y acc, s.Around t ∧ t.fib? s.iss.fibre = some y ∧ y.regs = x.regs ∧ y.div = x.div ∧
      y.sleep = .reply ∧ y.out = [acc] ∧ acc.kind = kind ∧ acc.va = va ∧ acc.n = n ∧ acc.beat = k ∧ acc.block = true ∧ acc.reply = none ∧
      ∃ m, y.mid = some m ∧ m.pc = s.iss.pc ∧ m.beat = k
    (∀ (qw touch : Bool) (off : BitVec 32),
      let n := accessBytes ty qw
      let k := first (!(d.perThread || a.perThread || b.perThread))
      let va := s.eaOf x a b off k
      d.Fits x (accessRegs n) → b.Fits x 1 → (Instr.ldg h q ty qw touch d a b off).legal = true → (d = .sz → touch = true ∨ acquires q.ord = true) →
      (∃ pg, s.openAccess clsLoad .load (q.ord == .none && !q.x) true va n 0 = .ok (pg, segs, s)) →
      (q.acquire ≠ none ∨ ∃ g ∈ segs, g.host = true ∨ g.home ≠ s.myDie) →
      ∃ t, exec (.ldg h q ty qw touch d a b off) s = .next t ∧ waits t .load va n k) ∧
    (∀ c : Option Opd,
      let n := atomicBytes q op ty
      let k := first (!(d.perThread || c.elim false Opd.perThread || a.perThread || b.perThread))
      let va := a.value s x true k
      d.Fits x (accessRegs n) → b.Fits x (accessRegs n) → (∀ o ∈ c, o.Fits x (accessRegs n)) → (Instr.atomg h q op ty d a b c).legal = true → s.mayRmw q →
      (∃ pg, s.openAccess clsAtomic (.atomic op ty) false true va n n = .ok (pg, segs, s)) → (∀ g ∈ segs, g.host = false) →
      (q.acquire ≠ none ∨ ∃ g ∈ segs, g.home ≠ s.myDie) →
      ∃ t, exec (.atomg h q op ty d a b c) s = .next t ∧ waits t (.atomic op ty) va n k)

/-- The packet number of a request on a window, `i` requests of its queue pair after the next: numbers have 24 bits (R14). -/
def packetAfter (d : Die) (w : PeerWin) (i : Nat) : Nat :=
  let n := tget 0 d.psn (w.port.toNat * 2 ^ 24 + w.qpn.toNat)
  if i = 0 then n else (n + i) % 2 ^ 24

/-- R12, R14, R211, R298, R420, R452: RSTG issues the staging step of the fibre's slot, 16 bytes at its position past the base, and waits at its beat for the
reply. RMTR sends a read through the peer window for each beat that executes, each under the next packet number of its queue pair, and goes on; the
results are owed. -/
def Obligations.StagingAndRemoteReads : Prop :=
  ∀ (s : State) (x : Fibre) (h : Hdr) (ty : Ty), s.Settled x → s.active h x ≠ 0 →
    (∀ (op : ROp) (a b : Src) (segs : List Seg), a.Fits x 2 → b.Fits x (regsOf ty.is64) → (Instr.rstg h ty op a b).legal = true →
      let k := (s.beatsOf h false x).headD 0
      let va := a.value s x true k + 16 * x.pos.lidx
      (∃ pg, s.openAccess clsAtomic (.rstg op ty) false true va 16 16 = .ok (pg, segs, s)) → (∀ g ∈ segs, g.host = false) →
      ∃ t y acc, exec (.rstg h ty op a b) s = .next t ∧ s.Around t ∧ t.fib? s.iss.fibre = some y ∧ y.regs = x.regs ∧ y.div = x.div ∧ y.sleep = .reply ∧
        y.out = [acc] ∧ acc.kind = .rstg op ty ∧ acc.va = va ∧ acc.n = 16 ∧ acc.beat = k ∧ acc.data = s.srcBytes x b (4 * regsOf ty.is64) k ∧ acc.block = true) ∧
    (∀ (d a : Opd) (entry : BitVec 12) (off : BitVec 40) (w : PeerWin),
      let n := ty.width / 8
      let uni := !(d.perThread || a.perThread)
      let beats := s.beatsOf h uni x
      let o := fun k => a.value s x true k + off.toNat
      let die := s.die s.myDie
      d.Fits x (accessRegs n) → d ≠ .sz → a.Fits x 2 → (∀ k ∈ beats, s.remoteAt entry (o k) n = .ok w) → die.broken w = false →
      ∃ t y, exec (.rmtr h ty d a entry off) s = .next t ∧ s.Around t ∧ t.fib? s.iss.fibre = some y ∧ s.WentOn x h y ∧ t.cohorts = s.cohorts ∧
        y.out = x.out ++ beats.zipIdx.map (fun e => s.numbered (Access.make .rmtr (o e.1) [] n (if n = 4 then .b32 else .n64) (d.ref x.pos x.regs.woff 0) (accessRegs n))
          (s.active h x) uni e.1 (die.wtNext + e.2)) ∧
        (t.die s.myDie).tracker = (beats.zipIdx.map fun e =>
          { link := .ethernet, tag := rocePacket w.port w.qpn (packetAfter die w e.2), fibre := s.iss.fibre, write := false, port := w.port, qpn := w.qpn
            addr := w.rbase.toNat + o e.1, data := [], copy := none, seq := die.wtNext + e.2, inc := die.r.inc : Track }).reverse ++ die.tracker)

/-! ## The scratchpad -/

/-- R124, R127, R165, R263, R268, R270, R274, R275: LDS, STS and ATOMS inside the fibre's window and over sound granules act beat after beat on the
bytes of the scratchpad: a load delivers them, a store replaces them, an atomic does both in one step. Of a convergence register nothing changes but the
bytes that its pass may still see (R207). -/
def Obligations.ScratchpadAccesses : Prop :=
  ∀ (s : State) (x : Fibre) (h : Hdr) (q : Qual) (ty : Ty) (d : Opd) (a b : Src), s.Settled x → s.mine.spadBad = [] → s.mine.spadCe = [] → a.Fits x 1 →
    let phys := fun (off : Int) => s.winBase x + off.toNat
    let sameSets := fun (t : State) => ∀ p, { t.kreg (clusterOfFibre s.iss.fibre) p with spad0 := [] } = { s.kreg (clusterOfFibre s.iss.fibre) p with spad0 := [] }
    (∀ (qw touch : Bool) (off : BitVec 32),
      let n := accessBytes ty qw
      let uni := !(d.perThread || a.perThread || b.perThread)
      d.Fits x (accessRegs n) → b.Fits x 1 → q.acquire = none → (Instr.lds h q ty qw touch d a b off).legal = true →
      (∀ k ∈ s.beatsOf h uni x, inWindow (s.winSize x) (s.padOf x a b off k) n = true) →
      ∃ t y, exec (.lds h q ty qw touch d a b off) s = .next t ∧ s.InCluster t x y ∧ t.mine = s.mine ∧
        s.Loaded t x h uni d (accessRegs n) fun k i => nth 0 (loadWords ty n (tblBytes s.mine.spad (phys (s.padOf x a b off k)) n)) i) ∧
    (∀ (qw : Bool) (off : BitVec 32),
      let n := accessBytes ty qw
      let uni := !(d.perThread || a.perThread || b.perThread)
      d.Fits x (accessRegs n) → b.Fits x 1 → s.released q → (Instr.sts h q ty qw d a b off).legal = true →
      (∀ k ∈ s.beatsOf h uni x, inWindow (s.winSize x) (s.padOf x a b off k) n = true) →
      ∃ t y, exec (.sts h q ty qw d a b off) s = .next t ∧ s.InCluster t x y ∧ s.WordsStand t ∧ sameSets t ∧
        { t.mine with k := s.mine.k } = { s.mine with spad := (s.beatsOf h uni x).foldl (fun m k => tblWrite m (phys (s.padOf x a b off k)) (s.opBytes x d n k)) s.mine.spad }) ∧
    (∀ (op : AOp) (c : Option Opd),
      let n := ty.width / 8
      let uni := !(d.perThread || c.elim false Opd.perThread || a.perThread || b.perThread)
      let at_ := fun k => phys (a.value s x false k)
      let new := fun (m : List (Nat × Byte)) k => tblWrite m (at_ k) (leBytes n (atomicNew op ty n (leNat (tblBytes m (at_ k) n)) (leNat (s.srcBytes x b n k))
        (c.elim 0 fun o => leNat (s.opBytes x o n k))))
      let before := fun k => ((s.beatsOf h uni x).filter (· < k)).foldl new s.mine.spad
      d.Fits x (accessRegs n) → b.Fits x (accessRegs n) → (∀ o ∈ c, o.Fits x (accessRegs n)) → q.acquire = none → s.released q →
      (Instr.atoms h q op ty d a b c).legal = true →
      (∀ k ∈ s.beatsOf h uni x, a.value s x false k % n = 0 ∧ inWindow (s.winSize x) (a.value s x false k) n = true) →
      ∃ t y, exec (.atoms h q op ty d a b c) s = .next t ∧ s.InCluster t x y ∧ sameSets t ∧
        { t.mine with k := s.mine.k } = { s.mine with spad := (s.beatsOf h uni x).foldl new s.mine.spad } ∧
        s.Loaded t x h uni d (accessRegs n) fun k i => nth 0 (natWords (accessRegs n) (leNat (tblBytes (before k) (at_ k) n))) i)

/-- R129 to R131, R271, R272: with nobody waiting, LDFE takes the bytes of full granules and may empty them, STFE fills empty ones, FESET marks
whole ranges; an LDFE of an empty granule sleeps in its queue. -/
def Obligations.FullEmpty : Prop :=
  ∀ (s : State) (x : Fibre) (h : Hdr) (ty : Ty) (qw : Bool) (d : Opd) (a b : Src) (off : BitVec 32), s.Settled x → s.mine.spadBad = [] → s.mine.spadCe = [] →
    s.mine.waiters = [] → a.Fits x 1 → b.Fits x 1 →
    let n := accessBytes ty qw
    let uni := !(d.perThread || a.perThread || b.perThread)
    let phys := fun k => s.winBase x + (s.padOf x a b off k).toNat
    let granule := fun k => phys k / 16
    let sound := ∀ k ∈ s.beatsOf h uni x, s.feCheck (s.padOf x a b off k) n = none
    let apart := ∀ j ∈ s.beatsOf h uni x, ∀ k ∈ s.beatsOf h uni x, granule j = granule k → j = k
    let full := fun (t : State) g => t.mine.full.contains g
    (∀ clr : Bool, d.Fits x (accessRegs n) → (Instr.ldfe h clr ty qw d a b off).legal = true → sound →
      ((∀ k ∈ s.beatsOf h uni x, full s (granule k) = true) → (clr = true → apart) →
        ∃ t y, exec (.ldfe h clr ty qw d a b off) s = .next t ∧ s.InCluster t x y ∧ { t.mine with full := s.mine.full } = s.mine ∧
          (∀ g, full t g = true ↔ full s g = true ∧ ¬(clr = true ∧ ∃ k ∈ s.beatsOf h uni x, g = granule k)) ∧
          s.Loaded t x h uni d (accessRegs n) fun k i => nth 0 (loadWords ty n (tblBytes s.mine.spad (phys k) n)) i) ∧
      (∀ k, (s.beatsOf h uni x).head? = some k → full s (granule k) = false → s.mine.waitFault (granule k) = none →
        ∃ t y w, exec (.ldfe h clr ty qw d a b off) s = .next t ∧ t.fib? s.iss.fibre = some y ∧ y.sleep = .fe (granule k) ∧ y.regs = x.regs ∧ y.div = x.div ∧
          t.mine = { s.mine with waiters := [w] } ∧ w.fibre = s.iss.fibre ∧ w.beat = k ∧ w.granule = granule k ∧ w.wantFull = true ∧ w.clr = clr ∧ t.mem = s.mem)) ∧
    (d.Fits x (accessRegs n) → (Instr.stfe h ty qw d a b off).legal = true → sound → apart → (∀ k ∈ s.beatsOf h uni x, full s (granule k) = false) →
      ∃ t y, exec (.stfe h ty qw d a b off) s = .next t ∧ s.InCluster t x y ∧ s.WordsStand t ∧
        { t.mine with full := s.mine.full, k := s.mine.k } =
          { s.mine with spad := (s.beatsOf h uni x).foldl (fun m k => tblWrite m (phys k) (s.opBytes x d n k)) s.mine.spad } ∧
        (∀ p, { t.kreg (clusterOfFibre s.iss.fibre) p with spad0 := [] } = { s.kreg (clusterOfFibre s.iss.fibre) p with spad0 := [] }) ∧
        ∀ g, full t g = true ↔ full s g = true ∨ ∃ k ∈ s.beatsOf h uni x, g = granule k) ∧
    (∀ (set : Bool) (o e : Opd), o.Fits x 1 → e.Fits x 1 →
      let all := s.beatsOf h (!(o.perThread || e.perThread)) x
      let first := fun k => (s.winBase x + ((o.value s x false k : Int) + off.toInt).toNat) / 16
      let len := fun k => e.value s x false k
      (∀ k ∈ all, ((o.value s x false k : Int) + off.toInt) % 16 = 0 ∧ len k % 16 = 0 ∧ inWindow (s.winSize x) ((o.value s x false k : Int) + off.toInt) (len k) = true) →
      ∃ t y, exec (.feset h set o e off) s = .next t ∧ t.fib? s.iss.fibre = some y ∧ t.mem = s.mem ∧ y.regs = x.regs ∧ t.mine.spad = s.mine.spad ∧
        y.div = x.div.mapThreads s.iss.run (fun _ => s.iss.step) ∧
        ∀ g, full t g = true ↔ if ∃ k ∈ all, first k ≤ g ∧ g < first k + len k / 16 then set = true else full s g = true)

/-! ## Hints, fences, caches, monitors -/

/-- R267, R276: PREF without `.touch`, of any address, and LDG to sz without `.touch`, change nothing that a program sees and move the run on; of an address
that does not translate they fill nothing either. PREF.touch does the same where the addresses of its beats translate. -/
def Obligations.Hints : Prop :=
  ∀ (s : State) (x : Fibre) (h : Hdr), s.Settled x →
    let f := s.iss.fibre
    let seen := fun (t : State) (y : Fibre) => t.mem = s.mem ∧ t.slots = s.slots ∧ t.cohorts = s.cohorts ∧ t.launches = s.launches ∧ t.lanes = s.lanes ∧
      (∀ g, g ≠ f → t.fib? g = s.fib? g) ∧ t.fib? f = some y ∧ y.out = x.out ∧ s.WentOn x h y
    (∀ (l1 : Bool) (a b : Opd) (off : BitVec 32), a.Fits x 2 → b.Fits x 1 →
      let beats := s.beatsOf h (!(a.perThread || b.perThread)) x
      let ea := fun k => s.eaOf x (.reg a .id) (.reg b .id) off k
      (∃ t y, exec (.pref h l1 false a b off) s = .next t ∧ seen t y ∧
        ((∀ k ∈ beats, s.hintXl f (pageParts (ea k / 128 * 128) 1) = (none, s)) → s.Around t ∧ t.dies = s.dies)) ∧
      ((∀ k ∈ beats, ea k < 2 ^ 56 ∧ (tlbFind s.mine.tlb (s.asidOf x) (ea k)).isSome = true ∧
          (tlbFind s.mine.tlb (s.asidOf x) (ea k / 128 * 128)).isSome = true) → ∃ t y, exec (.pref h l1 true a b off) s = .next t ∧ seen t y) ∧
      (∀ k pg u, beats = [k] → s.translate (clusterOfFibre f) (s.asidOf x) (ea k) false false = (.ok pg, u) →
        ∃ t y, exec (.pref h l1 true a b off) s = .next t ∧ seen t y)) ∧
    (∀ (q : Qual) (ty : Ty) (qw : Bool) (a b : Src) (off : BitVec 32), a.Fits x 2 → b.Fits x 1 → acquires q.ord = false →
      (Instr.ldg h q ty qw false .sz a b off).legal = true →
      ∃ t y, exec (.ldg h q ty qw false .sz a b off) s = .next t ∧ seen t y ∧
        ((∀ k ∈ s.beatsOf h (!(a.perThread || b.perThread)) x, s.hintXl f (pageParts (s.eaOf x a b off k) (accessBytes ty qw)) = (none, s)) →
          s.Around t ∧ t.dies = s.dies))

/-- Nothing that a fence of a scope waits for is outstanding: at package scope no write-through record of the die, and at `.sys` no host write that its port
has not accepted and no remote write (R98, R216, R230, R298). -/
def nothingOwed (s : State) (x : Fibre) (sc : Scope) : Prop :=
  (Scope.package (some sc) = true → (s.die s.myDie).wt = []) ∧
  (sc = .sys → (∀ d, d < 2 → ∀ w ∈ (s.die d).port, w.fibre ≠ some s.iss.fibre) ∧ x.rmtBad = false ∧ s.remoteWrites s.iss.fibre = false)

/-- R96, R98, R120, R216, R277, R278, R280: FENCE with nothing outstanding goes on; as an acquire from `.clu` up it empties the L1, from `.die` up it starts
a new copy epoch; CINV empties the L1, the constant cache, or both; CWB of a range of DRAM none of whose records awaits its acknowledgement leaves its Home
lines in DRAM, and one of no bytes leaves everything. R214, R279: ICINV of a range whose pages translate removes its lines from the instruction cache of every
core of the scope that the die reaches; lines outside the range and the other cores' caches stand; at package scope every die reached starts a new copy
epoch. -/
def Obligations.FencesAndCaches : Prop :=
  (∀ (s : State) (x : Fibre) (h : Hdr), s.Settled x → s.active h x ≠ 0 →
    let core := coreOfFibre s.iss.fibre
    let die := s.myDie
    let same := fun (t : State) (y : Fibre) => t.mem = s.mem ∧ t.cohorts = s.cohorts ∧ t.slots = s.slots ∧ t.fib? s.iss.fibre = some y ∧ y.out = x.out ∧ s.WentOn x h y ∧
      ∀ g, g ≠ s.iss.fibre → t.fib? g = s.fib? g
    (∀ (ord : MemOrd) (sc : Scope), nothingOwed s x sc →
      ∃ t y, exec (.fence h ord sc) s = .next t ∧ same t y ∧ t.clusters = s.clusters ∧
        (acquires ord = false ∨ sc = .fib ∨ sc = .core → t.cores = s.cores ∧ t.dies = s.dies) ∧
        (acquires ord = true → sc ≠ .fib → sc ≠ .core → (t.core core).l1 = []) ∧
        (acquires ord = true → sc = .die ∨ Scope.package (some sc) = true →
          (t.die die).cepoch = (s.die die).cepoch + 1 ∧ ((s.die die).cepoch = 63 → (t.die die).copies = []))) ∧
    (∀ kind : CinvKind, ∃ t y, exec (.cinv h kind) s = .next t ∧ same t y ∧ t.dies = s.dies ∧
      (kind = .l1 ∨ kind = .all → (t.core core).l1 = []) ∧ (kind = .const → t.cores = s.cores) ∧
      (kind = .const ∨ kind = .all → t.mine = { s.mine with const := [] }) ∧ (kind = .l1 → t.clusters = s.clusters)) ∧
    (∀ (a b : Opd), a.Fits x 2 → b.Fits x 1 →
      let va := a.value s x true 0
      let n := b.value s x false 0
      (n = 0 → ∃ t y, exec (.cwb h a b) s = .next t ∧ same t y ∧ t.clusters = s.clusters ∧ t.cores = s.cores ∧ t.dies = s.dies) ∧
      (∀ l : List (Page × Nat), 0 < n → va + n ≤ 2 ^ 56 → s.xlParts clsLoad va (pageParts va n) = .ok (l, s) →
        let covered := fun (line : Nat) => ∃ e ∈ l, lineOf e.1.pa ≤ line ∧ line ≤ lineOf (e.1.pa + e.2 - 1)
        (∀ e ∈ l, s.segThere die (e.1.seg e.2) = true ∧ isHost e.1.pa = false) → (∀ r ∈ (s.die die).wt, ¬covered r.line) →
        ∃ t y, exec (.cwb h a b) s = .next t ∧ same t y ∧ t.clusters = s.clusters ∧ t.cores = s.cores ∧
          ∀ line, (covered line → tfind (t.die die).dirty line = none) ∧ (¬covered line → tfind (t.die die).dirty line = tfind (s.die die).dirty line)))) ∧
  (∀ (s : State) (x : Fibre) (h : Hdr) (scope : Scope) (a b : Opd) (page : Nat → Page), s.Settled x → s.active h x ≠ 0 → a.Fits x 2 → b.Fits x 1 →
    let f := s.iss.fibre
    let va := a.value s x true 0
    let n := b.value s x false 0
    (∀ e ∈ pageParts va n, s.translate (clusterOfFibre f) (s.asidOf x) e.1 false false = (.ok (page e.1), s)) →
    ∃ t y, exec (.icinv h scope a b) s = .next t ∧ t.mem = s.mem ∧ t.fib? f = some y ∧ s.WentOn x h y ∧
      (∀ c, (t.core c).icache = if c ∈ scopeCores scope (coreOfFibre f) ∧ s.reaches s.myDie (dieOfCluster (clusterOfCore c)) = true then
          (s.core c).icache.filter fun l => !decide (∃ e ∈ pageParts va n, lineOf (page e.1).pa ≤ l.line ∧ l.line ≤ lineOf ((page e.1).pa + e.2 - 1))
        else (s.core c).icache) ∧
      ∀ d, d < 2 → (t.die d).cepoch = if scope = .pkg ∧ s.reaches s.myDie d = true then (s.die d).cepoch + 1 else (s.die d).cepoch)

/-- R98, R276 to R280, R392: EXIT, PREF, FENCE, CINV, CWB and ICINV complete. EXIT, whose overflow levels can be read, leaves every active thread Exited; the
others leave memory and the registers of the fibre as they were and send the run on: PREF without `.touch`, CINV and ICINV for every operand, FENCE where nothing
it waits for is outstanding, CWB of no bytes, and CWB of a range whose pages the TLBs hold, in DRAM of the fibre's die, with no record of the die in the way. -/
def Obligations.OrderingFormsComplete : Prop :=
  ∀ (s : State) (x : Fibre) (h : Hdr), s.Settled x → s.active h x ≠ 0 →
    let goesOn := fun (i : Instr) => ∃ t y, exec i s = .next t ∧ t.fib? s.iss.fibre = some y ∧ t.mem = s.mem ∧ s.WentOn x h y
    (∀ l, s.readLevels s.iss.fibre x x.div.ovd = .ok (l, s) → ∃ t y, exec (.exit h) s = .next t ∧ t.fib? s.iss.fibre = some y ∧
      ∀ b, (s.active h x).getLsbD b = true → (y.div.threads[b]?).map (·.st) = (x.div.threads[b]?).map fun _ => .exited) ∧
    (∀ (ord : MemOrd) (sc : Scope), nothingOwed s x sc → goesOn (.fence h ord sc)) ∧
    (∀ kind : CinvKind, goesOn (.cinv h kind)) ∧
    (∀ a b : Opd, a.Fits x 2 → b.Fits x 1 →
      let va := a.value s x true 0
      let n := b.value s x false 0
      (∀ (l1 : Bool) (off : BitVec 32), goesOn (.pref h l1 false a b off)) ∧ (∀ scope : Scope, goesOn (.icinv h scope a b)) ∧
      (n = 0 → goesOn (.cwb h a b)) ∧
      (va + n ≤ 2 ^ 56 → (s.die s.myDie).wt = [] →
        (∀ e ∈ pageParts va n, ∃ p, s.lookup (coreOfFibre s.iss.fibre) (s.asidOf x) e.1 false false = .ok p ∧ p.home = s.myDie ∧ isHost p.pa = false) →
        goesOn (.cwb h a b)))

/-- R101, R103, R281, R282: MARM of a new line puts it into the fibre's monitor set, asks its home and waits for the answer; a line already armed is
passed, and a MARM that is complete leaves its die no Copy of a line of the set; MWAIT with no set, or with an event latched, or with a timeout of zero, returns its reason and clears the set; else the fibre sleeps. -/
def Obligations.Monitors : Prop :=
  ∀ (s : State) (x : Fibre) (h : Hdr), s.Settled x → s.active h x ≠ 0 →
    (∀ (a b : Src) (g : Seg), a.Fits x 2 → b.Fits x 1 → (Instr.marm h a b).legal = true →
      let uni := !(a.perThread || b.perThread)
      let k := (s.beatsOf h uni x).headD 0
      (∃ pg, s.openAccess clsLoad .load false false (s.eaOf x a b 0 k) 1 0 = .ok (pg, [g], s)) → g.host = false →
      ((∀ m ∈ x.mon, m.line ≠ lineOf g.pa) → x.mon.length < 4 →
        ∃ t y, exec (.marm h a b) s = .next t ∧ t.fib? s.iss.fibre = some y ∧ y.regs = x.regs ∧ y.div = x.div ∧ y.sleep = .reply ∧ t.mem = s.mem ∧
          y.mon = x.mon ++ [{ line := lineOf g.pa, registered := false, overflow := false }] ∧
          (t.die g.home).arms = (s.die g.home).arms ++ [{ fibre := s.iss.fibre, line := lineOf g.pa, overflow := false, live := false, inc := (s.die s.myDie).r.inc }]) ∧
      ((∃ m ∈ x.mon, m.line = lineOf g.pa) → s.beatsOf h uni x = [k] →
        ∃ t y, exec (.marm h a b) s = .next t ∧ t.fib? s.iss.fibre = some y ∧ s.WentOn x h y ∧ y.mon = x.mon ∧ t.mem = s.mem ∧
          (∀ die, die ≠ s.myDie → t.die die = s.die die) ∧
          t.die s.myDie = { s.die s.myDie with copies := (s.die s.myDie).copies.filter fun c => !decide (∃ m ∈ x.mon, m.line = c.line) })) ∧
    (∀ d a : Opd, d.Fits x 1 → a.Fits x 1 → (Instr.mwait h d a).legal = true → x.mwaitCode = none →
      let timeout := a.value s x false 0
      let why := if x.mon = [] then some 2 else if x.monEvent = true then some 0 else if s.monGone s.iss.fibre x = true ∨ timeout = 0 then some 1 else none
      (∀ c, why = some c → ∃ t y, exec (.mwait h d a) s = .next t ∧ t.fib? s.iss.fibre = some y ∧ y.mon = [] ∧ y.monEvent = false ∧ t.mem = s.mem ∧
        s.Wrote t x h d false (fun _ => c) ∧ s.PredsStand t ∧ y.div = x.div.mapThreads s.iss.run (fun _ => s.iss.step) ∧
        ∀ die, die < 2 → ∀ arm ∈ (t.die die).arms, arm.fibre ≠ s.iss.fibre) ∧
      (why = none → ∃ t y, exec (.mwait h d a) s = .next t ∧ t.fib? s.iss.fibre = some y ∧ y.sleep = .mwait (s.nowOf s.iss.fibre + timeout) ∧
        y.regs = x.regs ∧ y.div = x.div ∧ y.mon = x.mon ∧ t.mem = s.mem ∧ t.dies = s.dies))

/-! ## Traps and returns -/

/-- R433 to R436: a trap outside the handler enters it at TVEC, or at the routine named for it; with TVEC zero, or inside the handler, it is a double
fault: the fibre freezes, and its record joins the die's freeze queue with both causes (R438). -/
def Obligations.TrapEntry : Prop :=
  ∀ (s : State) (f : Nat) (x : Fibre) (r : TrapReq),
    (s.CanEnter f x → r.entry = none → x.regs.tvec ≠ 0 → ∃ y, s.Entered (s.trap f r) f x r x.regs.tvec y) ∧
    (∀ v, s.CanEnter f x → r.entry = some v → ∃ y, s.Entered (s.trap f r) f x r v y) ∧
    (let die := dieOfFibre f
     let frozen := fun (c1 c2 : Nat) => (∃ y, (s.trap f r).fib? f = some y ∧ y.frozen = true ∧ y.div = x.div) ∧ (s.trap f r).mem = s.mem ∧
       ((s.die die).freeze.length < 64 → ∃ z, ((s.trap f r).die die).freeze = (s.die die).freeze ++ [z] ∧ z.c1 = BitVec.ofNat 6 c1 ∧ z.c2 = BitVec.ofNat 6 c2 ∧
         z.pc = r.fpc ∧ z.fibre = f ∧ ((s.trap f r).die die).r.irqstat.getLsbD 5 = true)
     (s.fib? f = some x → x.regs.inh = true → frozen x.regs.hcause.toNat r.cause.code) ∧
     (s.CanEnter f x → r.entry = none → x.regs.tvec = 0 → frozen r.cause.code 63))

/-- R434, R437: a frame read back gives the threads, rejoin registers, window, staging words and position that it was written from. R437, R440, R456: RETT in a handler whose frame is sound, with every live thread active, restores what the frame holds and leaves the handler;
PRDONE acts alike in a PREEMPT handler outside a save, and inside one ends the fibre's part of it; outside a handler both are ILLOP. -/
def Obligations.FramesAndReturns : Prop :=
  (∀ (x : Fibre) (r : TrapReq), (x.pos.width = 8 ∨ x.pos.width = 16 ∨ x.pos.width = 32 ∨ x.pos.width = 64) → 512 / x.pos.width ≤ x.pos.plim →
    x.div.threads.length = x.pos.width → x.div.j.length = 8 → (∀ k ∈ x.div.threads, ∀ j, k.op = some j → j < 32) → x.regs.woff < 2 ^ 32 → r.beat < 64 →
    x.regs.stg.cfg &&& keepCfg = x.regs.stg.cfg → x.regs.stg.pre &&& keepPre = x.regs.stg.pre → x.regs.stg.post0 &&& keepPost0 = x.regs.stg.post0 →
    x.regs.stg.unf0 &&& keepUnf0 = x.regs.stg.unf0 → x.regs.stg.unf1 &&& keepUnf1 = x.regs.stg.unf1 →
    let g := (x.writeFrame (x.frame r)).readFrame
    g.threads = x.div.threads.map (fun k => { k with call := none }) ∧ g.j = x.div.j ∧ g.woff = x.regs.woff ∧ g.stg = x.regs.stg ∧ g.fpc = r.fpc ∧
      g.rbeat = r.beat ∧ g.cause = r.cause.code) ∧
  (∀ (s : State) (x : Fibre) (h : Hdr), s.Settled x → s.active h x ≠ 0 → x.div.live &&& ~~~s.active h x = 0 →
    let f := s.iss.fibre
    let r := x.readFrame
    let sound := x.dgst = false ∧ r.flag 14 = false ∧ s.frameBad f x r = false ∧ r.ovd = 0 ∧ x.regs.prep = false ∧ (∀ k ∈ r.threads, k.st ≠ .held) ∧
      ∀ b, ((s.slot (slotOfFibre f)).bar b).owed = []
    let d := (x.resume r (s.nowOf f) (s.core (coreOfFibre f)).macroAt).div
    let back := fun (t : State) => ∃ y, t.fib? f = some y ∧ t.mem = s.mem ∧ y.pos = x.pos ∧ y.mid = x.resumeAt r d.threads ∧
      y.regs = { x.regs with sbchk := r.exctl % 2 == 1, woff := r.woff, stg := r.stg, inh := false, tbase := s.nowOf f } ∧ y.div = (d.settle []).1 ∧
      d.j = r.j ∧ d.depth = r.depth ∧ d.ovd = 0 ∧
      ∀ b : Nat, (d.threads[b]?).map (fun k => (k.pc, k.st, k.op)) =
        (r.threads[b]?).map fun k => if x.div.hexit.getLsbD b then (k.pc, .exited, none) else (k.pc, k.st, k.op)
    (x.regs.inh = true → sound → ∃ t, exec (.rett h) s = .next t ∧ back t) ∧
    (x.regs.inh = true → x.regs.hcause.toNat = Cause.preempt.code → x.pre = .none → sound → ∃ t, exec (.prdone h) s = .next t ∧ back t) ∧
    (x.regs.inh = true → x.regs.hcause.toNat = Cause.preempt.code → x.pre ≠ .none →
      ∃ t y, exec (.prdone h) s = .next t ∧ t.fib? f = some y ∧ y.pre = .done ∧ y.regs = x.regs ∧ t.mem = s.mem) ∧
    (x.regs.inh = false → exec (.rett h) s = .next (s.trapPre .illop 0) ∧ exec (.prdone h) s = .next (s.trapPre .illop 0)))

/-- R455: TRAP outside the handler moves its run past it and enters the handler with cause USER and its code as the address; inside it is a double
fault. R434, R465 to R468: an extension opcode raises UNIMP with its word: at TVEC with no binding table or an empty entry, at the bound routine, or, bound
to a defined microprogram, it runs as a call of it with its operand fields. -/
def Obligations.TrapsAndExtensions : Prop :=
  (∀ (s : State) (x : Fibre) (h : Hdr) (code : BitVec 10), s.Settled x → s.active h x ≠ 0 →
    let past := { x with div := x.div.mapThreads s.iss.run fun _ => s.iss.step }
    (s.CanEnter s.iss.fibre x → x.regs.tvec ≠ 0 → ∃ t y r, exec (.trap h code) s = .next t ∧ s.Entered t s.iss.fibre past r x.regs.tvec y ∧
      r.cause = .user ∧ r.addr = code.setWidth 64 ∧ r.fpc = s.iss.pc ∧ r.beat = 0) ∧
    (x.regs.inh = true → ∃ t y, exec (.trap h code) s = .next t ∧ t.fib? s.iss.fibre = some y ∧ y.frozen = true ∧ t.mem = s.mem)) ∧
  (∀ (s : State) (x : Fibre) (w : Raw), s.Settled x →
    let f := s.iss.fibre
    let die := s.myDie
    let ops := fun (e : Nat) => tget [] (s.core (coreOfFibre f)).cstore (e / 2 % 64)
    (s.CanEnter f x → (s.die die).r.emubase = 0 → x.regs.tvec ≠ 0 → ∃ t y r, exec (.unimpDispatch w) s = .next t ∧ s.Entered t f x r x.regs.tvec y ∧
      r.cause = .unimp ∧ r.word = w.toWord ∧ r.fpc = s.iss.pc) ∧
    ((s.die die).r.emubase ≠ 0 → ∀ e tva, s.binding die w = .ok (e, tva) →
      (s.CanEnter f x → ¬(e % 2 = 1 ∧ ops e ≠ [] ∧ wordCallable w = true) →
        (tva % 2 ^ 56 ≠ 0 → ∃ t y r, exec (.unimpDispatch w) s = .next t ∧ s.Entered t f x r (BitVec.ofNat 56 tva) y ∧ r.cause = .unimp ∧ r.word = w.toWord) ∧
        (tva % 2 ^ 56 = 0 → x.regs.tvec ≠ 0 → ∃ t y r, exec (.unimpDispatch w) s = .next t ∧ s.Entered t f x r x.regs.tvec y ∧ r.cause = .unimp ∧ r.word = w.toWord)) ∧
      (e % 2 = 1 → ops e ≠ [] → wordCallable w = true → badParam w.d = false → badParam w.a = false → badParam w.b = false → badParam w.c = false →
        ∃ t y, exec (.unimpDispatch w) s = .next t ∧ s.Moved t x y { w.hdr with stall := 0, sw := false } fun _ t =>
          { t with op := some 0, call := some ⟨ops e, [w.d, w.a, w.b, w.c, 0, 0, 0, 0], s.iss.len, e / 2 % 64⟩ })))

/-- R457 to R461: CSRR reads the fibre's control registers, CLOCK a counter, FEATR a word of a feature mask, zero from word 16 on. R68, R170, R457 to R459: CSRW writes FLAGS (ones clear), SBCHK (a zero is ignored in deterministic mode), either half of TVEC, or COUNT, which ends
a pending TIMER. -/
def Obligations.StatusRegisters : Prop :=
  (∀ (s : State) (x : Fibre) (h : Hdr) (d : Opd), s.Settled x →
    let r := (s.die s.myDie).r
    (∀ n : BitVec 8, d.Fits x 1 → Computes s x (.csrr h d n) h d false fun _ => (if n = 0 then x.regs.flags.toNat + 65536 * x.regs.satarm.toNat
      else if n = 1 then x.regs.sbchk.toNat + 2 * x.pos.det.toNat
      else if n = 2 then (x.div.depth + 16 * x.div.ser.toNat + 32 * x.div.ovd) % 2 ^ 32
      else if n = 3 then x.regs.tvec.toNat % 2 ^ 32
      else if n = 4 then x.regs.tvec.toNat / 2 ^ 32
      else if n = 5 then (x.count (s.nowOf s.iss.fibre)).toNat
      else if n = 6 then x.regs.inh.toNat + 2 * x.regs.prep.toNat + 4 * x.regs.timp.toNat + 8 * x.regs.hcause.toNat
      else (nth JReg.reset x.div.j ((n.toNat - 32) / 6)).toNat / 2 ^ (32 * ((n.toNat - 32) % 6)) % 2 ^ 32)) ∧
    (∀ ofDie : Bool, d.Fits x 2 → Computes s x (.clock h ofDie d) h d true fun _ =>
      s.clock s.myDie (if ofDie then 384 + s.myDie else coreOfFibre s.iss.fibre) % 2 ^ 64) ∧
    (∀ (hw : Bool) (a : Opd), d.Fits x 1 → a.Fits x 1 → Computes s x (.featr h hw d a) h d false fun _ =>
      if a.value s x false 0 < 16 then (if hw then r.feathw else r.featen).toNat / 2 ^ (32 * a.value s x false 0) % 2 ^ 32 else 0)) ∧
  (∀ (s : State) (x : Fibre) (h : Hdr) (n : BitVec 8) (b : Src), s.Settled x → s.active h x ≠ 0 → b.Fits x 1 → (Instr.csrw h n b).legal = true →
    let v := BitVec.ofNat 32 (b.value s x false 0)
    let r := x.regs
    ∃ t y, exec (.csrw h n b) s = .next t ∧ s.Kept t x y ∧ y.div = x.div.mapThreads s.iss.run (fun _ => s.iss.step) ∧
      y.regs = if n = 0 then { r with flags := r.flags &&& ~~~(v.setWidth 7), satarm := v.getLsbD 16 }
        else if n = 1 then { r with sbchk := v.getLsbD 0 || (r.sbchk && x.pos.det) }
        else if n = 3 then { r with tvec := BitVec.ofNat 56 (r.tvec.toNat / 2 ^ 32 * 2 ^ 32 + v.toNat / 4 * 4) }
        else if n = 4 then { r with tvec := BitVec.ofNat 56 (v.toNat % 2 ^ 24 * 2 ^ 32 + r.tvec.toNat % 2 ^ 32) }
        else { r with ttimer := v, tbase := s.nowOf s.iss.fibre, timp := false })

/-! ## Tasks, staging and digests -/

/-- A release at package scope may go ahead (R98). -/
def packageReady (s : State) : Prop := s.orderWait true (some .pkg) = .ok s

/-- R447 to R449, R451: TSPAWN of a sound record makes a task of the fibre's launch, queued on its die, and counts it; GRUN adds a submission to the
die's queue; at their limits the fibre sleeps. -/
def Obligations.Spawning : Prop :=
  ∀ (s : State) (x : Fibre) (h : Hdr) (a : Opd) (off : BitVec 32), s.Settled x → s.active h x ≠ 0 → a.Fits x 2 →
    let die := s.myDie
    let l := s.launchOf x
    let va := (BitVec.ofNat 64 (a.value s x true 0) + off.signExtend 64).toNat
    va < 2 ^ 56 → va % 64 = 0 →
    (∀ (pg : List Page) (segs : List Seg) (rec : List Byte), packageReady s → (s.die die).spawned < 4096 → s.openAccess clsLoad .load false true va 64 64 = .ok (pg, segs, s) →
      s.readSegs s.iss.fibre (Access.make .load va segs 64 .b32 .none 0) segs = (rec, s) → recordBad rec = false →
      ∃ t y, exec (.tspawn h a off) s = .next t ∧ t.fib? s.iss.fibre = some y ∧ t.mem = s.mem ∧ y.nspawn = x.nspawn + 1 ∧ s.WentOn x h y ∧
        (t.die die).spawned = (s.die die).spawned + 1 ∧ t.nextId = s.nextId + 1 ∧
        ∃ k, t.launch? s.nextId = some k ∧ k.key = x.pos.key ++ [x.nspawn] ∧ k.asid = l.asid ∧ k.spawner = some die ∧
          ∃ e ∈ (t.die die).queue, e.launch = s.nextId ∧ e.index = 0 ∧ e.desc = some (fieldAt rec 8 8)) ∧
    (packageReady s → (s.die die).subs.length < 256 → ∃ t y, exec (.grun h a off) s = .next t ∧ s.Around t ∧ t.fib? s.iss.fibre = some y ∧ s.WentOn x h y ∧
      (t.die die).subs = (s.die die).subs ++ [{ node := va, asid := s.asidOf x, grun := true }]) ∧
    (4096 ≤ (s.die die).spawned → ∃ t y, exec (.tspawn h a off) s = .next t ∧ t.fib? s.iss.fibre = some y ∧ y.sleep = .spawnLimit ∧ y.div = x.div ∧ y.regs = x.regs) ∧
    (256 ≤ (s.die die).subs.length → ∃ t y, exec (.grun h a off) s = .next t ∧ t.fib? s.iss.fibre = some y ∧ y.sleep = .grun ∧ y.div = x.div ∧ y.regs = x.regs)

/-- R408 to R411, R448: EMIT of one thread into an open bin with room writes its record to the next slot of its ring and counts the emission. R400, R450: CONDW issues a 4-byte store of its value, and its node notes the line. -/
def Obligations.EmissionAndCondition : Prop :=
  (∀ (s : State) (x : Fibre) (h : Hdr) (a b : Opd) (k key : Nat) (bin : Bin) (pg pg2 : List Page) (segs segs2 : List Seg) (blk : List Byte), s.Settled x →
    s.beatsOf h (!(a.perThread || b.perThread)) x = [k] → a.Fits x 2 → b.Fits x (s.emitRegs h a) → passesLast b (s.emitRegs h a) = false → packageReady s →
    let va := a.value s x true k
    let die := s.binDie (s.launchOf x).die (s.asidOf x) va
    let w0 := b.value s x false k
    let ring := if bin.ord then w0 else 0
    let slot := bin.store + bin.recordAt ring (bin.ring ring).next * bin.rsize
    s.openAccess clsLoad .load false true va 64 64 = .ok (pg, segs, s) → s.reaches s.myDie die = true →
    s.readSegs s.iss.fibre (Access.make .load va segs 64 .b32 .none 0) segs = (blk, s) → s.openBin die (s.asidOf x) va (.ofBytes blk) = (some (key, bin), s) →
    (bin.ord = true → w0 < bin.nkey) → bin.fullRing ring = false → 4 ≤ bin.rsize → (bin.desc.place = 0 ∨ s.reaches die (otherDie die) = true) →
    s.openAccess clsStore .store false false slot bin.rsize 0 = .ok (pg2, segs2, s) →
    ∃ t y, exec (.emit h a b) s = .next t ∧ t.fib? s.iss.fibre = some y ∧ s.WentOn x h y ∧ tget 0 y.emits va = tget 0 x.emits va + 1 ∧
      t.mem = (s.putSegs segs2 (leBytes bin.rsize (wordsNat ((List.range (bin.rsize / 4)).map fun i => s.opWord x b i k)))).mem) ∧
  (∀ (s : State) (x : Fibre) (h : Hdr) (a : Opd) (b : Src) (pg : List Page) (segs : List Seg), s.Settled x → s.active h x ≠ 0 → a.Fits x 2 → b.Fits x 1 →
    (Instr.condw h a b).legal = true →
    let va := a.value s x true 0
    let data := leBytes 4 (b.value s x false 0)
    s.openAccess clsStore .store false false va 4 4 = .ok (pg, segs, s) → s.local segs →
    ∃ t y, exec (.condw h a b) s = .next t ∧ t.mem = s.mem ∧ t.fib? s.iss.fibre = some y ∧ s.WentOn x h y ∧ s.Credited t x [digestCells (cellsFrom va data)] ∧
      y.out = x.out ++ [s.numbered { Access.make .store va segs 4 .b32 .none 0 with data := data } (s.active h x) true 0 (s.die s.myDie).wtNext] ∧
      ∀ p, s.lookup (coreOfFibre s.iss.fibre) (s.asidOf x) va true false = .ok p → ∀ n, s.node? (s.launchOf x).die (s.launchOf x).node = some n →
        ∃ m, t.node? (s.launchOf x).die (s.launchOf x).node = some m ∧ lineOf p.pa ∈ m.condw)

/-- R421, R423, R424, R453, R454: RCMB folds the filled staging slots, in order, into the target, then clears every slot, and enters the result into the
digest; over no slots it does nothing; DGSTR reads the fibre's digest. -/
def Obligations.CombineAndDigest : Prop :=
  ∀ (s : State) (x : Fibre) (h : Hdr), s.Settled x → s.active h x ≠ 0 →
    (∀ (ty : Ty) (op : ROp) (a b : Opd), a.Fits x 2 → b.Fits x 4 →
      let k := if ty.is64 then 8 else 4
      let target := a.value s x true 0
      let base := b.value s x true 0
      let n := (s.opWord x b 2 0).toNat
      target + k ≤ 2 ^ 56 → base < 2 ^ 56 → target % k = 0 → base % 16 = 0 → n ≤ 2 ^ 24 →
      (n = 0 → ∃ t y, exec (.rcmb h ty op a b) s = .next t ∧ t.mem = s.mem ∧ t.cohorts = s.cohorts ∧ t.fib? s.iss.fibre = some y ∧ s.WentOn x h y) ∧
      (0 < n → s.onTheWay = false → s.memCe = [] → ∀ (pt ps : List Page) (tsegs ssegs : List Seg) (v : Nat) (e : Events),
        s.openAccess clsAtomic .load false true target k 0 = .ok (pt, tsegs, s) → s.openAccess clsAtomic .load false true base (16 * n) 0 = .ok (ps, ssegs, s) →
        foldSlots op ty (s.homeBytes ssegs) n 0 (leNat (s.homeBytes tsegs), 0) = .ok (v, e) →
        ∃ t y, exec (.rcmb h ty op a b) s = .next t ∧ t.mem = ((s.putSegs tsegs (leBytes k v)).putSegs ssegs (leBytes (16 * n) 0)).mem ∧
          t.fib? s.iss.fibre = some y ∧ y.regs = { x.regs with flags := x.regs.flags ||| e } ∧ s.Placed x h y (fun _ => s.iss.step) ∧
          s.Credited t x [digestCells (cellsFrom target (leBytes k v))])) ∧
    (∀ d : Opd, d.Fits x 2 → (Instr.dgstr h d).legal = true → s.digestWait = .ok s →
      ∃ t y, exec (.dgstr h d) s = .next t ∧ s.Stepped t x y ∧ s.PredsStand t ∧ y.regs.flags = x.regs.flags ∧
        s.Wrote t x h d true fun _ => ((s.cohort? x.pos.cohort).elim 0 fun c => tget 0 c.fds x.pos.lidx).toNat)

/-! ## Copies, barriers, rings -/

/-- R134, R135, R286, R289: ACOPY and TCOPY of a sound descriptor, with their target in order and room in the queue, put the copy they describe at
its end; a full queue makes the fibre wait; a length of zero is COPY_BAD. -/
def Obligations.CopyInstructions : Prop :=
  ∀ (s : State) (x : Fibre) (h : Hdr) (ck : Ck) (a : Opd) (b : Option Opd) (phys : Nat) (page : Page), s.Settled x → s.active h x ≠ 0 → a.Fits x 8 →
    (∀ o ∈ b, o.Fits x 2) → s.orderWait true (some .die) = .ok s →
    let w := fun i => (s.opWord x a i 0).toNat
    let told := fun (c : Copy) => { c with
      fibre := s.iss.fibre, lidx := x.pos.lidx, cohort := x.pos.cohort, asid := s.asidOf x, ck := ck, winBase := s.winBase x, winSize := s.winSize x
      seq := (BitVec.ofNat 64 (b.elim 0 fun o => o.value s x true 0)).setWidth 56 }
    let target := fun (d : Opd) => (ck = .fe ∧ phys = 0 ∧ page = default) ∨
      (ck = .bar ∧ d.Fits x 1 ∧ s.barAt (d.value s x false 0) 16 = .ok phys ∧ page = default) ∨
      (ck = .stamp ∧ d.Fits x 2 ∧ s.stampAt (d.value s x true 0) = .ok (page, s) ∧ phys = d.value s x true 0)
    let room := s.mine.copies.length < 64 ∧ (ck = .fe → s.mine.freeFail ≠ none)
    let queued := fun (t : State) (c : Copy) => ∃ y ix, s.OnCluster t x y ∧ s.WordsStand t ∧ s.PredsStand t ∧ y.regs.flags = x.regs.flags ∧
      (∀ g, g ≠ s.iss.fibre → t.fib? g = s.fib? g) ∧ (∀ i ∈ ix, s.mine.freeFail = some i) ∧ (ck = .fe ↔ ix ≠ none) ∧
      t.mine = { s.mine with
        copies := s.mine.copies ++ [{ c with id := s.nextId, target := phys, stampPa := page.pa, stampCa := page.ca, failIx := ix }]
        fails := ix.elim s.mine.fails fun i => tput s.mine.fails i { cohort := x.pos.cohort, failed := false, ranges := [] } }
    let full := fun (t : State) => ∃ y, t.fib? s.iss.fibre = some y ∧ y.sleep = .copyQueue ∧ y.regs = x.regs ∧ y.div = x.div ∧ t.mem = s.mem ∧ t.clusters = s.clusters
    (∀ (path : CopyPath) (d : Option Opd) (entry : BitVec 12), (Instr.acopy h ck path d a b entry).legal = true →
      let c := told { (default : Copy) with
        path := path, src := w 0 + 2 ^ 32 * w 1, dst := w 2 + 2 ^ 32 * w 3, len := w 4, rows := w 5, srcPitch := w 6, dstPitch := w 7
        win := (s.die s.myDie).window entry.toNat }
      (c.refusal = none → target (d.getD .sz) → room → ∃ t, exec (.acopy h ck path d a b entry) s = .next t ∧ queued t c) ∧
      (c.refusal = none → target (d.getD .sz) → 64 ≤ s.mine.copies.length → ∃ t, exec (.acopy h ck path d a b entry) s = .next t ∧ full t) ∧
      (path = .m2m → target (d.getD .sz) → c.src < 2 ^ 56 → c.dst < 2 ^ 56 → c.len = 0 →
        exec (.acopy h ck path d a b entry) s = .next (s.trapPre .copyBad 0))) ∧
    (∀ (d : Opd) (tb tnm1 : BitVec 4), (Instr.tcopy h ck d a b tb tnm1).legal = true →
      let c := told { (default : Copy) with
        tcopy := true, src := w 0 + 2 ^ 32 * w 1, srcPitch := w 2, k := w 3, len := w 4, rows := 1, scale := w 5 + 2 ^ 32 * w 6, scaleN := w 7
        tb := tb.toNat, tn := tnm1.toNat + 1 }
      (ck ≠ .fe → c.src < 2 ^ 56 → c.scale < 2 ^ 56 → 0 < c.len → c.len ≤ 128 → target d →
        (room → ∃ t, exec (.tcopy h ck d a b tb tnm1) s = .next t ∧ queued t c) ∧
        (64 ≤ s.mine.copies.length → ∃ t, exec (.tcopy h ck d a b tb tnm1) s = .next t ∧ full t)) ∧
      (c.src < 2 ^ 56 → c.scale < 2 ^ 56 → ck = .fe ∨ c.len = 0 ∨ 128 < c.len → target d →
        exec (.tcopy h ck d a b tb tnm1) s = .next (s.trapPre .copyBad 0)))

/-- R141 to R143, R290 to R294: BARINIT makes an object; BAREXP adds to PEND and BARARV takes one from PARTR, and the change that leaves both zero
completes the phase; BARWT waits for a phase other than its token; BARCONT leaves a continuation, which starts when the phase is complete. -/
def Obligations.BarrierObjects : Prop :=
  ∀ (s : State) (x : Fibre) (h : Hdr) (a : Opd) (phys : Nat), s.Settled x → s.active h x ≠ 0 → s.mine.spadBad = [] → s.mine.spadCe = [] → a.Fits x 1 →
    let f := s.iss.fibre
    let cl := clusterOfFibre f
    let off := a.value s x false 0
    let o := s.barObj cl phys
    let rest := fun (t : State) (n : Nat) => ∀ i, i < phys ∨ phys + n ≤ i → tget 0 t.mine.spad i = tget 0 s.mine.spad i
    let done := fun (o : BarObj) => if o.pend = 0 ∧ o.partr = 0 then { o with phase := o.phase + 1, partr := o.partn } else o
    (∀ n : Src, n.Fits x 1 → (Instr.barinit h a n).legal = true → off % 64 = 0 → off + 64 ≤ s.winSize x → phys = s.winBase x + off →
      let k := n.value s x false 0
      (0 < k ∧ k < 65536 ∧ ¬(o.made = true ∧ (o.cont = true ∨ o.due = true)) → ∃ t y, exec (.barinit h a n) s = .next t ∧ s.OnCluster t x y ∧ y.regs = x.regs ∧
        t.barObj cl phys = { pend := 0, partn := k, partr := k, phase := 0, stat := 0xB70000 } ∧ (∀ i, 16 ≤ i → i < 64 → tget 0 t.mine.spad (phys + i) = 0) ∧ rest t 64) ∧
      (k = 0 ∨ 65535 < k ∨ (o.made = true ∧ (o.cont = true ∨ o.due = true)) → exec (.barinit h a n) s = .next (s.trapPre .barErr 0))) ∧
    (∀ n : Src, n.Fits x 1 → (Instr.barexp h a n).legal = true → s.barAt off 16 = .ok phys → o.cont = false →
      let v := o.pend.toInt + n.value s x false 0
      ∃ t y, exec (.barexp h a n) s = .next t ∧ s.OnCluster t x y ∧ y.regs = x.regs ∧ rest t 16 ∧
        t.barObj cl phys = if n.value s x false 0 = 0 then o else done (if v < 2 ^ 31 then { o with pend := BitVec.ofInt 32 v } else { o with stat := o.stat ||| 256 })) ∧
    (∀ (d : Opd) (q : BitVec 3), d.Fits x 1 → (Instr.bararv h d a q).legal = true → x.regs.satTrap = false → x.pos.det = false → s.standing = none →
      s.barAt off 16 = .ok phys → s.orderWait true (some .clu) = .ok s → o.cont = false →
      (o.partr ≠ 0 → ∃ t y, exec (.bararv h d a q) s = .next t ∧ s.OnCluster t x y ∧ rest t 16 ∧ t.barObj cl phys = done { o with partr := o.partr - 1 } ∧
        s.Loaded t x h true d 1 (fun _ _ => o.phase) ∧ s.WrotePred t x h q (fun _ => decide (o.partr = 1)) ∧ y.regs.flags = x.regs.flags) ∧
      (o.partr = 0 → exec (.bararv h d a q) s = .next (s.trapPre .barErr 0))) ∧
    (∀ b : Opd, b.Fits x 1 → x.regs.satTrap = false → s.barAt off 16 = .ok phys → o.ovf = false → o.err = 0 →
      (o.phase.toNat ≠ b.value s x false 0 → ∃ t y, exec (.barwt h a b) s = .next t ∧ t.mem = s.mem ∧ t.dies = s.dies ∧ t.clusters = s.clusters ∧ t.cohorts = s.cohorts ∧
        t.fib? f = some y ∧ s.WentOn x h y ∧ (t.core (coreOfFibre f)).l1 = []) ∧
      (o.phase.toNat = b.value s x false 0 → ∃ t y, exec (.barwt h a b) s = .next t ∧ t.mem = s.mem ∧ t.clusters = s.clusters ∧ t.fib? f = some y ∧
        y.sleep = .barwt phys o.phase ∧ y.regs = x.regs ∧ y.div = x.div)) ∧
    (∀ (b : Opd) (at_ : BitVec 32), b.Fits x 8 → s.barAt off 64 = .ok phys → s.orderWait true (some .clu) = .ok s → o.cont = false → o.partr ≠ 0 →
      x.div.live &&& ~~~s.active h x = 0 → x.div.ovd = 0 → x.div.j = List.replicate 8 .reset → x.div.heldBar = none → (∀ e ∈ s.mine.conts, e.phys ≠ phys) →
      (o.pend ≠ 0 ∨ o.partr ≠ 1 → ∃ t y c, exec (.barcont h a b at_) s = .next t ∧ t.fib? f = some y ∧ y.div.live = 0 ∧ t.mem = s.mem ∧ rest t 56 ∧
        t.barObj cl phys = { o with partr := o.partr - 1, stat := o.stat ||| 512 } ∧ c ∈ t.mine.conts ∧ c.phys = phys ∧ c.fibre = f ∧ c.pos = x.pos ∧
        leNat (t.spadBytes cl (phys + 16) 8) = (s.iss.target at_).toNat ∧ ∀ i, i < 8 → t.spadWord cl (phys + 24 + 4 * i) = s.opWord x b i 0) ∧
      (o.pend = 0 → o.partr = 1 → o.err = 0 → s.contDue cl f = false → ∃ t y, exec (.barcont h a b at_) s = .next t ∧ t.fib? f = some y ∧ t.mem = s.mem ∧
        t.barObj cl phys = { o with partr := o.partn, phase := o.phase + 1, stat := o.stat &&& ~~~(1536 : Word) } ∧ y.pos = x.pos ∧
        y.div.threads = List.replicate x.pos.width { pc := s.iss.target at_, op := none, st := .ready, call := none } ∧
        ∀ i, i < 8 → t.word f (.scal i) 0 = s.opWord x b i 0))

/-- R28, R29, R106, R109, R112, R113, R295 to R298: SUBS opens a ring with its header written and every granule empty; RREL and RFIN move TAIL; WQRY
asks its distributor; RMTW sends a write for each beat that executes. -/
def Obligations.RingsAndQueries : Prop :=
  ∀ (s : State) (x : Fibre) (h : Hdr) (a : Opd), s.Settled x → s.active h x ≠ 0 → s.mine.spadBad = [] → s.mine.spadCe = [] → s.mine.waiters = [] →
    let f := s.iss.fibre
    let cl := clusterOfFibre f
    let off := a.value s x false 0
    let still := fun (t : State) (y : Fibre) => s.OnCluster t x y ∧ s.PredsStand t ∧ y.regs.flags = x.regs.flags ∧ ∀ g, g ≠ f → t.fib? g = s.fib? g
    let isFull := fun (t : State) g => t.mine.full.contains g
    (∀ (d b : Opd) (logn : BitVec 4) (dir : Bool) (home : Nat), a.Fits x 1 → b.Fits x 6 → d.Fits x 1 → (Instr.subs h d a b logn dir).legal = true →
      let w := fun i => (s.opWord x b i 0).toNat
      let r := { (default : Ring) with
        cohort := x.pos.cohort, lidx := x.pos.lidx, asid := s.asidOf x, base := s.winBase x + off, logn := logn.toNat, dir := dir
        region := w 0 + 2 ^ 32 * w 1, pitch := w 2, tw := w 3 % 65536, th := w 3 / 65536, tx := w 4, ty := w 5, slotG := (w 3 % 65536) * (w 3 / 65536) }
      s.subsCheck r = .ok (home, s) → s.orderWait true (some .pkg) = .ok s → s.mine.rings.length < 16 →
      ∃ t y sub e, exec (.subs h d a b logn dir) s = .next t ∧ still t y ∧ s.Loaded t x h true d 1 (fun _ _ => BitVec.ofNat 32 sub) ∧
        sub < 16 ∧ (∀ e ∈ s.mine.rings, e.2.isOpen = true → e.2.sub ≠ sub) ∧ e < 32 ∧
        t.ring? cl s.nextId = some { r with sub := sub, die := home, engine := e } ∧ t.spadBytes cl r.base 64 = ({ r with sub := sub } : Ring).header ∧
        (∀ i, i < r.base ∨ r.base + 64 ≤ i → tget 0 t.mine.spad i = tget 0 s.mine.spad i) ∧
        ∀ g, isFull t g = true ↔ isFull s g = true ∧ ¬(r.base / 16 ≤ g ∧ g < (r.base + r.extent) / 16)) ∧
    (∀ (n : Src) (key : Nat) (r : Ring), a.Fits x 1 → n.Fits x 1 → (Instr.rrel h a n).legal = true → s.ringAt off = some (key, r) → s.ring? cl key = some r → r.state ≠ 3 →
      s.orderWait true (some .clu) = .ok s →
      let k := n.value s x false 0
      let tail := s.tailOf cl r
      let moved := fun (t : State) (y : Fibre) => still t y ∧ y.regs = x.regs ∧ (k = 0 → t.mine = s.mine) ∧
        (0 < k → t.tailOf cl r = (tail + k) % 2 ^ 32 ∧ (∃ q, t.ring? cl key = some q ∧ q.tail = (tail + k) % 2 ^ 32 ∧ q.head = r.head) ∧
          ∀ i, i < r.base + 4 ∨ r.base + 8 ≤ i → tget 0 t.mine.spad i = tget 0 s.mine.spad i)
      (r.dir = false → k ≤ gap r.head tail → ∃ t y, exec (.rrel h a n) s = .next t ∧ moved t y ∧
        ∀ g, isFull t g = true ↔ isFull s g = true ∧ ¬∃ i, i < min k r.slots ∧ g ∈ granulesOf (r.slotAt (tail + i)) (16 * r.slotG)) ∧
      (r.dir = false → gap r.head tail < k → exec (.rrel h a n) s = .next (s.trapPre .ringBad 0)) ∧
      (r.dir = true → gap tail r.head + k ≤ r.slots → tail + k ≤ r.tiles → ∃ t y, exec (.rfin h a n) s = .next t ∧ moved t y ∧ t.mine.full = s.mine.full ∧
        (0 < k → ∃ q, t.ring? cl key = some q ∧ q.finishers = r.finishers ++ [((tail + k) % 2 ^ 32, x.pos.lidx)])) ∧
      (r.dir = true → 0 < k → r.slots < gap tail r.head + k → exec (.rfin h a n) s = .next (s.trapPre .ringBad 0))) ∧
    (∀ b : Opd, a.Fits x 1 → b.Fits x 1 → off % 16 = 0 → off + 16 ≤ s.winSize x → b.value s x false 0 < (s.launchOf x).desc.ndist →
      let d := b.value s x false 0
      (s.queriesOf f < 4 → ∃ t y, exec (.wqry h a b) s = .next t ∧ still t y ∧ y.regs = x.regs ∧ tget 0 y.queries d = tget 0 x.queries d + 1 ∧
        t.mine = { s.mine with queries := s.mine.queries ++ [⟨f, (s.winBase x + off) / 16, x.pos.launch, d, tget 0 x.queries d, x.pos.lidx, x.pos.det⟩] }) ∧
      (4 ≤ s.queriesOf f → ∃ t y, exec (.wqry h a b) s = .next t ∧ t.fib? f = some y ∧ y.sleep = .wqry ∧ y.regs = x.regs ∧ y.div = x.div ∧ t.clusters = s.clusters)) ∧
    (∀ (ty : Ty) (d : Opd) (entry : BitVec 12) (at_ : BitVec 40) (w : PeerWin),
      let n := ty.width / 8
      let beats := s.beatsOf h (!(d.perThread || a.perThread)) x
      let o := fun k => a.value s x true k + at_.toNat
      let die := s.die s.myDie
      d.Fits x (accessRegs n) → a.Fits x 2 → (∀ k ∈ beats, s.remoteAt entry (o k) n = .ok w) →
      ∃ t y, exec (.rmtw h ty d a entry at_) s = .next t ∧ t.fib? f = some y ∧ s.WentOn x h y ∧ t.mem = s.mem ∧ t.clusters = s.clusters ∧
        s.Credited t x (beats.map fun k => digestEntry 0x300 (entry.toNat * 2 ^ 40 + o k) (s.opBytes x d n k)) ∧
        (die.broken w = true → y.rmtBad = true ∧ t.dies = s.dies) ∧
        (die.broken w = false → y.rmtBad = x.rmtBad ∧ (t.die s.myDie).tracker = (beats.zipIdx.map fun e =>
          { link := .ethernet, tag := rocePacket w.port w.qpn (packetAfter die w e.2), fibre := f, write := true, port := w.port, qpn := w.qpn
            addr := w.rbase.toNat + o e.1, data := s.opBytes x d n e.1, copy := none, inc := die.r.inc : Track }).reverse ++ die.tracker))

/-! ## The matrix engine -/

/-- R187 to R193, R201 to R203, R356 to R360, R364, R365: staging writes, KSET, SIGN, MXWAIT, MXCLR and MXSTAT of a register of the fibre's cohort. -/
def Obligations.ConvergenceRegisters : Prop :=
  ∀ (s : State) (x : Fibre) (h : Hdr) (k : BitVec 4) (p : Nat), s.Settled x → s.active h x ≠ 0 →
    let cl := clusterOfFibre s.iss.fibre
    let kr := s.kreg cl p
    let other := fun (t : State) => ∀ q, q ≠ p → t.kreg cl q = s.kreg cl q
    let still := fun (t : State) (y : Fibre) => s.OnCluster t x y ∧ { t.mine with k := s.mine.k } = s.mine ∧ s.WordsStand t ∧ s.PredsStand t ∧ other t
    (∀ b : Src, b.Fits x 2 → (Instr.mxcfg h b).legal = true →
      let v := BitVec.ofNat 64 (b.value s x true 0)
      let staged := fun (i : Instr) (g : Staging) => ∃ t y, exec i s = .next t ∧ s.Kept t x y ∧ y.div = x.div.mapThreads s.iss.run (fun _ => s.iss.step) ∧
        y.regs = { x.regs with stg := g }
      staged (.mxcfg h b) { x.regs.stg with cfg := v &&& 0x00FFFFF7FFFFFFFF } ∧ staged (.mxpre h b) { x.regs.stg with pre := v &&& 0x0000FFFFFFFF00FF } ∧
      staged (.mxpost h false b) { x.regs.stg with post0 := v &&& 0x0000007FFFFFFFFF } ∧ staged (.mxpost h true b) { x.regs.stg with post1 := v } ∧
      staged (.unf h false b) { x.regs.stg with unf0 := v &&& 0x7FFFFFFFFFFFFFFF } ∧ staged (.unf h true b) { x.regs.stg with unf1 := v &&& 0x0007FFFFFFFFFFFF }) ∧
    (s.kAt k = some p →
      (∀ (fibSet : Bool) (d a b : Opd) (count : BitVec 8) (ms : List (Nat × BeatMask)), a.Fits x (if fibSet then 1 else 2) → b.Fits x 1 → d.Fits x 1 →
        (Instr.kset h k fibSet d a b count).legal = true → s.mine.spadCe = [] →
        let set := BitVec.ofNat 64 (a.value s x (!fibSet) 0)
        let g := x.regs.stg
        s.ksetMembers (s.envOf s.iss.fibre x 0) fibSet set (count.toNat + 1) = .ok ms → kr.state = 0 ∨ kr.state = 5 ∧ kr.stg.mode = g.mode ∧ kr.stg.bank = g.bank →
        g.ok (BitVec.ofNat 32 (d.value s x false 0)) = true → g.rasterOk (BitVec.ofNat 32 (b.value s x false 0)) = true →
        ∃ t y, exec (.kset h k fibSet d a b count) s = .next t ∧ still t y ∧ y.regs = x.regs ∧
          let r := t.kreg cl p
          r.state = 1 ∧ r.err = 0 ∧ r.cohort = x.pos.cohort ∧ r.stg = g ∧ r.p0.toNat = b.value s x false 0 ∧ r.coff.toNat = d.value s x false 0 % 65536 ∧
            r.members = ms ∧ r.signed = [] ∧ (kr.state = 0 → r.events = 0) ∧ (fibSet = true → r.remain = ms.length) ∧
            (fibSet = false → ms = [(s.iss.fibre, set &&& x.div.live)] ∧ r.remain = (maskBeats 64 (set &&& x.div.live)).length)) ∧
      (∀ (a : Opd) (m : BeatMask), a.mixes x.pos 4 = false → kr.state = 1 → kr.cohort = x.pos.cohort → kr.fibSet = false → kr.stg.colsrc = false →
        kr.members = [(s.iss.fibre, m)] → s.active h x &&& ~~~(m &&& ~~~maskIn kr.signed s.iss.fibre) = 0 → (s.beatsOf h false x).length ≤ kr.remain →
        x.pos.width ≤ 64 →
        ∃ t y, exec (.sign h k a) s = .next t ∧ still t y ∧ y.regs = x.regs ∧
          let r := t.kreg cl p
          maskIn r.signed s.iss.fibre = maskIn kr.signed s.iss.fibre ||| s.active h x ∧ r.remain = kr.remain - (s.beatsOf h false x).length ∧
            r.state = if r.remain = 0 then 2 else 1) ∧
      (∀ scope : Option Scope,
        (kr.state = 0 ∨ kr.state = 5 → scope ≠ none → s.orderWait false scope = .ok s → ∃ t y, exec (.mxwait h k scope) s = .next t ∧ t.fib? s.iss.fibre = some y ∧
          s.WentOn x h y ∧ t.mem = s.mem ∧ t.clusters = s.clusters ∧ (scope ≠ some .core → scope ≠ some .fib → (t.core (coreOfFibre s.iss.fibre)).l1 = [])) ∧
        (kr.state = 0 ∨ kr.state = 5 → scope = none → ∃ t y, exec (.mxwait h k scope) s = .next t ∧ t.fib? s.iss.fibre = some y ∧ s.WentOn x h y ∧
          t.mem = s.mem ∧ t.clusters = s.clusters ∧ t.cores = s.cores) ∧
        (kr.state = 6 → exec (.mxwait h k scope) s = .next (s.trapPre kr.cause 0)) ∧
        (1 ≤ kr.state → kr.state ≤ 4 → ∃ t y, exec (.mxwait h k scope) s = .next t ∧ t.fib? s.iss.fibre = some y ∧ y.sleep = .mxwait p ∧ y.regs = x.regs ∧
          y.div = x.div ∧ t.clusters = s.clusters)) ∧
      (kr.state = 0 ∨ kr.state = 5 ∨ kr.state = 6 → ∃ t y, exec (.mxclr h k) s = .next t ∧ still t y ∧
        (kr.state = 0 → t.mine = s.mine ∧ y.regs = x.regs) ∧
        (kr.state ≠ 0 → t.kreg cl p = { kr with hold := false, state := 0, err := 0, events := 0 } ∧ y.regs.flags = x.regs.flags ||| kr.events)) ∧
      (∀ d : Opd, d.Fits x 2 → Computes s x (.mxstat h k d) h d true fun _ => kr.status.toNat)) ∧
    (s.kAt k = none → (∀ scope, exec (.mxwait h k scope) s = .next (s.trapPre .mxProto 0)) ∧ exec (.mxclr h k) s = .next (s.trapPre .mxProto 0))

/-- R207, R208, R361 to R363, R366 to R370: MXDRAIN of a row of a Done register delivers it through the post-operator: to registers once the drain
completes, to the window at once, to memory as a store; TLDS copies columns into a tile register; EDGEC and TXW set up edges and texel addresses. -/
def Obligations.MatrixTransfers : Prop :=
  ∀ (s : State) (x : Fibre) (h : Hdr), s.Settled x → s.mine.spadBad = [] → s.mine.spadCe = [] → s.mine.accCe = [] →
    let f := s.iss.fibre
    let cl := clusterOfFibre f
    (∀ (k : BitVec 4) (p c0 nc row pitch : Nat) (ctl : Src) (l : List (PVal × Events)) (u : State), s.active h x ≠ 0 → ctl.Fits x 2 → s.kAt k = some p →
      let kr := s.kreg cl p
      let bits := kr.stg.drainBits c0 nc
      let word := ctl.value s x true 0
      let whole := fun (t : State) (y : Fibre) => t.mem = s.mem ∧ t.fib? f = some y ∧ s.WentOn x h y ∧
        (∀ q, { t.kreg cl q with spad0 := [] } = { s.kreg cl q with spad0 := [] }) ∧
        { t.mine with drains := [], spad := [], k := [] } = { s.mine with drains := [], spad := [], k := [] }
      kr.state = 5 → kr.hold = true → 0 < nc → c0 + nc ≤ 128 → row < 128 → pitch < 2 ^ 32 →
      (∀ (rel : Bool) (d : Opd) (b : Nat), (Instr.mxdrain h k .v rel (some d) none ctl).legal = true → s.beatsOf h false x = [b] → row + b < 128 →
        ctl.value s x true b = word → word = row + 65536 * c0 + 2 ^ 24 * (nc - 1) + 2 ^ 32 * pitch →
        drainGroupBad x.pos d bits (nc * if bits = 64 then 2 else 1) = false → d.Fits x (nc * if bits = 64 then 2 else 1) →
        s.drainRow cl kr (row + b) c0 nc = (some l, u) →
        ∃ t y, exec (.mxdrain h k .v rel (some d) none ctl) s = .next t ∧ whole t y ∧ t.mine.spad = s.mine.spad ∧ t.dies = s.dies ∧
          t.mine.drains = s.mine.drains ++ [{ fibre := f, step := s.tick, k := p, rel := rel && row + b == 127, events := rowEvents l, stores := []
                                              regs := (rowWords bits l).mapIdx fun i w => (d.ref x.pos x.regs.woff i, b, w) }]) ∧
      (∀ (rel : Bool) (a : Opd), word = row + 65536 * c0 + 2 ^ 24 * (nc - 1) + 2 ^ 32 * pitch → pitch % (bits / 8) = 0 → s.drainRow cl kr row c0 nc = (some l, u) →
        let drain := fun (seqs : List Nat) => { fibre := f, step := s.tick, k := p, rel := rel && row == 127, events := rowEvents l, regs := [], stores := seqs : Drain }
        (a.Fits x 1 → (Instr.mxdrain h k .s rel none (some a) ctl).legal = true → a.value s x false 0 % (bits / 8) = 0 → a.value s x false 0 + nc * (bits / 8) ≤ s.winSize x →
          (rowBytes bits l).length = nc * (bits / 8) →
          ∃ t y, exec (.mxdrain h k .s rel none (some a) ctl) s = .next t ∧ whole t y ∧ t.dies = s.dies ∧ t.mine.drains = s.mine.drains ++ [drain []] ∧
            t.mine.spad = tblWrite s.mine.spad (s.winBase x + a.value s x false 0) (rowBytes bits l)) ∧
        (∀ (pg : List Page) (segs : List Seg), a.Fits x 2 → (Instr.mxdrain h k .g rel none (some a) ctl).legal = true → a.value s x true 0 % (bits / 8) = 0 →
          u.openAccess clsStore .store false false (a.value s x true 0) (rowBytes bits l).length 0 = .ok (pg, segs, u) → s.local segs →
          ∃ t y, exec (.mxdrain h k .g rel none (some a) ctl) s = .next t ∧ whole t y ∧ t.mine.spad = s.mine.spad ∧
            t.mine.drains = s.mine.drains ++ [drain [(s.die s.myDie).wtNext]] ∧
            y.out = x.out ++ [s.numbered { Access.make .store (a.value s x true 0) segs (rowBytes bits l).length .b32 .none 0 with data := rowBytes bits l } (s.active h x) true 0
              (s.die s.myDie).wtNext]))) ∧
    (∀ (t : BitVec 4) (a : Opd) (ctl : Src) (c0 nc pitch : Nat), s.active h x ≠ 0 → a.Fits x 1 → ctl.Fits x 2 → (Instr.tlds h t a ctl).legal = true → 0 < nc → c0 + nc ≤ 128 →
      pitch % 16 = 0 → pitch < 2 ^ 32 → ctl.value s x true 0 = c0 + 256 * (nc - 1) + 2 ^ 32 * pitch →
      let off := a.value s x false 0
      off % 16 = 0 → off + (nc - 1) * pitch + 128 ≤ s.winSize x →
      ∃ e y, exec (.tlds h t a ctl) s = .next e ∧ s.OnCluster e x y ∧ y.regs = x.regs ∧ e.mine.spad = s.mine.spad ∧ e.mine.acc = s.mine.acc ∧
        (∀ q, { e.kreg cl q with tiles0 := [] } = { s.kreg cl q with tiles0 := [] }) ∧
        ∀ n i, n < 128 → i < 128 → ∀ t', t' < 16 → tget 0 e.mine.tiles (tileKey t' n i) =
          if t' = t.toNat ∧ c0 ≤ n ∧ n < c0 + nc then tget 0 s.mine.spad (s.winBase x + off + (n - c0) * pitch + i) else tget 0 s.mine.tiles (tileKey t' n i)) ∧
    (∀ d a b : Opd, d.Fits x 11 → a.Fits x 6 → b.Fits x 1 → (Instr.edgec h d a b).legal = true →
      let o := fun t => BitVec.ofNat 32 (b.value s x false t)
      ∃ t y, exec (.edgec h d a b) s = .next t ∧ s.Stepped t x y ∧ s.PredsStand t ∧ y.regs.flags = x.regs.flags ∧
        s.Loaded t x h false d 11 fun k i => nth 0 (edgeWords ((List.range 6).map fun j => (s.opWord x a j k).toNat) ((o k).extractLsb' 0 16).toInt
          ((o k).extractLsb' 16 16).toInt (Config.freeWord (s.free + k))) i) ∧
    (∀ (mode : TxwMode) (tb : BitVec 2) (d a b : Opd) (w hgt pitch : Nat), d.Fits x 7 → a.Fits x 2 → b.Fits x 2 → (Instr.txw h mode tb d a b).legal = true →
      0 < w → w < 65536 → 0 < hgt → hgt < 65536 → (∀ k, b.value s x true k = w + 65536 * hgt + 2 ^ 32 * pitch) → pitch < 2 ^ 32 →
      let out := fun k => texWords mode (2 ^ tb.toNat) (s.opWord x a 0 k).toNat (s.opWord x a 1 k).toNat w hgt pitch
      ∃ t y, exec (.txw h mode tb d a b) s = .next t ∧ s.Stepped t x y ∧ s.PredsStand t ∧ s.Loaded t x h false d 7 (fun k i => nth 0 (out k).1 i) ∧
        y.regs.flags = x.regs.flags ||| orAll ((s.beatsOf h false x).map fun k => (out k).2))

/-! ## Registers of the die controller -/

/-- R6, R23, R31, R33, R35 to R38, R82, R85, R463, R464: writes of a die's registers change the register written, by its own rule; a die that is halted or
fused off, or that an ownership change holds in reset, takes none (what that leaves of R33 and R79 for the last is the model's reading, log entry 130); a
write that carries EP is dropped and counted. -/
def Obligations.RegisterWrites : Prop :=
  ∀ (s : State) (die : Nat),
    let d := s.die die
    let r := d.r
    let put := fun (q : DieRegs) => s.setDie die { d with r := q }
    (s.shut die = true → ∀ (x : BitVec 32) (e : BitVec 12) (w : BitVec 2) (v : BitVec 64) (q : BitVec 6) (z : BitVec 16) (p ep : Bool) (off : Nat) (va : BitVec 56)
        (y : BitVec 512) (t : BitVec 8),
      exec (.irqenWrite die x) s = .next s ∧ exec (.irqstatClear die x) s = .next s ∧ exec (.thermWarnWrite die t) s = .next s ∧
      exec (.peerWindowWrite die e w v) s = .next s ∧ exec (.quarantineClear die q) s = .next s ∧ exec (.fqsizeWrite die z) s = .next s ∧
      exec (.featreqWrite die y) s = .next s ∧ exec (.registerWrite die p off ⟨v, ep⟩) s = .next s ∧ exec (.tlbinvPage die p z va) s = .next s ∧
      exec (.tlbinvAsid die p ⟨z, va⟩) s = .next s ∧ exec (.tlbinvAll die ⟨p, z, va⟩) s = .next s ∧ exec (.fqreplyRetry die z) s = .next s ∧
      exec (.fqreplyFail die z) s = .next s) ∧
    (s.off die = true → ∀ t : BitVec 8, exec (.thermRefresh die t) s = .next s) ∧
    (s.shut die = false →
      (∀ x : BitVec 32,
        let rise := fun b : Nat => x.getLsbD b && !r.irqen.getLsbD b && r.irqstat.getLsbD b
        exec (.irqstatClear die x) s = .next (put { r with irqstat := r.irqstat &&& ~~~(x.setWidth 8) }) ∧
        ∃ y, exec (.irqenWrite die x) s = .next (s.setDie die y) ∧ y.r.irqen = x.setWidth 8 ∧ y.r.irqstat = r.irqstat ∧
          y.sent = d.sent ++ (List.range 8).filter (fun b => rise b && !r.msixMask.getLsbD b) ∧
          ∀ b, b < 8 → y.r.msixPend.getLsbD b = (r.msixPend.getLsbD b || (rise b && r.msixMask.getLsbD b))) ∧
      (∀ t : BitVec 8, (s.die (otherDie die)).boot = none →
        let rises := !r.hot && decide (r.warn.toNat ≤ t.toNat)
        ∃ y, exec (.thermRefresh die t) s = .next (s.setDie die y) ∧ y.r.temp = t ∧ y.r.irqstat = (if rises then r.irqstat ||| 2 else r.irqstat) ∧
          y.r.hot = (if r.hot then !decide (t.toNat + 5 ≤ r.warn.toNat) else rises) ∧ y.r.halt = decide (r.crit.toNat ≤ t.toNat) ∧
          y.r.hcause = if r.crit.toNat ≤ t.toNat then 4 else r.hcause) ∧
      (∀ w : BitVec 8, exec (.thermWarnWrite die w) s = .next (put (if r.crit.toNat ≤ w.toNat then r else { r with warn := w }))) ∧
      (∀ (e : BitVec 12) (w : BitVec 2) (v : BitVec 64), ∃ y, exec (.peerWindowWrite die e w v) s = .next (s.setDie die y) ∧ y.r = r ∧
        (∀ k, k ≠ e.toNat → tfind y.peerWin k = tfind d.peerWin k) ∧
        let p := d.window e.toNat
        y.window e.toNat = if w = 0 then { p with rbase := v } else if w = 1 then { p with len := v.extractLsb' 0 41 }
          else if w = 2 then ⟨p.rbase, p.len, v.extractLsb' 0 32, v.extractLsb' 32 24, v.extractLsb' 56 3, v.getLsbD 63⟩ else p) ∧
      (∀ (q : BitVec 6) (e : Quar), tfind d.quar q.toNat = some e → ∃ y, exec (.quarantineClear die q) s = .next (s.setDie die y) ∧ y.r = r ∧
        tfind y.quar q.toNat = some { e with v := false } ∧ ∀ k, k ≠ q.toNat → tfind y.quar k = tfind d.quar k) ∧
      (∀ z : BitVec 16, exec (.fqsizeWrite die z) s = .next (put (if z ≠ 0 ∧ z.toNat < 16 then { r with fqerr := satInc r.fqerr } else { r with fqsize := z }))) ∧
      (∀ x : BitVec 512, exec (.featreqWrite die x) s = .next (put (if ∃ e ∈ s.fibres, dieOfFibre e.1 = die then { r with featerr := satInc r.featerr }
        else { r with featreq := x, featen := (x &&& r.feathw) ||| 1 }))) ∧
      (∀ (off : Nat) (v : BitVec 64) (p : Bool), exec (.registerWrite die false off ⟨v, false⟩) s = .next s ∧
        exec (.registerWrite die p off ⟨v, true⟩) s = .next (put { r with feeddrop := satInc r.feeddrop }) ∧
        exec (.registerWrite die true 0x20 ⟨v, false⟩) s = .next (put { r with ctxbase := v.extractLsb' 20 32 ++ (0 : BitVec 20) }) ∧
        exec (.registerWrite die true 0x120 ⟨v, false⟩) s = .next (put { r with fqbase := v.setWidth 52 }) ∧
        exec (.registerWrite die true 0x130 ⟨v, false⟩) s = .next (put { r with fqhead := v.setWidth 16 }) ∧
        exec (.registerWrite die true 0x308 ⟨v, false⟩) s = .next (put { r with prearea := v.setWidth 52 }) ∧
        exec (.registerWrite die true 0x4C0 ⟨v, false⟩) s = .next (put { r with emubase := v.setWidth 52 })) ∧
      (∀ (both : Bool) (asid : BitVec 16) (va : BitVec 56),
        let inv := fun (k : BitVec 2) (a : BitVec 16) (v : BitVec 56) =>
          put (if r.invDone then { r with invKind := k, invBoth := both, invDone := false, invAsid := a, invVa := v } else r)
        exec (.tlbinvPage die both asid va) s = .next (inv 0 asid va) ∧ exec (.tlbinvAsid die both ⟨asid, va⟩) s = .next (inv 1 asid va) ∧
          exec (.tlbinvAll die ⟨both, asid, va⟩) s = .next (inv 2 asid va)) ∧
      (∀ z : BitVec 16, (∀ p ∈ d.faults, p.slot ≠ some z.toNat) → exec (.fqreplyRetry die z) s = .next (put { r with fqerr := satInc r.fqerr }) ∧
        exec (.fqreplyFail die z) s = .next (put { r with fqerr := satInc r.fqerr })))

/-- R80, R81, R83 to R86: a walk that a walk engine makes and that ends in a leaf fills the TLBs and wakes its waiters; a fault enters the ring at TAIL; a reply ends the sleep of the
waiters, with a fresh walk or with the fault; an invalidation leaves no matching entry. -/
def Obligations.WalksAndFaults : Prop :=
  ∀ (s : State) (die index : Nat),
    let d := s.die die
    (∀ (w : Walk) (ws : List WcEntry) (base size : Nat) (e : Dword), d.walks[index]? = some w → w.stage = 2 →
        s.walk die w.asid w.va = (ws, .leaf base size e) →
      ∃ t, exec (.walkComplete die index) s = .next t ∧ t.mem = s.mem ∧ (t.die die).walks = (d.setWalks (d.walks.take index ++ d.walks.drop (index + 1))).walks ∧
        (∀ va, base ≤ va → va < base + size → tlbFind (t.clu w.cluster).tlb w.asid va = some ⟨w.asid, base, size, e⟩) ∧
        (∀ f x, XlWaiter.fibre f ∈ w.waiters → s.fib? f = some x → x.sleep = .walk die w.asid w.page →
          t.fib? f = some { x with sleep := .awake } ∧ ∀ va, base ≤ va → va < base + size → tlbFind (t.core (coreOfFibre f)).tlb w.asid va = some ⟨w.asid, base, size, e⟩) ∧
        ∀ f, XlWaiter.fibre f ∉ w.waiters → t.fib? f = s.fib? f) ∧
    (∀ w : Walk, d.walks[index]? = some w → w.stage ≠ 2 → exec (.walkComplete die index) s = .next s) ∧
    (∀ p : PFault, d.faults[index]? = some p → p.slot = none →
      let tail := d.r.fqtail.toNat
      let next := if d.r.fqsize.toNat ≤ tail + 1 then 0 else tail + 1
      d.r.fqsize ≠ 0 → next ≠ d.r.fqhead.toNat → (∀ q ∈ d.faults, q.slot ≠ some tail) →
      ∃ t, exec (.faultRecordAppend die index) s = .next t ∧ t.mem = memWrite s.mem (d.r.fqbase.toNat + 32 * tail) p.bytes ∧
        (t.die die).faults = d.faults.set index { p with slot := some tail } ∧ (t.die die).r.fqtail.toNat = next ∧ (t.die die).r.irqstat.getLsbD 6 = true) ∧
    (∀ (k : BitVec 16) (p : PFault) (f : Nat) (x : Fibre), s.shut die = false → d.faults.find? (fun q => q.slot == some k.toNat) = some p → p.waiters = [.fibre f] →
      s.fib? f = some x → (x.sleep = .walk die p.asid (p.va / 65536) ∨ ∃ kind, x.sleep = .replay die p.asid (p.va / 65536) kind) →
      (∃ t, exec (.fqreplyRetry die k) s = .next t ∧ t.mem = s.mem ∧ t.fib? f = some { x with sleep := .awake } ∧ (∀ q ∈ (t.die die).faults, q.slot ≠ some k.toNat) ∧
        tlbFind (t.clu (clusterOfFibre f)).tlb p.asid p.va = none ∧ tlbFind (t.core (coreOfFibre f)).tlb p.asid p.va = none) ∧
      (∀ r, x.onFail = some r → x.trap = none → r.entry = none → x.regs.tvec ≠ 0 → s.CanEnter f x →
        ∃ t y, exec (.fqreplyFail die k) s = .next t ∧ (∀ q ∈ (t.die die).faults, q.slot ≠ some k.toNat) ∧
          s.Entered t f x { r with cause := if p.kind = 0 then .xlFault else .xlPerm } x.regs.tvec y)) ∧
    (d.r.invDone = false → (∀ e ∈ s.invDies die, s.invBusy d.r e = false) →
      ∃ t, exec (.tlbinvDone die) s = .next t ∧ t.mem = s.mem ∧ t.fibres = s.fibres ∧ (t.die die).r = { d.r with invDone := true } ∧
        ∀ e ∈ s.invDies die,
          (∀ c ∈ clustersOf e, (t.clu c).tlb = (s.clu c).tlb.filter fun w => !d.r.covers w.asid w.base w.size) ∧
          (∀ c ∈ clustersOf e, ∀ k ∈ coresOf c, (t.core k).tlb = (s.core k).tlb.filter fun w => !d.r.covers w.asid w.base w.size) ∧
          (t.die e).wcache = (s.die e).wcache.filter fun w => !d.r.covers w.asid (w.index * 2 ^ w.level) (2 ^ w.level))

/-! ## Accesses performed and answered -/

/-- The words of a fibre after an access has delivered its value; words in `keep` a later result has overwritten (R169). -/
def gives (s t : State) (f : Nat) (a : Access) (bytes : List Byte) : Prop :=
  (∀ i, i < a.regs → i ∉ a.keep → a.dst.next i ≠ .none → t.word f (a.dst.next i) a.beat = nth 0 (loadWords a.ty a.n bytes) i) ∧
  ∀ r b, b < 64 → (∀ i, i < a.regs → i ∉ a.keep → r ≠ a.dst.next i) → t.word f r b = s.word f r b

/-- R14 to R17, R91, R94, R95, R100, R165, R212, R220, R268, R274, R298: a lone access of a fibre to its own die is performed at home: a load delivers the
bytes, a store leaves them, an atomic does both; an answer from the other die, from the host or from a peer window is delivered; an access to an absent
die ends in HOME_ABSENT. -/
def Obligations.AccessCompletion : Prop :=
  ∀ (s : State) (f : Nat) (x : Fibre) (a : Access) (g : Seg), s.fib? f = some x → x.out = [a] → a.segs = [g] → a.lde = none → a.acq = none → a.waits = [] →
    a.n = g.n → a.regs = (if a.dst = .none then 0 else if a.n < 4 then 1 else a.n / 4) → a.beat < 64 →
    let die := dieOfFibre f
    let near := 0 < g.n ∧ g.host = false ∧ g.home = die ∧ isHost g.pa = false ∧ homeOf g.pa = die ∧ s.memBad = [] ∧ s.memCe = [] ∧
      ∀ i, i < g.n → isHost ((g.pa + i) / 128 * 128) = false ∧ homeOf ((g.pa + i) / 128 * 128) = die
    let done := fun (t : State) => ∃ y, t.fib? f = some y ∧ y.out = [] ∧ y.div = x.div ∧ y.regs.flags = x.regs.flags ∧ (a.block = true → y.sleep = .awake)
    let held := memBytes s.mem g.pa g.n
    (a.kind = .load → a.plain = false → a.reply = none → near → (a.block = true → (s.die die).quarantined g.pa = false ∧ (s.die die).quarantined (g.pa + g.n - 1) = false) →
      ∃ t, exec (.loadComplete f 0) s = .next t ∧ t.mem = s.mem ∧ done t ∧ gives s t f a held) ∧
    (a.kind = .store → a.reply = none → near → a.data.length = g.n →
      ∃ t y, exec (.accessPerformedAtHome f 0) s = .next t ∧ t.mem = memWrite s.mem g.pa a.data ∧ t.fib? f = some y ∧ y.out = [] ∧ y.regs = x.regs ∧ y.div = x.div) ∧
    (∀ (op : AOp) (ty : Ty), a.kind = .atomic op ty → a.reply = none → a.block = false → a.rmt = false → near →
      ∃ t, exec (.accessPerformedAtHome f 0) s = .next t ∧ done t ∧ gives s t f a held ∧
        t.mem = memWrite s.mem g.pa (leBytes g.n (atomicNew op ty g.n (leNat held) (leNat a.data) (leNat a.cmp)))) ∧
    (∀ bytes : List Byte, a.reply = some bytes → a.home = true →
      ∃ t, exec (.remoteAtomicResponse f 0) s = .next t ∧ t.mem = s.mem ∧ done t ∧ gives s t f a bytes ∧ ∀ c ∈ (t.die die).copies, c.line ≠ lineOf g.pa) ∧
    (∀ r, a.block = true → a.kind ≠ .store → a.reply = none → s.segThere die g = false → x.onFail = some r → r.entry = none → x.regs.tvec ≠ 0 →
      let x' := { x with out := [] }
      ((s.untrack f a.seq).setFib f x').CanEnter f x' → ∃ t y, exec (.inflightHomeAbsent f 0) s = .next t ∧ s.Entered t f x' { r with cause := .homeAbsent } x.regs.tvec y) ∧
    (a.kind = .rmtr → a.rmt = false → a.failed = false → ∀ data : BitVec 64, ∃ t, exec (.rmtrResponse f 0 true data) s = .next t ∧ t.mem = s.mem ∧ done t ∧ gives s t f a (leBytes a.n data.toNat)) ∧
    (∀ (k : Track) (d tag : Nat) (inc : BitVec 8) (data : BitVec 128), a.kind = .load → a.rmt = false → a.reply = none → g.host = true → isHost g.pa = true → s.memBad = [] →
      s.segThere die g = true → (s.die g.home).port = [] →
      (s.die d).tracker.find? (fun t => t.link == .pcie && t.tag == tag && t.inc == (s.die d).r.inc) = some k → k.write = false → k.fibre = f → k.seq = a.seq →
      ∃ t, exec (.responseArrival d .pcie inc tag false data) s = .next t ∧ t.mem = s.mem ∧ done t ∧ gives s t f a held) ∧
    (∀ (link : LinkKind) (inc : BitVec 8) (tag : Nat) (p : Bool) (data : BitVec 128) (d : Nat),
      let stale := s.setDie d { s.die d with r := { (s.die d).r with stalecnt := satInc (s.die d).r.stalecnt } }
      (inc = (s.die d).r.inc → exec (.responseArrival d .bridge inc tag p data) s = .next s) ∧
      (inc ≠ (s.die d).r.inc → exec (.responseArrival d .bridge inc tag p data) s = .next stale) ∧
      (link ≠ .bridge → (∀ t ∈ (s.die d).tracker, ¬(t.link = link ∧ t.tag = tag ∧ t.inc = (s.die d).r.inc)) → exec (.responseArrival d link inc tag p data) s = .next stale))

/-- R14, R15, R94, R95, R98, R101 to R104, R230, R298: a write-through record is performed at home, or dropped where its incarnation is unknown, and
acknowledged; a posted host write is performed or lost; a remote write is acknowledged or has failed; an arm is registered; a sleep in MWAIT ends. -/
def Obligations.RecordsAndMonitors : Prop :=
  ∀ (s : State) (die index : Nat),
    let d := s.die die
    (∀ r : WtRec, d.wt[index]? = some r →
      let home := homeOf (r.line * 128)
      (r.atHome = false → s.reaches die home = true → s.sentBefore die r.line r.id = false →
        (r.inc = (s.die home).r.pinc → s.memBad = [] → ∃ t, exec (.wtRecordAtHome die index) s = .next t ∧
          t.mem = r.bytes.foldl (fun m e => memSet m (r.line * 128 + e.1) e.2) s.mem ∧ (t.die die).wt = d.wt.set index { r with atHome := true, sent := true }) ∧
        (r.inc ≠ (s.die home).r.pinc → home ≠ die → ∃ t, exec (.wtRecordAtHome die index) s = .next t ∧ t.mem = s.mem ∧
          t.die die = { d with wt := d.wt.take index ++ d.wt.drop (index + 1) } ∧ (t.die home).r = { (s.die home).r with stalecnt := satInc (s.die home).r.stalecnt })) ∧
      (r.atHome = true → (∀ e ∈ s.fibres, ∀ a ∈ e.2.out, a.waits = []) →
        exec (.wtAck die index) s = .next (s.setDie die { d with wt := d.wt.take index ++ d.wt.drop (index + 1) }))) ∧
    (∀ (w : HostWrite) (rest : List HostWrite), d.port = w :: rest → (∀ e ∈ s.fibres, ∀ a ∈ e.2.out, a.waits = []) →
      (d.r.hlink = true → isHost w.pa = true → exec (.hostWriteAccept die) s =
        .next ({ s with mem := memWrite s.mem w.pa w.data, memBad := without s.memBad w.pa w.data.length }.setDie die { d with port := rest })) ∧
      ∃ t, exec (.hostWriteAbandon die) s = .next t ∧ t.mem = s.mem ∧ t.fibres = s.fibres ∧ (t.die die).port = rest ∧ (t.die die).r.lostcnt = satInc d.r.lostcnt ∧
        (t.die die).r.irqstat = d.r.irqstat ||| 128 ∧ ∀ c, (t.clu c).copies = (s.clu c).copies.map fun k => k.losePosted die [w.id]) ∧
    (∀ t : Track, d.tracker[index]? = some t → t.link = .ethernet → t.write = true →
      let less := s.setDie die { d with tracker := d.tracker.take index ++ d.tracker.drop (index + 1) }
      exec (.rmtwAck die index true) s = .next less ∧
      (∀ x, t.copy = none → s.fib? t.fibre = some x → exec (.rmtwAck die index false) s = .next (less.setFib t.fibre { x with rmtBad := true }))) ∧
    (∀ (a : Arm) (x : Fibre), d.arms[index]? = some a → a.live = false → s.reaches (dieOfFibre a.fibre) die = true → s.fib? a.fibre = some x →
      let full := decide (4096 ≤ (d.arms.filter fun b => b.live && !b.overflow && sliceOf b.line == sliceOf a.line).length)
      ∃ t y, exec (.monitorArmRegistered die index) s = .next t ∧ t.mem = s.mem ∧ (t.die die).arms = d.arms.set index { a with live := true, overflow := full } ∧
        (∀ c ∈ (t.die (dieOfFibre a.fibre)).copies, c.line ≠ a.line) ∧ t.fib? a.fibre = some y ∧ y.regs = x.regs ∧ y.div = x.div ∧
        (y.mon = x.mon.map fun m => if m.line = a.line then { m with registered := true, overflow := full } else m) ∧
        (x.sleep = .reply → y.sleep = .awake)) ∧
    (∀ (f n : Nat) (x : Fibre), s.fib? f = some x → x.sleep = .mwait n →
      (x.monEvent = true → exec (.mwaitWake f) s = .next (s.setFib f { x with sleep := .awake, mwaitCode := some 0 })) ∧
      (n ≤ s.nowOf f ∨ s.monGone f x = true → exec (.mwaitTimeout f) s = .next (s.setFib f { x with sleep := .awake, mwaitCode := some 1 })) ∧
      (s.nowOf f < n → s.monGone f x = false → exec (.mwaitTimeout f) s = .next s))

/-! ## Ports, errors, dies -/

/-- R21 to R24, R29, R33, R40, R87, R102, R128, R159, R184, R413: what comes in through a die's ports, the links, scrubs and bit errors. -/
def Obligations.PortsAndErrors : Prop :=
  ∀ (s : State) (die : Nat),
    let d := s.die die
    let r := d.r
    let put := fun (q : DieRegs) => s.setDie die { d with r := q }
    let lost := put { r with feeddrop := satInc r.feeddrop }
    (∀ (pa n : Nat) (data : List Byte), r.hlink = true → s.shut die = false →
      exec (.hostApertureWrite die pa data true) s = .next lost ∧
      (s.apertureReach die pa data.length = true → ∃ t, exec (.hostApertureWrite die pa data false) s = .next t ∧ t.mem = memWrite s.mem pa data ∧ t.clusters = s.clusters ∧
        t.cores = s.cores) ∧
      (s.apertureReach die pa n = true → s.memBad = [] → s.memCe = [] →
        exec (.hostApertureRead die pa n) s = .next (s.setDie die { d with completion := memBytes s.mem pa n }))) ∧
    (∀ (off : Nat) (data : List Byte) (v : BitVec 64) (w : Nat), r.hlink = true → s.shut die = false →
      exec (.hostFeedWindowWrite die off data true) s = .next lost ∧ exec (.hostFeedDoorbell die w v true) s = .next lost ∧
      (tfind d.feeds w = none → exec (.hostFeedDoorbell die w v false) s = .next lost) ∧
      (off < 2 ^ 24 → tfind d.feeds (off / 4096) = none → exec (.hostFeedWindowWrite die off data false) s = .next lost) ∧
      (2 ^ 24 ≤ off → exec (.hostFeedWindowWrite die off data false) s = .next s) ∧
      (∀ x, off < 2 ^ 24 → tfind d.feeds (off / 4096) = some x → x.reading = none → ∃ t y, exec (.hostFeedWindowWrite die off data false) s = .next t ∧ t.mem = s.mem ∧
        tfind (t.die die).feeds (off / 4096) = some y ∧ y.bytes = tblWrite x.bytes (off % 4096) (data.take (0xFF8 - off % 4096)) ∧ y.last = x.last ∧ y.reading = none) ∧
      (∀ x n, tfind d.feeds w = some x → s.node? die x.node = some n → n.state = 2 → x.closing = false → x.reading = none →
        (v.toNat % 2 ^ 32 = (x.last + 1) % 2 ^ 32 → exec (.hostFeedDoorbell die w v false) s =
          .next (s.setDie die { d with feeds := tput d.feeds w { x with last := v.toNat % 2 ^ 32, reading := some v, held := none, snap := x.bytes } })) ∧
        (v.toNat % 2 ^ 32 ≠ (x.last + 1) % 2 ^ 32 → exec (.hostFeedDoorbell die w v false) s = .next lost))) ∧
    ((∀ e ∈ s.fibres, ∀ a ∈ e.2.out, a.waits = []) → ∃ t, exec (.hostLinkDown die) s = .next t ∧ t.mem = s.mem ∧ t.fibres = s.fibres ∧ (t.die die).port = [] ∧
      (t.die die).r.hlink = false ∧ (t.die die).r.lostcnt = d.port.foldl (fun n _ => satInc n) r.lostcnt ∧ (d.port ≠ [] → (t.die die).r.irqstat.getLsbD 7 = true) ∧
      ∀ c, (t.clu c).copies = (s.clu c).copies.map fun k => k.losePosted die (d.port.map (·.id))) ∧
    (s.shut die = false → 5 ≤ r.step.toNat → exec (.pcieLinkTrained die) s = .next (put { r with hlink := true })) ∧
    (∀ (pa : Nat) (data : List Byte), s.shut die = false → pa + data.length ≤ 2 ^ 39 → s.reaches die (homeOf pa) = true →
      s.reaches die (homeOf (pa + data.length - 1)) = true → ∃ t, exec (.incomingRdmaWrite die pa data) s = .next t ∧ t.mem = memWrite s.mem pa data ∧
        t.clusters = s.clusters ∧ t.cores = s.cores) ∧
    (∀ (port : BitVec 3) (qpn : BitVec 24),
      let mine := fun (t : Track) => t.link == .ethernet && t.port == port && t.qpn == qpn
      exec (.connectionReestablished die port qpn) s = .next (s.setDie die { d with rcBad := d.rcBad.filter (· != (port.toNat, qpn.toNat)) }) ∧
      (d.tracker.filter mine = [] → ∃ y, exec (.rcError die port qpn) s = .next (s.setDie die y) ∧ (port.toNat, qpn.toNat) ∈ y.rcBad ∧ y.tracker = d.tracker ∧ y.r = r) ∧
      (∀ k x, d.tracker.filter mine = [k] → k.write = true → k.copy = none → s.fib? k.fibre = some x → ∃ t, exec (.rcError die port qpn) s = .next t ∧
        (port.toNat, qpn.toNat) ∈ (t.die die).rcBad ∧ (∀ e ∈ (t.die die).tracker, mine e = false) ∧ t.fib? k.fibre = some { x with rmtBad := true })) ∧
    (s.shut die = true → exec (.attestRequest die) s = .next s) ∧
    (s.shut die = false → exec (.attestRequest die) s = .next (s.setDie die (if d.nextKey < Config.attestKeys then { d with nextKey := d.nextKey + 1 } else d))) ∧
    (∀ pa : Nat,
      let a := pa / 128 * 128
      isDram a = true → homeOf a = die →
      (s.memBad = [] → ∃ t, exec (.scrub die pa) s = .next t ∧ t.mem = s.mem ∧ t.memBad = [] ∧ (∀ b, b ∈ t.memCe ↔ b ∈ s.memCe ∧ ¬(a ≤ b ∧ b < a + 128)) ∧
        (t.die die).r.cecnt = (s.memCe.filter fun b => a ≤ b && b < a + 128).foldl (fun n _ => satInc n) r.cecnt) ∧
      (s.memCe = [] → (∃ b ∈ s.memBad, a ≤ b ∧ b < a + 128) → d.freeQuar ≠ none → ∃ t, exec (.scrub die pa) s = .next t ∧ t.mem = s.mem ∧
        (t.die die).r.uecnt = satInc r.uecnt ∧ (t.die die).quarantined a = true ∧ (t.die die).r.irqstat.getLsbD 2 = true)) ∧
    (∀ (pa c g t b row col f i n k line : Nat) (bank : Nat) (flip : Word) (code : BitVec 5) (x : Fibre),
      let hit := fun (e : ErrSite) (ce : Bool) (q : State → Prop) => ∃ u, exec (.softError e ce) s = .next u ∧ u.mem = s.mem ∧ q u
      let struck := fun (words new : List (Nat × Word)) (codes stored : List (Nat × BitVec 5)) (j : Nat) =>
        tget 0 new j = tget 0 words j ^^^ flip ∧ tfind stored j = some ((tfind codes j).getD (rho (tget 0 words j)) ^^^ code) ∧
        ∀ m, m ≠ j → tget 0 new m = tget 0 words m ∧ tfind stored m = tfind codes m
      (isDram pa = true → s.demanded (lineOf pa) = false → hit (.dram pa) false (fun u => pa ∈ u.memBad ∧ pa ∉ u.memCe) ∧ hit (.l2 pa) false fun u => pa ∈ u.memBad) ∧
      (isDram pa = true → pa ∉ s.memBad → hit (.dram pa) true fun u => pa ∈ u.memCe) ∧
      hit (.spad c g) false (fun u => g ∈ (u.clu c).spadBad ∧ (u.clu c).spad = (s.clu c).spad) ∧
      hit (.tile c t b) false (fun u => (t * 16384 + b) / 4 ∈ (u.clu c).tileBad ∧ (u.clu c).tiles = (s.clu c).tiles) ∧
      hit (.acc c bank row col) false (fun u => accKey (bank == 1) row col ∈ (u.clu c).accBad ∧ (u.clu c).acc = (s.clu c).acc) ∧
      (s.fib? f = some x → i / 8 ∉ x.regs.spilled → hit (.vreg f i b flip code) false fun u => ∃ y, u.fib? f = some y ∧ y.regs.s = x.regs.s ∧
        struck x.regs.v y.regs.v x.regs.badV y.regs.badV (regKey i b)) ∧
      (s.fib? f = some x → hit (.sreg f n flip code) false fun u => ∃ y, u.fib? f = some y ∧ y.regs.v = x.regs.v ∧ struck x.regs.s y.regs.s x.regs.badS y.regs.badS n) ∧
      (∀ o : Opd, s.fib? f = some x → o.ref x.pos x.regs.woff 0 ≠ .none → hit (.path f o b) false fun u => ∃ y, u.fib? f = some y ∧
        (o.ref x.pos x.regs.woff 0, b) ∈ y.regs.badPath ∧ y.regs.v = x.regs.v ∧ y.regs.s = x.regs.s ∧ y.regs.badV = x.regs.badV ∧ y.regs.badS = x.regs.badS) ∧
      (s.fib? f = some x → hit (.xbuf f b) false fun u => ∃ y, u.fib? f = some y ∧ (.none, b) ∈ y.regs.badPath ∧ y.regs.v = x.regs.v ∧ y.regs.s = x.regs.s) ∧
      (s.fib? f = some x → hit (.carry f b) false (fun u => ∃ y, u.fib? f = some y ∧ b ∈ y.regs.badCarry) ∧
        hit (.alu f flip) false fun u => ∃ y, u.fib? f = some y ∧ y.regs.aluErr = some flip) ∧
      ((tfind s.slots k).isSome = true → hit (.shreg k i b flip code) false fun u =>
        struck (s.slot k).shared (u.slot k).shared (s.slot k).bad (u.slot k).bad (regKey i b)) ∧
      hit (.l1 k line) true (fun u => u.dies = s.dies ∧ (∀ l ∈ (u.core k).l1, l.line = line → l.bad = true) ∧
        ((∃ l ∈ (s.core k).l1, l.line = line) → (∀ l ∈ ((u.checkL1 k line).core k).l1, l.line ≠ line) ∧
          ((u.checkL1 k line).die (dieOfCluster (clusterOfCore k))).r.cecnt = satInc (s.die (dieOfCluster (clusterOfCore k))).r.cecnt)) ∧
      hit (.const c line) true (fun u => u.dies = s.dies ∧ ∀ l ∈ (u.clu c).const, l.line = line → l.bad = true) ∧
      ((∃ l ∈ d.copies, l.line = line) → hit (.copyLine die line) false (fun u => ∀ l ∈ (u.die die).copies, l.line = line → l.bad = true) ∧
        hit (.copyLine die line) true fun u => (u.die die).copies = d.copies ∧ (u.die die).r.cecnt = satInc r.cecnt))

/-- R14, R17 to R19, R32, R34, R38 to R40, R79, R105, R240: boot, reset, bridge training, the loss of the peer and a change of ownership. -/
def Obligations.DieLife : Prop :=
  ∀ (s : State) (die : Nat) (o : BootOutcome),
    let d := s.die die
    let r := d.r
    let put := fun (q : DieRegs) => s.setDie die { d with r := q }
    (r.step = 0 → s.shut die = false → d.boot = none → (s.die (otherDie die)).boot = none →
      (o.firmwareOk = false → exec (.powerOnBoot die o) s = .next (put { r with step := 0, halt := true, hcause := 1 })) ∧
      (o.firmwareOk = true → o.dramOk = false → exec (.powerOnBoot die o) s = .next (put { r with step := 1, halt := true, hcause := 2 })) ∧
      (o.firmwareOk = true → o.dramOk = true → o.bridgeOk = false → ∃ t, exec (.powerOnBoot die o) s = .next t ∧ t.mem = s.mem ∧ t.clusters = s.clusters ∧
        let up : DieRegs := { r with step := 6, feathw := features r.peer, ready := true, hlink := o.linkUp }
        let down : DieRegs := { r with step := 4, feathw := features r.peer, halt := true, hcause := 3 }
        t.die die = { d with r := if o.portsOk then up else down }) ∧
      (o.firmwareOk = true → o.dramOk = true → o.bridgeOk = true → s.off (otherDie die) = false → (s.die (otherDie die)).r.step.toNat ≤ 2 →
        exec (.powerOnBoot die o) s = .next (s.setDie die { d with boot := some o, r := { r with step := 2 } }))) ∧
    (∀ o' : BootOutcome, die < 2 → r.step = 0 → s.shut die = false → d.boot = none → s.off (otherDie die) = false → (s.die (otherDie die)).boot = some o' →
      r.peer = false → (s.die (otherDie die)).r.peer = false → (∀ e ∈ s.fibres, e.2.out = []) → o.firmwareOk = true → o.dramOk = true → o.bridgeOk = true →
      ∃ t, exec (.powerOnBoot die o) s = .next t ∧ t.mem = s.mem ∧ t.fibres = s.fibres ∧ ∀ e ∈ [(die, o), (otherDie die, o')],
        let q := (t.die e.1).r
        (t.die e.1).boot = none ∧ q.peer = true ∧ q.pinc = (s.die (otherDie e.1)).r.inc ∧ q.feathw = features true ∧
          (e.2.portsOk = true → q.step = 6 ∧ q.ready = true ∧ q.halt = false ∧ q.hlink = e.2.linkUp) ∧
          (e.2.portsOk = false → q.step = 4 ∧ q.halt = true ∧ q.hcause = 3)) ∧
    (∃ t, exec (.dieReset die) s = .next t ∧
      (let kept : DieRegs := { DieRegs.reset with inc := r.inc + 1, temp := r.temp, ownbusy := r.ownbusy }
       (∀ w ∈ d.wt, homeOf (w.line * 128) ≠ die) → t.die die = { Die.reset with since := s.tick, sent := d.sent, quar := d.quar, nextKey := d.nextKey, wtNext := d.wtNext, portNext := d.portNext, r := kept }) ∧
      (∀ c, dieOfCluster c = die → t.clu c = .reset) ∧ (∀ k, dieOfCluster (clusterOfCore k) = die → t.core k = .reset) ∧ (∀ f, dieOfFibre f = die → t.fib? f = none) ∧
      (d.wt = [] → d.dirty = [] → d.port = [] → t.mem = s.mem ∧ t.memBad = s.memBad ∧ (∀ e, e ≠ die → t.die e = s.die e) ∧ (∀ c, dieOfCluster c ≠ die → t.clu c = s.clu c) ∧
        ∀ f, dieOfFibre f ≠ die → t.fib? f = s.fib? f)) ∧
    ((∀ e, e < 2 → (s.die e).r.peer = false ∧ s.shut e = false ∧ (s.die e).boot = none ∧ 2 ≤ (s.die e).r.step.toNat) → (∀ e ∈ s.fibres, e.2.out = []) →
      let src := if (s.die 0).resetSince = true ∧ (s.die 1).resetSince = false then 1 else 0
      ∃ t, exec .bridgeTrained s = .next t ∧ t.mem = s.mem ∧ t.fibres = s.fibres ∧
        (∀ e, e < 2 → t.die e = { s.die e with resetSince := false, r := { (s.die e).r with peer := true, pinc := (s.die (1 - e)).r.inc } }) ∧
        ∀ k, k < 192 → (t.core (192 * (1 - src) + k)).cstore = (s.core (192 * src)).cstore) ∧
    (let p := (s.die (otherDie die)).r
     (p.halt = false → p.inc = r.pinc → p.peer = true → exec (.peerAbsent die) s = .next s) ∧
     (r.peer = true → p.halt = true ∨ p.inc ≠ r.pinc → die < 2 → s.launches = [] → (∀ e ∈ s.fibres, e.2.out = [] ∧ e.2.mon = []) →
       ∃ t, exec (.peerAbsent die) s = .next t ∧ t.mem = s.mem ∧ (t.die die).r.peer = false ∧ (t.die die).wt = [] ∧ (t.die die).copies = [] ∧
         (t.die die).r.irqstat.getLsbD 0 = true ∧ (t.die die).r.lostcnt = d.wt.foldl (fun n _ => satInc n) r.lostcnt ∧
         ∀ a ∈ (t.die die).arms, dieOfFibre a.fibre = die)) ∧
    (let busy := (s.die 0).r.ownbusy
     (busy = true → exec .ownchgGo s = .next s) ∧ (busy = false → exec .ownchgComplete s = .next s) ∧
     (s.shut 0 = false → s.half = false → ∃ t, exec .ownchgGo s = .next t ∧
       ∀ e, e < 2 → (t.die e).r.ownbusy = true ∧ (t.die e).r.inc = (s.die e).r.inc + 1 ∧ (t.die e).r.ready = false) ∧
     (busy = true → s.half = false → ∃ t, exec .ownchgComplete s = .next t ∧ t.memBad = s.memBad.filter isHost ∧ t.memCe = [] ∧ (∀ e, e < 2 → (t.die e).r.ownbusy = false) ∧
       ∀ a, memByte t.mem a = if isHost a then memByte s.mem a else 0))

/-! ## Engines -/

/-- R110, R111, R113, R115 to R117, R134, R137 to R140, R142, R144, R287, R297, R416: the engines of rings and copies, and the distributors. -/
def Obligations.EngineSteps : Prop :=
  ∀ (s : State) (cl key index : Nat),
    let c := s.clu cl
    c.spadBad = [] → c.spadCe = [] → c.waiters = [] →
    let pad := fun (t : State) (at_ n : Nat) (b : List Byte) => t.spadBytes cl at_ n = b
    (∀ r : Ring, s.ring? cl key = some r →
      -- a slot in flight goes on with the TAIL it began with; a new one begins with the header's
      let now := if r.inFlight then r else { r with tail := s.tailOf cl r }
      let s1 := s.putRing cl key now
      let counted := { now with head := r.head + 1, pushed := [], parts := 0, cells := [], state := if r.head + 1 = r.tiles then 2 else r.state }
      (∀ (b : List Byte), s.ringRuns cl r = true → r.dir = false → gap r.head now.tail < r.slots → index < r.slotG → index ∉ r.pushed →
        s1.ringRead cl key now (pageParts (r.rowAt r.head (index / r.tw) + index % r.tw * 16) 16) = .ok b s1 → b.length = 16 →
        ∃ t, exec (.moraineGranulePush cl key index) s = .next t ∧ t.mem = s.mem ∧ t.fibres = s.fibres ∧
          pad t (r.slotAt r.head + 16 * index) 16 b ∧ t.isFull cl ((r.slotAt r.head + 16 * index) / 16) = true ∧
          (r.pushed.length + 1 ≠ r.slotG → t.ring? cl key = some { now with pushed := index :: r.pushed }) ∧
          (r.pushed.length + 1 = r.slotG → t.ring? cl key = some counted ∧ leNat (t.spadBytes cl r.base 4) = (r.head + 1) % 2 ^ 32)) ∧
      (∀ (z : Ring) (u : State), s.ringRuns cl r = true → r.dir = true → r.head ≠ now.tail →
        s1.pullParts cl key now (now.slotParts.drop r.parts) = (z, .ok () u) → u.clu cl = s1.clu cl →
        ∃ t, exec (.moraineSlotPulled cl key) s = .next t ∧ t.mem = u.mem ∧ t.ring? cl key = some counted ∧ leNat (t.spadBytes cl r.base 4) = (r.head + 1) % 2 ^ 32 ∧
          (∀ g ∈ granulesOf (r.slotAt r.head) (16 * r.slotG), t.isFull cl g = false) ∧
          ∀ n, t.cohort? n = (u.cohort? n).map fun q =>
            if n = r.cohort then { q with fds := tput q.fds r.finisher (tget 0 q.fds r.finisher + digestCells z.cells) } else q) ∧
      (r.isOpen = true → r.err = 0 → exec (.ringTailRead cl key) s = .next (s.putRing cl key { r with tail := leNat (s.spadBytes cl (r.base + 4) 4) })) ∧
      (r.err ≠ 0 → r.state ≠ 3 → ∃ t, exec (.ringError cl key) s = .next t ∧ t.ring? cl key = some { r with state := 3, pushed := [], parts := 0, cells := [], xlw := false } ∧
        pad t (r.base + 12) 4 (leBytes 4 (3 + 256 * (r.err % 256))) ∧ t.mem = s.mem ∧ t.fibres = s.fibres) ∧
      (s.ringPauses cl r = true → r.state = 0 → r.inFlight = false → r.err = 0 → ∃ t, exec (.ringPause cl key) s = .next t ∧
        t.ring? cl key = some { r with state := 1 } ∧ pad t (r.base + 12) 4 (leBytes 4 (1 + 4 * r.xlw.toNat)) ∧ t.mem = s.mem ∧ t.fibres = s.fibres)) ∧
    (∀ (before after : List Copy) (k : Copy), c.copies = before ++ k :: after → (∀ e ∈ before, e.started = true ∧ e.id ≠ k.id) → (∀ e ∈ after, e.id ≠ k.id) →
      let queue := fun (t : State) (k : Copy) => t.clu cl = { t.clu cl with copies := before ++ k :: after }
      (k.started = false → ∃ t, exec (.copyStart cl) s = .next t ∧ queue t { k with started := true } ∧ t.mem = s.mem ∧ (t.clu cl).spad = c.spad) ∧
      (∀ data : List Byte, index = before.length → c.turn = some k → k.tcopy = false → k.path = .m2s → k.ck ≠ .fe → k.rows = 1 → k.pos = 0 → data.length = k.len → 0 < k.len →
        k.len ≤ 128 - k.dst % 128 →
        let s1 := s.setClu cl { c with lastCopy := k.id }
        s1.copyRead cl k k.src k.len = .ok data s1 → ∃ t, exec (.copyChunk cl index) s = .next t ∧ queue t { k with pos := k.len } ∧ (t.clu cl).spad = tblWrite c.spad (k.winBase + k.dst) data ∧ t.mem = s.mem) ∧
      (index = before.length → k.started = true → s.copySettled cl k = true → (∀ e ∈ s.fibres, e.2.sleep ≠ .copyQueue ∧ e.2.sleep ≠ .failTable) →
        let credited := fun (t : State) => ∀ n, t.cohort? n = (s.cohort? n).map fun q =>
          if n = k.cohort then { q with fds := tput q.fds k.lidx (tget 0 q.fds k.lidx + digestCells k.sent) } else q
        (∀ i, k.err = none → k.total ≤ k.pos → k.ck = .fe → k.failIx = some i → ∃ t, exec (.copyComplete cl index) s = .next t ∧ t.mem = s.mem ∧ t.fibres = s.fibres ∧ credited t ∧
          t.clu cl = { c with copies := before ++ after, fails := tdel c.fails i }) ∧
        (∀ i e, k.err = some e → e ≠ 0 → k.ck = .fe → k.failIx = some i → ∃ t, exec (.copyFail cl index) s = .next t ∧ t.mem = s.mem ∧ t.fibres = s.fibres ∧ credited t ∧
          t.clu cl = { c with copies := before ++ after, fails := tput c.fails i { cohort := k.cohort, failed := true, ranges := k.ranges } }) ∧
        (∀ e, k.err = some e → e < 256 → k.ck = .stamp → homeOf k.stampPa = dieOfCluster cl → isHost k.stampPa = false → s.memBad = [] →
          ∃ t, exec (.copyFail cl index) s = .next t ∧ t.clu cl = { c with copies := before ++ after } ∧
            t.mem = memWrite s.mem k.stampPa (leBytes 8 (k.seq.toNat + 2 ^ 56 * e))) ∧
        (k.err = none → k.total ≤ k.pos → k.ck = .bar →
          let b := s.barObj cl k.target
          let left := b.pend.toInt - k.count
          left ≥ -2 ^ 31 → ¬(left = 0 ∧ b.partr = 0) → ∃ t, exec (.copyComplete cl index) s = .next t ∧ credited t ∧ (t.clu cl).copies = before ++ after ∧ t.mem = s.mem ∧
            t.barObj cl k.target = { b with pend := BitVec.ofInt 32 left }))) ∧
    (∀ (q : Query) (l : Launch), c.queries[index]? = some q → s.launch? q.launch = some l → s.reaches (dieOfCluster cl) l.die = true → c.full.contains q.granule = false →
      q.dist < l.dist.length →
      let n := nth 0 l.dist q.dist
      let item := if q.det then q.q * l.desc.fibres + q.lidx else n
      let e := nth (0, 0, 0) l.desc.dists q.dist
      ∃ t, exec (.wqryAnswer cl index) s = .next t ∧ t.mem = s.mem ∧ (t.clu cl).queries = c.queries.take index ++ c.queries.drop (index + 1) ∧
        t.isFull cl q.granule = true ∧
        pad t (16 * q.granule) 16 (if e.1 * e.2.1 * e.2.2 ≤ item then List.replicate 16 255
          else leBytes 4 item ++ leBytes 4 (item % e.1) ++ leBytes 4 (item / e.1 % e.2.1) ++ leBytes 4 (item / (e.1 * e.2.1))) ∧
        t.launch? q.launch = some (if q.det then l else { l with dist := l.dist.set q.dist (n + 1) }))

/-- R155, R175, R184, R191, R200, R204 to R208: spills of the least recently used block where a core has to make room, fills where it has room, the quantum of a lane, the posting, granting and ending of passes, the end of a drain. -/
def Obligations.FileAndPassSteps : Prop :=
  ∀ (s : State),
    (∀ (f block : Nat) (x : Fibre), s.fib? f = some x → x.failure = none →
      let gone := fun (t : State) => ∃ y, t.fib? f = some y ∧ block ∈ y.regs.spilled ∧ block ∉ y.regs.dirty ∧ block ∉ y.regs.filled ∧ y.regs.p = x.regs.p ∧
        y.regs.flags = x.regs.flags ∧ y.div = x.div
      let leaves := s.oldest f block = true ∧ s.fileFull (coreOfFibre f) = true
      (¬leaves → exec (.regSpillComplete f block) s = .next s) ∧
      (leaves → x.regs.dirty.contains block = false → ∃ t, exec (.regSpillComplete f block) s = .next t ∧ t.mem = s.mem ∧ gone t) ∧
      (∀ u, leaves → x.regs.dirty.contains block = true → x.blockBad block = 0 →
        s.writeChunks f x (x.pos.backing (8 * block) 0) (x.blockBytes block) x.pos.chunks = .ok u → u.fib? f = some x →
        ∃ t, exec (.regSpillComplete f block) s = .next t ∧ t.mem = u.mem ∧ gone t)) ∧
    (∀ (f : Nat) (x z : Fibre) (l : List Nat) (u : State), s.fib? f = some x → x.sleep = .fill l → x.rettDue = false →
      (s.fillRoom f x = false → exec (.regFillComplete f) s = .next s) ∧
      (s.fillRoom f x = true → s.fillBlocks f l = .ok u → u.fib? f = some z →
        exec (.regFillComplete f) s = .next (u.setFib f { z with sleep := .awake, onFail := none, rettDue := false }))) ∧
    (∀ (l h : Nat), (s.lane l).holder = some h →
      let other := ∃ f ∈ fibresOfLane l, f ≠ h ∧ ∃ x, s.fib? f = some x ∧ x.ready = true
      (other → (s.lane l).since + 256 ≤ s.nowOf h → exec (.laneQuantumExpiry l) s = .next (s.setLane l { s.lane l with expired := true })) ∧
      (¬other ∨ s.nowOf h < (s.lane l).since + 256 → exec (.laneQuantumExpiry l) s = .next s)) ∧
    (∀ (cl p : Nat) (kr : KReg), (s.clu cl).k = [(p, kr)] →
      let g := kr.stg
      let becomes := fun (t : State) (q : KReg) => ∀ i, t.kreg cl i = if i = p then q else default
      (kr.state = 2 → ∃ t, exec (.passPost cl p) s = .next t ∧ t.mem = s.mem ∧ becomes t { kr with state := 3, entry := 0, since := s.tick, postAt := s.dieNow (dieOfCluster cl) }) ∧
      (kr.state = 3 → ∃ t ws fail, exec (.passGrant cl) s = .next t ∧ t.mem = s.mem ∧ (t.clu cl).acc = (s.clu cl).acc ∧
        becomes t { kr with state := 4, hold := true, bank := g.mode == 0 && g.bank, since := s.tick, cols := [], colData := ws, fail := fail, free0 := s.free + 256 }) ∧
      (kr.state = 4 → s.passError cl kr = none → ∃ t ev, exec (.passEnd cl) s = .next t ∧ t.mem = s.mem ∧
        becomes t { kr with state := 5, events := kr.events ||| ev, spad0 := [], tiles0 := [] } ∧
        ∀ m n, m < 128 → n < 128 → (t.clu cl).cell g m n % 2 ^ (if g.mode = 0 then 32 else 64) =
          (if g.computed.contains (m, n) then (s.passCell cl kr m n).1 else if g.acc then (s.clu cl).cell g m n else 0) % 2 ^ (if g.mode = 0 then 32 else 64)) ∧
      (∀ code, kr.state = 4 → s.passError cl kr = some code → ∃ t, exec (.passEnd cl) s = .next t ∧ t.mem = s.mem ∧
        becomes t { kr with state := 6, err := BitVec.ofNat 8 code, spad0 := [], tiles0 := [] } ∧ (t.clu cl).accBad = (s.clu cl).accBad)) ∧
    (∀ (cl : Nat) (d : Drain) (rest : List Drain) (x : Fibre), (s.clu cl).drains = d :: rest → s.fib? d.fibre = some x → (∀ a ∈ x.out, a.seq ∉ d.stores) →
      (d.regs.map fun e => (e.1, e.2.1)).Nodup → (∀ e ∈ d.regs, ∃ i, e.1 = .priv i ∧ e.2.1 < 64) →
      let kr := s.kreg cl d.k
      ∃ t y, exec (.drainComplete cl) s = .next t ∧ t.mem = s.mem ∧ (t.clu cl).drains = rest ∧ t.fib? d.fibre = some y ∧ y.regs.flags = x.regs.flags ||| d.events ||| kr.events ∧
        y.div = x.div ∧ (∀ e ∈ d.regs, t.word d.fibre e.1 e.2.1 = e.2.2) ∧
        (∀ q b, b < 64 → (∀ e ∈ d.regs, ¬(e.1 = q ∧ e.2.1 = b)) → t.word d.fibre q b = s.word d.fibre q b) ∧
        t.kreg cl d.k = if d.rel then { kr with hold := false, state := 0 } else kr)

/-! ## The graph -/

/-- R118, R142, R227, R396, R399, R400, R406, R407, R409, R412 to R414, R424 to R427, R449: submissions, with the window that a host feed owns from then on, nodes, placement, the end of cohorts and groups. -/
def Obligations.GraphSteps : Prop :=
  ∀ (s : State) (die index : Nat),
    let d := s.die die
    (∀ (node : BitVec 64) (asid : BitVec 16),
      let x : Submission := { node := node.toNat % 2 ^ 56, asid := asid.toNat, grun := false }
      let s1 := s.setDie die { d with subs := d.subs ++ [x] }
      (s.shut die = true → exec (.twsub die node asid) s = .next s) ∧
      (s.shut die = false → 256 ≤ d.subs.length → exec (.twsub die node asid) s = .next (s.setDie die { d with r := { d.r with twerrcnt := satInc d.r.twerrcnt } })) ∧
      (s.shut die = false → d.subs.length < 256 →
        (∃ t, exec (.twsub die node asid) s = .next t ∧ t.mem = s.mem ∧ t.fibres = s.fibres ∧ (t.die die).subs = d.subs ++ [x]) ∧
        ((∀ va ∈ s1.graphSeen die x.asid (2 ^ 20) [x.node] [], ∀ blk, s1.seen die x.asid va 64 = some blk → (Block.ofBytes blk).kind ≠ 5) →
          exec (.twsub die node asid) s = .next s1) ∧
        (∀ blk body : List Byte, s1.graphSeen die x.asid (2 ^ 20) [x.node] [] = [x.node] → s1.seen die x.asid x.node 64 = some blk → (Block.ofBytes blk).kind = 5 →
          (Block.ofBytes blk).sound = true → x.node % 64 = 0 → s1.nodeAt die x.asid x.node = none → s1.seen die x.asid (Block.ofBytes blk).body 24 = some body →
          fieldAt body 0 2 ≤ 4095 → fieldAt body 8 8 < 2 ^ 56 → fieldAt body 16 8 < 2 ^ 56 → tfind d.feeds (fieldAt body 0 2) = none →
          ∃ t y n, exec (.twsub die node asid) s = .next t ∧ tfind (t.die die).feeds (fieldAt body 0 2) = some y ∧ y.last = 0 ∧ y.ack = fieldAt body 8 8 ∧
            y.desc = fieldAt body 16 8 ∧ y.reading = none ∧ t.node? die y.node = some n ∧ n.va = x.node ∧ n.state = 0))) ∧
    (∀ (x : Submission) (rest : List Submission) (b : Block) (w : Work) (u : State), s.shut die = false → d.subs = x :: rest → x.grun = false → (∀ e ∈ s.fibres, e.2.sleep ≠ .grun) →
      s.nodeAt die x.asid x.node = none → s.nodeAt (otherDie die) x.asid x.node = none →
      let s1 := s.setDie die { d with subs := rest, edges := d.edges.filter fun e => !(e.asid == x.asid && e.va == x.node) }
      let st := match w with | .walker => 1 | _ => 2
      (wkBody die x.asid x.node).exec s1 = (.ok (b, w), s1) → (wkState die x.asid x.node st none).exec s1 = (.ok (), u) → u.nextId = s.nextId → (u.die die).subs = rest →
      (w = .walker → ∃ t, exec (.submissionStart die) s = .next t ∧ t.mem = u.mem ∧ (t.die die).subs = rest ∧
        t.node? die s.nextId = some (.make x.asid x.node b.kind 1)) ∧
      (∀ k, w = .launch k → k.place = 0 → ∃ t n l, exec (.submissionStart die) s = .next t ∧ t.mem = u.mem ∧ (t.die die).subs = rest ∧ t.node? die s.nextId = some n ∧
        n.va = x.node ∧ n.state = 2 ∧ n.launch = some (s.nextId + 1) ∧ t.launch? (s.nextId + 1) = some l ∧ l.desc = k ∧ l.asid = x.asid ∧ l.left = k.cohorts ∧
        (t.die die).queue.length = (u.die die).queue.length + k.cohorts)) ∧
    (∀ (e : PlaceEntry) (l : Launch) (c : Nat), s.shut die = false → d.queue = [e] → e.desc = none → e.again = false → s.launch? e.launch = some l →
      (s.clusterOrder die l).find? (s.fits l.desc false) = some c →
      ∃ t q, exec (.cohortPlace die) s = .next t ∧ t.mem = s.mem ∧ (t.die die).queue = [] ∧ t.cohort? s.nextId = some q ∧ q.launch = e.launch ∧ q.index = e.index ∧ q.cluster = c ∧
        q.z = l.desc.z ∧ q.win ∈ s.freeWindows c l.desc.z ∧ q.kbase = (s.freeK c).take l.desc.kcnt ∧ q.slots.length = l.desc.slots ∧
        (∀ i, q.win ≤ i → i < q.win + q.z → tget 0 (t.clu c).spad i = 0) ∧
        (l.desc.slots = 1 → l.desc.stages = 1 → ∃ y, t.fib? (nth 0 q.slots 0 * 4) = some y ∧ y.pos.cohort = s.nextId ∧ y.pos.fib = 0 ∧ y.pos.lidx = e.index ∧
          y.div.threads = List.replicate l.desc.width { pc := BitVec.ofNat 56 l.desc.pc, op := none, st := .ready, call := none } ∧
          ∀ i, i < 8 → tget 0 y.regs.s i = nth 0 l.desc.args i)) ∧
    (∀ (c : Cohort) (l : Launch), s.cohort? index = some c → s.launch? c.launch = some l →
      let gone := fun (t : State) => t.cohort? index = none ∧ ∀ f ∈ s.members c, t.fib? f = none
      let td := c.digest (l.desc.slots * l.desc.stages)
      (l.group = none → s.cohortDone index c = true → c.mode = .first → l.desc.dgm = 0 → 1 < l.left → ∃ t, exec (.cohortComplete index) s = .next t ∧ t.mem = s.mem ∧ gone t ∧
        t.launch? c.launch = some { l with left := l.left - 1, td := tput l.td c.index td }) ∧
      (∀ (g : Nat) (b : Bin) (n : Node), l.group = some g → l.die = die → s.cohortDone index c = true → c.mode = .first → l.desc.dgm = 0 → l.left = 1 →
        s.bin? die l.node = some b → s.node? die l.node = some n → n.state = 2 → b.ord = false → b.desc.place = 0 →
        ∃ t b', exec (.groupComplete die index) s = .next t ∧ t.mem = s.mem ∧ gone t ∧ t.bin? die l.node = some b' ∧ (∀ h ∈ b'.groups, h.g ≠ g) ∧ tget 0 b'.td g = td) ∧
      (c.pending.isSome = true → c.mode = .first → l.desc.idem = true → ∃ t, exec (.idemReexec index) s = .next t ∧ t.mem = s.mem ∧ gone t ∧
        (t.die l.die).r.dgrexcnt = satInc (s.die l.die).r.dgrexcnt ∧
        ∃ e ∈ (t.die (dieOfCluster c.cluster)).queue, e.launch = c.launch ∧ e.index = c.index ∧ e.again = true) ∧
      (∀ now old, c.pending = some (now, old) → c.mode = .again ∨ (c.mode = .first ∧ l.desc.idem = false) →
        let f := nth 0 c.slots 0 * 4
        ∃ t y, exec (.dgstMmSpawn index) s = .next t ∧ t.mem = s.mem ∧ (t.die l.die).r.dgmmcnt = satInc (s.die l.die).r.dgmmcnt ∧ t.fib? f = some y ∧ y.dgst = true ∧
          y.pos.fib = 0 ∧ (c.tvec0 = 0 → (s.clu (clusterOfFibre f)).drains = [] → y.frozen = true) ∧
          (tget 0 y.regs.s 1 ++ tget 0 y.regs.s 0 : Dword) = now ∧ (tget 0 y.regs.s 3 ++ tget 0 y.regs.s 2 : Dword) = old ∧ tget 0 y.regs.s 4 = BitVec.ofNat 32 c.index)) ∧
    (∀ n : Node, s.node? die index = some n →
      (n.state = 5 → n.left = 0 → exec (.nodeRetire die index) s = .next (s.dropNode die index)) ∧
      (∀ u : State, n.state = 2 → n.err = 0 → n.launch = none → s.nodeDone die index n = true → (wkEdges die n.asid n.va).exec s = (.ok [], s) → s.retireOwed n [] = false →
        (wkRetire s die index n).exec s = (.ok (), u) → exec (.nodeRetire die index) s = .next (u.dropNode die index)) ∧
      (∀ (va0 va1 : Nat) (l0 l1 : List (Nat × Nat)) (b : Block) (addr : List Byte) (w : Nat) (v u : State), n.state = 1 ∨ n.state = 2 → n.launch = none →
        (wkState die n.asid n.va 2 none).exec s = (.ok (), v) → (wkEdges die n.asid n.va).exec v = (.ok [(va0, l0), (va1, l1)], v) →
        (wkBlock die n.asid n.va).exec v = (.ok b, v) → v.retireOwed n [(va0, l0), (va1, l1)] = false →
        (n.kind = 3 → (wkRead die n.asid b.body 8).exec v = (.ok addr, v) → (wkHome die n.asid (leNat addr) 4).exec v = (.ok w, v) → (wkRetire v die index n).exec v = (.ok (), u) →
          exec (.conditionNodeEval die index) s = .next (((((u.dropNode die index).keepEdge die n.asid va0 l0).keepEdge die n.asid va1 l1).decrement die n.asid va0
            (w == 0)).decrement die n.asid va1 (w != 0))) ∧
        (∀ more, n.kind = 4 → b.nsucc = 2 → (wkLoop die n b).exec v = (.ok more, u) →
          (more = true → exec (.loopNodeRun die index) s = .next (((u.dropNode die index).keepEdge die n.asid va0 l0).decrement die n.asid va0 true)) ∧
          (∀ z, more = false → (wkRetire u die index n).exec u = (.ok (), z) →
            exec (.loopNodeRun die index) s = .next (((z.dropNode die index).keepEdge die n.asid va1 l1).decrement die n.asid va1 true))))) ∧
    (∀ (b : Bin) (ring t0 : Nat), s.bin? die index = some b → (b.ring ring).since = some t0 → ring < b.rings.length → b.timer ≠ 0 → b.desc.det = false → b.desc.place = 0 →
      (s.dieNow die < t0 + b.timer → exec (.binTimerExpiry die index ring) s = .next s) ∧
      (t0 + b.timer ≤ s.dieNow die → (b.ring ring).pending ≠ 0 → ∃ t b' g, exec (.binTimerExpiry die index ring) s = .next t ∧ t.mem = s.mem ∧ t.bin? die index = some b' ∧
        g ∈ b'.groups ∧ g.g = b.nextG ∧ g.ring = ring ∧ g.count = (b.ring ring).pending ∧ (b'.ring ring).pending = 0))

/-! ## Pre-emption -/

/-- R392, R431, R435, R438 to R443, R459: traps that wait, the trap timer, requests, forced saves, and what completes them; acts on frozen fibres. -/
def Obligations.PreemptionSteps : Prop :=
  ∀ (s : State) (die f : Nat) (x : Fibre),
    let d := s.die die
    let r := d.r
    (s.fib? f = some x → x.frozen = false → x.pre = .none ∨ x.pre = .requested → x.div.live ≠ 0 →
      (∀ q, x.trap = some q → x.sleep = .awake → s.CanEnter f x → q.entry = none → x.regs.tvec ≠ 0 → ∃ t y, exec (.trapEntry f) s = .next t ∧ s.Entered t f x q x.regs.tvec y) ∧
      (x.trap = none → x.sleep = .awake → x.failure = none → x.settleDue = false → x.mid = none → x.regs.prep = true → s.CanEnter f x → x.regs.tvec ≠ 0 →
        ∃ t y, exec (.preemptTaken f) s = .next t ∧ s.Entered t f x (x.boundary .preempt) x.regs.tvec y) ∧
      (x.regs.inh = false → x.regs.ttimer ≠ 0 → x.count (s.nowOf f) = 0 → x.sleep = .awake →
        exec (.timerExpiry f) s = .next (s.setFib f { x with regs := { x.regs with ttimer := 0, tbase := s.nowOf f, timp := true } })) ∧
      (x.pre = .requested → x.trap = none → x.sleep = .awake → x.mid = none →
        (x.preAt + 20000 ≤ s.nowOf f → ∃ t y, exec (.forcedSave f) s = .next t ∧ t.mem = s.mem ∧ t.fib? f = some y ∧ y.pre = .forced ∧ y.div = x.div ∧ y.regs.v = x.regs.v ∧
          y.regs.s = x.regs.s ∧ y.regs.p = x.regs.p) ∧
        (s.nowOf f < x.preAt + 20000 → exec (.forcedSave f) s = .next s))) ∧
    (∀ (c : BitVec 6) (score tcore : BitVec 2) (sslot : BitVec 5),
      let cl := die * 48 + c.toNat
      let refused := s.setDie die { d with r := { r with preClu := c, preScore := score, preSslot := sslot, preTcore := tcore, preRefused := true } }
      let written := fun (t : State) => let q := (t.die die).r; q.preClu = c ∧ q.preScore = score ∧ q.preSslot = sslot ∧ q.preTcore = tcore ∧ q.preBusy = true
      (r.preBusy = true ∨ s.shut die = true → exec (.prectlSave die ⟨c, score, sslot, tcore⟩) s = .next s ∧ exec (.prectlRestore die ⟨c, score, sslot, tcore⟩) s = .next s ∧
        exec (.prectlMigrate die c score sslot tcore) s = .next s) ∧
      (r.preBusy = false → s.shut die = false →
        (48 ≤ c.toNat → exec (.prectlSave die ⟨c, score, sslot, tcore⟩) s = .next refused) ∧
        (c.toNat < 48 → (∀ e ∈ s.fibres, e.2.sleep = .awake) → ∃ t, exec (.prectlSave die ⟨c, score, sslot, tcore⟩) s = .next t ∧ t.mem = s.mem ∧
          (t.die die).req = .save cl ∧ written t ∧ (t.clu cl).saving = true ∧
          ∀ g y, s.fib? g = some y → clusterOfFibre g = cl → y.frozen = false → y.div.live ≠ 0 →
            t.fib? g = some { y with pre := .requested, preAt := s.nowOf g, regs := { y.regs with prep := true } }) ∧
        (s.imageAt die ≠ none → c.toNat < 48 → (∀ e ∈ s.fibres, clusterOfFibre e.1 ≠ cl) → ∃ t, exec (.prectlRestore die ⟨c, score, sslot, tcore⟩) s = .next t ∧
          t.mem = s.mem ∧ (t.die die).req = .restore cl ∧ written t ∧ (t.clu cl).saving = true) ∧
        (s.imageAt die = none → exec (.prectlRestore die ⟨c, score, sslot, tcore⟩) s = .next refused) ∧
        (∀ b rest e, c.toNat < 48 → (∀ e ∈ s.fibres, e.2.sleep = .awake) →
          let a := (cl * 4 + score.toNat) * 32 + sslot.toNat
          (s.cohortsOn cl).find? (fun e => e.2.slots.contains a) = some e → s.freeSlots (s.descOf e.2.launch) (cl * 4 + tcore.toNat) = b :: rest → s.fibresIn a ≠ [] →
          ∃ t, exec (.prectlMigrate die c score sslot tcore) s = .next t ∧ t.mem = s.mem ∧ (t.die die).req = .migrate cl a b ∧ written t))) ∧
    (∀ cl, d.req = .save cl → s.fibresOn cl = [] → d.wt = [] → (s.clu cl).rings = [] → (s.clu cl).copies = [] → s.reaches die (homeOf r.prearea.toNat) = true → die < 2 →
      cl / 48 = die → ∃ t m, exec (.saveComplete die) s = .next t ∧ (t.die die).req = .none ∧ (t.die die).r.preBusy = false ∧ (t.die die).r.preForced = false ∧
        t.images = m :: s.images ∧ m.home = cl ∧ m.clu.spad = (s.clu cl).spad ∧ m.clu.tiles = (s.clu cl).tiles ∧ m.clu.acc = (s.clu cl).acc ∧
        memBytes t.mem (r.prearea.toNat + 0x162000) 5 = leBytes 2 0x8E5A ++ [BitVec.ofNat 8 die, BitVec.ofNat 8 (cl % 48), r.inc] ∧ (t.clu cl).saving = false) ∧
    (∀ cl m, d.req = .restore cl → s.imageAt die = some m → m.fibres = [] → m.clu.rings = [] → m.clu.conts = [] → m.ended = [] →
      ∃ t, exec (.restoreComplete die) s = .next t ∧ t.mem = s.mem ∧ (t.die die).req = .none ∧ (t.die die).r.preBusy = false ∧ (t.clu cl).spad = m.clu.spad ∧
        (t.clu cl).full = m.clu.full ∧ (t.clu cl).tiles = m.clu.tiles ∧ (t.clu cl).acc = m.clu.acc ∧ (t.clu cl).const = [] ∧ (t.clu cl).saving = false ∧
        t.images = s.images.filter (fun i => i.id != m.id) ∧ ∀ k ∈ coresOf cl, (t.core k).icache = [] ∧ (t.core k).l1 = []) ∧
    (∀ (z : Freeze) (rest : List Freeze), s.shut die = false → d.freeze = z :: rest → d.freezeWait = [] →
      exec (.freezeActPop die) s = .next (s.setDie die { d with freeze := rest }) ∧
      (z.fibre = f → f < 2 ^ 20 → s.fib? f = some x → x.div.ovd = 0 → x.div.j = List.replicate 8 .reset →
        (∃ t y, exec (.freezeActExit die) s = .next t ∧ t.mem = s.mem ∧ t.fib? f = some y ∧ y.frozen = false ∧ y.div.live = 0 ∧ (t.die die).freeze = rest) ∧
        (∀ n, s.node? (s.launchOf x).die (s.launchOf x).node = some n → n.state = 2 →
          ∃ t y, exec (.freezeActAbort die) s = .next t ∧ t.fib? f = some y ∧ y.frozen = false ∧ y.div.live = 0 ∧ (t.die die).freeze = rest ∧
            (t.die (s.launchOf x).die).r.irqstat.getLsbD 4 = true)))
end

