-- ==== Sys2Proof/Laws/Table.lean ====
section
/-! SUPPORT. Laws of the sparse tables: a read after a write, and the canonical form. -/

namespace Sys2Proof.Machine

variable {α : Type}

/-- Every key of a table is above a bound. -/
def tabove (b : Nat) (l : List (Nat × α)) : Prop := ∀ e ∈ l, b < e.1

/-- The keys of a table rise. -/
def trising : List (Nat × α) → Prop
  | [] => True
  | (k, _) :: t => tabove k t ∧ trising t

theorem tsorted_some (b : Nat) (l : List (Nat × α)) : tsorted (some b) l = true ↔ tabove b l ∧ trising l := by
  induction l generalizing b with
  | nil => simp [tsorted, tabove, trising]
  | cons e t ih =>
    obtain ⟨k, v⟩ := e
    simp only [tsorted, Bool.and_eq_true, decide_eq_true_eq, ih, tabove, trising, List.mem_cons, forall_eq_or_imp]
    constructor
    · rintro ⟨h, h1, h2⟩; exact ⟨⟨h, fun e he => Nat.lt_trans h (h1 e he)⟩, h1, h2⟩
    · rintro ⟨⟨h, _⟩, h1, h2⟩; exact ⟨h, h1, h2⟩

theorem tsorted_none (l : List (Nat × α)) : tsorted none l = true ↔ trising l := by
  cases l with
  | nil => simp [tsorted, trising]
  | cons e t => obtain ⟨k, v⟩ := e; simp [tsorted, trising, tsorted_some]

theorem twf_iff [DecidableEq α] (d : α) (l : List (Nat × α)) : twf d l = true ↔ trising l ∧ ∀ e ∈ l, e.2 ≠ d := by
  simp [twf, tsorted_none]

/-! ## Reads after writes -/

theorem tget_tput (d : α) (l : List (Nat × α)) (i j : Nat) (x : α) : tget d (tput l i x) j = if j = i then x else tget d l j := by
  induction l with
  | nil => simp only [tput, tget]
  | cons e t ih => obtain ⟨k, v⟩ := e; simp only [tput]; grind [tget]

@[simp] theorem tget_tput_same (d : α) (l : List (Nat × α)) (i : Nat) (x : α) : tget d (tput l i x) i = x := by simp [tget_tput]

theorem tget_tput_ne (d : α) (l : List (Nat × α)) {i j : Nat} (x : α) (h : j ≠ i) : tget d (tput l i x) j = tget d l j := by simp [tget_tput, h]

theorem tfind_tput (l : List (Nat × α)) (i j : Nat) (x : α) : tfind (tput l i x) j = if j = i then some x else tfind l j := by
  induction l with
  | nil => simp only [tput, tfind]
  | cons e t ih => obtain ⟨k, v⟩ := e; simp only [tput]; grind [tfind]

@[simp] theorem tfind_tput_same (l : List (Nat × α)) (i : Nat) (x : α) : tfind (tput l i x) i = some x := by simp [tfind_tput]

theorem tfind_tput_ne (l : List (Nat × α)) {i j : Nat} (x : α) (h : j ≠ i) : tfind (tput l i x) j = tfind l j := by simp [tfind_tput, h]

theorem tget_tdel (d : α) (l : List (Nat × α)) (i j : Nat) : tget d (tdel l i) j = if j = i then d else tget d l j := by
  induction l with
  | nil => simp [tdel, tget]
  | cons e t ih => obtain ⟨k, v⟩ := e; simp only [tdel]; grind [tget]

theorem tfind_tdel (l : List (Nat × α)) (i j : Nat) : tfind (tdel l i) j = if j = i then none else tfind l j := by
  induction l with
  | nil => simp [tdel, tfind]
  | cons e t ih => obtain ⟨k, v⟩ := e; simp only [tdel]; grind [tfind]

theorem tget_tset [DecidableEq α] (d : α) (l : List (Nat × α)) (i j : Nat) (x : α) : tget d (tset d l i x) j = if j = i then x else tget d l j := by
  unfold tset
  split
  · rename_i hx; subst hx; exact tget_tdel _ _ _ _
  · exact tget_tput d l i j x

@[simp] theorem tget_tset_same [DecidableEq α] (d : α) (l : List (Nat × α)) (i : Nat) (x : α) : tget d (tset d l i x) i = x := by simp [tget_tset]

/-! ## The canonical form is kept -/

theorem tput_mem {l : List (Nat × α)} {i : Nat} {x : α} {e : Nat × α} (h : e ∈ tput l i x) : e = (i, x) ∨ e ∈ l := by
  induction l with
  | nil => simpa [tput] using h
  | cons f t ih =>
    obtain ⟨k, v⟩ := f
    simp only [tput] at h
    split at h
    · simpa using h
    · split at h
      · rcases List.mem_cons.1 h with h | h
        · exact .inl h
        · exact .inr (List.mem_cons_of_mem _ h)
      · rcases List.mem_cons.1 h with h | h
        · exact .inr (by simp [h])
        · rcases ih h with h | h
          · exact .inl h
          · exact .inr (List.mem_cons_of_mem _ h)

theorem tdel_mem {l : List (Nat × α)} {i : Nat} {e : Nat × α} (h : e ∈ tdel l i) : e ∈ l := by
  induction l with
  | nil => simp [tdel] at h
  | cons f t ih =>
    obtain ⟨k, v⟩ := f
    simp only [tdel] at h
    split at h
    · exact List.mem_cons_of_mem _ (ih h)
    · rcases List.mem_cons.1 h with h | h
      · simp [h]
      · exact List.mem_cons_of_mem _ (ih h)

theorem tput_rising {l : List (Nat × α)} (i : Nat) (x : α) (h : trising l) : trising (tput l i x) := by
  induction l with
  | nil => simp [tput, trising, tabove]
  | cons f t ih =>
    obtain ⟨k, v⟩ := f
    obtain ⟨ha, hr⟩ := h
    simp only [tput]
    split
    · rename_i hlt
      refine ⟨?_, ha, hr⟩
      intro e he
      rcases List.mem_cons.1 he with he | he
      · simpa [he] using hlt
      · exact Nat.lt_trans hlt (ha e he)
    · split
      · rename_i _ he; subst he; exact ⟨ha, hr⟩
      · refine ⟨?_, ih hr⟩
        intro e he
        rcases tput_mem he with he | he
        · simp only [he]; omega
        · exact ha e he

theorem tdel_rising {l : List (Nat × α)} (i : Nat) (h : trising l) : trising (tdel l i) := by
  induction l with
  | nil => simp [tdel, trising]
  | cons f t ih =>
    obtain ⟨k, v⟩ := f
    obtain ⟨ha, hr⟩ := h
    simp only [tdel]
    split
    · exact ih hr
    · exact ⟨fun e he => ha e (tdel_mem he), ih hr⟩

theorem tset_rising [DecidableEq α] (d : α) {l : List (Nat × α)} (i : Nat) (x : α) (h : trising l) : trising (tset d l i x) := by
  unfold tset; split
  · exact tdel_rising i h
  · exact tput_rising i x h

/-- A write keeps the canonical form. -/
theorem twf_tset [DecidableEq α] (d : α) {l : List (Nat × α)} (i : Nat) (x : α) (h : twf d l = true) : twf d (tset d l i x) = true := by
  rw [twf_iff] at h ⊢
  refine ⟨tset_rising d i x h.1, fun e he => ?_⟩
  unfold tset at he
  split at he
  · exact h.2 e (tdel_mem he)
  · rcases tput_mem he with he | he
    · subst he; assumption
    · exact h.2 e he

end Sys2Proof.Machine
end

