-- ==== Sys2Proof/Laws/State.lean ====
section
/-! SUPPORT. What each update of a part of the state leaves unchanged, and what a part reads as after it was replaced. -/

namespace Sys2Proof.Machine

variable (s : State)

/-! ### setDie -/

@[simp] theorem setDie_tick (d : Nat) (x : Die) : (s.setDie d x).tick = s.tick := rfl
@[simp] theorem setDie_epoch (d : Nat) (x : Die) : (s.setDie d x).epoch = s.epoch := rfl
@[simp] theorem setDie_free (d : Nat) (x : Die) : (s.setDie d x).free = s.free := rfl
@[simp] theorem setDie_agenda (d : Nat) (x : Die) : (s.setDie d x).agenda = s.agenda := rfl
@[simp] theorem setDie_iss (d : Nat) (x : Die) : (s.setDie d x).iss = s.iss := rfl
@[simp] theorem setDie_half (d : Nat) (x : Die) : (s.setDie d x).half = s.half := rfl
@[simp] theorem setDie_mem (d : Nat) (x : Die) : (s.setDie d x).mem = s.mem := rfl
@[simp] theorem setDie_memBad (d : Nat) (x : Die) : (s.setDie d x).memBad = s.memBad := rfl
@[simp] theorem setDie_memCe (d : Nat) (x : Die) : (s.setDie d x).memCe = s.memCe := rfl
@[simp] theorem setDie_clusters (d : Nat) (x : Die) : (s.setDie d x).clusters = s.clusters := rfl
@[simp] theorem setDie_cores (d : Nat) (x : Die) : (s.setDie d x).cores = s.cores := rfl
@[simp] theorem setDie_lanes (d : Nat) (x : Die) : (s.setDie d x).lanes = s.lanes := rfl
@[simp] theorem setDie_slots (d : Nat) (x : Die) : (s.setDie d x).slots = s.slots := rfl
@[simp] theorem setDie_fibres (d : Nat) (x : Die) : (s.setDie d x).fibres = s.fibres := rfl
@[simp] theorem setDie_launches (d : Nat) (x : Die) : (s.setDie d x).launches = s.launches := rfl
@[simp] theorem setDie_cohorts (d : Nat) (x : Die) : (s.setDie d x).cohorts = s.cohorts := rfl
@[simp] theorem setDie_images (d : Nat) (x : Die) : (s.setDie d x).images = s.images := rfl
@[simp] theorem setDie_nextId (d : Nat) (x : Die) : (s.setDie d x).nextId = s.nextId := rfl
@[simp] theorem setDie_clu (d : Nat) (x : Die) (i : Nat) : (s.setDie d x).clu i = s.clu i := rfl
@[simp] theorem setDie_core (d : Nat) (x : Die) (i : Nat) : (s.setDie d x).core i = s.core i := rfl
@[simp] theorem setDie_lane (d : Nat) (x : Die) (i : Nat) : (s.setDie d x).lane i = s.lane i := rfl
@[simp] theorem setDie_slot (d : Nat) (x : Die) (i : Nat) : (s.setDie d x).slot i = s.slot i := rfl
@[simp] theorem setDie_fib (d : Nat) (x : Die) (i : Nat) : (s.setDie d x).fib? i = s.fib? i := rfl
@[simp] theorem setDie_launch (d : Nat) (x : Die) (i : Nat) : (s.setDie d x).launch? i = s.launch? i := rfl
@[simp] theorem setDie_cohort (d : Nat) (x : Die) (i : Nat) : (s.setDie d x).cohort? i = s.cohort? i := rfl

/-! ### modDie -/

@[simp] theorem modDie_tick (d : Nat) (g : Die → Die) : (s.modDie d g).tick = s.tick := rfl
@[simp] theorem modDie_epoch (d : Nat) (g : Die → Die) : (s.modDie d g).epoch = s.epoch := rfl
@[simp] theorem modDie_free (d : Nat) (g : Die → Die) : (s.modDie d g).free = s.free := rfl
@[simp] theorem modDie_agenda (d : Nat) (g : Die → Die) : (s.modDie d g).agenda = s.agenda := rfl
@[simp] theorem modDie_iss (d : Nat) (g : Die → Die) : (s.modDie d g).iss = s.iss := rfl
@[simp] theorem modDie_half (d : Nat) (g : Die → Die) : (s.modDie d g).half = s.half := rfl
@[simp] theorem modDie_mem (d : Nat) (g : Die → Die) : (s.modDie d g).mem = s.mem := rfl
@[simp] theorem modDie_memBad (d : Nat) (g : Die → Die) : (s.modDie d g).memBad = s.memBad := rfl
@[simp] theorem modDie_memCe (d : Nat) (g : Die → Die) : (s.modDie d g).memCe = s.memCe := rfl
@[simp] theorem modDie_clusters (d : Nat) (g : Die → Die) : (s.modDie d g).clusters = s.clusters := rfl
@[simp] theorem modDie_cores (d : Nat) (g : Die → Die) : (s.modDie d g).cores = s.cores := rfl
@[simp] theorem modDie_lanes (d : Nat) (g : Die → Die) : (s.modDie d g).lanes = s.lanes := rfl
@[simp] theorem modDie_slots (d : Nat) (g : Die → Die) : (s.modDie d g).slots = s.slots := rfl
@[simp] theorem modDie_fibres (d : Nat) (g : Die → Die) : (s.modDie d g).fibres = s.fibres := rfl
@[simp] theorem modDie_launches (d : Nat) (g : Die → Die) : (s.modDie d g).launches = s.launches := rfl
@[simp] theorem modDie_cohorts (d : Nat) (g : Die → Die) : (s.modDie d g).cohorts = s.cohorts := rfl
@[simp] theorem modDie_images (d : Nat) (g : Die → Die) : (s.modDie d g).images = s.images := rfl
@[simp] theorem modDie_nextId (d : Nat) (g : Die → Die) : (s.modDie d g).nextId = s.nextId := rfl
@[simp] theorem modDie_clu (d : Nat) (g : Die → Die) (i : Nat) : (s.modDie d g).clu i = s.clu i := rfl
@[simp] theorem modDie_core (d : Nat) (g : Die → Die) (i : Nat) : (s.modDie d g).core i = s.core i := rfl
@[simp] theorem modDie_lane (d : Nat) (g : Die → Die) (i : Nat) : (s.modDie d g).lane i = s.lane i := rfl
@[simp] theorem modDie_slot (d : Nat) (g : Die → Die) (i : Nat) : (s.modDie d g).slot i = s.slot i := rfl
@[simp] theorem modDie_fib (d : Nat) (g : Die → Die) (i : Nat) : (s.modDie d g).fib? i = s.fib? i := rfl
@[simp] theorem modDie_launch (d : Nat) (g : Die → Die) (i : Nat) : (s.modDie d g).launch? i = s.launch? i := rfl
@[simp] theorem modDie_cohort (d : Nat) (g : Die → Die) (i : Nat) : (s.modDie d g).cohort? i = s.cohort? i := rfl

/-! ### modDieRegs -/

@[simp] theorem modDieRegs_tick (d : Nat) (g : DieRegs → DieRegs) : (s.modDieRegs d g).tick = s.tick := rfl
@[simp] theorem modDieRegs_epoch (d : Nat) (g : DieRegs → DieRegs) : (s.modDieRegs d g).epoch = s.epoch := rfl
@[simp] theorem modDieRegs_free (d : Nat) (g : DieRegs → DieRegs) : (s.modDieRegs d g).free = s.free := rfl
@[simp] theorem modDieRegs_agenda (d : Nat) (g : DieRegs → DieRegs) : (s.modDieRegs d g).agenda = s.agenda := rfl
@[simp] theorem modDieRegs_iss (d : Nat) (g : DieRegs → DieRegs) : (s.modDieRegs d g).iss = s.iss := rfl
@[simp] theorem modDieRegs_half (d : Nat) (g : DieRegs → DieRegs) : (s.modDieRegs d g).half = s.half := rfl
@[simp] theorem modDieRegs_mem (d : Nat) (g : DieRegs → DieRegs) : (s.modDieRegs d g).mem = s.mem := rfl
@[simp] theorem modDieRegs_memBad (d : Nat) (g : DieRegs → DieRegs) : (s.modDieRegs d g).memBad = s.memBad := rfl
@[simp] theorem modDieRegs_memCe (d : Nat) (g : DieRegs → DieRegs) : (s.modDieRegs d g).memCe = s.memCe := rfl
@[simp] theorem modDieRegs_clusters (d : Nat) (g : DieRegs → DieRegs) : (s.modDieRegs d g).clusters = s.clusters := rfl
@[simp] theorem modDieRegs_cores (d : Nat) (g : DieRegs → DieRegs) : (s.modDieRegs d g).cores = s.cores := rfl
@[simp] theorem modDieRegs_lanes (d : Nat) (g : DieRegs → DieRegs) : (s.modDieRegs d g).lanes = s.lanes := rfl
@[simp] theorem modDieRegs_slots (d : Nat) (g : DieRegs → DieRegs) : (s.modDieRegs d g).slots = s.slots := rfl
@[simp] theorem modDieRegs_fibres (d : Nat) (g : DieRegs → DieRegs) : (s.modDieRegs d g).fibres = s.fibres := rfl
@[simp] theorem modDieRegs_launches (d : Nat) (g : DieRegs → DieRegs) : (s.modDieRegs d g).launches = s.launches := rfl
@[simp] theorem modDieRegs_cohorts (d : Nat) (g : DieRegs → DieRegs) : (s.modDieRegs d g).cohorts = s.cohorts := rfl
@[simp] theorem modDieRegs_images (d : Nat) (g : DieRegs → DieRegs) : (s.modDieRegs d g).images = s.images := rfl
@[simp] theorem modDieRegs_nextId (d : Nat) (g : DieRegs → DieRegs) : (s.modDieRegs d g).nextId = s.nextId := rfl
@[simp] theorem modDieRegs_clu (d : Nat) (g : DieRegs → DieRegs) (i : Nat) : (s.modDieRegs d g).clu i = s.clu i := rfl
@[simp] theorem modDieRegs_core (d : Nat) (g : DieRegs → DieRegs) (i : Nat) : (s.modDieRegs d g).core i = s.core i := rfl
@[simp] theorem modDieRegs_lane (d : Nat) (g : DieRegs → DieRegs) (i : Nat) : (s.modDieRegs d g).lane i = s.lane i := rfl
@[simp] theorem modDieRegs_slot (d : Nat) (g : DieRegs → DieRegs) (i : Nat) : (s.modDieRegs d g).slot i = s.slot i := rfl
@[simp] theorem modDieRegs_fib (d : Nat) (g : DieRegs → DieRegs) (i : Nat) : (s.modDieRegs d g).fib? i = s.fib? i := rfl
@[simp] theorem modDieRegs_launch (d : Nat) (g : DieRegs → DieRegs) (i : Nat) : (s.modDieRegs d g).launch? i = s.launch? i := rfl
@[simp] theorem modDieRegs_cohort (d : Nat) (g : DieRegs → DieRegs) (i : Nat) : (s.modDieRegs d g).cohort? i = s.cohort? i := rfl

/-! ### setClu -/

@[simp] theorem setClu_tick (c : Nat) (x : Cluster) : (s.setClu c x).tick = s.tick := rfl
@[simp] theorem setClu_epoch (c : Nat) (x : Cluster) : (s.setClu c x).epoch = s.epoch := rfl
@[simp] theorem setClu_free (c : Nat) (x : Cluster) : (s.setClu c x).free = s.free := rfl
@[simp] theorem setClu_agenda (c : Nat) (x : Cluster) : (s.setClu c x).agenda = s.agenda := rfl
@[simp] theorem setClu_iss (c : Nat) (x : Cluster) : (s.setClu c x).iss = s.iss := rfl
@[simp] theorem setClu_half (c : Nat) (x : Cluster) : (s.setClu c x).half = s.half := rfl
@[simp] theorem setClu_mem (c : Nat) (x : Cluster) : (s.setClu c x).mem = s.mem := rfl
@[simp] theorem setClu_memBad (c : Nat) (x : Cluster) : (s.setClu c x).memBad = s.memBad := rfl
@[simp] theorem setClu_memCe (c : Nat) (x : Cluster) : (s.setClu c x).memCe = s.memCe := rfl
@[simp] theorem setClu_dies (c : Nat) (x : Cluster) : (s.setClu c x).dies = s.dies := rfl
@[simp] theorem setClu_cores (c : Nat) (x : Cluster) : (s.setClu c x).cores = s.cores := rfl
@[simp] theorem setClu_lanes (c : Nat) (x : Cluster) : (s.setClu c x).lanes = s.lanes := rfl
@[simp] theorem setClu_slots (c : Nat) (x : Cluster) : (s.setClu c x).slots = s.slots := rfl
@[simp] theorem setClu_fibres (c : Nat) (x : Cluster) : (s.setClu c x).fibres = s.fibres := rfl
@[simp] theorem setClu_launches (c : Nat) (x : Cluster) : (s.setClu c x).launches = s.launches := rfl
@[simp] theorem setClu_cohorts (c : Nat) (x : Cluster) : (s.setClu c x).cohorts = s.cohorts := rfl
@[simp] theorem setClu_images (c : Nat) (x : Cluster) : (s.setClu c x).images = s.images := rfl
@[simp] theorem setClu_nextId (c : Nat) (x : Cluster) : (s.setClu c x).nextId = s.nextId := rfl
@[simp] theorem setClu_die (c : Nat) (x : Cluster) (i : Nat) : (s.setClu c x).die i = s.die i := rfl
@[simp] theorem setClu_core (c : Nat) (x : Cluster) (i : Nat) : (s.setClu c x).core i = s.core i := rfl
@[simp] theorem setClu_lane (c : Nat) (x : Cluster) (i : Nat) : (s.setClu c x).lane i = s.lane i := rfl
@[simp] theorem setClu_slot (c : Nat) (x : Cluster) (i : Nat) : (s.setClu c x).slot i = s.slot i := rfl
@[simp] theorem setClu_fib (c : Nat) (x : Cluster) (i : Nat) : (s.setClu c x).fib? i = s.fib? i := rfl
@[simp] theorem setClu_launch (c : Nat) (x : Cluster) (i : Nat) : (s.setClu c x).launch? i = s.launch? i := rfl
@[simp] theorem setClu_cohort (c : Nat) (x : Cluster) (i : Nat) : (s.setClu c x).cohort? i = s.cohort? i := rfl

/-! ### modClu -/

@[simp] theorem modClu_tick (c : Nat) (g : Cluster → Cluster) : (s.modClu c g).tick = s.tick := rfl
@[simp] theorem modClu_epoch (c : Nat) (g : Cluster → Cluster) : (s.modClu c g).epoch = s.epoch := rfl
@[simp] theorem modClu_free (c : Nat) (g : Cluster → Cluster) : (s.modClu c g).free = s.free := rfl
@[simp] theorem modClu_agenda (c : Nat) (g : Cluster → Cluster) : (s.modClu c g).agenda = s.agenda := rfl
@[simp] theorem modClu_iss (c : Nat) (g : Cluster → Cluster) : (s.modClu c g).iss = s.iss := rfl
@[simp] theorem modClu_half (c : Nat) (g : Cluster → Cluster) : (s.modClu c g).half = s.half := rfl
@[simp] theorem modClu_mem (c : Nat) (g : Cluster → Cluster) : (s.modClu c g).mem = s.mem := rfl
@[simp] theorem modClu_memBad (c : Nat) (g : Cluster → Cluster) : (s.modClu c g).memBad = s.memBad := rfl
@[simp] theorem modClu_memCe (c : Nat) (g : Cluster → Cluster) : (s.modClu c g).memCe = s.memCe := rfl
@[simp] theorem modClu_dies (c : Nat) (g : Cluster → Cluster) : (s.modClu c g).dies = s.dies := rfl
@[simp] theorem modClu_cores (c : Nat) (g : Cluster → Cluster) : (s.modClu c g).cores = s.cores := rfl
@[simp] theorem modClu_lanes (c : Nat) (g : Cluster → Cluster) : (s.modClu c g).lanes = s.lanes := rfl
@[simp] theorem modClu_slots (c : Nat) (g : Cluster → Cluster) : (s.modClu c g).slots = s.slots := rfl
@[simp] theorem modClu_fibres (c : Nat) (g : Cluster → Cluster) : (s.modClu c g).fibres = s.fibres := rfl
@[simp] theorem modClu_launches (c : Nat) (g : Cluster → Cluster) : (s.modClu c g).launches = s.launches := rfl
@[simp] theorem modClu_cohorts (c : Nat) (g : Cluster → Cluster) : (s.modClu c g).cohorts = s.cohorts := rfl
@[simp] theorem modClu_images (c : Nat) (g : Cluster → Cluster) : (s.modClu c g).images = s.images := rfl
@[simp] theorem modClu_nextId (c : Nat) (g : Cluster → Cluster) : (s.modClu c g).nextId = s.nextId := rfl
@[simp] theorem modClu_die (c : Nat) (g : Cluster → Cluster) (i : Nat) : (s.modClu c g).die i = s.die i := rfl
@[simp] theorem modClu_core (c : Nat) (g : Cluster → Cluster) (i : Nat) : (s.modClu c g).core i = s.core i := rfl
@[simp] theorem modClu_lane (c : Nat) (g : Cluster → Cluster) (i : Nat) : (s.modClu c g).lane i = s.lane i := rfl
@[simp] theorem modClu_slot (c : Nat) (g : Cluster → Cluster) (i : Nat) : (s.modClu c g).slot i = s.slot i := rfl
@[simp] theorem modClu_fib (c : Nat) (g : Cluster → Cluster) (i : Nat) : (s.modClu c g).fib? i = s.fib? i := rfl
@[simp] theorem modClu_launch (c : Nat) (g : Cluster → Cluster) (i : Nat) : (s.modClu c g).launch? i = s.launch? i := rfl
@[simp] theorem modClu_cohort (c : Nat) (g : Cluster → Cluster) (i : Nat) : (s.modClu c g).cohort? i = s.cohort? i := rfl

/-! ### setCore -/

@[simp] theorem setCore_tick (c : Nat) (x : Core) : (s.setCore c x).tick = s.tick := rfl
@[simp] theorem setCore_epoch (c : Nat) (x : Core) : (s.setCore c x).epoch = s.epoch := rfl
@[simp] theorem setCore_free (c : Nat) (x : Core) : (s.setCore c x).free = s.free := rfl
@[simp] theorem setCore_agenda (c : Nat) (x : Core) : (s.setCore c x).agenda = s.agenda := rfl
@[simp] theorem setCore_iss (c : Nat) (x : Core) : (s.setCore c x).iss = s.iss := rfl
@[simp] theorem setCore_half (c : Nat) (x : Core) : (s.setCore c x).half = s.half := rfl
@[simp] theorem setCore_mem (c : Nat) (x : Core) : (s.setCore c x).mem = s.mem := rfl
@[simp] theorem setCore_memBad (c : Nat) (x : Core) : (s.setCore c x).memBad = s.memBad := rfl
@[simp] theorem setCore_memCe (c : Nat) (x : Core) : (s.setCore c x).memCe = s.memCe := rfl
@[simp] theorem setCore_dies (c : Nat) (x : Core) : (s.setCore c x).dies = s.dies := rfl
@[simp] theorem setCore_clusters (c : Nat) (x : Core) : (s.setCore c x).clusters = s.clusters := rfl
@[simp] theorem setCore_lanes (c : Nat) (x : Core) : (s.setCore c x).lanes = s.lanes := rfl
@[simp] theorem setCore_slots (c : Nat) (x : Core) : (s.setCore c x).slots = s.slots := rfl
@[simp] theorem setCore_fibres (c : Nat) (x : Core) : (s.setCore c x).fibres = s.fibres := rfl
@[simp] theorem setCore_launches (c : Nat) (x : Core) : (s.setCore c x).launches = s.launches := rfl
@[simp] theorem setCore_cohorts (c : Nat) (x : Core) : (s.setCore c x).cohorts = s.cohorts := rfl
@[simp] theorem setCore_images (c : Nat) (x : Core) : (s.setCore c x).images = s.images := rfl
@[simp] theorem setCore_nextId (c : Nat) (x : Core) : (s.setCore c x).nextId = s.nextId := rfl
@[simp] theorem setCore_die (c : Nat) (x : Core) (i : Nat) : (s.setCore c x).die i = s.die i := rfl
@[simp] theorem setCore_clu (c : Nat) (x : Core) (i : Nat) : (s.setCore c x).clu i = s.clu i := rfl
@[simp] theorem setCore_lane (c : Nat) (x : Core) (i : Nat) : (s.setCore c x).lane i = s.lane i := rfl
@[simp] theorem setCore_slot (c : Nat) (x : Core) (i : Nat) : (s.setCore c x).slot i = s.slot i := rfl
@[simp] theorem setCore_fib (c : Nat) (x : Core) (i : Nat) : (s.setCore c x).fib? i = s.fib? i := rfl
@[simp] theorem setCore_launch (c : Nat) (x : Core) (i : Nat) : (s.setCore c x).launch? i = s.launch? i := rfl
@[simp] theorem setCore_cohort (c : Nat) (x : Core) (i : Nat) : (s.setCore c x).cohort? i = s.cohort? i := rfl

/-! ### modCore -/

@[simp] theorem modCore_tick (c : Nat) (g : Core → Core) : (s.modCore c g).tick = s.tick := rfl
@[simp] theorem modCore_epoch (c : Nat) (g : Core → Core) : (s.modCore c g).epoch = s.epoch := rfl
@[simp] theorem modCore_free (c : Nat) (g : Core → Core) : (s.modCore c g).free = s.free := rfl
@[simp] theorem modCore_agenda (c : Nat) (g : Core → Core) : (s.modCore c g).agenda = s.agenda := rfl
@[simp] theorem modCore_iss (c : Nat) (g : Core → Core) : (s.modCore c g).iss = s.iss := rfl
@[simp] theorem modCore_half (c : Nat) (g : Core → Core) : (s.modCore c g).half = s.half := rfl
@[simp] theorem modCore_mem (c : Nat) (g : Core → Core) : (s.modCore c g).mem = s.mem := rfl
@[simp] theorem modCore_memBad (c : Nat) (g : Core → Core) : (s.modCore c g).memBad = s.memBad := rfl
@[simp] theorem modCore_memCe (c : Nat) (g : Core → Core) : (s.modCore c g).memCe = s.memCe := rfl
@[simp] theorem modCore_dies (c : Nat) (g : Core → Core) : (s.modCore c g).dies = s.dies := rfl
@[simp] theorem modCore_clusters (c : Nat) (g : Core → Core) : (s.modCore c g).clusters = s.clusters := rfl
@[simp] theorem modCore_lanes (c : Nat) (g : Core → Core) : (s.modCore c g).lanes = s.lanes := rfl
@[simp] theorem modCore_slots (c : Nat) (g : Core → Core) : (s.modCore c g).slots = s.slots := rfl
@[simp] theorem modCore_fibres (c : Nat) (g : Core → Core) : (s.modCore c g).fibres = s.fibres := rfl
@[simp] theorem modCore_launches (c : Nat) (g : Core → Core) : (s.modCore c g).launches = s.launches := rfl
@[simp] theorem modCore_cohorts (c : Nat) (g : Core → Core) : (s.modCore c g).cohorts = s.cohorts := rfl
@[simp] theorem modCore_images (c : Nat) (g : Core → Core) : (s.modCore c g).images = s.images := rfl
@[simp] theorem modCore_nextId (c : Nat) (g : Core → Core) : (s.modCore c g).nextId = s.nextId := rfl
@[simp] theorem modCore_die (c : Nat) (g : Core → Core) (i : Nat) : (s.modCore c g).die i = s.die i := rfl
@[simp] theorem modCore_clu (c : Nat) (g : Core → Core) (i : Nat) : (s.modCore c g).clu i = s.clu i := rfl
@[simp] theorem modCore_lane (c : Nat) (g : Core → Core) (i : Nat) : (s.modCore c g).lane i = s.lane i := rfl
@[simp] theorem modCore_slot (c : Nat) (g : Core → Core) (i : Nat) : (s.modCore c g).slot i = s.slot i := rfl
@[simp] theorem modCore_fib (c : Nat) (g : Core → Core) (i : Nat) : (s.modCore c g).fib? i = s.fib? i := rfl
@[simp] theorem modCore_launch (c : Nat) (g : Core → Core) (i : Nat) : (s.modCore c g).launch? i = s.launch? i := rfl
@[simp] theorem modCore_cohort (c : Nat) (g : Core → Core) (i : Nat) : (s.modCore c g).cohort? i = s.cohort? i := rfl

/-! ### setLane -/

@[simp] theorem setLane_tick (l : Nat) (x : Lane) : (s.setLane l x).tick = s.tick := rfl
@[simp] theorem setLane_epoch (l : Nat) (x : Lane) : (s.setLane l x).epoch = s.epoch := rfl
@[simp] theorem setLane_free (l : Nat) (x : Lane) : (s.setLane l x).free = s.free := rfl
@[simp] theorem setLane_agenda (l : Nat) (x : Lane) : (s.setLane l x).agenda = s.agenda := rfl
@[simp] theorem setLane_iss (l : Nat) (x : Lane) : (s.setLane l x).iss = s.iss := rfl
@[simp] theorem setLane_half (l : Nat) (x : Lane) : (s.setLane l x).half = s.half := rfl
@[simp] theorem setLane_mem (l : Nat) (x : Lane) : (s.setLane l x).mem = s.mem := rfl
@[simp] theorem setLane_memBad (l : Nat) (x : Lane) : (s.setLane l x).memBad = s.memBad := rfl
@[simp] theorem setLane_memCe (l : Nat) (x : Lane) : (s.setLane l x).memCe = s.memCe := rfl
@[simp] theorem setLane_dies (l : Nat) (x : Lane) : (s.setLane l x).dies = s.dies := rfl
@[simp] theorem setLane_clusters (l : Nat) (x : Lane) : (s.setLane l x).clusters = s.clusters := rfl
@[simp] theorem setLane_cores (l : Nat) (x : Lane) : (s.setLane l x).cores = s.cores := rfl
@[simp] theorem setLane_slots (l : Nat) (x : Lane) : (s.setLane l x).slots = s.slots := rfl
@[simp] theorem setLane_fibres (l : Nat) (x : Lane) : (s.setLane l x).fibres = s.fibres := rfl
@[simp] theorem setLane_launches (l : Nat) (x : Lane) : (s.setLane l x).launches = s.launches := rfl
@[simp] theorem setLane_cohorts (l : Nat) (x : Lane) : (s.setLane l x).cohorts = s.cohorts := rfl
@[simp] theorem setLane_images (l : Nat) (x : Lane) : (s.setLane l x).images = s.images := rfl
@[simp] theorem setLane_nextId (l : Nat) (x : Lane) : (s.setLane l x).nextId = s.nextId := rfl
@[simp] theorem setLane_die (l : Nat) (x : Lane) (i : Nat) : (s.setLane l x).die i = s.die i := rfl
@[simp] theorem setLane_clu (l : Nat) (x : Lane) (i : Nat) : (s.setLane l x).clu i = s.clu i := rfl
@[simp] theorem setLane_core (l : Nat) (x : Lane) (i : Nat) : (s.setLane l x).core i = s.core i := rfl
@[simp] theorem setLane_slot (l : Nat) (x : Lane) (i : Nat) : (s.setLane l x).slot i = s.slot i := rfl
@[simp] theorem setLane_fib (l : Nat) (x : Lane) (i : Nat) : (s.setLane l x).fib? i = s.fib? i := rfl
@[simp] theorem setLane_launch (l : Nat) (x : Lane) (i : Nat) : (s.setLane l x).launch? i = s.launch? i := rfl
@[simp] theorem setLane_cohort (l : Nat) (x : Lane) (i : Nat) : (s.setLane l x).cohort? i = s.cohort? i := rfl

/-! ### setSlot -/

@[simp] theorem setSlot_tick (k : Nat) (x : Slot) : (s.setSlot k x).tick = s.tick := rfl
@[simp] theorem setSlot_epoch (k : Nat) (x : Slot) : (s.setSlot k x).epoch = s.epoch := rfl
@[simp] theorem setSlot_free (k : Nat) (x : Slot) : (s.setSlot k x).free = s.free := rfl
@[simp] theorem setSlot_agenda (k : Nat) (x : Slot) : (s.setSlot k x).agenda = s.agenda := rfl
@[simp] theorem setSlot_iss (k : Nat) (x : Slot) : (s.setSlot k x).iss = s.iss := rfl
@[simp] theorem setSlot_half (k : Nat) (x : Slot) : (s.setSlot k x).half = s.half := rfl
@[simp] theorem setSlot_mem (k : Nat) (x : Slot) : (s.setSlot k x).mem = s.mem := rfl
@[simp] theorem setSlot_memBad (k : Nat) (x : Slot) : (s.setSlot k x).memBad = s.memBad := rfl
@[simp] theorem setSlot_memCe (k : Nat) (x : Slot) : (s.setSlot k x).memCe = s.memCe := rfl
@[simp] theorem setSlot_dies (k : Nat) (x : Slot) : (s.setSlot k x).dies = s.dies := rfl
@[simp] theorem setSlot_clusters (k : Nat) (x : Slot) : (s.setSlot k x).clusters = s.clusters := rfl
@[simp] theorem setSlot_cores (k : Nat) (x : Slot) : (s.setSlot k x).cores = s.cores := rfl
@[simp] theorem setSlot_lanes (k : Nat) (x : Slot) : (s.setSlot k x).lanes = s.lanes := rfl
@[simp] theorem setSlot_fibres (k : Nat) (x : Slot) : (s.setSlot k x).fibres = s.fibres := rfl
@[simp] theorem setSlot_launches (k : Nat) (x : Slot) : (s.setSlot k x).launches = s.launches := rfl
@[simp] theorem setSlot_cohorts (k : Nat) (x : Slot) : (s.setSlot k x).cohorts = s.cohorts := rfl
@[simp] theorem setSlot_images (k : Nat) (x : Slot) : (s.setSlot k x).images = s.images := rfl
@[simp] theorem setSlot_nextId (k : Nat) (x : Slot) : (s.setSlot k x).nextId = s.nextId := rfl
@[simp] theorem setSlot_die (k : Nat) (x : Slot) (i : Nat) : (s.setSlot k x).die i = s.die i := rfl
@[simp] theorem setSlot_clu (k : Nat) (x : Slot) (i : Nat) : (s.setSlot k x).clu i = s.clu i := rfl
@[simp] theorem setSlot_core (k : Nat) (x : Slot) (i : Nat) : (s.setSlot k x).core i = s.core i := rfl
@[simp] theorem setSlot_lane (k : Nat) (x : Slot) (i : Nat) : (s.setSlot k x).lane i = s.lane i := rfl
@[simp] theorem setSlot_fib (k : Nat) (x : Slot) (i : Nat) : (s.setSlot k x).fib? i = s.fib? i := rfl
@[simp] theorem setSlot_launch (k : Nat) (x : Slot) (i : Nat) : (s.setSlot k x).launch? i = s.launch? i := rfl
@[simp] theorem setSlot_cohort (k : Nat) (x : Slot) (i : Nat) : (s.setSlot k x).cohort? i = s.cohort? i := rfl

/-! ### setFib -/

@[simp] theorem setFib_tick (f : Nat) (x : Fibre) : (s.setFib f x).tick = s.tick := rfl
@[simp] theorem setFib_epoch (f : Nat) (x : Fibre) : (s.setFib f x).epoch = s.epoch := rfl
@[simp] theorem setFib_free (f : Nat) (x : Fibre) : (s.setFib f x).free = s.free := rfl
@[simp] theorem setFib_agenda (f : Nat) (x : Fibre) : (s.setFib f x).agenda = s.agenda := rfl
@[simp] theorem setFib_iss (f : Nat) (x : Fibre) : (s.setFib f x).iss = s.iss := rfl
@[simp] theorem setFib_half (f : Nat) (x : Fibre) : (s.setFib f x).half = s.half := rfl
@[simp] theorem setFib_mem (f : Nat) (x : Fibre) : (s.setFib f x).mem = s.mem := rfl
@[simp] theorem setFib_memBad (f : Nat) (x : Fibre) : (s.setFib f x).memBad = s.memBad := rfl
@[simp] theorem setFib_memCe (f : Nat) (x : Fibre) : (s.setFib f x).memCe = s.memCe := rfl
@[simp] theorem setFib_dies (f : Nat) (x : Fibre) : (s.setFib f x).dies = s.dies := rfl
@[simp] theorem setFib_clusters (f : Nat) (x : Fibre) : (s.setFib f x).clusters = s.clusters := rfl
@[simp] theorem setFib_cores (f : Nat) (x : Fibre) : (s.setFib f x).cores = s.cores := rfl
@[simp] theorem setFib_lanes (f : Nat) (x : Fibre) : (s.setFib f x).lanes = s.lanes := rfl
@[simp] theorem setFib_slots (f : Nat) (x : Fibre) : (s.setFib f x).slots = s.slots := rfl
@[simp] theorem setFib_launches (f : Nat) (x : Fibre) : (s.setFib f x).launches = s.launches := rfl
@[simp] theorem setFib_cohorts (f : Nat) (x : Fibre) : (s.setFib f x).cohorts = s.cohorts := rfl
@[simp] theorem setFib_images (f : Nat) (x : Fibre) : (s.setFib f x).images = s.images := rfl
@[simp] theorem setFib_nextId (f : Nat) (x : Fibre) : (s.setFib f x).nextId = s.nextId := rfl
@[simp] theorem setFib_die (f : Nat) (x : Fibre) (i : Nat) : (s.setFib f x).die i = s.die i := rfl
@[simp] theorem setFib_clu (f : Nat) (x : Fibre) (i : Nat) : (s.setFib f x).clu i = s.clu i := rfl
@[simp] theorem setFib_core (f : Nat) (x : Fibre) (i : Nat) : (s.setFib f x).core i = s.core i := rfl
@[simp] theorem setFib_lane (f : Nat) (x : Fibre) (i : Nat) : (s.setFib f x).lane i = s.lane i := rfl
@[simp] theorem setFib_slot (f : Nat) (x : Fibre) (i : Nat) : (s.setFib f x).slot i = s.slot i := rfl
@[simp] theorem setFib_launch (f : Nat) (x : Fibre) (i : Nat) : (s.setFib f x).launch? i = s.launch? i := rfl
@[simp] theorem setFib_cohort (f : Nat) (x : Fibre) (i : Nat) : (s.setFib f x).cohort? i = s.cohort? i := rfl

/-! ### delFib -/

@[simp] theorem delFib_tick (f : Nat) : (s.delFib f).tick = s.tick := rfl
@[simp] theorem delFib_epoch (f : Nat) : (s.delFib f).epoch = s.epoch := rfl
@[simp] theorem delFib_free (f : Nat) : (s.delFib f).free = s.free := rfl
@[simp] theorem delFib_agenda (f : Nat) : (s.delFib f).agenda = s.agenda := rfl
@[simp] theorem delFib_iss (f : Nat) : (s.delFib f).iss = s.iss := rfl
@[simp] theorem delFib_half (f : Nat) : (s.delFib f).half = s.half := rfl
@[simp] theorem delFib_mem (f : Nat) : (s.delFib f).mem = s.mem := rfl
@[simp] theorem delFib_memBad (f : Nat) : (s.delFib f).memBad = s.memBad := rfl
@[simp] theorem delFib_memCe (f : Nat) : (s.delFib f).memCe = s.memCe := rfl
@[simp] theorem delFib_dies (f : Nat) : (s.delFib f).dies = s.dies := rfl
@[simp] theorem delFib_clusters (f : Nat) : (s.delFib f).clusters = s.clusters := rfl
@[simp] theorem delFib_cores (f : Nat) : (s.delFib f).cores = s.cores := rfl
@[simp] theorem delFib_lanes (f : Nat) : (s.delFib f).lanes = s.lanes := rfl
@[simp] theorem delFib_slots (f : Nat) : (s.delFib f).slots = s.slots := rfl
@[simp] theorem delFib_launches (f : Nat) : (s.delFib f).launches = s.launches := rfl
@[simp] theorem delFib_cohorts (f : Nat) : (s.delFib f).cohorts = s.cohorts := rfl
@[simp] theorem delFib_images (f : Nat) : (s.delFib f).images = s.images := rfl
@[simp] theorem delFib_nextId (f : Nat) : (s.delFib f).nextId = s.nextId := rfl
@[simp] theorem delFib_die (f : Nat) (i : Nat) : (s.delFib f).die i = s.die i := rfl
@[simp] theorem delFib_clu (f : Nat) (i : Nat) : (s.delFib f).clu i = s.clu i := rfl
@[simp] theorem delFib_core (f : Nat) (i : Nat) : (s.delFib f).core i = s.core i := rfl
@[simp] theorem delFib_lane (f : Nat) (i : Nat) : (s.delFib f).lane i = s.lane i := rfl
@[simp] theorem delFib_slot (f : Nat) (i : Nat) : (s.delFib f).slot i = s.slot i := rfl
@[simp] theorem delFib_launch (f : Nat) (i : Nat) : (s.delFib f).launch? i = s.launch? i := rfl
@[simp] theorem delFib_cohort (f : Nat) (i : Nat) : (s.delFib f).cohort? i = s.cohort? i := rfl

/-! ### register -/

@[simp] theorem register_tick (d : Nat) (g : Die → Die) : (s.register d g).tick = s.tick := by unfold State.register; split <;> rfl
@[simp] theorem register_epoch (d : Nat) (g : Die → Die) : (s.register d g).epoch = s.epoch := by unfold State.register; split <;> rfl
@[simp] theorem register_free (d : Nat) (g : Die → Die) : (s.register d g).free = s.free := by unfold State.register; split <;> rfl
@[simp] theorem register_agenda (d : Nat) (g : Die → Die) : (s.register d g).agenda = s.agenda := by unfold State.register; split <;> rfl
@[simp] theorem register_iss (d : Nat) (g : Die → Die) : (s.register d g).iss = s.iss := by unfold State.register; split <;> rfl
@[simp] theorem register_half (d : Nat) (g : Die → Die) : (s.register d g).half = s.half := by unfold State.register; split <;> rfl
@[simp] theorem register_mem (d : Nat) (g : Die → Die) : (s.register d g).mem = s.mem := by unfold State.register; split <;> rfl
@[simp] theorem register_memBad (d : Nat) (g : Die → Die) : (s.register d g).memBad = s.memBad := by unfold State.register; split <;> rfl
@[simp] theorem register_memCe (d : Nat) (g : Die → Die) : (s.register d g).memCe = s.memCe := by unfold State.register; split <;> rfl
@[simp] theorem register_clusters (d : Nat) (g : Die → Die) : (s.register d g).clusters = s.clusters := by unfold State.register; split <;> rfl
@[simp] theorem register_cores (d : Nat) (g : Die → Die) : (s.register d g).cores = s.cores := by unfold State.register; split <;> rfl
@[simp] theorem register_lanes (d : Nat) (g : Die → Die) : (s.register d g).lanes = s.lanes := by unfold State.register; split <;> rfl
@[simp] theorem register_slots (d : Nat) (g : Die → Die) : (s.register d g).slots = s.slots := by unfold State.register; split <;> rfl
@[simp] theorem register_fibres (d : Nat) (g : Die → Die) : (s.register d g).fibres = s.fibres := by unfold State.register; split <;> rfl
@[simp] theorem register_launches (d : Nat) (g : Die → Die) : (s.register d g).launches = s.launches := by unfold State.register; split <;> rfl
@[simp] theorem register_cohorts (d : Nat) (g : Die → Die) : (s.register d g).cohorts = s.cohorts := by unfold State.register; split <;> rfl
@[simp] theorem register_images (d : Nat) (g : Die → Die) : (s.register d g).images = s.images := by unfold State.register; split <;> rfl
@[simp] theorem register_nextId (d : Nat) (g : Die → Die) : (s.register d g).nextId = s.nextId := by unfold State.register; split <;> rfl
@[simp] theorem register_clu (d : Nat) (g : Die → Die) (i : Nat) : (s.register d g).clu i = s.clu i := by unfold State.register; split <;> rfl
@[simp] theorem register_core (d : Nat) (g : Die → Die) (i : Nat) : (s.register d g).core i = s.core i := by unfold State.register; split <;> rfl
@[simp] theorem register_lane (d : Nat) (g : Die → Die) (i : Nat) : (s.register d g).lane i = s.lane i := by unfold State.register; split <;> rfl
@[simp] theorem register_slot (d : Nat) (g : Die → Die) (i : Nat) : (s.register d g).slot i = s.slot i := by unfold State.register; split <;> rfl
@[simp] theorem register_fib (d : Nat) (g : Die → Die) (i : Nat) : (s.register d g).fib? i = s.fib? i := by unfold State.register; split <;> rfl
@[simp] theorem register_launch (d : Nat) (g : Die → Die) (i : Nat) : (s.register d g).launch? i = s.launch? i := by unfold State.register; split <;> rfl
@[simp] theorem register_cohort (d : Nat) (g : Die → Die) (i : Nat) : (s.register d g).cohort? i = s.cohort? i := by unfold State.register; split <;> rfl

/-! ### modFib -/

@[simp] theorem modFib_tick (f : Nat) (g : Fibre → Fibre) : (s.modFib f g).tick = s.tick := by unfold State.modFib; split <;> rfl
@[simp] theorem modFib_epoch (f : Nat) (g : Fibre → Fibre) : (s.modFib f g).epoch = s.epoch := by unfold State.modFib; split <;> rfl
@[simp] theorem modFib_free (f : Nat) (g : Fibre → Fibre) : (s.modFib f g).free = s.free := by unfold State.modFib; split <;> rfl
@[simp] theorem modFib_agenda (f : Nat) (g : Fibre → Fibre) : (s.modFib f g).agenda = s.agenda := by unfold State.modFib; split <;> rfl
@[simp] theorem modFib_iss (f : Nat) (g : Fibre → Fibre) : (s.modFib f g).iss = s.iss := by unfold State.modFib; split <;> rfl
@[simp] theorem modFib_half (f : Nat) (g : Fibre → Fibre) : (s.modFib f g).half = s.half := by unfold State.modFib; split <;> rfl
@[simp] theorem modFib_mem (f : Nat) (g : Fibre → Fibre) : (s.modFib f g).mem = s.mem := by unfold State.modFib; split <;> rfl
@[simp] theorem modFib_memBad (f : Nat) (g : Fibre → Fibre) : (s.modFib f g).memBad = s.memBad := by unfold State.modFib; split <;> rfl
@[simp] theorem modFib_memCe (f : Nat) (g : Fibre → Fibre) : (s.modFib f g).memCe = s.memCe := by unfold State.modFib; split <;> rfl
@[simp] theorem modFib_dies (f : Nat) (g : Fibre → Fibre) : (s.modFib f g).dies = s.dies := by unfold State.modFib; split <;> rfl
@[simp] theorem modFib_clusters (f : Nat) (g : Fibre → Fibre) : (s.modFib f g).clusters = s.clusters := by unfold State.modFib; split <;> rfl
@[simp] theorem modFib_cores (f : Nat) (g : Fibre → Fibre) : (s.modFib f g).cores = s.cores := by unfold State.modFib; split <;> rfl
@[simp] theorem modFib_lanes (f : Nat) (g : Fibre → Fibre) : (s.modFib f g).lanes = s.lanes := by unfold State.modFib; split <;> rfl
@[simp] theorem modFib_slots (f : Nat) (g : Fibre → Fibre) : (s.modFib f g).slots = s.slots := by unfold State.modFib; split <;> rfl
@[simp] theorem modFib_launches (f : Nat) (g : Fibre → Fibre) : (s.modFib f g).launches = s.launches := by unfold State.modFib; split <;> rfl
@[simp] theorem modFib_cohorts (f : Nat) (g : Fibre → Fibre) : (s.modFib f g).cohorts = s.cohorts := by unfold State.modFib; split <;> rfl
@[simp] theorem modFib_images (f : Nat) (g : Fibre → Fibre) : (s.modFib f g).images = s.images := by unfold State.modFib; split <;> rfl
@[simp] theorem modFib_nextId (f : Nat) (g : Fibre → Fibre) : (s.modFib f g).nextId = s.nextId := by unfold State.modFib; split <;> rfl
@[simp] theorem modFib_die (f : Nat) (g : Fibre → Fibre) (i : Nat) : (s.modFib f g).die i = s.die i := by unfold State.modFib; split <;> rfl
@[simp] theorem modFib_clu (f : Nat) (g : Fibre → Fibre) (i : Nat) : (s.modFib f g).clu i = s.clu i := by unfold State.modFib; split <;> rfl
@[simp] theorem modFib_core (f : Nat) (g : Fibre → Fibre) (i : Nat) : (s.modFib f g).core i = s.core i := by unfold State.modFib; split <;> rfl
@[simp] theorem modFib_lane (f : Nat) (g : Fibre → Fibre) (i : Nat) : (s.modFib f g).lane i = s.lane i := by unfold State.modFib; split <;> rfl
@[simp] theorem modFib_slot (f : Nat) (g : Fibre → Fibre) (i : Nat) : (s.modFib f g).slot i = s.slot i := by unfold State.modFib; split <;> rfl
@[simp] theorem modFib_launch (f : Nat) (g : Fibre → Fibre) (i : Nat) : (s.modFib f g).launch? i = s.launch? i := by unfold State.modFib; split <;> rfl
@[simp] theorem modFib_cohort (f : Nat) (g : Fibre → Fibre) (i : Nat) : (s.modFib f g).cohort? i = s.cohort? i := by unfold State.modFib; split <;> rfl

/-! ### modLaunch -/

@[simp] theorem modLaunch_tick (l : Nat) (g : Launch → Launch) : (s.modLaunch l g).tick = s.tick := by unfold State.modLaunch; split <;> rfl
@[simp] theorem modLaunch_epoch (l : Nat) (g : Launch → Launch) : (s.modLaunch l g).epoch = s.epoch := by unfold State.modLaunch; split <;> rfl
@[simp] theorem modLaunch_free (l : Nat) (g : Launch → Launch) : (s.modLaunch l g).free = s.free := by unfold State.modLaunch; split <;> rfl
@[simp] theorem modLaunch_agenda (l : Nat) (g : Launch → Launch) : (s.modLaunch l g).agenda = s.agenda := by unfold State.modLaunch; split <;> rfl
@[simp] theorem modLaunch_iss (l : Nat) (g : Launch → Launch) : (s.modLaunch l g).iss = s.iss := by unfold State.modLaunch; split <;> rfl
@[simp] theorem modLaunch_half (l : Nat) (g : Launch → Launch) : (s.modLaunch l g).half = s.half := by unfold State.modLaunch; split <;> rfl
@[simp] theorem modLaunch_mem (l : Nat) (g : Launch → Launch) : (s.modLaunch l g).mem = s.mem := by unfold State.modLaunch; split <;> rfl
@[simp] theorem modLaunch_memBad (l : Nat) (g : Launch → Launch) : (s.modLaunch l g).memBad = s.memBad := by unfold State.modLaunch; split <;> rfl
@[simp] theorem modLaunch_memCe (l : Nat) (g : Launch → Launch) : (s.modLaunch l g).memCe = s.memCe := by unfold State.modLaunch; split <;> rfl
@[simp] theorem modLaunch_dies (l : Nat) (g : Launch → Launch) : (s.modLaunch l g).dies = s.dies := by unfold State.modLaunch; split <;> rfl
@[simp] theorem modLaunch_clusters (l : Nat) (g : Launch → Launch) : (s.modLaunch l g).clusters = s.clusters := by unfold State.modLaunch; split <;> rfl
@[simp] theorem modLaunch_cores (l : Nat) (g : Launch → Launch) : (s.modLaunch l g).cores = s.cores := by unfold State.modLaunch; split <;> rfl
@[simp] theorem modLaunch_lanes (l : Nat) (g : Launch → Launch) : (s.modLaunch l g).lanes = s.lanes := by unfold State.modLaunch; split <;> rfl
@[simp] theorem modLaunch_slots (l : Nat) (g : Launch → Launch) : (s.modLaunch l g).slots = s.slots := by unfold State.modLaunch; split <;> rfl
@[simp] theorem modLaunch_fibres (l : Nat) (g : Launch → Launch) : (s.modLaunch l g).fibres = s.fibres := by unfold State.modLaunch; split <;> rfl
@[simp] theorem modLaunch_cohorts (l : Nat) (g : Launch → Launch) : (s.modLaunch l g).cohorts = s.cohorts := by unfold State.modLaunch; split <;> rfl
@[simp] theorem modLaunch_images (l : Nat) (g : Launch → Launch) : (s.modLaunch l g).images = s.images := by unfold State.modLaunch; split <;> rfl
@[simp] theorem modLaunch_nextId (l : Nat) (g : Launch → Launch) : (s.modLaunch l g).nextId = s.nextId := by unfold State.modLaunch; split <;> rfl
@[simp] theorem modLaunch_die (l : Nat) (g : Launch → Launch) (i : Nat) : (s.modLaunch l g).die i = s.die i := by unfold State.modLaunch; split <;> rfl
@[simp] theorem modLaunch_clu (l : Nat) (g : Launch → Launch) (i : Nat) : (s.modLaunch l g).clu i = s.clu i := by unfold State.modLaunch; split <;> rfl
@[simp] theorem modLaunch_core (l : Nat) (g : Launch → Launch) (i : Nat) : (s.modLaunch l g).core i = s.core i := by unfold State.modLaunch; split <;> rfl
@[simp] theorem modLaunch_lane (l : Nat) (g : Launch → Launch) (i : Nat) : (s.modLaunch l g).lane i = s.lane i := by unfold State.modLaunch; split <;> rfl
@[simp] theorem modLaunch_slot (l : Nat) (g : Launch → Launch) (i : Nat) : (s.modLaunch l g).slot i = s.slot i := by unfold State.modLaunch; split <;> rfl
@[simp] theorem modLaunch_fib (l : Nat) (g : Launch → Launch) (i : Nat) : (s.modLaunch l g).fib? i = s.fib? i := by unfold State.modLaunch; split <;> rfl
@[simp] theorem modLaunch_cohort (l : Nat) (g : Launch → Launch) (i : Nat) : (s.modLaunch l g).cohort? i = s.cohort? i := by unfold State.modLaunch; split <;> rfl

/-! ### modCohort -/

@[simp] theorem modCohort_tick (c : Nat) (g : Cohort → Cohort) : (s.modCohort c g).tick = s.tick := by unfold State.modCohort; split <;> rfl
@[simp] theorem modCohort_epoch (c : Nat) (g : Cohort → Cohort) : (s.modCohort c g).epoch = s.epoch := by unfold State.modCohort; split <;> rfl
@[simp] theorem modCohort_free (c : Nat) (g : Cohort → Cohort) : (s.modCohort c g).free = s.free := by unfold State.modCohort; split <;> rfl
@[simp] theorem modCohort_agenda (c : Nat) (g : Cohort → Cohort) : (s.modCohort c g).agenda = s.agenda := by unfold State.modCohort; split <;> rfl
@[simp] theorem modCohort_iss (c : Nat) (g : Cohort → Cohort) : (s.modCohort c g).iss = s.iss := by unfold State.modCohort; split <;> rfl
@[simp] theorem modCohort_half (c : Nat) (g : Cohort → Cohort) : (s.modCohort c g).half = s.half := by unfold State.modCohort; split <;> rfl
@[simp] theorem modCohort_mem (c : Nat) (g : Cohort → Cohort) : (s.modCohort c g).mem = s.mem := by unfold State.modCohort; split <;> rfl
@[simp] theorem modCohort_memBad (c : Nat) (g : Cohort → Cohort) : (s.modCohort c g).memBad = s.memBad := by unfold State.modCohort; split <;> rfl
@[simp] theorem modCohort_memCe (c : Nat) (g : Cohort → Cohort) : (s.modCohort c g).memCe = s.memCe := by unfold State.modCohort; split <;> rfl
@[simp] theorem modCohort_dies (c : Nat) (g : Cohort → Cohort) : (s.modCohort c g).dies = s.dies := by unfold State.modCohort; split <;> rfl
@[simp] theorem modCohort_clusters (c : Nat) (g : Cohort → Cohort) : (s.modCohort c g).clusters = s.clusters := by unfold State.modCohort; split <;> rfl
@[simp] theorem modCohort_cores (c : Nat) (g : Cohort → Cohort) : (s.modCohort c g).cores = s.cores := by unfold State.modCohort; split <;> rfl
@[simp] theorem modCohort_lanes (c : Nat) (g : Cohort → Cohort) : (s.modCohort c g).lanes = s.lanes := by unfold State.modCohort; split <;> rfl
@[simp] theorem modCohort_slots (c : Nat) (g : Cohort → Cohort) : (s.modCohort c g).slots = s.slots := by unfold State.modCohort; split <;> rfl
@[simp] theorem modCohort_fibres (c : Nat) (g : Cohort → Cohort) : (s.modCohort c g).fibres = s.fibres := by unfold State.modCohort; split <;> rfl
@[simp] theorem modCohort_launches (c : Nat) (g : Cohort → Cohort) : (s.modCohort c g).launches = s.launches := by unfold State.modCohort; split <;> rfl
@[simp] theorem modCohort_images (c : Nat) (g : Cohort → Cohort) : (s.modCohort c g).images = s.images := by unfold State.modCohort; split <;> rfl
@[simp] theorem modCohort_nextId (c : Nat) (g : Cohort → Cohort) : (s.modCohort c g).nextId = s.nextId := by unfold State.modCohort; split <;> rfl
@[simp] theorem modCohort_die (c : Nat) (g : Cohort → Cohort) (i : Nat) : (s.modCohort c g).die i = s.die i := by unfold State.modCohort; split <;> rfl
@[simp] theorem modCohort_clu (c : Nat) (g : Cohort → Cohort) (i : Nat) : (s.modCohort c g).clu i = s.clu i := by unfold State.modCohort; split <;> rfl
@[simp] theorem modCohort_core (c : Nat) (g : Cohort → Cohort) (i : Nat) : (s.modCohort c g).core i = s.core i := by unfold State.modCohort; split <;> rfl
@[simp] theorem modCohort_lane (c : Nat) (g : Cohort → Cohort) (i : Nat) : (s.modCohort c g).lane i = s.lane i := by unfold State.modCohort; split <;> rfl
@[simp] theorem modCohort_slot (c : Nat) (g : Cohort → Cohort) (i : Nat) : (s.modCohort c g).slot i = s.slot i := by unfold State.modCohort; split <;> rfl
@[simp] theorem modCohort_fib (c : Nat) (g : Cohort → Cohort) (i : Nat) : (s.modCohort c g).fib? i = s.fib? i := by unfold State.modCohort; split <;> rfl
@[simp] theorem modCohort_launch (c : Nat) (g : Cohort → Cohort) (i : Nat) : (s.modCohort c g).launch? i = s.launch? i := by unfold State.modCohort; split <;> rfl

/-! ### What a replaced part reads as -/

@[simp] theorem die_setDie_same (d : Nat) (x : Die) : (s.setDie d x).die d = x := by simp [State.die, State.setDie]
theorem die_setDie_ne {d e : Nat} (x : Die) (h : e ≠ d) : (s.setDie d x).die e = s.die e := tget_tput_ne _ _ _ h
@[simp] theorem die_modDie_same (d : Nat) (g : Die → Die) : (s.modDie d g).die d = g (s.die d) := by simp [State.modDie]
theorem die_modDie_ne {d e : Nat} (g : Die → Die) (h : e ≠ d) : (s.modDie d g).die e = s.die e := die_setDie_ne s _ h
@[simp] theorem clu_setClu_same (c : Nat) (x : Cluster) : (s.setClu c x).clu c = x := by simp [State.clu, State.setClu]
theorem clu_setClu_ne {c e : Nat} (x : Cluster) (h : e ≠ c) : (s.setClu c x).clu e = s.clu e := tget_tput_ne _ _ _ h
@[simp] theorem clu_modClu_same (c : Nat) (g : Cluster → Cluster) : (s.modClu c g).clu c = g (s.clu c) := by simp [State.modClu]
theorem clu_modClu_ne {c e : Nat} (g : Cluster → Cluster) (h : e ≠ c) : (s.modClu c g).clu e = s.clu e := clu_setClu_ne s _ h
@[simp] theorem core_setCore_same (c : Nat) (x : Core) : (s.setCore c x).core c = x := by simp [State.core, State.setCore]
theorem core_setCore_ne {c e : Nat} (x : Core) (h : e ≠ c) : (s.setCore c x).core e = s.core e := tget_tput_ne _ _ _ h
@[simp] theorem core_modCore_same (c : Nat) (g : Core → Core) : (s.modCore c g).core c = g (s.core c) := by simp [State.modCore]
theorem core_modCore_ne {c e : Nat} (g : Core → Core) (h : e ≠ c) : (s.modCore c g).core e = s.core e := core_setCore_ne s _ h
@[simp] theorem lane_setLane_same (l : Nat) (x : Lane) : (s.setLane l x).lane l = x := by simp [State.lane, State.setLane]
theorem lane_setLane_ne {l e : Nat} (x : Lane) (h : e ≠ l) : (s.setLane l x).lane e = s.lane e := tget_tput_ne _ _ _ h
@[simp] theorem slot_setSlot_same (k : Nat) (x : Slot) : (s.setSlot k x).slot k = x := by simp [State.slot, State.setSlot]
theorem slot_setSlot_ne {k e : Nat} (x : Slot) (h : e ≠ k) : (s.setSlot k x).slot e = s.slot e := tget_tput_ne _ _ _ h
@[simp] theorem fib_setFib_same (f : Nat) (x : Fibre) : (s.setFib f x).fib? f = some x := by simp [State.fib?, State.setFib]
theorem fib_setFib_ne {f e : Nat} (x : Fibre) (h : e ≠ f) : (s.setFib f x).fib? e = s.fib? e := tfind_tput_ne _ _ h

/-- A fibre that is resident, changed by a function. -/
theorem modFib_of_fib {s : State} {f : Nat} {x : Fibre} (h : s.fib? f = some x) (g : Fibre → Fibre) : s.modFib f g = s.setFib f (g x) := by
  simp [State.modFib, h]

/-- A fibre that is not resident cannot be changed. -/
theorem modFib_of_none {s : State} {f : Nat} (h : s.fib? f = none) (g : Fibre → Fibre) : s.modFib f g = s := by
  simp [State.modFib, h]

theorem fib_modFib_ne {f e : Nat} (g : Fibre → Fibre) (h : e ≠ f) : (s.modFib f g).fib? e = s.fib? e := by
  unfold State.modFib
  split
  · exact fib_setFib_ne s _ h
  · rfl

theorem fib_modFib (f e : Nat) (g : Fibre → Fibre) : (s.modFib f g).fib? e = if e = f then (s.fib? f).map g else s.fib? e := by
  by_cases h : e = f
  · subst h
    unfold State.modFib
    cases h : s.fib? e <;> simp [h]
  · simp [h, fib_modFib_ne s g h]

/-- Two replacements of the same fibre. -/
theorem tput_tput {α : Type} (l : List (Nat × α)) (i : Nat) (x y : α) : tput (tput l i x) i y = tput l i y := by
  induction l with
  | nil => simp [tput]
  | cons e t ih => obtain ⟨k, v⟩ := e; simp only [tput]; grind [tput]

@[simp] theorem setFib_setFib (f : Nat) (x y : Fibre) : (s.setFib f x).setFib f y = s.setFib f y := by simp [State.setFib, tput_tput]

@[simp] theorem launchOf_setFib (f : Nat) (x y : Fibre) : (s.setFib f x).launchOf y = s.launchOf y := rfl
@[simp] theorem launchOf_modFib (f : Nat) (g : Fibre → Fibre) (y : Fibre) : (s.modFib f g).launchOf y = s.launchOf y := by
  simp [State.launchOf]
@[simp] theorem asidOf_setFib (f : Nat) (x y : Fibre) : (s.setFib f x).asidOf y = s.asidOf y := rfl
@[simp] theorem asidOf_modFib (f : Nat) (g : Fibre → Fibre) (y : Fibre) : (s.modFib f g).asidOf y = s.asidOf y := by simp [State.asidOf]

end Sys2Proof.Machine
end

