-- ==== Sys2Proof/Laws/Register.lean ====
section
/-! SUPPORT. Laws of registers and predicates: a read after a write, what a write leaves sound, where an operand leads. -/

namespace Sys2Proof.Machine

theorem regKey_eq {i j a b : Nat} (ha : a < 64) (hb : b < 64) : regKey i a = regKey j b ↔ i = j ∧ a = b := by
  unfold regKey; omega

/-- Whether a storage is one word for the fibre, not one for each thread. -/
def Ref.once : Ref → Bool
  | .scal _ => true
  | _ => false

/-- A read after a write. -/
theorem read_write (rf : RF) (r q : Ref) (a b : Nat) (x : Word) (ha : a < 64) (hb : b < 64) :
    (rf.write r a x).read q b = if q = r ∧ r ≠ .none ∧ (b = a ∨ r.once = true) then x else rf.read q b := by
  cases r <;> cases q <;> simp [RF.write, RF.read, Ref.once, tget_tset, regKey_eq hb ha]

/-- A write leaves every predicate and flag as it was. -/
@[simp] theorem write_p (rf : RF) (r : Ref) (b : Nat) (x : Word) : (rf.write r b x).regs.p = rf.regs.p := by cases r <;> rfl
@[simp] theorem write_flags (rf : RF) (r : Ref) (b : Nat) (x : Word) : (rf.write r b x).regs.flags = rf.regs.flags := by cases r <;> rfl
@[simp] theorem write_bars (rf : RF) (r : Ref) (b : Nat) (x : Word) : (rf.write r b x).slot.bars = rf.slot.bars := by cases r <;> rfl
@[simp] theorem write_pred (rf : RF) (r : Ref) (b : Nat) (x : Word) (p : BitVec 3) (c : Nat) : (rf.write r b x).regs.pred p c = rf.regs.pred p c := by
  cases r <;> rfl
theorem write_control (rf : RF) (r : Ref) (b : Nat) (x : Word) : rf.regs.Control (rf.write r b x).regs := by
  cases r <;> constructor <;> rfl
@[simp] theorem write_getPred (rf : RF) (env : Env) (r : Ref) (b : Nat) (x : Word) (p : BitVec 3) (c : Nat) :
    (rf.write r b x).getPred env p c = rf.getPred env p c := by simp [RF.getPred]

theorem Regs.Control.refl (r : Regs) : r.Control r := by constructor <;> rfl
theorem Regs.Control.trans {a b c : Regs} (h : a.Control b) (g : b.Control c) : a.Control c := by
  constructor <;> simp [h.satarm, h.sbchk, h.woff, h.tvec, h.ttimer, h.tbase, h.timp, h.inh, h.prep, h.hcause, h.stg, g.satarm, g.sbchk, g.woff, g.tvec,
    g.ttimer, g.tbase, g.timp, g.inh, g.prep, g.hcause, g.stg]

/-- No word of a register file mismatches its code, nor the carry word; and the ALU will flip no bit. -/
def RF.Sound (rf : RF) : Prop :=
  rf.regs.badV = [] ∧ rf.regs.badS = [] ∧ rf.slot.bad = [] ∧ rf.regs.badPath = [] ∧ rf.regs.badCarry = [] ∧ rf.regs.aluErr = none

theorem RF.Sound.bad {rf : RF} (h : rf.Sound) (r : Ref) (b : Nat) : rf.bad r b = false := by
  obtain ⟨h1, h2, h3, h4, -⟩ := h
  cases r <;> simp [RF.bad, mismatch, tfind, h1, h2, h3, h4]

/-- No beat of an instruction meets a mismatch in a sound register file. -/
theorem RF.Sound.wrong {rf : RF} (h : rf.Sound) (u : Uses) (pos : Position) (woff b : Nat) : u.wrong pos woff rf b = 0 := by
  simp [Uses.wrong, h.bad, h.2.2.2.2.1, h.2.2.2.2.2]

/-- The ALU flips nothing in a sound register file. -/
theorem RF.Sound.flip {rf : RF} (h : rf.Sound) (u : Uses) (env : Env) (b : Nat) : u.flip env rf b = rf := by
  simp [Uses.flip, h.2.2.2.2.2]

theorem RF.Sound.write {rf : RF} (h : rf.Sound) (r : Ref) (b : Nat) (x : Word) : (rf.write r b x).Sound := by
  obtain ⟨h1, h2, h3, h4, h5, h6⟩ := h
  cases r <;> simp [RF.Sound, RF.write, h1, h2, h3, h4, h5, h6]

theorem RF.Sound.setPred {rf : RF} (h : rf.Sound) (p : BitVec 3) (b : Nat) (x : Bool) : (rf.setPred p b x).Sound := by
  unfold RF.setPred Regs.setPred
  split <;> exact h

/-! ## Predicates -/

/-- One bit of a mask after it was replaced. -/
theorem getLsbD_maskSet (m : BeatMask) (a b : Nat) (x : Bool) (ha : a < 64) (hb : b < 64) :
    (maskSet m a x).getLsbD b = if b = a then x else m.getLsbD b := by
  unfold maskSet
  have h1 : ((1#64) <<< a).getLsbD b = decide (b = a) := by
    simp only [BitVec.getLsbD_shiftLeft]
    by_cases h : b = a
    · subst h; simp [hb]
    · simp only [h, decide_false]
      by_cases h2 : b < a
      · simp [h2]
      · have : (1#64).getLsbD (b - a) = false := by
          rw [BitVec.getLsbD_one]; simp; omega
        simp [this]
  cases x
  · simp only [Bool.false_eq_true, if_false, BitVec.getLsbD_and, BitVec.getLsbD_not, h1, hb]
    by_cases h : b = a <;> simp [h]
  · simp only [if_true, BitVec.getLsbD_or, h1]
    by_cases h : b = a <;> simp [h]

/-- A predicate after a predicate was written; pt stays true (R148). -/
theorem pred_setPred (r : Regs) (p q : BitVec 3) (a b : Nat) (x : Bool) (ha : a < 64) (hb : b < 64) :
    (r.setPred p a x).pred q b = if q = p ∧ p ≠ 7 ∧ b = a then x else r.pred q b := by
  unfold Regs.setPred Regs.pred
  by_cases hp : p = 7
  · simp [hp]
  · by_cases hq : q = 7
    · have hpq : ¬ q = p := fun e => hp (e.symm.trans hq)
      rw [if_pos hq, if_pos hq, if_neg (fun h => hpq h.1)]
    · rw [if_neg hp, if_neg hq, if_neg hq]
      simp only [tget_tset]
      by_cases hpq : q = p
      · subst hpq
        rw [if_pos rfl, getLsbD_maskSet _ _ _ _ ha hb]
        by_cases hab : b = a
        · rw [if_pos hab, if_pos ⟨rfl, hp, hab⟩]
        · rw [if_neg hab, if_neg (fun h => hab h.2.2)]
      · have : q.toNat ≠ p.toNat := fun e => hpq (BitVec.eq_of_toNat_eq e)
        rw [if_neg this, if_neg (fun h => hpq h.1)]

@[simp] theorem setPred_read (rf : RF) (p : BitVec 3) (a : Nat) (x : Bool) (r : Ref) (b : Nat) : (rf.setPred p a x).read r b = rf.read r b := by
  unfold RF.setPred Regs.setPred; split <;> cases r <;> rfl
@[simp] theorem setPred_flags (rf : RF) (p : BitVec 3) (a : Nat) (x : Bool) : (rf.setPred p a x).regs.flags = rf.regs.flags := by
  unfold RF.setPred Regs.setPred; split <;> rfl
@[simp] theorem setPred_slot (rf : RF) (p : BitVec 3) (a : Nat) (x : Bool) : (rf.setPred p a x).slot = rf.slot := rfl
theorem setPred_control (rf : RF) (p : BitVec 3) (a : Nat) (x : Bool) : rf.regs.Control (rf.setPred p a x).regs := by
  unfold RF.setPred Regs.setPred; split <;> constructor <;> rfl

/-! ## Masks and beats -/

theorem mem_upTo {n b : Nat} : b ∈ upTo n ↔ b < n := by simp [upTo]

theorem mem_maskBeats {w : Nat} {m : BeatMask} {b : Nat} : b ∈ maskBeats w m ↔ b < w ∧ m.getLsbD b = true := by
  simp [maskBeats, mem_upTo]

theorem lt64_of_maskBeats {w : Nat} {m : BeatMask} {b : Nat} (h : b ∈ maskBeats w m) : b < 64 := by
  have := (mem_maskBeats.1 h).2
  exact Decidable.byContradiction fun hc => by simp [BitVec.getLsbD_of_ge m b (by omega)] at this

theorem lt64_of_beatsOf {s : State} {h : Hdr} {uni : Bool} {x : Fibre} {b : Nat} (hb : b ∈ s.beatsOf h uni x) : b < 64 := by
  unfold State.beatsOf at hb
  split at hb
  · simp at hb
  · split at hb
    · simp at hb; omega
    · exact lt64_of_maskBeats hb

theorem maskBeats_nodup (w : Nat) (m : BeatMask) : (maskBeats w m).Nodup := (List.nodup_range).filter _

theorem beatsOf_nodup (s : State) (h : Hdr) (uni : Bool) (x : Fibre) : (s.beatsOf h uni x).Nodup := by
  unfold State.beatsOf
  split
  · exact List.nodup_nil
  · split
    · simp
    · exact maskBeats_nodup _ _

/-! ## Where an operand leads (R148, R151) -/

/-- Register `i` of an operand leads to a storage of the operand's group. -/
theorem ref_mem_refs (pos : Position) (woff : Nat) (o : Opd) {i n : Nat} (hi : i < n) (h : o.ref pos woff i ≠ .none) :
    o.ref pos woff i ∈ o.refs pos woff n := by
  cases o with
  | v k => exact List.mem_map.2 ⟨i, mem_upTo.2 hi, rfl⟩
  | s k => exact List.mem_map.2 ⟨i, mem_upTo.2 hi, rfl⟩
  | sp x => simp [Opd.ref] at h
  | sz => simp [Opd.ref] at h

/-- The two registers of a pair are different storages. -/
theorem ref_zero_ne_one (pos : Position) (woff : Nat) (o : Opd) (h : o.ref pos woff 0 ≠ .none) : o.ref pos woff 0 ≠ o.ref pos woff 1 := by
  cases o with
  | v k =>
    simp only [Opd.ref, mapReg] at h ⊢
    grind
  | s k => simp [Opd.ref]
  | sp x => simp [Opd.ref] at h
  | sz => simp [Opd.ref] at h

/-- A storage that an operand of a scalar class leads to is one word for the fibre, or nothing. -/
theorem once_of_not_perThread (pos : Position) (woff : Nat) (o : Opd) (i : Nat) (h : o.perThread = false) : (o.ref pos woff i).once = true ∨ o.ref pos woff i = .none := by
  cases o with
  | v k => simp [Opd.perThread] at h
  | s k => exact .inl rfl
  | sp x => exact .inr rfl
  | sz => exact .inr rfl

/-- A v register leads to a word for each thread. -/
theorem not_once_of_perThread (pos : Position) (woff : Nat) (o : Opd) (i : Nat) (h : o.perThread = true) : (o.ref pos woff i).once = false := by
  cases o with
  | v k =>
    simp only [Opd.ref, mapReg]
    split
    · rfl
    · split <;> rfl
  | s k => simp [Opd.perThread] at h
  | sp x => rfl
  | sz => rfl

theorem mem_refs {pos : Position} {woff n : Nat} {o : Opd} {r : Ref} (h : r ∈ o.refs pos woff n) : ∃ i, i < n ∧ r = o.ref pos woff i := by
  cases o with
  | v k => obtain ⟨i, hi, rfl⟩ := List.mem_map.1 h; exact ⟨i, mem_upTo.1 hi, rfl⟩
  | s k => obtain ⟨i, hi, rfl⟩ := List.mem_map.1 h; exact ⟨i, mem_upTo.1 hi, rfl⟩
  | sp x => simp [Opd.refs] at h
  | sz => simp [Opd.refs] at h

end Sys2Proof.Machine
end

