-- ==== Sys2Proof/Laws/Beats.lean ====
section
/-! SUPPORT. What the beats of an instruction that acts on registers alone leave behind: each beat writes its own words, and nothing else moves. -/

namespace Sys2Proof.Machine

/-- What one beat makes of the registers: the words of its destinations, its predicates, its events and the carry, each as a function of the carry. -/
structure BeatEffect where
  word : Dword → Ref → Word
  pred : Dword → BitVec 3 → Bool
  events : Dword → Events
  next : Dword → Dword

/-- A register file in which nothing that beat `b` reads has been written: neither other storages than `D` and `P`, nor anything at that beat. -/
structure SameAt (before rf : RF) (D : List Ref) (P : List (BitVec 3)) (b : Nat) : Prop where
  read : ∀ r q, q < 64 → r ∉ D ∨ q = b → rf.read r q = before.read r q
  pred : ∀ p q, q < 64 → p ∉ P ∨ q = b → rf.regs.pred p q = before.regs.pred p q

/-- A beat has an effect on the destinations `D` and the predicates `P`, and on nothing else. -/
structure LocalBeat (before : RF) (D : List Ref) (P : List (BitVec 3)) (b : Nat) (body : RF × Dword → RF × Dword) (e : BeatEffect) : Prop where
  read : ∀ rf c, SameAt before rf D P b → ∀ r q, q < 64 → (body (rf, c)).1.read r q = if r ∈ D ∧ r ≠ .none ∧ (q = b ∨ r.once = true) then e.word c r else rf.read r q
  pred : ∀ rf c, SameAt before rf D P b → ∀ p q, q < 64 → (body (rf, c)).1.regs.pred p q = if p ∈ P ∧ p ≠ 7 ∧ q = b then e.pred c p else rf.regs.pred p q
  flags : ∀ rf c, SameAt before rf D P b → (body (rf, c)).1.regs.flags = rf.regs.flags ||| e.events c
  carry : ∀ rf c, SameAt before rf D P b → (body (rf, c)).2 = e.next c
  bars : ∀ a : RF × Dword, (body a).1.slot.bars = a.1.slot.bars
  control : ∀ a : RF × Dword, a.1.regs.Control (body a).1.regs
  sound : ∀ a : RF × Dword, a.1.Sound → (body a).1.Sound

/-- The carry as it reaches a beat. -/
def carryAt (e : Nat → BeatEffect) (c : Dword) (l : List Nat) (b : Nat) : Dword := (l.takeWhile (· != b)).foldl (fun c b => (e b).next c) c

/-- What stands after the beats of a list. -/
structure Done (before : RF) (c0 : Dword) (D : List Ref) (P : List (BitVec 3)) (e : Nat → BeatEffect) (l : List Nat) (a : RF × Dword) : Prop where
  word : ∀ b ∈ l, ∀ r ∈ D, r ≠ .none → a.1.read r b = (e b).word (carryAt e c0 l b) r
  rest : ∀ r q, q < 64 → ¬(r ∈ D ∧ (q ∈ l ∨ r.once = true ∧ l ≠ [])) → a.1.read r q = before.read r q
  pred : ∀ b ∈ l, ∀ p ∈ P, p ≠ 7 → a.1.regs.pred p b = (e b).pred (carryAt e c0 l b) p
  preds : ∀ p q, q < 64 → ¬(p ∈ P ∧ q ∈ l) → a.1.regs.pred p q = before.regs.pred p q
  flags : a.1.regs.flags = l.foldl (fun f b => f ||| (e b).events (carryAt e c0 l b)) before.regs.flags
  carry : a.2 = l.foldl (fun c b => (e b).next c) c0
  bars : a.1.slot.bars = before.slot.bars
  control : before.regs.Control a.1.regs
  sound : before.Sound → a.1.Sound

theorem Done.nil (before : RF) (c0 : Dword) (D : List Ref) (P : List (BitVec 3)) (e : Nat → BeatEffect) : Done before c0 D P e [] (before, c0) where
  word := by simp
  rest := by simp
  pred := by simp
  preds := by simp
  flags := rfl
  carry := rfl
  bars := rfl
  control := .refl _
  sound := id

theorem takeWhile_append_of_mem {b : Nat} {l : List Nat} (h : b ∈ l) (t : List Nat) : (l ++ t).takeWhile (· != b) = l.takeWhile (· != b) := by
  induction l with
  | nil => simp at h
  | cons x l ih =>
    by_cases hx : x = b
    · simp [hx]
    · have : b ∈ l := by simpa [Ne.symm hx] using h
      simp [hx, ih this]

theorem takeWhile_of_not_mem {b : Nat} {l : List Nat} (h : b ∉ l) : (l ++ [b]).takeWhile (· != b) = l := by
  induction l with
  | nil => simp
  | cons x l ih =>
    have hx : x ≠ b := fun e => h (by simp [e])
    have : b ∉ l := fun e => h (by simp [e])
    simp [hx, ih this]

theorem carryAt_append_of_mem (e : Nat → BeatEffect) (c : Dword) {b : Nat} {l : List Nat} (h : b ∈ l) (t : List Nat) : carryAt e c (l ++ t) b = carryAt e c l b := by
  simp [carryAt, takeWhile_append_of_mem h]

theorem foldl_congr {α β : Type} {f g : α → β → α} {l : List β} (h : ∀ a, ∀ b ∈ l, f a b = g a b) (a : α) : l.foldl f a = l.foldl g a := by
  induction l generalizing a with
  | nil => rfl
  | cons x l ih => simp only [List.foldl_cons]; rw [h a x (by simp)]; exact ih (fun a b hb => h a b (by simp [hb])) _

/-- One more beat. -/
theorem Done.snoc {before : RF} {c0 : Dword} {D : List Ref} {P : List (BitVec 3)} {e : Nat → BeatEffect} {l : List Nat} {a : RF × Dword} {b : Nat}
    {body : RF × Dword → RF × Dword} (hd : Done before c0 D P e l a) (hb : b ∉ l) (h64 : b < 64) (hl64 : ∀ x ∈ l, x < 64)
    (hD : (∀ r ∈ D, r.once = false) ∨ l = []) (hl : LocalBeat before D P b body (e b)) :
    Done before c0 D P e (l ++ [b]) (body a) := by
  have hs : SameAt before a.1 D P b := by
    constructor
    · intro r q hq h
      refine hd.rest r q hq ?_
      rintro ⟨hr, h'⟩
      rcases hD with hD | hD
      · rcases h' with h' | h'
        · rcases h with h | h
          · exact h hr
          · exact hb (h ▸ h')
        · simp [hD r hr] at h'
      · simp [hD] at h'
    · intro p q hq h
      refine hd.preds p q hq ?_
      rintro ⟨hp, h'⟩
      rcases h with h | h
      · exact h hp
      · exact hb (h ▸ h')
  have hc : carryAt e c0 (l ++ [b]) b = a.2 := by simp [carryAt, takeWhile_of_not_mem hb, hd.carry]
  have hread := hl.read a.1 a.2 hs
  have hpred := hl.pred a.1 a.2 hs
  constructor
  · intro x hx r hr hn
    rcases List.mem_append.1 hx with hx | hx
    · have hne : x ≠ b := fun h => hb (h ▸ hx)
      have ho : r.once = false := by
        rcases hD with hD | hD
        · exact hD r hr
        · simp [hD] at hx
      rw [hread r x (hl64 x hx), if_neg (by simp [hne, ho]), carryAt_append_of_mem _ _ hx]
      exact hd.word x hx r hr hn
    · simp at hx; subst hx
      rw [hread r x h64, if_pos ⟨hr, hn, .inl rfl⟩, hc]
  · intro r q hq h
    rw [hread r q hq, if_neg]
    · refine hd.rest r q hq ?_
      rintro ⟨hr, h'⟩
      refine h ⟨hr, ?_⟩
      rcases h' with h' | h'
      · exact .inl (by simp [h'])
      · exact .inr ⟨h'.1, by simp⟩
    · rintro ⟨hr, -, h'⟩
      refine h ⟨hr, ?_⟩
      rcases h' with h' | h'
      · exact .inl (by simp [h'])
      · exact .inr ⟨h', by simp⟩
  · intro x hx p hp h7
    rcases List.mem_append.1 hx with hx | hx
    · have hne : x ≠ b := fun h => hb (h ▸ hx)
      rw [hpred p x (hl64 x hx), if_neg (by simp [hne]), carryAt_append_of_mem _ _ hx]
      exact hd.pred x hx p hp h7
    · simp at hx; subst hx
      rw [hpred p x h64, if_pos ⟨hp, h7, rfl⟩, hc]
  · intro p q hq h
    rw [hpred p q hq, if_neg]
    · exact hd.preds p q hq fun h' => h ⟨h'.1, by simp [h'.2]⟩
    · rintro ⟨hp, -, h'⟩
      exact h ⟨hp, by simp [h']⟩
  · rw [hl.flags a.1 a.2 hs, hd.flags, List.foldl_append]
    simp only [List.foldl_cons, List.foldl_nil, hc]
    rw [foldl_congr (g := fun f x => f ||| (e x).events (carryAt e c0 (l ++ [b]) x)) fun f x hx => by rw [carryAt_append_of_mem _ _ hx]]
  · rw [hl.carry a.1 a.2 hs, hd.carry]; simp
  · rw [hl.bars, hd.bars]
  · exact hd.control.trans (hl.control a)
  · intro h; exact hl.sound a (hd.sound h)

theorem Done.append {before : RF} {c0 : Dword} {D : List Ref} {P : List (BitVec 3)} {e : Nat → BeatEffect} {body : Nat → RF × Dword → RF × Dword} (t : List Nat) :
    ∀ {l : List Nat} {a : RF × Dword}, Done before c0 D P e l a → (l ++ t).Nodup → (∀ x ∈ l ++ t, x < 64) →
    ((∀ r ∈ D, r.once = false) ∨ (l ++ t).length ≤ 1) → (∀ b ∈ t, LocalBeat before D P b (body b) (e b)) →
    Done before c0 D P e (l ++ t) (t.foldl (fun a b => body b a) a) := by
  induction t with
  | nil => intro l a h _ _ _ _; simpa using h
  | cons b t ih =>
    intro l a h hn h64 hD hl
    have hn' : (l ++ [b] ++ t).Nodup := by simpa using hn
    have hb : b ∉ l := by
      intro hb
      exact absurd rfl ((List.nodup_append.1 hn).2.2 b hb b (by simp))
    have hD' : (∀ r ∈ D, r.once = false) ∨ l = [] := by
      rcases hD with hD | hD
      · exact .inl hD
      · right; simp at hD; exact List.length_eq_zero_iff.1 (by omega)
    have hs := h.snoc hb (h64 b (by simp)) (fun x hx => h64 x (by simp [hx])) hD' (hl b (by simp))
    have := ih hs hn' (by intro x hx; exact h64 x (by simpa using hx)) (by simpa using hD) (fun x hx => hl x (by simp [hx]))
    simpa using this

/-- What stands after all the beats of an instruction. -/
theorem done_beats {before : RF} {c0 : Dword} {D : List Ref} {P : List (BitVec 3)} {e : Nat → BeatEffect} {body : Nat → RF × Dword → RF × Dword}
    {l : List Nat} (hn : l.Nodup) (h64 : ∀ x ∈ l, x < 64) (hD : (∀ r ∈ D, r.once = false) ∨ l.length ≤ 1)
    (hl : ∀ b ∈ l, LocalBeat before D P b (body b) (e b)) : Done before c0 D P e l (l.foldl (fun a b => body b a) (before, c0)) := by
  simpa using (Done.nil before c0 D P e).append l (by simpa using hn) (by simpa using h64) (by simpa using hD) hl

end Sys2Proof.Machine
end

