-- ==== Sys2Proof/Laws/Issue.lean ====
section
/-! SUPPORT. What the issue of an instruction does where nothing is owed to its fibre: the checks pass, every active beat executes, and the run
takes the next PC. -/

namespace Sys2Proof.Machine

/-- Every operand group of an instruction fits the fibre's registers. -/
def Uses.Fits (u : Uses) (x : Fibre) : Prop := ∀ e ∈ u.groups, e.1.Fits x e.2

/-- The surroundings of a settled issue, before the read phase. -/
def State.env0 (s : State) (h : Hdr) (u : Uses) (x : Fibre) : Env :=
  { s.envOf s.iss.fibre x (s.active h x) with both := u.a.isSome && u.b.isSome }

/-- The exchange buffer of a settled issue (R157). -/
def State.xbufOf (s : State) (h : Hdr) (u : Uses) (x : Fibre) : List (Word × Word) := u.collect (s.env0 h u x) (s.rf s.iss.fibre x)

/-- The plan of a settled issue. -/
def State.planOf (s : State) (h : Hdr) (u : Uses) (x : Fibre) : Plan :=
  let tm := u.timing s.iss x (s.active h x) (s.beatsOf h u.uni x) h
  { x := x, count := (s.beatsOf h u.uni x).length
    env := { s.env0 h u x with beats := s.beatsOf h u.uni x, xb := s.xbufOf h u x }
    starts := tm.starts, lost := [], t0 := tm.t0, xbuf := if u.a.isSome || u.b.isSome then some (s.xbufOf h u x) else none
    carry := none, first := 0, rest := none
    blocks := blocksOf (refsOf x.pos x.regs.woff u.groups), now := s.tick, began := s.tick }

theorem timing_short (u : Uses) (i : Issue) (x : Fibre) (act : BeatMask) (beats : List Nat) (h : Hdr) (hp : x.pend = []) :
    (u.timing i x act beats h).short = [] := by
  simp only [Uses.timing, hp, List.filter_nil]
  split
  · rfl
  · simp

theorem filter_all {α : Type} (l : List α) : (l.filter fun _ => true) = l := by simp

theorem timing_from_zero (t : Timing) : t.from 0 = t := by
  cases t
  simp only [Timing.from, Nat.zero_le, decide_true, filter_all]

theorem settled_rf_bad {s : State} {x : Fibre} (hs : s.Settled x) (r : Ref) (b : Nat) : (s.rf s.iss.fibre x).bad r b = false := by
  cases r <;> simp [RF.bad, mismatch, tfind, State.rf, hs.badV, hs.badS, hs.badSh, hs.badPath]

theorem settled_owed {s : State} {x : Fibre} (hs : s.Settled x) : s.owedRefs s.iss.fibre x = [] := by
  have h : (s.clu (clusterOfFibre s.iss.fibre)).drains.filter (·.fibre == s.iss.fibre) = [] := by
    rw [List.filter_eq_nil_iff]
    intro d hd
    simpa using hs.drains d hd
  simp [State.owedRefs, hs.out, h]

theorem fits_not_mix {u : Uses} {x : Fibre} (hf : u.Fits x) : (u.groups.any fun e => e.1.mixes x.pos e.2) = false := by
  rw [List.any_eq_false]
  intro e he
  simp [(hf e he).1]

theorem fits_not_none {u : Uses} {x : Fibre} (hf : u.Fits x) : (refsOf x.pos x.regs.woff u.groups).contains .none = false := by
  have : Ref.none ∉ refsOf x.pos x.regs.woff u.groups := by
    intro h
    obtain ⟨e, he, hr⟩ := List.mem_flatMap.1 h
    exact (hf e he).2 hr
  simpa using this

theorem beats_filter (s : State) (h : Hdr) (uni : Bool) (x : Fibre) :
    (s.beatsOf h uni x).filter (fun b => uni || (s.active h x).getLsbD b) = s.beatsOf h uni x := by
  unfold State.beatsOf
  cases uni
  · split
    · rfl
    · simp [maskBeats, List.filter_filter]
  · simp

theorem any_false {α : Type} (l : List α) : (l.any fun _ => false) = false := by induction l <;> simp_all

/-- The checks before the first beat pass. -/
theorem gate_settled {s : State} {x : Fibre} (hs : s.Settled x) (h : Hdr) {u : Uses} (hf : u.Fits x) :
    s.gate h u = .go (s.planOf h u x) s := by
  have hsh := timing_short u s.iss x (s.active h x) (s.beatsOf h u.uni x) h hs.pend
  have hbe : (if s.active h x == 0 then [] else if u.uni then [0] else maskBeats x.pos.width (s.active h x)) = s.beatsOf h u.uni x := rfl
  have hfa : ∀ (l : List Ref) (b : Option Nat), x.failedAt l b = none := by intro l b; simp [Fibre.failedAt, hs.out]
  have hany : ∀ o : Option Nat, (o.any fun _ => false) = false := by intro o; cases o <;> rfl
  have hpr : ∀ (y : State), y.rf s.iss.fibre x = s.rf s.iss.fibre x →
      ((u.supplied x.pos x.regs.woff).filter fun e => (y.rf s.iss.fibre x).bad e.1 e.2) = [] := by
    intro y hy
    simp [hy, settled_rf_bad hs]
  have hact : x.regs.guarded h x.pos.width s.iss.run = s.active h x := rfl
  have hbi : ∀ o : Option Nat, (o.bind fun _ => (none : Option Access)) = none := by intro o; cases o <;> rfl
  have ht : (s.beatsOf h u.uni x).takeWhile (fun _ => true) = s.beatsOf h u.uni x := by induction s.beatsOf h u.uni x <;> simp_all
  unfold State.gate
  simp only [hs.here, fits_not_mix hf, fits_not_none hf, hs.spilled, hs.mid, settled_owed hs, List.filter_nil, Option.filter_none, Option.elim_none,
    Option.bind_none, List.isEmpty_nil, Bool.not_true, Bool.not_false, owedAt, List.any_nil, Bool.false_eq_true, if_false, Bool.and_false, Bool.or_false,
    Bool.false_and, any_false, hany, Nat.zero_le, decide_true, filter_all, if_true, hact, hbe, timing_from_zero, hsh, List.map_nil, freeBits,
    List.zip_nil_right, List.length_nil, Nat.add_zero, beats_filter, hfa, hbi, ht, Option.or_none, hs.room, hs.limit, ite_self]
  rw [if_neg (by simp [hs.pend]), if_neg]
  · simp [State.planOf, State.env0, State.xbufOf, State.envOf]
  · rw [hpr _ rfl]; simp

end Sys2Proof.Machine
end

