-- ==== Sys2Proof/Laws/Compute.lean ====
section
/-! SUPPORT. What an instruction that acts on registers alone does where nothing is owed to its fibre. -/

namespace Sys2Proof.Machine

theorem settled_sound {s : State} {x : Fibre} (hs : s.Settled x) : (s.rf s.iss.fibre x).Sound := ⟨hs.badV, hs.badS, hs.badSh, hs.badPath, hs.badCarry, hs.aluErr⟩

/-- The beats go through where no word has a bad residue. -/
theorem beatLoop_sound (u : Uses) (env : Env) (body : Env → Nat → RF × Dword → RF × Dword)
    (hb : ∀ b (a : RF × Dword), a.1.Sound → (body env b a).1.Sound) (l : List Nat) (a : RF × Dword) (ha : a.1.Sound) :
    beatLoop u env body l a = (l.foldl (fun a b => body env b a) a, none) := by
  induction l generalizing a with
  | nil => rfl
  | cons b t ih =>
    unfold beatLoop
    rw [ha.wrong, (hb b a ha).flip]
    simpa using ih _ (hb b a ha)

/-- The registers after the beats of a settled issue. -/
def State.afterBeats (s : State) (h : Hdr) (u : Uses) (x : Fibre) (init : Env → RF → Dword) (body : Env → Nat → RF × Dword → RF × Dword) : RF × Dword :=
  let env := (s.planOf h u x).env
  let before := s.rf s.iss.fibre x
  (s.beatsOf h u.uni x).foldl (fun a b => body env b a) (before, init env before)

/-- The state after a settled issue. -/
def State.afterIssue (s : State) (h : Hdr) (u : Uses) (x : Fibre) (rf : RF) : State :=
  (s.putRf s.iss.fibre x rf).finish h u (s.planOf h u x) (s.rf s.iss.fibre x)

theorem computeCarry_settled {s : State} {x : Fibre} (hs : s.Settled x) (h : Hdr) {u : Uses} (hf : u.Fits x) (init : Env → RF → Dword)
    (body : Env → Nat → RF × Dword → RF × Dword) (hb : ∀ env b (a : RF × Dword), a.1.Sound → (body env b a).1.Sound) :
    s.computeCarry h u init body (fun _ a => a.1) = s.afterIssue h u x (s.afterBeats h u x init body).1 := by
  have hsk : (if u.uni then [] else (maskBeats (s.planOf h u x).env.pos.width (s.planOf h u x).env.act).filter (· < (s.planOf h u x).first)) = [] := by
    simp [State.planOf]
  unfold State.computeCarry
  rw [gate_settled hs h hf]
  simp only [hsk, List.foldl_nil]
  have hl := beatLoop_sound u (s.planOf h u x).env body (hb _) (s.beatsOf h u.uni x)
    (s.rf s.iss.fibre x, init (s.planOf h u x).env (s.rf s.iss.fibre x)) (settled_sound hs)
  have he : (s.planOf h u x).env.beats = s.beatsOf h u.uni x := rfl
  have hx : (s.planOf h u x).x = x := rfl
  have hc : (s.planOf h u x).carry = none := rfl
  have hlost : (s.planOf h u x).lost = [] := rfl
  rw [he, hx, hc, Option.getD_none, hl]
  simp only [hlost, keepLost, List.foldl_nil, ite_self]
  rfl

theorem compute_settled {s : State} {x : Fibre} (hs : s.Settled x) (h : Hdr) {u : Uses} (hf : u.Fits x) (body : Env → Nat → RF → RF)
    (hb : ∀ env b (rf : RF), rf.Sound → (body env b rf).Sound) :
    s.compute h u body = s.afterIssue h u x (s.afterBeats h u x (fun _ _ => 0) (fun env b a => (body env b a.1, a.2))).1 :=
  computeCarry_settled hs h hf _ _ fun env b a ha => hb env b a.1 ha

/-- A settled issue moves nothing but its fibre's registers, its run and the books of its timing. -/
theorem afterIssue_stepped (s : State) (x : Fibre) (h : Hdr) (u : Uses) (rf : RF)
    (hbars : rf.slot.bars = (s.slot (slotOfFibre s.iss.fibre)).bars) (hc : x.regs.Control rf.regs) :
    ∃ y, s.Stepped (s.afterIssue h u x rf) x y ∧ y.regs = rf.regs ∧ (s.afterIssue h u x rf).slot (slotOfFibre s.iss.fibre) = rf.slot := by
  have hput : (s.putRf s.iss.fibre x rf).fib? s.iss.fibre = some { x with regs := rf.regs } := by
    unfold State.putRf; dsimp only; split <;> simp
  have hiss : (s.putRf s.iss.fibre x rf).iss = s.iss := by unfold State.putRf; dsimp only; split <;> rfl
  refine ⟨(({ x with regs := rf.regs } : Fibre).retime s.iss h u (s.planOf h u x) (s.rf s.iss.fibre x)).advance s.iss s.iss.run, ?_, ?_, ?_⟩
  · have heq : s.afterIssue h u x rf = (s.putRf s.iss.fibre x rf).setFib s.iss.fibre
        ((({ x with regs := rf.regs } : Fibre).retime s.iss h u (s.planOf h u x) (s.rf s.iss.fibre x)).advance s.iss s.iss.run) := by
      unfold State.afterIssue State.finish
      rw [hiss, modFib_of_fib hput]
    rw [heq]
    refine ⟨?_, by simp, rfl, rfl, rfl, rfl, rfl, rfl, hc⟩
    constructor
    all_goals try (unfold State.putRf; dsimp only; split <;> simp; done)
    · intro g hg
      rw [fib_setFib_ne _ _ hg]
      unfold State.putRf; dsimp only; split <;> simp [fib_setFib_ne _ _ hg]
    · intro k hk
      unfold State.putRf; dsimp only; split <;> simp [slot_setSlot_ne _ _ hk]
    · unfold State.putRf; dsimp only; split <;> simp [hbars]
  · rfl
  · unfold State.afterIssue State.finish
    rw [hiss, modFib_of_fib hput]
    unfold State.putRf; dsimp only; split
    · rename_i he; simpa using he.symm
    · simp

theorem word_of_fib {t : State} {f : Nat} {y : Fibre} {rf : RF} (h : t.fib? f = some y) (hr : y.regs = rf.regs) (hl : t.slot (slotOfFibre f) = rf.slot)
    (r : Ref) (b : Nat) : t.word f r b = rf.read r b := by
  unfold State.word
  rw [h]
  cases r <;> simp [State.rf, RF.read, hr, hl]

theorem pred_of_fib {t : State} {f : Nat} {y : Fibre} {rf : RF} (h : t.fib? f = some y) (hr : y.regs = rf.regs) (p : BitVec 3) (b : Nat) :
    t.pred f p b = rf.regs.pred p b := by
  simp [State.pred, h, hr]

/-- The whole of a settled issue: what its beats leave stands in the next state, and nothing else has moved. -/
theorem settled_done {s : State} {x : Fibre} (hs : s.Settled x) (h : Hdr) {u : Uses} (hf : u.Fits x) {init : Env → RF → Dword}
    {body : Env → Nat → RF × Dword → RF × Dword} {D : List Ref} {P : List (BitVec 3)} {e : Nat → BeatEffect}
    (hD : (∀ r ∈ D, r.once = false) ∨ u.uni = true)
    (hl : ∀ b ∈ s.beatsOf h u.uni x, LocalBeat (s.rf s.iss.fibre x) D P b (body (s.planOf h u x).env b) (e b))
    (hb : ∀ env b (a : RF × Dword), a.1.Sound → (body env b a).1.Sound) :
    ∃ y rf c, s.computeCarry h u init body (fun _ a => a.1) = s.afterIssue h u x rf ∧ s.Stepped (s.afterIssue h u x rf) x y ∧ y.regs = rf.regs ∧
      (s.afterIssue h u x rf).slot (slotOfFibre s.iss.fibre) = rf.slot ∧
      Done (s.rf s.iss.fibre x) (init (s.planOf h u x).env (s.rf s.iss.fibre x)) D P e (s.beatsOf h u.uni x) (rf, c) := by
  have hd : Done (s.rf s.iss.fibre x) (init (s.planOf h u x).env (s.rf s.iss.fibre x)) D P e (s.beatsOf h u.uni x) (s.afterBeats h u x init body) := by
    refine done_beats (beatsOf_nodup s h u.uni x) (fun b hb => lt64_of_beatsOf hb) ?_ ?_
    · rcases hD with hD | hD
      · exact .inl hD
      · right
        unfold State.beatsOf
        rw [hD]
        split <;> simp
    · exact hl
  obtain ⟨y, h1, h2, h3⟩ := afterIssue_stepped s x h u (s.afterBeats h u x init body).1 hd.bars hd.control
  exact ⟨y, _, (s.afterBeats h u x init body).2, computeCarry_settled hs h hf init body hb, h1, h2, h3, hd⟩

end Sys2Proof.Machine
end

