-- ==== Sys2Proof/Laws/Value.lean ====
section
/-! SUPPORT. The operands of a settled issue: what a beat reads is the value the operand had before the instruction (R150, R156, R157). -/

namespace Sys2Proof.Machine

theorem mem_maskOf {l : List Nat} {b : Nat} : (maskOf l).getLsbD b = true ↔ b < 64 ∧ b ∈ l := by
  have key : ∀ (l : List Nat) (m : BeatMask), (l.foldl (fun m b => m ||| (1#64 <<< b)) m).getLsbD b = true ↔ m.getLsbD b = true ∨ (b < 64 ∧ b ∈ l) := by
    intro l
    induction l with
    | nil => simp
    | cons c t ih =>
      intro m
      simp only [List.foldl_cons, ih, BitVec.getLsbD_or, Bool.or_eq_true, List.mem_cons]
      have : ((1#64) <<< c).getLsbD b = true ↔ b < 64 ∧ b = c := by
        simp only [BitVec.getLsbD_shiftLeft, BitVec.getLsbD_one, Bool.and_eq_true, decide_eq_true_eq, Bool.not_eq_true', decide_eq_false_iff_not]
        omega
      rw [this]
      grind
  simpa [maskOf] using key l 0

theorem maskOf_eq_zero {l : List Nat} (h : l = []) : maskOf l = 0 := by subst h; rfl

/-- A beat that executes lies below the width. -/
theorem lt_width_of_beatsOf {s : State} {h : Hdr} {uni : Bool} {x : Fibre} {b : Nat} (hb : b ∈ s.beatsOf h uni x) : b < x.pos.width := by
  unfold State.beatsOf at hb
  split at hb
  · simp at hb
  · rename_i hne
    split at hb
    · simp only [List.mem_singleton] at hb
      subst hb
      refine Nat.pos_of_ne_zero fun hw => hne ?_
      simp [State.active, Regs.guarded, maskBeats, upTo, hw, maskOf]
    · exact (mem_maskBeats.1 hb).1

theorem nth_map {α β : Type} (d : β) (e : α) (l : List α) (f : α → β) {i : Nat} (h : i < l.length) : nth d (l.map f) i = f (nth e l i) := by
  simp [nth, List.getD, h]

theorem nth_upTo {n i : Nat} (h : i < n) : nth 0 (upTo n) i = i := by simp [nth, upTo, List.getD, h]

theorem nth_zip {α β : Type} (a : α) (b : β) (l : List α) (m : List β) {i : Nat} (h : i < l.length) (g : i < m.length) :
    nth (a, b) (l.zip m) i = (nth a l i, nth b m i) := by
  simp only [nth, List.getD]
  rw [List.getElem?_eq_getElem (by simp; omega), List.getElem?_eq_getElem h, List.getElem?_eq_getElem g]
  simp

/-- Word `i` of an operand as a permutation brings it to a beat. -/
def permWord (o : Opd) (env : Env) (rf : RF) (p : Perm) (i b : Nat) : Word := (p.from env.pos.width b).elim 0 fun q => o.word env rf i q

theorem gather_length (o : Opd) (env : Env) (rf : RF) (p : Perm) (i : Nat) : (o.gather env rf p i).length = env.pos.width := by simp [Opd.gather, upTo]

theorem nth_gather (o : Opd) (env : Env) (rf : RF) (p : Perm) (i : Nat) {b : Nat} (h : b < env.pos.width) :
    nth 0 (o.gather env rf p i) b = permWord o env rf p i b := by
  unfold Opd.gather
  rw [nth_map 0 0 _ _ (by simpa [upTo] using h), nth_upTo h]
  unfold permWord
  cases p.from env.pos.width b <;> rfl

/-- Two surroundings in which an operand reads alike. -/
def Env.Like (e g : Env) : Prop :=
  e.f = g.f ∧ e.pos = g.pos ∧ e.woff = g.woff ∧ e.cohort = g.cohort ∧ e.ncohort = g.ncohort ∧ e.nfib = g.nfib ∧ e.stale = g.stale

theorem word_like {e g : Env} (h : e.Like g) {rf rf' : RF} {b : Nat} (hr : ∀ r, rf.read r b = rf'.read r b) (o : Opd) (i : Nat) :
    o.word e rf i b = o.word g rf' i b := by
  obtain ⟨h1, h2, h3, h4, h5, h6, h7⟩ := h
  cases o <;> simp [Opd.word, RF.get, Env.special, h1, h2, h3, h4, h5, h6, h7, hr]

theorem nat_like {e g : Env} (h : e.Like g) {rf rf' : RF} {b : Nat} (hr : ∀ r, rf.read r b = rf'.read r b) (o : Opd) (wide : Bool) :
    o.nat e rf wide b = o.nat g rf' wide b := by
  simp [Opd.nat, Opd.dword, word_like h hr]

theorem planOf_like (s : State) (h : Hdr) (u : Uses) (x : Fibre) : (s.planOf h u x).env.Like (s.envOf s.iss.fibre x 0) := ⟨rfl, rfl, rfl, rfl, rfl, rfl, rfl⟩

theorem env0_like (s : State) (h : Hdr) (u : Uses) (x : Fibre) : (s.env0 h u x).Like (s.envOf s.iss.fibre x 0) := ⟨rfl, rfl, rfl, rfl, rfl, rfl, rfl⟩

/-- An operand at a beat reads what it held before the instruction. -/
theorem opd_value {s : State} {x : Fibre} (h : Hdr) (u : Uses) {rf : RF} {D : List Ref} {P : List (BitVec 3)} {b : Nat} (hb : b < 64)
    (hs : SameAt (s.rf s.iss.fibre x) rf D P b) (o : Opd) (wide : Bool) : o.nat (s.planOf h u x).env rf wide b = o.value s x wide b :=
  nat_like (planOf_like s h u x) (fun r => hs.read r b hb (.inr rfl)) o wide

/-- A 64-bit number from its two words. -/
theorem toNat_words (x y : Word) : (y ++ x : Dword).toNat = x.toNat + 2 ^ 32 * y.toNat := by
  have := x.isLt
  rw [BitVec.toNat_append, Nat.shiftLeft_eq, Nat.or_comm]
  have h : y.toNat * 2 ^ 32 = 2 ^ 32 * y.toNat := Nat.mul_comm _ _
  rw [h, Nat.or_comm, ← Nat.two_pow_add_eq_or_of_lt x.isLt]
  omega

theorem imm_nat (v : BitVec 64) (env : Env) (rf : RF) (second wide : Bool) (b : Nat) :
    (Src.imm v).nat env rf second wide b = if wide then v.toNat else v.toNat % 2 ^ 32 := by
  cases wide
  · simp [Src.nat, Src.word, BitVec.extractLsb'_toNat]
  · have h : (Src.imm v).dword env rf second b = v := by
      have := v.isLt
      apply BitVec.eq_of_toNat_eq
      simp only [Src.dword, Src.word, toNat_words, if_true, BitVec.extractLsb'_toNat, Nat.shiftRight_eq_div_pow]
      simp
      omega
    simp [Src.nat, h]

theorem perm_word_a {u : Uses} {o ob : Opd} {p pb : Perm} {n nb : Nat} (env : Env) (rf : RF) {b : Nat} (hb : b < env.pos.width) :
    (u.a = some (o, p, n) → u.b = none → (nth (0, 0) (u.collect env rf) b).1 = permWord o env rf p 0 b) ∧
    (u.a = some (o, p, 2) → u.b = none → (nth (0, 0) (u.collect env rf) b).2 = permWord o env rf p 1 b) ∧
    (u.a = none → u.b = some (o, p, n) → (nth (0, 0) (u.collect env rf) b).1 = permWord o env rf p 0 b) ∧
    (u.a = none → u.b = some (o, p, 2) → (nth (0, 0) (u.collect env rf) b).2 = permWord o env rf p 1 b) ∧
    (u.a = some (o, p, n) → u.b = some (ob, pb, nb) → (nth (0, 0) (u.collect env rf) b).1 = permWord o env rf p 0 b) ∧
    (u.a = some (ob, pb, nb) → u.b = some (o, p, n) → (nth (0, 0) (u.collect env rf) b).2 = permWord o env rf p 0 b) := by
  have hl : ∀ (o : Opd) (p : Perm) (i : Nat), b < (o.gather env rf p i).length := fun o p i => by rw [gather_length]; exact hb
  refine ⟨?_, ?_, ?_, ?_, ?_, ?_⟩ <;> intro h1 h2 <;> simp only [Uses.collect, h1, h2]
  · split
    · rw [nth_zip _ _ _ _ (hl _ _ _) (hl _ _ _), nth_gather _ _ _ _ _ hb]
    · rw [nth_map (0, 0) 0 _ _ (hl _ _ _), nth_gather _ _ _ _ _ hb]
  · rw [if_pos trivial, nth_zip _ _ _ _ (hl _ _ _) (hl _ _ _), nth_gather _ _ _ _ _ hb, nth_gather _ _ _ _ _ hb]
  · split
    · rw [nth_zip _ _ _ _ (hl _ _ _) (hl _ _ _), nth_gather _ _ _ _ _ hb]
    · rw [nth_map (0, 0) 0 _ _ (hl _ _ _), nth_gather _ _ _ _ _ hb]
  · rw [if_pos trivial, nth_zip _ _ _ _ (hl _ _ _) (hl _ _ _), nth_gather _ _ _ _ _ hb, nth_gather _ _ _ _ _ hb]
  · rw [nth_zip _ _ _ _ (hl _ _ _) (hl _ _ _), nth_gather _ _ _ _ _ hb]
  · rw [nth_zip _ _ _ _ (hl _ _ _) (hl _ _ _), nth_gather _ _ _ _ _ hb, nth_gather _ _ _ _ _ hb]

/-- The value of a permuted operand, from its words. -/
theorem permuted_value {s : State} {x : Fibre} (h : Hdr) (u : Uses) (o : Opd) (p : Perm) (wide : Bool) (b : Nat) :
    (if wide then (permWord o (s.env0 h u x) (s.rf s.iss.fibre x) p 0 b).toNat + 2 ^ 32 * (permWord o (s.env0 h u x) (s.rf s.iss.fibre x) p 1 b).toNat
      else (permWord o (s.env0 h u x) (s.rf s.iss.fibre x) p 0 b).toNat) = (Src.reg o p).value s x wide b := by
  have hpos : (s.env0 h u x).pos = x.pos := rfl
  simp only [permWord, Src.value, hpos]
  cases hq : p.from x.pos.width b with
  | none => cases wide <;> simp
  | some q =>
    have hw : ∀ i, o.word (s.env0 h u x) (s.rf s.iss.fibre x) i q = o.word (s.envOf s.iss.fibre x 0) (s.rf s.iss.fibre x) i q :=
      fun i => word_like (env0_like s h u x) (fun _ => rfl) o i
    cases wide <;> simp [Opd.value, Opd.nat, Opd.dword, toNat_words, hw]

/-- The A source of an instruction at a beat reads what it held before the instruction; two permuted sources are single registers (R157). -/
theorem src_value_a {s : State} {x : Fibre} (h : Hdr) {u : Uses} {a b : Src} {nb : Nat} {wide : Bool} (ha : u.a = srcPerm a (regsOf wide)) (hb : u.b = srcPerm b nb)
    (hp : (wide && permuted a && permuted b) = false) {rf : RF} {D : List Ref} {P : List (BitVec 3)} {t : Nat} (ht : t ∈ s.beatsOf h u.uni x)
    (hs : SameAt (s.rf s.iss.fibre x) rf D P t) : a.nat (s.planOf h u x).env rf false wide t = a.value s x wide t := by
  have hw : t < (s.env0 h u x).pos.width := lt_width_of_beatsOf ht
  have hxb : (s.planOf h u x).env.xb = u.collect (s.env0 h u x) (s.rf s.iss.fibre x) := rfl
  have hboth : (s.planOf h u x).env.both = (u.a.isSome && u.b.isSome) := rfl
  cases a with
  | imm v => rw [imm_nat]; rfl
  | reg o p =>
    by_cases hid : p = .id
    · subst hid
      have := opd_value h u (lt64_of_beatsOf ht) hs o wide
      simpa [Src.nat, Src.value, Perm.from, Opd.nat, Opd.dword, Src.dword, Src.word] using this
    · have ha' : u.a = some (o, p, regsOf wide) := by rw [ha]; cases p <;> simp_all [srcPerm]
      have hpa : permuted (.reg o p) = true := by cases p <;> simp_all [permuted]
      have hword : ∀ i, (Src.reg o p).word (s.planOf h u x).env rf false i t = if i = 0 then (nth (0, 0) (u.collect (s.env0 h u x) (s.rf s.iss.fibre x)) t).1
          else (nth (0, 0) (u.collect (s.env0 h u x) (s.rf s.iss.fibre x)) t).2 := by
        intro i
        rw [← hxb]
        cases p <;> simp_all [Src.word]
      rw [← permuted_value h u]
      cases hub : u.b with
      | none =>
        cases wide with
        | false =>
          simp only [Src.nat, hword, if_true, Bool.false_eq_true, if_false]
          rw [(perm_word_a (ob := o) (pb := p) (nb := 0) _ _ hw).1 ha' hub]
        | true =>
          simp only [Src.nat, Src.dword, hword, if_true, toNat_words]
          rw [(perm_word_a (ob := o) (pb := p) (nb := 0) _ _ hw).1 ha' hub, if_neg (by decide), (perm_word_a (ob := o) (pb := p) (n := 2) (nb := 0) _ _ hw).2.1 ha' hub]
      | some e =>
        have hpb : permuted b = true := by
          rw [hub] at hb
          cases b with
          | imm v => simp [srcPerm] at hb
          | reg o' p' => cases p' <;> simp_all [srcPerm, permuted]
        have hwf : wide = false := by simpa [hpa, hpb] using hp
        subst hwf
        simp only [Src.nat, hword, if_true, Bool.false_eq_true, if_false]
        rw [(perm_word_a (ob := e.1) (pb := e.2.1) (nb := e.2.2) _ _ hw).2.2.2.2.1 ha' hub]

/-- The B source of an instruction at a beat. -/
theorem src_value_b {s : State} {x : Fibre} (h : Hdr) {u : Uses} {a b : Src} {na : Nat} {wide : Bool} (ha : u.a = srcPerm a na) (hb : u.b = srcPerm b (regsOf wide))
    (hp : (wide && permuted a && permuted b) = false) {rf : RF} {D : List Ref} {P : List (BitVec 3)} {t : Nat} (ht : t ∈ s.beatsOf h u.uni x)
    (hs : SameAt (s.rf s.iss.fibre x) rf D P t) : b.nat (s.planOf h u x).env rf true wide t = b.value s x wide t := by
  have hw : t < (s.env0 h u x).pos.width := lt_width_of_beatsOf ht
  have hxb : (s.planOf h u x).env.xb = u.collect (s.env0 h u x) (s.rf s.iss.fibre x) := rfl
  have hboth : (s.planOf h u x).env.both = (u.a.isSome && u.b.isSome) := rfl
  cases b with
  | imm v => rw [imm_nat]; rfl
  | reg o p =>
    by_cases hid : p = .id
    · subst hid
      have := opd_value h u (lt64_of_beatsOf ht) hs o wide
      simpa [Src.nat, Src.value, Perm.from, Opd.nat, Opd.dword, Src.dword, Src.word] using this
    · have hb' : u.b = some (o, p, regsOf wide) := by rw [hb]; cases p <;> simp_all [srcPerm]
      have hpb : permuted (.reg o p) = true := by cases p <;> simp_all [permuted]
      have hword : ∀ i, (Src.reg o p).word (s.planOf h u x).env rf true i t = if u.a.isSome then (nth (0, 0) (u.collect (s.env0 h u x) (s.rf s.iss.fibre x)) t).2
          else if i = 0 then (nth (0, 0) (u.collect (s.env0 h u x) (s.rf s.iss.fibre x)) t).1
          else (nth (0, 0) (u.collect (s.env0 h u x) (s.rf s.iss.fibre x)) t).2 := by
        intro i
        have hboth' : (s.planOf h u x).env.both = u.a.isSome := by rw [hboth, hb']; simp
        rw [← hxb]
        cases p <;> first | exact absurd rfl hid | simp [Src.word, hboth']
      rw [← permuted_value h u]
      cases hua : u.a with
      | none =>
        simp only [hua, Option.isSome_none, Bool.false_eq_true, if_false] at hword
        cases wide with
        | false =>
          simp only [Src.nat, hword, if_true, Bool.false_eq_true, if_false]
          rw [(perm_word_a (ob := o) (pb := p) (nb := 0) _ _ hw).2.2.1 hua hb']
        | true =>
          simp only [Src.nat, Src.dword, hword, if_true, toNat_words]
          rw [(perm_word_a (ob := o) (pb := p) (nb := 0) _ _ hw).2.2.1 hua hb', if_neg (by decide), (perm_word_a (ob := o) (pb := p) (n := 2) (nb := 0) _ _ hw).2.2.2.1 hua hb']
      | some e =>
        simp only [hua, Option.isSome_some, if_true] at hword
        have hpa : permuted a = true := by
          rw [hua] at ha
          cases a with
          | imm v => simp [srcPerm] at ha
          | reg o' p' => cases p' <;> simp_all [srcPerm, permuted]
        have hwf : wide = false := by simpa [hpa, hpb] using hp
        subst hwf
        simp only [Src.nat, hword, Bool.false_eq_true, if_false]
        rw [(perm_word_a (ob := e.1) (pb := e.2.1) (nb := e.2.2) _ _ hw).2.2.2.2.2 hua hb']

end Sys2Proof.Machine
end

