-- ==== Sys2Proof/Laws/Put.lean ====
section
/-! SUPPORT. A beat that writes one destination, perhaps a predicate and flags, and what the whole instruction then leaves. -/

namespace Sys2Proof.Machine

/-- The word that a storage of a destination takes of a value. -/
def refWord (d : Opd) (pos : Position) (woff : Nat) (r : Ref) (n : Nat) : Word :=
  if r = d.ref pos woff 0 then BitVec.ofNat 32 n else BitVec.ofNat 32 (n / 2 ^ 32)

theorem extract_low (n : Nat) : (BitVec.ofNat 64 n).extractLsb' 0 32 = BitVec.ofNat 32 n := by
  apply BitVec.eq_of_toNat_eq
  simp only [BitVec.extractLsb'_toNat, BitVec.toNat_ofNat, Nat.shiftRight_zero]
  omega

theorem extract_high (n : Nat) : (BitVec.ofNat 64 n).extractLsb' 32 32 = BitVec.ofNat 32 (n / 2 ^ 32) := by
  apply BitVec.eq_of_toNat_eq
  simp only [BitVec.extractLsb'_toNat, BitVec.toNat_ofNat, Nat.shiftRight_eq_div_pow]
  omega

/-- A word of a destination written. -/
theorem put_read (d : Opd) (env : Env) (rf : RF) (i b : Nat) (w : Word) (hb : b < 64) (r : Ref) (q : Nat) (hq : q < 64) :
    (d.put env rf i b w).read r q = if r = d.ref env.pos env.woff i ∧ r ≠ .none ∧ (q = b ∨ r.once = true) then w else rf.read r q := by
  cases d with
  | v k =>
    simp only [Opd.put, read_write _ _ _ _ _ _ hb hq]
    by_cases h : r = (Opd.v k).ref env.pos env.woff i
    · subst h; rfl
    · simp [h]
  | s k =>
    simp only [Opd.put, read_write _ _ _ _ _ _ hb hq]
    by_cases h : r = (Opd.s k).ref env.pos env.woff i
    · subst h; rfl
    · simp [h]
  | sp y =>
    have hn : ((Opd.sp y)).ref env.pos env.woff i = .none := rfl
    rw [hn, if_neg (fun e => e.2.1 e.1)]
    rfl
  | sz =>
    have hn : (Opd.sz).ref env.pos env.woff i = .none := rfl
    rw [hn, if_neg (fun e => e.2.1 e.1)]
    rfl

@[simp] theorem put_pred (d : Opd) (env : Env) (rf : RF) (i b : Nat) (w : Word) (p : BitVec 3) (c : Nat) : (d.put env rf i b w).regs.pred p c = rf.regs.pred p c := by
  cases d <;> simp [Opd.put]
@[simp] theorem put_flags (d : Opd) (env : Env) (rf : RF) (i b : Nat) (w : Word) : (d.put env rf i b w).regs.flags = rf.regs.flags := by cases d <;> simp [Opd.put]
@[simp] theorem put_bars (d : Opd) (env : Env) (rf : RF) (i b : Nat) (w : Word) : (d.put env rf i b w).slot.bars = rf.slot.bars := by cases d <;> simp [Opd.put]
theorem put_control (d : Opd) (env : Env) (rf : RF) (i b : Nat) (w : Word) : rf.regs.Control (d.put env rf i b w).regs := by
  cases d <;> first | exact write_control _ _ _ _ | exact .refl _
theorem put_sound {rf : RF} (h : rf.Sound) (d : Opd) (env : Env) (i b : Nat) (w : Word) : (d.put env rf i b w).Sound := by
  cases d <;> first | exact h.write _ _ _ | exact h

/-- A value written into a destination. -/
theorem putNat_read (d : Opd) (env : Env) (rf : RF) (wide : Bool) (b n : Nat) (hb : b < 64) (r : Ref) (q : Nat) (hq : q < 64) :
    (d.putNat env rf wide b n).read r q =
      if r ∈ d.refs env.pos env.woff (regsOf wide) ∧ r ≠ .none ∧ (q = b ∨ r.once = true) then refWord d env.pos env.woff r n else rf.read r q := by
  have hmem : ∀ k, r ≠ .none → (r ∈ d.refs env.pos env.woff k ↔ ∃ i, i < k ∧ r = d.ref env.pos env.woff i) := by
    intro k hr
    constructor
    · exact mem_refs
    · rintro ⟨i, hi, rfl⟩; exact ref_mem_refs _ _ _ hi hr
  by_cases hr : r = .none
  · subst hr
    cases wide <;> simp [Opd.putNat, Opd.putD, put_read _ _ _ _ _ _ hb _ _ hq]
  cases wide with
  | false =>
    simp only [Opd.putNat, Bool.false_eq_true, if_false, put_read _ _ _ _ _ _ hb _ _ hq, hmem _ hr, regsOf, refWord]
    by_cases h : r = d.ref env.pos env.woff 0
    · subst h; simp
    · rw [if_neg (fun e => h e.1), if_neg]
      rintro ⟨⟨i, hi, h'⟩, -⟩
      have : i = 0 := by omega
      subst this; exact h h'
  | true =>
    simp only [Opd.putNat, if_true, Opd.putD, extract_low, extract_high, put_read _ _ _ _ _ _ hb _ _ hq, hmem _ hr, regsOf, refWord]
    by_cases h0 : r = d.ref env.pos env.woff 0
    · have h1 : r ≠ d.ref env.pos env.woff 1 := by rw [h0]; exact ref_zero_ne_one _ _ _ (h0 ▸ hr)
      rw [if_neg (fun e => h1 e.1)]
      by_cases hc : q = b ∨ r.once = true
      · rw [if_pos ⟨h0, hr, hc⟩, if_pos ⟨⟨0, by omega, h0⟩, hr, hc⟩, if_pos h0]
      · rw [if_neg (fun e => hc e.2.2), if_neg (fun e => hc e.2.2)]
    · rw [if_neg h0]
      by_cases h1 : r = d.ref env.pos env.woff 1
      · by_cases hc : q = b ∨ r.once = true
        · rw [if_pos ⟨h1, hr, hc⟩, if_pos ⟨⟨1, by omega, h1⟩, hr, hc⟩]
        · rw [if_neg (fun e => hc e.2.2), if_neg (fun e => h0 e.1), if_neg (fun e => hc e.2.2)]
      · rw [if_neg (fun e => h1 e.1), if_neg (fun e => h0 e.1), if_neg]
        rintro ⟨⟨i, hi, h'⟩, -⟩
        have : i = 0 ∨ i = 1 := by omega
        rcases this with rfl | rfl
        · exact h0 h'
        · exact h1 h'

@[simp] theorem putNat_pred (d : Opd) (env : Env) (rf : RF) (wide : Bool) (b n : Nat) (p : BitVec 3) (c : Nat) : (d.putNat env rf wide b n).regs.pred p c = rf.regs.pred p c := by
  cases wide <;> simp [Opd.putNat, Opd.putD]
@[simp] theorem putNat_flags (d : Opd) (env : Env) (rf : RF) (wide : Bool) (b n : Nat) : (d.putNat env rf wide b n).regs.flags = rf.regs.flags := by
  cases wide <;> simp [Opd.putNat, Opd.putD]
@[simp] theorem putNat_bars (d : Opd) (env : Env) (rf : RF) (wide : Bool) (b n : Nat) : (d.putNat env rf wide b n).slot.bars = rf.slot.bars := by
  cases wide <;> simp [Opd.putNat, Opd.putD]
theorem putNat_control (d : Opd) (env : Env) (rf : RF) (wide : Bool) (b n : Nat) : rf.regs.Control (d.putNat env rf wide b n).regs := by
  cases wide
  · exact put_control _ _ _ _ _ _
  · exact (put_control _ _ _ _ _ _).trans (put_control _ _ _ _ _ _)
theorem putNat_sound {rf : RF} (h : rf.Sound) (d : Opd) (env : Env) (wide : Bool) (b n : Nat) : (d.putNat env rf wide b n).Sound := by
  cases wide
  · exact put_sound h _ _ _ _ _
  · exact put_sound (put_sound h _ _ _ _ _) _ _ _ _ _

@[simp] theorem raise_read (rf : RF) (e : Events) (r : Ref) (q : Nat) : (rf.raise e).read r q = rf.read r q := by cases r <;> rfl
@[simp] theorem raise_pred (rf : RF) (e : Events) (p : BitVec 3) (q : Nat) : (rf.raise e).regs.pred p q = rf.regs.pred p q := rfl
@[simp] theorem raise_flags (rf : RF) (e : Events) : (rf.raise e).regs.flags = rf.regs.flags ||| e := rfl
@[simp] theorem raise_slot (rf : RF) (e : Events) : (rf.raise e).slot = rf.slot := rfl
theorem raise_control (rf : RF) (e : Events) : rf.regs.Control (rf.raise e).regs := by constructor <;> rfl
theorem raise_sound {rf : RF} (h : rf.Sound) (e : Events) : (rf.raise e).Sound := h
theorem raise_zero (rf : RF) : rf.raise 0 = rf := by simp [RF.raise, Regs.raise]

/-- A predicate set, if there is one to set. -/
def RF.setOpt (rf : RF) (p : Option (BitVec 3)) (b : Nat) (x : Bool) : RF := p.elim rf fun p => rf.setPred p b x

/-- What one beat makes of the registers: a destination, perhaps a predicate, events. -/
def putBeat (d : Opd) (env : Env) (wide : Bool) (b : Nat) (p : Option (BitVec 3)) (n : Nat) (x : Bool) (e : Events) (rf : RF) : RF :=
  ((d.putNat env rf wide b n).setOpt p b x).raise e

/-- The effect of such a beat. -/
def putEffect (d : Opd) (pos : Position) (woff : Nat) (val : Dword → Nat) (pv : Dword → Bool) (ev : Dword → Events) (next : Dword → Dword) : BeatEffect :=
  { word := fun c r => refWord d pos woff r (val c), pred := fun c _ => pv c, events := ev, next := next }

theorem putBeat_control (d : Opd) (env : Env) (wide : Bool) (b : Nat) (p : Option (BitVec 3)) (n : Nat) (x : Bool) (e : Events) (rf : RF) :
    rf.regs.Control (putBeat d env wide b p n x e rf).regs := by
  cases p with
  | none => exact (putNat_control _ _ _ _ _ _).trans (raise_control _ _)
  | some p => exact ((putNat_control _ _ _ _ _ _).trans (setPred_control _ _ _ _)).trans (raise_control _ _)

theorem putBeat_sound {rf : RF} (h : rf.Sound) (d : Opd) (env : Env) (wide : Bool) (b : Nat) (p : Option (BitVec 3)) (n : Nat) (x : Bool) (e : Events) :
    (putBeat d env wide b p n x e rf).Sound := by
  cases p with
  | none => exact putNat_sound h _ _ _ _ _
  | some p => exact (putNat_sound h _ _ _ _ _).setPred _ _ _

/-- A beat that writes a destination, perhaps a predicate, and flags has that effect and no other. -/
theorem local_put {before : RF} {d : Opd} {env : Env} {wide : Bool} {b : Nat} (hb : b < 64) {p : Option (BitVec 3)} {val : Dword → Nat} {pv : Dword → Bool}
    {ev : Dword → Events} {next : Dword → Dword} {body : RF × Dword → RF × Dword}
    (hform : ∀ a, ∃ n x e c, body a = (putBeat d env wide b p n x e a.1, c))
    (hbody : ∀ rf c, SameAt before rf (d.refs env.pos env.woff (regsOf wide)) p.toList b → body (rf, c) = (putBeat d env wide b p (val c) (pv c) (ev c) rf, next c)) :
    LocalBeat before (d.refs env.pos env.woff (regsOf wide)) p.toList b body (putEffect d env.pos env.woff val pv ev next) where
  read rf c hs r q hq := by
    rw [hbody rf c hs]
    have : (putBeat d env wide b p (val c) (pv c) (ev c) rf).read r q = (d.putNat env rf wide b (val c)).read r q := by
      cases p <;> simp [putBeat, RF.setOpt]
    simp only [this, putNat_read _ _ _ _ _ _ hb _ _ hq, putEffect]
  pred rf c hs k q hq := by
    rw [hbody rf c hs]
    cases p with
    | none => simp [putBeat, RF.setOpt]
    | some p =>
      have : (putBeat d env wide b (some p) (val c) (pv c) (ev c) rf).regs.pred k q = ((d.putNat env rf wide b (val c)).regs.setPred p b (pv c)).pred k q := rfl
      simp only [this, pred_setPred _ _ _ _ _ _ hb hq, putNat_pred, putEffect, Option.toList_some, List.mem_singleton]
      by_cases hk : k = p
      · subst hk; rfl
      · rw [if_neg (fun h => hk h.1), if_neg (fun h => hk h.1)]
  flags rf c hs := by
    rw [hbody rf c hs]
    cases p <;> simp [putBeat, RF.setOpt, putEffect]
  carry rf c hs := by rw [hbody rf c hs]; rfl
  bars a := by
    obtain ⟨n, x, e, c, h⟩ := hform a
    rw [h]
    cases p <;> simp [putBeat, RF.setOpt]
  control a := by
    obtain ⟨n, x, e, c, h⟩ := hform a
    rw [h]
    exact putBeat_control _ _ _ _ _ _ _ _ _
  sound a ha := by
    obtain ⟨n, x, e, c, h⟩ := hform a
    rw [h]
    exact putBeat_sound ha _ _ _ _ _ _ _ _

/-! ## The whole instruction -/

theorem foldl_or (l : List Nat) (ev : Nat → Events) (f : Events) : l.foldl (fun f b => f ||| ev b) f = f ||| orAll (l.map ev) := by
  have key : ∀ (m : List Events) (f g : Events), m.foldl (· ||| ·) (f ||| g) = f ||| m.foldl (· ||| ·) g := by
    intro m
    induction m with
    | nil => intro f g; rfl
    | cons a m ih => intro f g; simp only [List.foldl_cons]; rw [BitVec.or_assoc]; exact ih f (g ||| a)
  have := key (l.map ev) f 0
  have h0 : f ||| (0 : Events) = f := BitVec.or_zero
  rw [h0] at this
  rw [← List.foldl_map (f := ev) (g := fun f b => f ||| b), this]
  rfl

/-- What an instruction leaves whose beats write one destination, perhaps a predicate, and flags. -/
structure PutResult (s t : State) (x y : Fibre) (beats : List Nat) (d : Opd) (wide : Bool) (p : Option (BitVec 3)) (val : Nat → Nat) (pv : Nat → Bool)
    (ev : Nat → Events) : Prop where
  stepped : s.Stepped t x y
  value : ∀ b ∈ beats, ∀ i, i < regsOf wide → d.ref x.pos x.regs.woff i ≠ .none →
    t.word s.iss.fibre (d.ref x.pos x.regs.woff i) b = BitVec.ofNat 32 (val b / 2 ^ (32 * i))
  rest : ∀ r q, q < 64 → ¬(r ∈ d.refs x.pos x.regs.woff (regsOf wide) ∧ (q ∈ beats ∨ r.once = true ∧ beats ≠ [])) →
    t.word s.iss.fibre r q = s.word s.iss.fibre r q
  pred : ∀ k, p = some k → k ≠ 7 → ∀ b ∈ beats, t.pred s.iss.fibre k b = pv b
  preds : ∀ k q, q < 64 → ¬(p = some k ∧ q ∈ beats) → t.pred s.iss.fibre k q = s.pred s.iss.fibre k q
  flags : y.regs.flags = x.regs.flags ||| orAll (beats.map ev)

theorem refWord_ref (d : Opd) (pos : Position) (woff : Nat) (n : Nat) {i : Nat} (hi : i < 2) (h : d.ref pos woff i ≠ .none) :
    refWord d pos woff (d.ref pos woff i) n = BitVec.ofNat 32 (n / 2 ^ (32 * i)) := by
  have : i = 0 ∨ i = 1 := by omega
  rcases this with rfl | rfl
  · simp [refWord]
  · have h1 : d.ref pos woff 1 ≠ d.ref pos woff 0 := by
      intro he
      exact ref_zero_ne_one pos woff d (he ▸ h) he.symm
    simp [refWord, h1]

theorem stepped_here_same {s : State} {x : Fibre} (hs : s.Settled x) (r : Ref) (q : Nat) : s.word s.iss.fibre r q = (s.rf s.iss.fibre x).read r q := by
  simp [State.word, hs.here]

/-- Such an instruction, issued where nothing is owed to its fibre. -/
theorem compute_put {s : State} {x : Fibre} (hs : s.Settled x) (h : Hdr) {u : Uses} (hf : u.Fits x) {d : Opd} {wide : Bool} {p : Option (BitVec 3)}
    {val : Nat → Nat} {pv : Nat → Bool} {ev : Nat → Events} {body : Env → Nat → RF → RF}
    (hD : d.perThread = true ∨ d = .sz ∨ u.uni = true)
    (hform : ∀ env b rf, ∃ n z e, body env b rf = putBeat d env wide b p n z e rf)
    (hbody : ∀ b ∈ s.beatsOf h u.uni x, ∀ rf, SameAt (s.rf s.iss.fibre x) rf (d.refs x.pos x.regs.woff (regsOf wide)) p.toList b →
      body (s.planOf h u x).env b rf = putBeat d (s.planOf h u x).env wide b p (val b) (pv b) (ev b) rf) :
    ∃ y, PutResult s (s.compute h u body) x y (s.beatsOf h u.uni x) d wide p val pv ev := by
  have hD' : (∀ r ∈ d.refs x.pos x.regs.woff (regsOf wide), r.once = false) ∨ u.uni = true := by
    rcases hD with hD | hD | hD
    · left
      intro r hr
      obtain ⟨i, -, rfl⟩ := mem_refs hr
      exact not_once_of_perThread _ _ _ _ hD
    · left; subst hD; simp [Opd.refs]
    · exact .inr hD
  obtain ⟨y, rf, c, h1, h2, h3, h4, hd⟩ := settled_done hs h hf (init := fun _ _ => 0) (body := fun env b a => (body env b a.1, a.2))
    (D := d.refs x.pos x.regs.woff (regsOf wide)) (P := p.toList)
    (e := fun b => putEffect d x.pos x.regs.woff (fun _ => val b) (fun _ => pv b) (fun _ => ev b) id) hD'
    (fun b hb => by
      refine local_put (env := (s.planOf h u x).env) (lt64_of_beatsOf hb) ?_ ?_
      · intro a
        obtain ⟨n, z, e, he⟩ := hform (s.planOf h u x).env b a.1
        exact ⟨n, z, e, a.2, by simp [he]⟩
      · intro rf c hsame
        rw [hbody b hb rf hsame]; rfl)
    (fun env b a ha => by
      obtain ⟨n, z, e, he⟩ := hform env b a.1
      rw [he]
      exact putBeat_sound ha _ _ _ _ _ _ _ _)
  have heq : s.compute h u body = s.afterIssue h u x rf := h1
  have hw : ∀ r q, (s.compute h u body).word s.iss.fibre r q = rf.read r q := fun r q => by rw [heq]; exact word_of_fib h2.here h3 h4 r q
  have hp : ∀ k q, (s.compute h u body).pred s.iss.fibre k q = rf.regs.pred k q := fun k q => by rw [heq]; exact pred_of_fib h2.here h3 k q
  refine ⟨y, by rw [heq]; exact h2, ?_, ?_, ?_, ?_, ?_⟩
  · intro b hb i hi hn
    have hi2 : i < 2 := by cases wide <;> simp [regsOf] at hi <;> omega
    rw [hw, hd.word b hb _ (ref_mem_refs _ _ _ hi hn) hn]
    exact refWord_ref d _ _ _ hi2 hn
  · intro r q hq hr
    rw [hw, hd.rest r q hq hr, stepped_here_same hs]
  · intro k hk h7 b hb
    rw [hp, hd.pred b hb k (by simp [hk]) h7]; rfl
  · intro k q hq hk
    rw [hp, hd.preds k q hq (by simpa [eq_comm] using hk)]
    simp [State.pred, hs.here, State.rf]
  · rw [h3, hd.flags]
    exact foldl_or _ _ _

/-- The destination, where the instruction acts once exactly when its destination is of a scalar class (R150). -/
theorem PutResult.wrote {s t : State} {x y : Fibre} {h : Hdr} {d : Opd} {wide : Bool} {p : Option (BitVec 3)} {val : Nat → Nat} {pv : Nat → Bool}
    {ev : Nat → Events} (r : PutResult s t x y (s.beatsOf h (!d.perThread) x) d wide p val pv ev) : s.Wrote t x h d wide val where
  value := r.value
  rest := fun q b hb hn => r.rest q b hb (by
    rintro ⟨h1, h2⟩
    refine hn ⟨h1, ?_⟩
    rcases h2 with h2 | ⟨h2, h3⟩
    · exact .inl h2
    · right
      obtain ⟨i, -, rfl⟩ := mem_refs h1
      constructor
      · cases hd : d.perThread
        · rfl
        · rw [not_once_of_perThread _ _ _ _ hd] at h2; exact absurd h2 (by simp)
      · intro h0; apply h3; simp [State.beatsOf, h0])

theorem PutResult.predsStand {s t : State} {x y : Fibre} {l : List Nat} {d : Opd} {wide : Bool} {val : Nat → Nat} {pv : Nat → Bool}
    {ev : Nat → Events} (r : PutResult s t x y l d wide none val pv ev) : s.PredsStand t := fun k q hq => r.preds k q hq (by simp)

theorem PutResult.wordsStand {s t : State} {x y : Fibre} {l : List Nat} {wide : Bool} {p : Option (BitVec 3)} {val : Nat → Nat} {pv : Nat → Bool}
    {ev : Nat → Events} (r : PutResult s t x y l .sz wide p val pv ev) : s.WordsStand t := fun k q hq => r.rest k q hq (by simp [Opd.refs])

theorem PutResult.wrotePred {s t : State} {x y : Fibre} {h : Hdr} {d : Opd} {wide : Bool} {p : BitVec 3} {val : Nat → Nat} {pv : Nat → Bool}
    {ev : Nat → Events} (r : PutResult s t x y (s.beatsOf h false x) d wide (some p) val pv ev) : s.WrotePred t x h p pv where
  value := fun b hb h7 => r.pred p rfl h7 b hb
  rest := fun q b hb hn => by
    by_cases h7 : p = 7
    · by_cases hq : q = p
      · subst hq; subst h7
        simp only [State.pred]
        have : ∀ (o : Option Fibre), (o.elim true fun x => x.regs.pred 7 b) = true := by
          intro o; cases o <;> simp [Regs.pred]
        rw [this, this]
      · exact r.preds q b hb (by simp [Ne.symm hq])
    · exact r.preds q b hb (by rintro ⟨h1, h2⟩; exact hn ⟨(Option.some.inj h1).symm, h7, h2⟩)

/-- The carry out of an instruction that acts once exactly when its destination is of a scalar class (R305, R150). -/
theorem PutResult.carried {s t : State} {x y : Fibre} {h : Hdr} {d : Opd} {wide : Bool} {p : BitVec 3} {val : Nat → Nat} {pv : Nat → Bool}
    {ev : Nat → Events} (r : PutResult s t x y (s.beatsOf h (!d.perThread) x) d wide (some p) val pv ev) : s.Carried t x h d p pv where
  value := fun b hb h7 => r.pred p rfl h7 b hb
  rest := fun q b hb hn => by
    by_cases h7 : p = 7
    · by_cases hq : q = p
      · subst hq; subst h7
        simp only [State.pred]
        have : ∀ (o : Option Fibre), (o.elim true fun x => x.regs.pred 7 b) = true := by
          intro o; cases o <;> simp [Regs.pred]
        rw [this, this]
      · exact r.preds q b hb (by simp [Ne.symm hq])
    · exact r.preds q b hb (by rintro ⟨h1, h2⟩; exact hn ⟨(Option.some.inj h1).symm, h7, h2⟩)

theorem orAll_zero (l : List Nat) : orAll (l.map fun _ => (0 : Events)) = 0 := by
  induction l with
  | nil => rfl
  | cons b l ih => simpa [orAll] using ih

end Sys2Proof.Machine
end

