-- ==== Sys2Proof/Laws/Alu.lean ====
section
/-! SUPPORT. The shapes of the integer and floating-point instructions, issued where nothing is owed to their fibre. -/

namespace Sys2Proof.Machine

theorem mem_srcGroup {a : Src} {n : Nat} {e : Opd × Nat} (h : e ∈ srcGroup a n) {x : Fibre} (ha : a.Fits x n) : e.1.Fits x e.2 := by
  cases a with
  | imm v => simp [srcGroup] at h
  | reg o p =>
    cases p <;> simp [srcGroup] at h
    subst h; exact ha

theorem mem_srcPerm {a : Src} {n : Nat} {e : Opd × Nat} (h : e ∈ (srcPerm a n).elim [] fun e => [(e.1, e.2.2)]) {x : Fibre} (ha : a.Fits x n) : e.1.Fits x e.2 := by
  cases a with
  | imm v => simp [srcPerm] at h
  | reg o p => cases p <;> simp [srcPerm] at h <;> (subst h; exact ha)

/-- The groups of an instruction of the common shape fit where its operands do. -/
theorem fits_alu {u : Uses} {x : Fibre} {a b : Src} {na nb : Nat} {c w : List (Opd × Nat)} (hrd : u.rd = srcGroup a na ++ srcGroup b nb ++ c) (hwr : u.wr = w)
    (hua : u.a = srcPerm a na) (hub : u.b = srcPerm b nb) (hph : u.phase = []) (ha : a.Fits x na) (hb : b.Fits x nb) (hc : ∀ e ∈ c, e.1.Fits x e.2) (hw : ∀ e ∈ w, e.1.Fits x e.2) :
    u.Fits x := by
  intro e he
  simp only [Uses.groups, hrd, hwr, hua, hub, hph, List.append_nil, List.mem_append] at he
  rcases he with (((((he | he) | he) | he) | he) | he)
  · exact mem_srcGroup he ha
  · exact mem_srcGroup he hb
  · exact hc e he
  · exact hw e he
  · exact mem_srcPerm he ha
  · exact mem_srcPerm he hb

theorem single_fits {d : Opd} {x : Fibre} {n : Nat} (h : d.Fits x n) : ∀ e ∈ [(d, n)], e.1.Fits x e.2 := by simpa using h

theorem nil_fits (x : Fibre) : ∀ e ∈ ([] : List (Opd × Nat)), e.1.Fits x e.2 := by simp

/-- The never-taken second source of a one-source instruction. -/
theorem imm_fits (x : Fibre) (n : Nat) : (Src.imm 0).Fits x n := trivial

theorem putNat_eq (d : Opd) (env : Env) (rf : RF) (wide : Bool) (b n : Nat) : d.putNat env rf wide b n = putBeat d env wide b none n false 0 rf := by
  simp only [putBeat, RF.setOpt, Option.elim_none]; exact (raise_zero _).symm

theorem perThread_or (d : Opd) : d.perThread = true ∨ d = .sz ∨ (!d.perThread) = true := by cases d.perThread <;> simp

/-- An instruction of one source. -/
theorem alu1_settled {s : State} {x : Fibre} (hs : s.Settled x) (h : Hdr) (lat : Nat) {wd wa : Bool} {d : Opd} {a : Src} (f : Nat → Nat)
    (hd : d.Fits x (regsOf wd)) (ha : a.Fits x (regsOf wa)) :
    ∃ y, PutResult s (s.alu1 h lat wd wa d a f) x y (s.beatsOf h (!d.perThread) x) d wd none (fun b => f (a.value s x wa b)) (fun _ => false) (fun _ => 0) := by
  refine compute_put hs h (u := .alu lat d (regsOf wd) a (regsOf wa) (.imm 0) 0 []) ?_ (perThread_or d) ?_ ?_
  · exact fits_alu rfl rfl rfl rfl rfl ha (imm_fits _ _) (nil_fits x) (single_fits hd)
  · intro env b rf; exact ⟨_, _, _, putNat_eq _ _ _ _ _ _⟩
  · intro b hb rf hsame
    rw [putNat_eq, src_value_a h (b := .imm 0) (nb := 0) rfl rfl (by simp [permuted]) hb hsame]

/-- An instruction of two sources. -/
theorem alu2_settled {s : State} {x : Fibre} (hs : s.Settled x) (h : Hdr) (lat : Nat) {wd wa wb : Bool} {d : Opd} {a b : Src} (f : Nat → Nat → Nat) (pr : Bool)
    (hd : d.Fits x (regsOf wd)) (ha : a.Fits x (regsOf wa)) (hb : b.Fits x (regsOf wb)) (hp : ((wa || wb) && permuted a && permuted b) = false) :
    ∃ y, PutResult s (s.alu2 h lat wd wa wb d a b f pr) x y (s.beatsOf h (!d.perThread) x) d wd none (fun c => f (a.value s x wa c) (b.value s x wb c))
      (fun _ => false) (fun _ => 0) := by
  refine compute_put hs h (u := .alu lat d (regsOf wd) a (regsOf wa) b (regsOf wb) [] pr) ?_ (perThread_or d) ?_ ?_
  · exact fits_alu rfl rfl rfl rfl rfl ha hb (nil_fits x) (single_fits hd)
  · intro env b rf; exact ⟨_, _, _, putNat_eq _ _ _ _ _ _⟩
  · intro c hc rf hsame
    rw [putNat_eq, src_value_a h (nb := regsOf wb) rfl rfl (by cases wa <;> simp_all) hc hsame,
      src_value_b h (na := regsOf wa) rfl rfl (by cases wb <;> simp_all) hc hsame]

/-- An instruction of three sources, C last. -/
theorem alu3_settled {s : State} {x : Fibre} (hs : s.Settled x) (h : Hdr) (lat : Nat) {wd wc : Bool} {d : Opd} {a b : Src} {c : Opd} (f : Nat → Nat → Nat → Nat) (pr : Bool)
    (hd : d.Fits x (regsOf wd)) (ha : a.Fits x 1) (hb : b.Fits x 1) (hc : c.Fits x (regsOf wc)) :
    ∃ y, PutResult s (s.alu3 h lat wd wc d a b c f pr) x y (s.beatsOf h (!d.perThread) x) d wd none
      (fun t => f (a.value s x false t) (b.value s x false t) (c.value s x wc t)) (fun _ => false) (fun _ => 0) := by
  refine compute_put hs h (u := .alu lat d (regsOf wd) a 1 b 1 [(c, regsOf wc)] pr) ?_ (perThread_or d) ?_ ?_
  · exact fits_alu rfl rfl rfl rfl rfl ha hb (single_fits hc) (single_fits hd)
  · intro env b rf; exact ⟨_, _, _, putNat_eq _ _ _ _ _ _⟩
  · intro t ht rf hsame
    rw [putNat_eq, src_value_a h (nb := 1) (wide := false) rfl rfl (by simp) ht hsame, src_value_b h (na := 1) (wide := false) rfl rfl (by simp) ht hsame,
      opd_value h _ (lt64_of_beatsOf ht) hsame]

theorem getPred_same {s : State} {x : Fibre} (h : Hdr) (u : Uses) {rf : RF} {D : List Ref} {P : List (BitVec 3)} {b : Nat} (hb : b < 64)
    (hs : SameAt (s.rf s.iss.fibre x) rf D P b) (p : BitVec 3) : rf.getPred (s.planOf h u x).env p b = x.regs.pred p b := by
  have : rf.getPred (s.planOf h u x).env p b = rf.regs.pred p b := rfl
  rw [this, hs.pred p b hb (.inr rfl)]; rfl

/-- The carry or borrow an addition takes in (R305). -/
def carryIn (x : Fibre) (ci : BitVec 3) (b : Nat) : Nat := (ci != 0 && x.regs.pred (ci - 1) b).toNat

/-- IADD and ISUB. -/
theorem addSub_settled {s : State} {x : Fibre} (hs : s.Settled x) (sub : Bool) (h : Hdr) (ty : Ty) (co ci : BitVec 3) {d : Opd} {a b : Src}
    (hd : d.Fits x (regsOf ty.is64)) (ha : a.Fits x (regsOf ty.is64)) (hb : b.Fits x (regsOf ty.is64)) (hp : (ty.is64 && permuted a && permuted b) = false) :
    ∃ y, PutResult s (s.addSub sub h ty co ci d a b) x y (s.beatsOf h (!d.perThread) x) d ty.is64 (if co = 0 then none else some (co - 1))
      (fun t => (addCarry sub ty.width (a.value s x ty.is64 t) (b.value s x ty.is64 t) (carryIn x ci t)).1)
      (fun t => (addCarry sub ty.width (a.value s x ty.is64 t) (b.value s x ty.is64 t) (carryIn x ci t)).2) (fun _ => 0) := by
  have hform : ∀ (env : Env) (b n : Nat) (z : Bool) (rf : RF), (if co = 0 then d.putNat env rf ty.is64 b n else (d.putNat env rf ty.is64 b n).setPred (co - 1) b z) =
      putBeat d env ty.is64 b (if co = 0 then none else some (co - 1)) n z 0 rf := by
    intro env b n z rf
    unfold putBeat
    split <;> exact (raise_zero _).symm
  unfold State.addSub
  refine compute_put hs h (u := { Uses.alu 4 d (regsOf ty.is64) a (regsOf ty.is64) b (regsOf ty.is64) [] true with pr := carryPred ci, pw := carryPred co })
    ?_ (perThread_or d) ?_ ?_
  · exact fits_alu rfl rfl rfl rfl rfl ha hb (nil_fits x) (single_fits hd)
  · intro env t rf; exact ⟨_, _, _, hform _ _ _ _ _⟩
  · intro t ht rf hsame
    dsimp only
    rw [hform, src_value_a h (nb := regsOf ty.is64) rfl rfl (by simpa using hp) ht hsame,
      src_value_b h (na := regsOf ty.is64) rfl rfl (by simpa using hp) ht hsame, getPred_same h _ (lt64_of_beatsOf ht) hsame]
    rfl

/-- A comparison into a predicate; every active thread has its own (R303). -/
theorem compare_settled {s : State} {x : Fibre} (hs : s.Settled x) (h : Hdr) {u : Uses} {wide : Bool} {p : BitVec 3} {a b : Src} {g : Nat → Nat → Bool × Events}
    (hrd : u.rd = srcGroup a (regsOf wide) ++ srcGroup b (regsOf wide) ++ []) (hwr : u.wr = []) (hua : u.a = srcPerm a (regsOf wide))
    (hub : u.b = srcPerm b (regsOf wide)) (huni : u.uni = false) (hph : u.phase = [])
    (ha : a.Fits x (regsOf wide)) (hb : b.Fits x (regsOf wide)) (hp : (wide && permuted a && permuted b) = false) :
    ∃ y, PutResult s (s.compute h u fun env t rf => (rf.setPred p t (g (a.nat env rf false wide t) (b.nat env rf true wide t)).1).raise
        (g (a.nat env rf false wide t) (b.nat env rf true wide t)).2) x y (s.beatsOf h false x) .sz false (some p) (fun _ => 0)
      (fun t => (g (a.value s x wide t) (b.value s x wide t)).1) (fun t => (g (a.value s x wide t) (b.value s x wide t)).2) := by
  have hbeq : s.beatsOf h false x = s.beatsOf h u.uni x := by rw [huni]
  rw [hbeq]
  refine compute_put hs h (fits_alu hrd hwr hua hub hph ha hb (nil_fits x) (nil_fits x)) (.inr (.inl rfl)) ?_ ?_
  · intro env t rf; exact ⟨0, _, _, rfl⟩
  · intro t ht rf hsame
    rw [src_value_a h hua hub hp ht hsame, src_value_b h hua hub hp ht hsame]
    rfl

/-! ## Floating point -/

/-- A floating-point instruction of two sources. -/
theorem fpTwo_settled {s : State} {x : Fibre} (hs : s.Settled x) (h : Hdr) {u : Uses} {wide : Bool} {d : Opd} {a b : Src} {g : Nat → Nat → Nat × Events}
    (hrd : u.rd = srcGroup a (regsOf wide) ++ srcGroup b (regsOf wide) ++ []) (hwr : u.wr = [(d, regsOf wide)]) (hua : u.a = srcPerm a (regsOf wide))
    (hub : u.b = srcPerm b (regsOf wide)) (huni : u.uni = !d.perThread) (hph : u.phase = [])
    (hd : d.Fits x (regsOf wide)) (ha : a.Fits x (regsOf wide)) (hb : b.Fits x (regsOf wide)) (hp : (wide && permuted a && permuted b) = false) :
    ∃ y, PutResult s (s.compute h u fun env t rf => (d.putNat env rf wide t (g (a.nat env rf false wide t) (b.nat env rf true wide t)).1).raise
        (g (a.nat env rf false wide t) (b.nat env rf true wide t)).2) x y (s.beatsOf h (!d.perThread) x) d wide none
      (fun t => (g (a.value s x wide t) (b.value s x wide t)).1) (fun _ => false) (fun t => (g (a.value s x wide t) (b.value s x wide t)).2) := by
  refine huni ▸ compute_put hs h (fits_alu hrd hwr hua hub hph ha hb (nil_fits x) (single_fits hd)) (huni ▸ perThread_or d) ?_ ?_
  · intro env t rf; exact ⟨_, false, _, rfl⟩
  · intro t ht rf hsame
    rw [src_value_a h hua hub hp ht hsame, src_value_b h hua hub hp ht hsame]
    rfl

/-- A floating-point instruction of three sources. -/
theorem fpThree_settled {s : State} {x : Fibre} (hs : s.Settled x) (h : Hdr) {u : Uses} {wide : Bool} {d : Opd} {a b : Src} {c : Opd} {g : Nat → Nat → Nat → Nat × Events}
    (hrd : u.rd = srcGroup a (regsOf wide) ++ srcGroup b (regsOf wide) ++ [(c, regsOf wide)]) (hwr : u.wr = [(d, regsOf wide)]) (hua : u.a = srcPerm a (regsOf wide))
    (hub : u.b = srcPerm b (regsOf wide)) (huni : u.uni = !d.perThread) (hph : u.phase = []) (hd : d.Fits x (regsOf wide)) (ha : a.Fits x (regsOf wide)) (hb : b.Fits x (regsOf wide))
    (hc : c.Fits x (regsOf wide)) (hp : (wide && permuted a && permuted b) = false) :
    ∃ y, PutResult s (s.compute h u fun env t rf => (d.putNat env rf wide t (g (a.nat env rf false wide t) (b.nat env rf true wide t) (c.nat env rf wide t)).1).raise
        (g (a.nat env rf false wide t) (b.nat env rf true wide t) (c.nat env rf wide t)).2) x y (s.beatsOf h (!d.perThread) x) d wide none
      (fun t => (g (a.value s x wide t) (b.value s x wide t) (c.value s x wide t)).1) (fun _ => false)
      (fun t => (g (a.value s x wide t) (b.value s x wide t) (c.value s x wide t)).2) := by
  refine huni ▸ compute_put hs h (fits_alu hrd hwr hua hub hph ha hb (single_fits hc) (single_fits hd)) (huni ▸ perThread_or d) ?_ ?_
  · intro env t rf; exact ⟨_, false, _, rfl⟩
  · intro t ht rf hsame
    rw [src_value_a h hua hub hp ht hsame, src_value_b h hua hub hp ht hsame, opd_value h _ (lt64_of_beatsOf ht) hsame]
    rfl

/-- A floating-point instruction of one source. -/
theorem fop1_settled {s : State} {x : Fibre} (hs : s.Settled x) (h : Hdr) (lat : Nat) {wd wa : Bool} {d : Opd} {a : Src} (f : Nat → Nat × Events)
    (hd : d.Fits x (regsOf wd)) (ha : a.Fits x (regsOf wa)) :
    ∃ y, PutResult s (s.fop1 h lat wd wa d a f) x y (s.beatsOf h (!d.perThread) x) d wd none (fun b => (f (a.value s x wa b)).1) (fun _ => false)
      (fun b => (f (a.value s x wa b)).2) := by
  refine compute_put hs h (u := .alu lat d (regsOf wd) a (regsOf wa) (.imm 0) 0 []) ?_ (perThread_or d) ?_ ?_
  · exact fits_alu rfl rfl rfl rfl rfl ha (imm_fits _ _) (nil_fits x) (single_fits hd)
  · intro env b rf; exact ⟨_, false, _, rfl⟩
  · intro b hb rf hsame
    dsimp only
    rw [src_value_a h (b := .imm 0) (nb := 0) rfl rfl (by simp [permuted]) hb hsame]
    rfl

/-! ## From the result to the completion -/

theorem PutResult.computes {s t : State} {x y : Fibre} {i : Instr} {h : Hdr} {d : Opd} {wide : Bool} {val : Nat → Nat} {pv : Nat → Bool}
    (r : PutResult s t x y (s.beatsOf h (!d.perThread) x) d wide none val pv fun _ => 0) (he : exec i s = .next t) : Computes s x i h d wide val :=
  fun _ => ⟨t, y, he, r.stepped, r.wrote, r.predsStand, by rw [r.flags, orAll_zero]; exact BitVec.or_zero⟩

theorem PutResult.computesF {s t : State} {x y : Fibre} {i : Instr} {h : Hdr} {d : Opd} {wide : Bool} {value : Nat → Nat × Events} {pv : Nat → Bool}
    (r : PutResult s t x y (s.beatsOf h (!d.perThread) x) d wide none (fun b => (value b).1) pv fun b => (value b).2) (he : exec i s = .next t) :
    ComputesF s x i h d wide value :=
  fun _ => ⟨t, y, he, r.stepped, r.wrote, r.predsStand, r.flags⟩

theorem PutResult.compares {s t : State} {x y : Fibre} {i : Instr} {h : Hdr} {wide : Bool} {p : BitVec 3} {val : Nat → Nat} {value : Nat → Bool × Events}
    (r : PutResult s t x y (s.beatsOf h false x) .sz wide (some p) val (fun b => (value b).1) fun b => (value b).2) (he : exec i s = .next t) :
    Compares s x i h p value :=
  fun _ => ⟨t, y, he, r.stepped, r.wrotePred, r.wordsStand, r.flags⟩

theorem permOk_wide {a b : Src} {w : Bool} (h : permOk a b w = true) : (w && permuted a && permuted b) = false := by
  have ha : ∀ c : Src, c.permuted = permuted c := by intro c; cases c with | imm v => rfl | reg o p => cases p <;> rfl
  simp only [permOk, ha] at h
  cases w <;> cases hp : permuted a <;> simp_all

end Sys2Proof.Machine
end

