-- ==== Sys2Proof/Laws/Encode.lean ====
section
/-! SUPPORT. The encoder and the decoder of words: fields of an append, a word read back, and what it takes for an instruction to come back from its bytes (R234 to R236). -/

namespace Sys2Proof

/-! ## Fields of an append -/

theorem ext_low {m n k w : Nat} (x : BitVec m) (y : BitVec n) (h : k + w ≤ n) :
    BitVec.extractLsb' (n := no_index (m + n)) k w (HAppend.hAppend (γ := no_index (BitVec (m + n))) x y) = y.extractLsb' k w := by
  ext i hi
  simp only [BitVec.getElem_extractLsb', BitVec.getLsbD_append]
  rw [if_pos (by omega)]

theorem ext_high {m n k w : Nat} (x : BitVec m) (y : BitVec n) (h : n ≤ k) :
    BitVec.extractLsb' (n := no_index (m + n)) k w (HAppend.hAppend (γ := no_index (BitVec (m + n))) x y) = x.extractLsb' (k - n) w := by
  ext i hi
  simp only [BitVec.getElem_extractLsb', BitVec.getLsbD_append]
  rw [if_neg (by omega)]
  congr 1
  omega

theorem ext_all {n : Nat} (x : BitVec n) : x.extractLsb' 0 n = x := by
  ext i hi
  simp

theorem bit_low {m n k : Nat} (x : BitVec m) (y : BitVec n) (h : k < n) :
    BitVec.getLsbD (w := no_index (m + n)) (HAppend.hAppend (γ := no_index (BitVec (m + n))) x y) k = y.getLsbD k := by
  rw [BitVec.getLsbD_append, if_pos h]

theorem bit_high {m n k : Nat} (x : BitVec m) (y : BitVec n) (h : n ≤ k) :
    BitVec.getLsbD (w := no_index (m + n)) (HAppend.hAppend (γ := no_index (BitVec (m + n))) x y) k = x.getLsbD (k - n) := by
  rw [BitVec.getLsbD_append, if_neg (by omega)]

theorem bit_bool (b : Bool) : (BitVec.ofBool b).getLsbD 0 = b := by cases b <;> rfl

theorem ext_wide {m n k w : Nat} (x : BitVec n) (g : k + w ≤ m) : (x.setWidth m).extractLsb' k w = x.extractLsb' k w := by
  ext i hi
  simp only [BitVec.getElem_extractLsb', BitVec.getLsbD_setWidth, decide_eq_true (show k + i < m by omega), Bool.true_and]

theorem bit_wide {m n k : Nat} (x : BitVec n) (g : k < m) : (x.setWidth m).getLsbD k = x.getLsbD k := by
  simp only [BitVec.getLsbD_setWidth, decide_eq_true g, Bool.true_and]

theorem bit_none {n k : Nat} (x : BitVec n) (h : n ≤ k) : x.getLsbD k = false := BitVec.getLsbD_of_ge x k h

/-! ## Codes read back -/

theorem ofBits_bits (o : Opd) : Opd.ofBits o.bits = some o := by
  cases o with
  | v n => simp (disch := omega) only [Opd.bits, Opd.ofBits, ext_low, ext_high, ext_all]; simp
  | s n => simp (disch := omega) only [Opd.bits, Opd.ofBits, ext_low, ext_high, ext_all]; simp
  | sp x => cases x <;> rfl
  | sz => rfl

theorem len_code (l : Len) : Len.ofCode l.code = some l := by cases l <;> rfl
theorem perm_code (p : Perm) : Perm.ofCode p.code p.q = some p := by cases p <;> rfl
theorem ty_code (t : Ty) : Ty.ofCode t.code = some t := by cases t <;> rfl
theorem rm_code (x : Rm) : Rm.ofCode x.code = some x := by cases x <;> rfl
theorem scope_code (x : Option Scope) : Scope.ofCode (Scope.code x) = some x := by
  cases x with
  | none => rfl
  | some y => cases y <;> rfl
theorem ord_code (x : MemOrd) : MemOrd.ofCode x.code = x := by cases x <;> rfl
theorem icmp_code (x : ICmp) : ICmp.ofCode x.code = some x := by cases x <;> rfl
theorem fcmp_code (x : FCmp) : FCmp.ofCode x.code = x := by cases x <;> rfl
theorem aop_code (x : AOp) : AOp.ofCode x.code = x := by cases x <;> rfl
theorem rop_code (x : ROp) : ROp.ofCode x.code = some x := by cases x <;> rfl
theorem ck_code (x : Ck) : Ck.ofCode x.code = some x := by cases x <;> rfl
theorem path_code (x : CopyPath) : CopyPath.ofCode x.code = some x := by cases x <;> rfl
theorem cinv_code (x : CinvKind) : CinvKind.ofCode x.code = some x := by cases x <;> rfl
theorem vote_code (x : VoteMode) : VoteMode.ofCode x.code = x := by cases x <;> rfl
theorem rand_code (x : RandCount) : RandCount.ofCode x.code = some x := by cases x <;> rfl
theorem drain_code (x : DrainDst) : DrainDst.ofCode x.code = some x := by cases x <;> rfl
theorem txw_code (x : TxwMode) : TxwMode.ofCode x.code = some x := by cases x <;> rfl
theorem qual_code (q : Qual) : Qual.ofCode q.code = some q := by
  simp (disch := omega) only [Qual.ofCode, Qual.code, ext_low, ext_high, ext_all, bit_high, bit_bool, Nat.reduceSub, scope_code, ord_code,
    Option.bind_eq_bind, Option.bind_some]

theorem immOff_zero : immOff false false 0#32 = 0#64 := rfl
theorem aop_add_code : AOp.add.code = 0#3 := rfl
theorem lut_join : ∀ x : BitVec 8, x.extractLsb' 6 2 ++ x.extractLsb' 0 6 = x := by decide
theorem sgroup_bits {o : Opd} {n : Nat} (h : o.sgroup n = true) : o.bits ≠ 0 := by
  cases o with
  | s k =>
    intro e
    have g : (Opd.s k).bits.getLsbD 10 = (0 : BitVec 11).getLsbD 10 := by rw [e]
    simp (disch := omega) only [Opd.bits, bit_high] at g
    exact absurd g (by decide)
  | v _ | sp _ | sz => simp [Opd.sgroup] at h

theorem lde_c {h : Hdr} {q : Qual} {ty : Ty} {touch : Bool} {d : Opd} {a b : Src} {c : Option Opd} {off : BitVec 32}
    (g : (Instr.lde h q ty touch d a b c off).legal = true) : c.all (fun o => o.bits != 0#11) = true := by
  have g' : (q.load && ty.among [.i32, .n32, .i64, .n64, .f32, .f64] && d.dst ty.regs && a.pairVS && b.ok 1 && permOk a b true
      && uniOkSz d (a.scalar && b.scalar) && c.all (fun o => o.sgroup 4) && (!touch || d == .sz)) = true := g
  simp only [Bool.and_eq_true] at g'
  cases c with
  | none => rfl
  | some o => simpa using sgroup_bits g'.1.2

/-! ## Words and bytes -/

theorem ofWord_toWord (r : Raw) (h : r.tidy = true) : Raw.ofWord r.toWord = some r := by
  obtain ⟨len, sw, stall, guard, neg, opcode, d, a, b, mod, c, pca, pqa, pcb, pqb, modx, imm⟩ := r
  cases len <;> simp only [Raw.tidy, Bool.and_eq_true, Bool.or_eq_true, beq_iff_eq] at h <;>
    simp (disch := omega) only [Raw.ofWord, Raw.toWord, Raw.upper, ext_low, ext_high, ext_all, bit_low, bit_high, len_code,
      Option.bind_eq_bind, Option.bind_some] <;> simp_all

/-- A word is read by the bits below its length alone. -/
theorem ofWord_low {x y : BitVec 128} {r : Raw} (hx : Raw.ofWord x = some r) (h : ∀ k, k < 8 * r.len.bytes → y.getLsbD k = x.getLsbD k) :
    Raw.ofWord y = some r := by
  have cut : ∀ k w, k + w ≤ 8 * r.len.bytes → y.extractLsb' k w = x.extractLsb' k w := by
    intro k w hk
    ext i hi
    simp only [BitVec.getElem_extractLsb']
    exact h _ (by omega)
  have wide : 64 ≤ 8 * r.len.bytes := by cases r.len <;> decide
  simp only [Raw.ofWord] at hx ⊢
  rw [cut 0 2 (by omega)]
  cases hl : Len.ofCode (x.extractLsb' 0 2) with
  | none => simp [hl] at hx
  | some l =>
    simp only [hl, Option.bind_eq_bind, Option.bind_some, Option.some.injEq] at hx ⊢
    subst hx
    have bits : y.getLsbD 2 = x.getLsbD 2 ∧ y.getLsbD 10 = x.getLsbD 10 := ⟨h 2 (by omega), h 10 (by omega)⟩
    have low := And.intro (cut 3 4 (by omega)) (And.intro (cut 7 3 (by omega)) (And.intro (cut 11 10 (by omega)) (And.intro (cut 21 11 (by omega))
      (And.intro (cut 32 11 (by omega)) (And.intro (cut 43 11 (by omega)) (cut 54 10 (by omega)))))))
    cases l with
    | b64 => simp only [bits, low, beq_iff_eq, reduceCtorEq, if_false]
    | b96 =>
      dsimp only at cut
      have up := And.intro (cut 64 11 (by decide)) (And.intro (cut 75 3 (by decide)) (And.intro (cut 78 6 (by decide)) (And.intro (cut 84 3 (by decide))
        (And.intro (cut 87 6 (by decide)) (cut 93 3 (by decide))))))
      simp only [bits, low, up, beq_iff_eq, reduceCtorEq, if_false, if_true]
    | b128 =>
      dsimp only at cut
      have up := cut 64 64 (by decide)
      simp only [bits, low, up, beq_iff_eq, reduceCtorEq, if_false, if_true]

theorem leNat_leBytes (n x : Nat) (rest : List Byte) : leNat (leBytes n x ++ rest) = x % 256 ^ n + 256 ^ n * leNat rest := by
  induction n generalizing x with
  | zero => simp [leBytes, Nat.mod_one]
  | succ n ih =>
    simp only [leBytes, List.cons_append, leNat, ih, BitVec.toNat_ofNat]
    have e : (256 : Nat) ^ (n + 1) = 256 * 256 ^ n := Nat.pow_succ'
    have m : x % (256 * 256 ^ n) = x % 256 + 256 * (x / 256 % 256 ^ n) := Nat.mod_mul
    have p : (2 : Nat) ^ 8 = 256 := rfl
    rw [e, m, Nat.mul_assoc, p]
    omega

theorem leNat_lt (b : List Byte) : leNat b < 256 ^ b.length := by
  induction b with
  | nil => simp [leNat]
  | cons x t ih =>
    simp only [leNat, List.length_cons, Nat.pow_succ']
    have := x.isLt
    omega

theorem leBytes_length (n x : Nat) : (leBytes n x).length = n := by
  induction n generalizing x with
  | zero => rfl
  | succ n ih => simp [leBytes, ih]

/-- The word of the bytes of a tidy record, whatever follows them. -/
theorem ofWord_leBytes (r : Raw) (h : r.tidy = true) (rest : List Byte) :
    Raw.ofWord (BitVec.ofNat 128 (leNat (leBytes r.len.bytes r.toWord.toNat ++ rest))) = some r := by
  refine ofWord_low (ofWord_toWord r h) fun k hk => ?_
  have w : 8 * r.len.bytes ≤ 128 := by cases r.len <;> decide
  rw [leNat_leBytes, BitVec.getLsbD_ofNat, decide_eq_true (show k < 128 by omega), Bool.true_and, show (256 : Nat) ^ r.len.bytes = 2 ^ (8 * r.len.bytes) by
    rw [Nat.pow_mul]]
  rw [Nat.add_comm, Nat.testBit_two_pow_mul_add _ (Nat.mod_lt _ (Nat.two_pow_pos _)), if_pos hk, Nat.testBit_mod_two_pow, decide_eq_true hk, Bool.true_and]
  rfl

/-- An instruction whose fields parse back to it comes back from its bytes, whatever follows them. -/
theorem decode_encode {i : Instr} (he : i.encoded = true) (hw : i.wf = true) (hl : i.legal = true) (hp : parse i.toRaw = some i)
    (ht : i.toRaw.tidy = true) (hn : i.toRaw.hdr.never = true → i = .nop i.toRaw.hdr) (rest : List Byte) : decode (encode i ++ rest) = .ok i := by
  unfold decode decodeAt encode
  rw [if_pos he, ofWord_leBytes _ ht]
  have w : ¬ 0 + i.toRaw.len.bytes > 32 := by cases i.toRaw.len <;> decide
  have r : decodeRaw i.toRaw = some i := by
    unfold decodeRaw
    split
    · rename_i h
      rw [← hn h]
    · simp [hp, hw, hl]
  simp only [if_neg w, r]

end Sys2Proof
end

