-- ==== Sys2Proof/Laws/Memory.lean ====
section
/-! SUPPORT. Laws of memory: a read after a write, and the canonical form, which every operation over memory keeps. -/

namespace Sys2Proof.Machine

/-! ## Reads after writes -/

theorem memByte_memSet (m : List Host.Cell) (a b : Nat) (x : Byte) : memByte (memSet m a x) b = if b = a then x else memByte m b :=
  tget_tset memDefault m a b x

/-- A byte below the bytes written. -/
theorem memByte_memWrite_below (m : List Host.Cell) (a b : Nat) (data : List Byte) (h : b < a) : memByte (memWrite m a data) b = memByte m b := by
  induction data generalizing m a with
  | nil => rfl
  | cons x t ih => rw [memWrite, ih _ _ (by omega), memByte_memSet, if_neg (by omega)]

/-- A byte above the bytes written. -/
theorem memByte_memWrite_above (m : List Host.Cell) (a b : Nat) (data : List Byte) (h : a + data.length ≤ b) :
    memByte (memWrite m a data) b = memByte m b := by
  induction data generalizing m a with
  | nil => rfl
  | cons x t ih =>
    rw [List.length_cons] at h
    rw [memWrite, ih _ _ (by omega), memByte_memSet, if_neg (by omega)]

/-- A write leaves every byte outside its range as it was. -/
theorem memByte_memWrite_outside (m : List Host.Cell) (a b : Nat) (data : List Byte) (h : b < a ∨ a + data.length ≤ b) :
    memByte (memWrite m a data) b = memByte m b :=
  h.elim (memByte_memWrite_below m a b data) (memByte_memWrite_above m a b data)

/-- A byte of the range reads as the byte written there. -/
theorem memByte_memWrite_inside (m : List Host.Cell) (a i : Nat) (data : List Byte) (h : i < data.length) :
    memByte (memWrite m a data) (a + i) = data[i] := by
  induction data generalizing m a i with
  | nil => exact absurd h (by simp)
  | cons x t ih =>
    cases i with
    | zero =>
      rw [memWrite, memByte_memWrite_below _ _ _ _ (by omega), memByte_memSet, if_pos (by omega)]
      rfl
    | succ i =>
      have := ih (memSet m a x) (a + 1) i (by simpa using h)
      rw [memWrite, List.getElem_cons_succ, ← this]
      congr 1; omega

/-- A read of bytes none of which a write changed. -/
theorem memBytes_memWrite_outside (m : List Host.Cell) (a b n : Nat) (data : List Byte) (h : b + n ≤ a ∨ a + data.length ≤ b) :
    memBytes (memWrite m a data) b n = memBytes m b n := by
  induction n generalizing b with
  | zero => rfl
  | succ n ih => rw [memBytes, memBytes, memByte_memWrite_outside _ _ _ _ (by omega), ih _ (by omega)]

/-- The bytes of a part of memory just written. -/
theorem memBytes_memWrite (m : List Host.Cell) (a : Nat) (data : List Byte) : memBytes (memWrite m a data) a data.length = data := by
  induction data generalizing m a with
  | nil => rfl
  | cons x t ih =>
    rw [List.length_cons, memBytes, memWrite, memByte_memWrite_below _ _ _ _ (by omega), memByte_memSet, if_pos rfl, ih]

/-! ## The canonical form -/

theorem wf_memSet {m : List Host.Cell} (a : Nat) (x : Byte) (h : Memory.wf m = true) : Memory.wf (memSet m a x) = true := twf_tset _ a x h

theorem wf_memWrite {m : List Host.Cell} (a : Nat) (data : List Byte) (h : Memory.wf m = true) : Memory.wf (memWrite m a data) = true := by
  induction data generalizing m a with
  | nil => exact h
  | cons x t ih => exact ih _ (wf_memSet a x h)

theorem trising_filter {α : Type} {l : List (Nat × α)} (p : Nat × α → Bool) (h : trising l) : trising (l.filter p) := by
  induction l with
  | nil => exact h
  | cons e t ih =>
    rw [List.filter_cons]
    split
    · exact ⟨fun x hx => h.1 x ((List.mem_filter.1 hx).1), ih h.2⟩
    · exact ih h.2

/-- Memory with some of its entries gone (an ownership change zeroes device DRAM, R79). -/
theorem wf_filter {m : List Host.Cell} (p : Host.Cell → Bool) (h : Memory.wf m = true) : Memory.wf (m.filter p) = true := by
  rw [Memory.wf, twf_iff] at h ⊢
  exact ⟨trising_filter p h.1, fun e he => h.2 e ((List.mem_filter.1 he).1)⟩

/-- Memory after a table of writes. -/
theorem wf_foldl_memWrite (l : List (Nat × List Byte)) {m : List Host.Cell} (h : Memory.wf m = true) :
    Memory.wf (l.foldl (fun m e => memWrite m (e.1 * 128) e.2) m) = true := by
  induction l generalizing m with
  | nil => exact h
  | cons e t ih => exact ih (wf_memWrite _ _ h)

/-! ## What each operation does to memory -/

/-- A fold over states whose every turn leaves memory alone leaves memory alone. -/
theorem foldl_mem {α : Type} (f : State → α → State) (hf : ∀ s a, (f s a).mem = s.mem) (l : List α) (s : State) : (l.foldl f s).mem = s.mem := by
  induction l generalizing s with
  | nil => rfl
  | cons a t ih => rw [List.foldl_cons, ih, hf]

/-- A fold over states whose every turn keeps the form keeps the form. -/
theorem foldl_memOk {α : Type} (f : State → α → State) (hf : ∀ s a, s.memOk → (f s a).memOk) (l : List α) {s : State} (h : s.memOk) :
    (l.foldl f s).memOk := by
  induction l generalizing s with
  | nil => exact h
  | cons a t ih => exact ih (hf s a h)

theorem latch_mem (s : State) (home line : Nat) : (s.latch home line).mem = s.mem :=
  foldl_mem _ (fun s a => by repeat' split
                             all_goals simp [modFib_mem]) _ s

theorem latchRange_mem (s : State) (home pa n : Nat) : (s.latchRange home pa n).mem = s.mem := by
  unfold State.latchRange
  split
  · rfl
  · exact foldl_mem _ (fun s i => latch_mem s _ _) _ s

theorem keepDram_mem (s : State) (line : Nat) : (s.keepDram line).mem = s.mem := rfl

/-- A write performed at home writes its bytes and no other. -/
theorem homeWrite_mem (s : State) (pa : Nat) (data : List Byte) (cached : Bool) : (s.homeWrite pa data cached).mem = memWrite s.mem pa data := by
  simp only [State.homeWrite]
  split
  · rfl
  · rw [latchRange_mem]
    split <;> split <;> rfl

theorem homeWrite_memOk {s : State} (pa : Nat) (data : List Byte) (cached : Bool) (h : s.memOk) : (s.homeWrite pa data cached).memOk := by
  unfold State.memOk at h ⊢; rw [homeWrite_mem]; exact wf_memWrite _ _ h

/-- Correcting single-bit errors leaves every byte as it reads (R87). -/
@[simp] theorem homeCorrect_mem (s : State) (pa n : Nat) : (s.homeCorrect pa n).mem = s.mem := by
  simp only [State.homeCorrect]
  split
  · rfl
  · split
    · rfl
    · exact foldl_mem (fun s _ => s.modDie (homeOf pa) Die.countCe) (fun s _ => rfl) _ _

theorem fetchLine_mem (s : State) (die line : Nat) (ca : BitVec 2) : (s.fetchLine die line ca).2.mem = s.mem := by
  simp only [State.fetchLine]
  split
  · simp
  · split
    · split <;> simp
    · simp

theorem dieRead_mem (s : State) (die pa : Nat) (ca : BitVec 2) (n : Nat) : (s.dieRead die pa ca n).2.mem = s.mem := by
  induction n generalizing s pa with
  | zero => rfl
  | succ n ih => simp only [State.dieRead]; rw [ih, fetchLine_mem]

/-- A write by a die: performed at home at once, or entered in its write-through buffer, which is not memory (R94). -/
theorem dieWrite_mem (s : State) (die pa : Nat) (data : List Byte) (ca : BitVec 2) :
    (s.dieWrite die pa data ca).2.mem = if (isHost pa || homeOf pa == die) then memWrite s.mem pa data else s.mem := by
  simp only [State.dieWrite]
  split
  · rename_i h
    rw [List.isEmpty_iff] at h; subst h; simp [memWrite]
  · split
    · exact homeWrite_mem _ _ _ _
    · apply foldl_mem; intros; rfl

theorem dieWrite_memOk {s : State} (die pa : Nat) (data : List Byte) (ca : BitVec 2) (h : s.memOk) : (s.dieWrite die pa data ca).2.memOk := by
  unfold State.memOk at h ⊢; rw [dieWrite_mem]; split
  · exact wf_memWrite _ _ h
  · exact h

theorem loseL2_memOk {s : State} (d : Nat) (h : s.memOk) : (s.loseL2 d).memOk := wf_foldl_memWrite _ h

/-- The surroundings write host memory only (R71). -/
theorem surround_hostStore_mem (s : State) (pa : Nat) (data : List Byte) :
    (s.surround (.hostStore pa data)).mem = if (isHost pa && pa + data.length ≤ 2 ^ 52) then memWrite s.mem pa data else s.mem := by
  simp only [State.surround]; split <;> rfl

theorem placeWord_mem (s : State) (bytes : List Byte) : (s.placeWord bytes).mem = memWrite s.mem fetchBase bytes := rfl

theorem placeWord_memOk {s : State} (bytes : List Byte) (h : s.memOk) : (s.placeWord bytes).memOk := wf_memWrite _ _ h

theorem withFetchWord_memOk {s : State} (nbits w : Nat) (h : s.memOk) : (s.withFetchWord nbits w).memOk := placeWord_memOk _ h

end Sys2Proof.Machine
end

