-- ==== Sys2Proof/Laws/PerInstr.lean ====
section
/-! SUPPORT. The encoder's words read back, instruction by instruction (R234 to R236): one lemma per constructor of `Instr`. A lemma says that
the decoder gives the instruction from the bytes the encoder writes for it, whatever follows them, where the term has a word (`wf`) and the
word's operands are ones R239 admits (`legal`); a device step has no word. -/

open Sys2Proof

namespace Sys2Proof.Laws.RoundTrip

/-- An instruction comes back from the bytes of its word, whatever follows them. -/
def Statement (i : Instr) : Prop := i.encoded = true → i.wf = true → i.legal = true → ∀ rest, decode (encode i ++ rest) = .ok i

end Sys2Proof.Laws.RoundTrip

open Sys2Proof.Laws.RoundTrip

theorem parse_001 {r : Raw} (h : r.opcode = 0x001) : parse r = (
    some (.nop r.hdr)) := by
  unfold parse; rw [h]; show parseControl r = _; unfold parseControl; rw [h]; rfl

theorem Sys2Proof.Laws.RoundTrip.nop (h : Hdr) : Statement (.nop h) := by
  intro he hw hl
  have hw' : (Letter.b.admits h.len || h.never) = true := hw
  have e : (Instr.nop h).toRaw = (h.raw 0x001) := rfl
  obtain ⟨len, sw, stall, guard, neg⟩ := h
  cases len <;> simp [Letter.admits] at hw'
  all_goals
    exact fun rest => decode_encode he hw hl
      (by rw [e, parse_001 rfl]; simp (disch := omega) [-BitVec.getLsbD_eq_getElem, Hdr.raw, Raw.hdr, *])
      (by rw [e]; simp [Raw.tidy, Hdr.raw, *])
      (by rw [e]; simp [Hdr.raw, Raw.hdr, *]) rest

theorem parse_002 {r : Raw} (h : r.opcode = 0x002) : parse r = (
    some (.bra r.hdr r.imm32)) := by
  unfold parse; rw [h]; show parseControl r = _; unfold parseControl; rw [h]; rfl

theorem Sys2Proof.Laws.RoundTrip.bra (h : Hdr) (off : BitVec 32) : Statement (.bra h off) := by
  intro he hw hl
  have hw' : (Letter.e.admits h.len && !h.never) = true := hw
  have e : (Instr.bra h off).toRaw = ({ h.raw 0x002 with imm := off.zeroExtend 64 }) := rfl
  obtain ⟨len, sw, stall, guard, neg⟩ := h
  cases len <;> simp [Letter.admits] at hw'
  all_goals
    exact fun rest => decode_encode he hw hl
      (by rw [e, parse_002 rfl]; simp (disch := omega) [-BitVec.getLsbD_eq_getElem, Hdr.raw, Raw.hdr, Raw.imm32, ext_wide, *])
      (by rw [e]; simp [Raw.tidy, Hdr.raw, *])
      (by rw [e]; simp [Hdr.raw, Raw.hdr, *]) rest

theorem parse_003 {r : Raw} (h : r.opcode = 0x003) : parse r = (
    do some (.brx r.hdr (← Opd.ofBits r.a))) := by
  unfold parse; rw [h]; show parseControl r = _; unfold parseControl; rw [h]; rfl

theorem Sys2Proof.Laws.RoundTrip.brx (h : Hdr) (a : Opd) : Statement (.brx h a) := by
  intro he hw hl
  have hw' : (Letter.a.admits h.len && !h.never) = true := hw
  have e : (Instr.brx h a).toRaw = ({ h.raw 0x003 with a := a.bits }) := rfl
  obtain ⟨len, sw, stall, guard, neg⟩ := h
  cases len <;> simp [Letter.admits] at hw'
  all_goals
    exact fun rest => decode_encode he hw hl
      (by rw [e, parse_003 rfl]; simp (disch := omega) [-BitVec.getLsbD_eq_getElem, Hdr.raw, Raw.hdr, ofBits_bits, *])
      (by rw [e]; simp [Raw.tidy, Hdr.raw, *])
      (by rw [e]; simp [Hdr.raw, Raw.hdr, *]) rest

theorem parse_004 {r : Raw} (h : r.opcode = 0x004) : parse r = (
    do some (.call r.hdr (← Opd.ofBits r.d) (r.mod.extractLsb' 0 7) r.imm32)) := by
  unfold parse; rw [h]; show parseControl r = _; unfold parseControl; rw [h]; rfl

theorem Sys2Proof.Laws.RoundTrip.call (h : Hdr) (d : Opd) (sl : BitVec 7) (off : BitVec 32) : Statement (.call h d sl off) := by
  intro he hw hl
  have hw' : (Letter.e.admits h.len && !h.never) = true := hw
  have e : (Instr.call h d sl off).toRaw = ({ h.raw 0x004 with d := d.bits, mod := sl.zeroExtend 10, imm := off.zeroExtend 64 }) := rfl
  obtain ⟨len, sw, stall, guard, neg⟩ := h
  cases len <;> simp [Letter.admits] at hw'
  all_goals
    exact fun rest => decode_encode he hw hl
      (by rw [e, parse_004 rfl]; simp (disch := omega) [-BitVec.getLsbD_eq_getElem, Hdr.raw, Raw.hdr, Raw.imm32, ext_wide, ofBits_bits, *])
      (by rw [e]; simp [Raw.tidy, Hdr.raw, *])
      (by rw [e]; simp [Hdr.raw, Raw.hdr, *]) rest

theorem parse_005 {r : Raw} (h : r.opcode = 0x005) : parse r = (
    do some (.callx r.hdr (← Opd.ofBits r.d) (← Opd.ofBits r.a) (r.mod.extractLsb' 0 7))) := by
  unfold parse; rw [h]; show parseControl r = _; unfold parseControl; rw [h]; rfl

theorem Sys2Proof.Laws.RoundTrip.callx (h : Hdr) (d a : Opd) (sl : BitVec 7) : Statement (.callx h d a sl) := by
  intro he hw hl
  have hw' : (Letter.a.admits h.len && !h.never) = true := hw
  have e : (Instr.callx h d a sl).toRaw = ({ h.raw 0x005 with d := d.bits, a := a.bits, mod := sl.zeroExtend 10 }) := rfl
  obtain ⟨len, sw, stall, guard, neg⟩ := h
  cases len <;> simp [Letter.admits] at hw'
  all_goals
    exact fun rest => decode_encode he hw hl
      (by rw [e, parse_005 rfl]; simp (disch := omega) [-BitVec.getLsbD_eq_getElem, Hdr.raw, Raw.hdr, ext_wide, ofBits_bits, *])
      (by rw [e]; simp [Raw.tidy, Hdr.raw, *])
      (by rw [e]; simp [Hdr.raw, Raw.hdr, *]) rest

theorem parse_006 {r : Raw} (h : r.opcode = 0x006) : parse r = (
    do some (.ret r.hdr (← Opd.ofBits r.a))) := by
  unfold parse; rw [h]; show parseControl r = _; unfold parseControl; rw [h]; rfl

theorem Sys2Proof.Laws.RoundTrip.ret (h : Hdr) (a : Opd) : Statement (.ret h a) := by
  intro he hw hl
  have hw' : (Letter.a.admits h.len && !h.never) = true := hw
  have e : (Instr.ret h a).toRaw = ({ h.raw 0x006 with a := a.bits }) := rfl
  obtain ⟨len, sw, stall, guard, neg⟩ := h
  cases len <;> simp [Letter.admits] at hw'
  all_goals
    exact fun rest => decode_encode he hw hl
      (by rw [e, parse_006 rfl]; simp (disch := omega) [-BitVec.getLsbD_eq_getElem, Hdr.raw, Raw.hdr, ofBits_bits, *])
      (by rw [e]; simp [Raw.tidy, Hdr.raw, *])
      (by rw [e]; simp [Hdr.raw, Raw.hdr, *]) rest

theorem parse_007 {r : Raw} (h : r.opcode = 0x007) : parse r = (
    if r.mod.getLsbD 3 then some (.joinPush r.hdr r.imm32) else some (.join r.hdr (r.mod.extractLsb' 0 3) r.imm32)) := by
  unfold parse; rw [h]; show parseControl r = _; unfold parseControl; rw [h]; rfl

theorem Sys2Proof.Laws.RoundTrip.join (h : Hdr) (n : BitVec 3) (off : BitVec 32) : Statement (.join h n off) := by
  intro he hw hl
  have hw' : (Letter.e.admits h.len && !h.never) = true := hw
  have e : (Instr.join h n off).toRaw = ({ h.raw 0x007 with mod := n.zeroExtend 10, imm := off.zeroExtend 64 }) := rfl
  obtain ⟨len, sw, stall, guard, neg⟩ := h
  cases len <;> simp [Letter.admits] at hw'
  all_goals
    exact fun rest => decode_encode he hw hl
      (by rw [e, parse_007 rfl]; simp (disch := omega) [-BitVec.getLsbD_eq_getElem, Hdr.raw, Raw.hdr, Raw.imm32, ext_wide, *])
      (by rw [e]; simp [Raw.tidy, Hdr.raw, *])
      (by rw [e]; simp [Hdr.raw, Raw.hdr, *]) rest

theorem Sys2Proof.Laws.RoundTrip.joinPush (h : Hdr) (off : BitVec 32) : Statement (.joinPush h off) := by
  intro he hw hl
  have hw' : (Letter.e.admits h.len && !h.never) = true := hw
  have e : (Instr.joinPush h off).toRaw = ({ h.raw 0x007 with mod := 8, imm := off.zeroExtend 64 }) := rfl
  obtain ⟨len, sw, stall, guard, neg⟩ := h
  cases len <;> simp [Letter.admits] at hw'
  all_goals
    exact fun rest => decode_encode he hw hl
      (by rw [e, parse_007 rfl]; simp (disch := omega) [-BitVec.getLsbD_eq_getElem, Hdr.raw, Raw.hdr, Raw.imm32, ext_wide, *])
      (by rw [e]; simp [Raw.tidy, Hdr.raw, *])
      (by rw [e]; simp [Hdr.raw, Raw.hdr, *]) rest

theorem parse_008 {r : Raw} (h : r.opcode = 0x008) : parse r = (
    some (.jdrop r.hdr (r.mod.extractLsb' 0 3))) := by
  unfold parse; rw [h]; show parseControl r = _; unfold parseControl; rw [h]; rfl

theorem Sys2Proof.Laws.RoundTrip.jdrop (h : Hdr) (n : BitVec 3) : Statement (.jdrop h n) := by
  intro he hw hl
  have hw' : (Letter.a.admits h.len && !h.never) = true := hw
  have e : (Instr.jdrop h n).toRaw = ({ h.raw 0x008 with mod := n.zeroExtend 10 }) := rfl
  obtain ⟨len, sw, stall, guard, neg⟩ := h
  cases len <;> simp [Letter.admits] at hw'
  all_goals
    exact fun rest => decode_encode he hw hl
      (by rw [e, parse_008 rfl]; simp (disch := omega) [-BitVec.getLsbD_eq_getElem, Hdr.raw, Raw.hdr, ext_wide, *])
      (by rw [e]; simp [Raw.tidy, Hdr.raw, *])
      (by rw [e]; simp [Hdr.raw, Raw.hdr, *]) rest

theorem parse_009 {r : Raw} (h : r.opcode = 0x009) : parse r = (
    if r.mod.getLsbD 3 then some (.waitPop r.hdr) else some (.wait r.hdr (r.mod.extractLsb' 0 3))) := by
  unfold parse; rw [h]; show parseControl r = _; unfold parseControl; rw [h]; rfl

theorem Sys2Proof.Laws.RoundTrip.wait (h : Hdr) (n : BitVec 3) : Statement (.wait h n) := by
  intro he hw hl
  have hw' : (Letter.a.admits h.len && !h.never) = true := hw
  have e : (Instr.wait h n).toRaw = ({ h.raw 0x009 with mod := n.zeroExtend 10 }) := rfl
  obtain ⟨len, sw, stall, guard, neg⟩ := h
  cases len <;> simp [Letter.admits] at hw'
  all_goals
    exact fun rest => decode_encode he hw hl
      (by rw [e, parse_009 rfl]; simp (disch := omega) [-BitVec.getLsbD_eq_getElem, Hdr.raw, Raw.hdr, ext_wide, *])
      (by rw [e]; simp [Raw.tidy, Hdr.raw, *])
      (by rw [e]; simp [Hdr.raw, Raw.hdr, *]) rest

theorem Sys2Proof.Laws.RoundTrip.waitPop (h : Hdr) : Statement (.waitPop h) := by
  intro he hw hl
  have hw' : (Letter.a.admits h.len && !h.never) = true := hw
  have e : (Instr.waitPop h).toRaw = ({ h.raw 0x009 with mod := 8 }) := rfl
  obtain ⟨len, sw, stall, guard, neg⟩ := h
  cases len <;> simp [Letter.admits] at hw'
  all_goals
    exact fun rest => decode_encode he hw hl
      (by rw [e, parse_009 rfl]; simp (disch := omega) [-BitVec.getLsbD_eq_getElem, Hdr.raw, Raw.hdr, *])
      (by rw [e]; simp [Raw.tidy, Hdr.raw, *])
      (by rw [e]; simp [Hdr.raw, Raw.hdr, *]) rest

theorem parse_00A {r : Raw} (h : r.opcode = 0x00A) : parse r = (
    some (.exit r.hdr)) := by
  unfold parse; rw [h]; show parseControl r = _; unfold parseControl; rw [h]; rfl

theorem Sys2Proof.Laws.RoundTrip.exit (h : Hdr) : Statement (.exit h) := by
  intro he hw hl
  have hw' : (Letter.a.admits h.len && !h.never) = true := hw
  have e : (Instr.exit h).toRaw = (h.raw 0x00A) := rfl
  obtain ⟨len, sw, stall, guard, neg⟩ := h
  cases len <;> simp [Letter.admits] at hw'
  all_goals
    exact fun rest => decode_encode he hw hl
      (by rw [e, parse_00A rfl]; simp (disch := omega) [-BitVec.getLsbD_eq_getElem, Hdr.raw, Raw.hdr, *])
      (by rw [e]; simp [Raw.tidy, Hdr.raw, *])
      (by rw [e]; simp [Hdr.raw, Raw.hdr, *]) rest

theorem parse_00B {r : Raw} (h : r.opcode = 0x00B) : parse r = (
    some (.yield r.hdr)) := by
  unfold parse; rw [h]; show parseControl r = _; unfold parseControl; rw [h]; rfl

theorem Sys2Proof.Laws.RoundTrip.yield (h : Hdr) : Statement (.yield h) := by
  intro he hw hl
  have hw' : (Letter.a.admits h.len && !h.never) = true := hw
  have e : (Instr.yield h).toRaw = (h.raw 0x00B) := rfl
  obtain ⟨len, sw, stall, guard, neg⟩ := h
  cases len <;> simp [Letter.admits] at hw'
  all_goals
    exact fun rest => decode_encode he hw hl
      (by rw [e, parse_00B rfl]; simp (disch := omega) [-BitVec.getLsbD_eq_getElem, Hdr.raw, Raw.hdr, *])
      (by rw [e]; simp [Raw.tidy, Hdr.raw, *])
      (by rw [e]; simp [Hdr.raw, Raw.hdr, *]) rest

theorem parse_00C {r : Raw} (h : r.opcode = 0x00C) : parse r = (
    some (.mcall r.hdr (r.mod.extractLsb' 0 6) r.d r.a r.b (r.imm.extractLsb' 0 11) (r.imm.extractLsb' 11 11)
      (r.imm.extractLsb' 22 11) (r.imm.extractLsb' 33 11) (r.imm.extractLsb' 44 11))) := by
  unfold parse; rw [h]; show parseControl r = _; unfold parseControl; rw [h]; rfl

theorem Sys2Proof.Laws.RoundTrip.mcall (h : Hdr) (n : BitVec 6) (p0 p1 p2 p3 p4 p5 p6 p7 : BitVec 11)
    : Statement (.mcall h n p0 p1 p2 p3 p4 p5 p6 p7) := by
  intro he hw hl
  have hw' : (Letter.e.admits h.len && !h.never) = true := hw
  have e : (Instr.mcall h n p0 p1 p2 p3 p4 p5 p6 p7).toRaw =
      ({ h.raw 0x00C with d := p0, a := p1, b := p2, mod := n.zeroExtend 10, imm := (0 : BitVec 9) ++ p7 ++ p6 ++ p5 ++ p4 ++ p3 }) := rfl
  obtain ⟨len, sw, stall, guard, neg⟩ := h
  cases len <;> simp [Letter.admits] at hw'
  all_goals
    exact fun rest => decode_encode he hw hl
      (by rw [e, parse_00C rfl]; simp (disch := omega) [-BitVec.getLsbD_eq_getElem, Hdr.raw, Raw.hdr, ext_low, ext_high, ext_wide, *])
      (by rw [e]; simp [Raw.tidy, Hdr.raw, *])
      (by rw [e]; simp [Hdr.raw, Raw.hdr, *]) rest

theorem parse_00D {r : Raw} (h : r.opcode = 0x00D) : parse r = (
    do some (.mdef r.hdr (← Opd.ofBits r.a) (r.mod.extractLsb' 0 6) (r.imm.extractLsb' 0 6))) := by
  unfold parse; rw [h]; show parseControl r = _; unfold parseControl; rw [h]; rfl

theorem Sys2Proof.Laws.RoundTrip.mdef (h : Hdr) (a : Opd) (n c : BitVec 6) : Statement (.mdef h a n c) := by
  intro he hw hl
  have hw' : (Letter.e.admits h.len && !h.never) = true := hw
  have e : (Instr.mdef h a n c).toRaw = ({ h.raw 0x00D with a := a.bits, mod := n.zeroExtend 10, imm := c.zeroExtend 64 }) := rfl
  obtain ⟨len, sw, stall, guard, neg⟩ := h
  cases len <;> simp [Letter.admits] at hw'
  all_goals
    exact fun rest => decode_encode he hw hl
      (by rw [e, parse_00D rfl]; simp (disch := omega) [-BitVec.getLsbD_eq_getElem, Hdr.raw, Raw.hdr, ext_wide, ofBits_bits, *])
      (by rw [e]; simp [Raw.tidy, Hdr.raw, *])
      (by rw [e]; simp [Hdr.raw, Raw.hdr, *]) rest

theorem parse_00E {r : Raw} (h : r.opcode = 0x00E) : parse r = (
    some (.fbar r.hdr (r.mod.extractLsb' 0 2) (r.mod.extractLsb' 2 4) (r.mod.extractLsb' 6 3))) := by
  unfold parse; rw [h]; show parseControl r = _; unfold parseControl; rw [h]; rfl

theorem Sys2Proof.Laws.RoundTrip.fbar (h : Hdr) (b : BitVec 2) (mask : BitVec 4) (p : BitVec 3) : Statement (.fbar h b mask p) := by
  intro he hw hl
  have hw' : (Letter.a.admits h.len && !h.never) = true := hw
  have e : (Instr.fbar h b mask p).toRaw = ({ h.raw 0x00E with mod := (0 : BitVec 1) ++ p ++ mask ++ b }) := rfl
  obtain ⟨len, sw, stall, guard, neg⟩ := h
  cases len <;> simp [Letter.admits] at hw'
  all_goals
    exact fun rest => decode_encode he hw hl
      (by rw [e, parse_00E rfl]; simp (disch := omega) [-BitVec.getLsbD_eq_getElem, Hdr.raw, Raw.hdr, ext_low, ext_high, *])
      (by rw [e]; simp [Raw.tidy, Hdr.raw, *])
      (by rw [e]; simp [Hdr.raw, Raw.hdr, *]) rest

theorem parse_00F {r : Raw} (h : r.opcode = 0x00F) : parse r = (
    if r.mod.getLsbD 0 then do some (.fwinSet r.hdr (← Opd.ofBits r.a)) else do some (.fwinGet r.hdr (← Opd.ofBits r.d))) := by
  unfold parse; rw [h]; show parseControl r = _; unfold parseControl; rw [h]; rfl

theorem Sys2Proof.Laws.RoundTrip.fwinGet (h : Hdr) (d : Opd) : Statement (.fwinGet h d) := by
  intro he hw hl
  have hw' : (Letter.a.admits h.len && !h.never) = true := hw
  have e : (Instr.fwinGet h d).toRaw = ({ h.raw 0x00F with d := d.bits }) := rfl
  obtain ⟨len, sw, stall, guard, neg⟩ := h
  cases len <;> simp [Letter.admits] at hw'
  all_goals
    exact fun rest => decode_encode he hw hl
      (by rw [e, parse_00F rfl]; simp (disch := omega) [-BitVec.getLsbD_eq_getElem, Hdr.raw, Raw.hdr, ofBits_bits, *])
      (by rw [e]; simp [Raw.tidy, Hdr.raw, *])
      (by rw [e]; simp [Hdr.raw, Raw.hdr, *]) rest

theorem Sys2Proof.Laws.RoundTrip.fwinSet (h : Hdr) (a : Opd) : Statement (.fwinSet h a) := by
  intro he hw hl
  have hw' : (Letter.a.admits h.len && !h.never) = true := hw
  have e : (Instr.fwinSet h a).toRaw = ({ h.raw 0x00F with a := a.bits, mod := 1 }) := rfl
  obtain ⟨len, sw, stall, guard, neg⟩ := h
  cases len <;> simp [Letter.admits] at hw'
  all_goals
    exact fun rest => decode_encode he hw hl
      (by rw [e, parse_00F rfl]; simp (disch := omega) [-BitVec.getLsbD_eq_getElem, Hdr.raw, Raw.hdr, ofBits_bits, *])
      (by rw [e]; simp [Raw.tidy, Hdr.raw, *])
      (by rw [e]; simp [Hdr.raw, Raw.hdr, *]) rest

theorem parse_040 {r : Raw} (h : r.opcode = 0x040) : parse r = (
    let qw := r.imm.getLsbD 32
    let touch := r.imm.getLsbD 33
    do some (.ldg r.hdr (← r.qual) (← r.ty) qw touch (← Opd.ofBits r.d) (← r.srcA) (← r.srcB) r.imm32)) := by
  unfold parse; rw [h]; show parseMemory r = _; unfold parseMemory; rw [h]; rfl

theorem Sys2Proof.Laws.RoundTrip.ldg (h : Hdr) (q : Qual) (ty : Ty) (qw touch : Bool) (d : Opd) (a b : Src) (off : BitVec 32)
    : Statement (.ldg h q ty qw touch d a b off) := by
  intro he hw hl
  have hw' : (!h.never && a.regIn h.len && b.regIn h.len && offIn h.len off && (h.len == .b128 || (!qw && !touch))) = true := hw
  have e : (Instr.ldg h q ty qw touch d a b off).toRaw =
      ({ ((h.raw 0x040).putA a).putB b with d := d.bits, mod := modTy ty q.code, imm := immOff touch qw off }) := rfl
  obtain ⟨len, sw, stall, guard, neg⟩ := h
  cases len <;> cases a <;> cases b <;> simp [Src.regIn, offIn] at hw'
  all_goals
    exact fun rest => decode_encode he hw hl
      (by rw [e, parse_040 rfl]; simp (disch := omega) [-BitVec.getLsbD_eq_getElem, Raw.putA, Raw.putB, Hdr.raw, Raw.srcA, Raw.srcB, Raw.hdr,
        Raw.ty, Raw.qual, Raw.imm32, modTy, immOff, ext_low, ext_high, bit_low, bit_high, ofBits_bits, perm_code, ty_code, qual_code, *])
      (by rw [e]; simp [Raw.tidy, Raw.putA, Raw.putB, Hdr.raw, Perm.code, Perm.q, immOff_zero, *])
      (by rw [e]; simp [Raw.putA, Raw.putB, Hdr.raw, Raw.hdr, *]) rest

theorem parse_041 {r : Raw} (h : r.opcode = 0x041) : parse r = (
    let qw := r.imm.getLsbD 32
    do some (.stg r.hdr (← r.qual) (← r.ty) qw (← Opd.ofBits r.d) (← r.srcA) (← r.srcB) r.imm32)) := by
  unfold parse; rw [h]; show parseMemory r = _; unfold parseMemory; rw [h]; rfl

theorem Sys2Proof.Laws.RoundTrip.stg (h : Hdr) (q : Qual) (ty : Ty) (qw : Bool) (d : Opd) (a b : Src) (off : BitVec 32)
    : Statement (.stg h q ty qw d a b off) := by
  intro he hw hl
  have hw' : (!h.never && a.regIn h.len && b.regIn h.len && offIn h.len off && (h.len == .b128 || !qw)) = true := hw
  have e : (Instr.stg h q ty qw d a b off).toRaw =
      ({ ((h.raw 0x041).putA a).putB b with d := d.bits, mod := modTy ty q.code, imm := immOff false qw off }) := rfl
  obtain ⟨len, sw, stall, guard, neg⟩ := h
  cases len <;> cases a <;> cases b <;> simp [Src.regIn, offIn] at hw'
  all_goals
    exact fun rest => decode_encode he hw hl
      (by rw [e, parse_041 rfl]; simp (disch := omega) [-BitVec.getLsbD_eq_getElem, Raw.putA, Raw.putB, Hdr.raw, Raw.srcA, Raw.srcB, Raw.hdr,
        Raw.ty, Raw.qual, Raw.imm32, modTy, immOff, ext_low, ext_high, bit_low, bit_high, ofBits_bits, perm_code, ty_code, qual_code, *])
      (by rw [e]; simp [Raw.tidy, Raw.putA, Raw.putB, Hdr.raw, Perm.code, Perm.q, immOff_zero, *])
      (by rw [e]; simp [Raw.putA, Raw.putB, Hdr.raw, Raw.hdr, *]) rest

theorem parse_042 {r : Raw} (h : r.opcode = 0x042) : parse r = (
    let touch := r.imm.getLsbD 33
    do some (.lde r.hdr (← r.qual) (← r.ty) touch (← Opd.ofBits r.d) (← r.srcA) (← r.srcB) (← optOpd (r.c != 0) r.c) r.imm32)) := by
  unfold parse; rw [h]; show parseMemory r = _; unfold parseMemory; rw [h]; rfl

theorem Sys2Proof.Laws.RoundTrip.lde (h : Hdr) (q : Qual) (ty : Ty) (touch : Bool) (d : Opd) (a b : Src) (c : Option Opd)
    (off : BitVec 32) : Statement (.lde h q ty touch d a b c off) := by
  intro he hw hl
  have hw' : (!h.never && a.regIn h.len && b.regIn h.len && offIn h.len off && (h.len == .b128 || !touch)
      && (h.len == .b96 || c.isNone)) = true := hw
  have e : (Instr.lde h q ty touch d a b c off).toRaw =
      ({ ((h.raw 0x042).putA a).putB b with d := d.bits, mod := modTy ty q.code, c := optBits c, imm := immOff touch false off }) := rfl
  have hz : c.all (fun o => o.bits != 0#11) = true := lde_c hl
  obtain ⟨len, sw, stall, guard, neg⟩ := h
  cases len <;> cases a <;> cases b <;> cases c <;> simp [Src.regIn, offIn] at hw' hz
  all_goals
    exact fun rest => decode_encode he hw hl
      (by rw [e, parse_042 rfl]; simp (disch := omega) [-BitVec.getLsbD_eq_getElem, Raw.putA, Raw.putB, Hdr.raw, Raw.srcA, Raw.srcB, Raw.hdr,
        Raw.ty, Raw.qual, Raw.imm32, modTy, immOff, optBits, optOpd, ext_low, ext_high, bit_low, bit_high, ofBits_bits, perm_code, ty_code, qual_code, *])
      (by rw [e]; simp [Raw.tidy, Raw.putA, Raw.putB, Hdr.raw, optBits, Perm.code, Perm.q, immOff_zero, *])
      (by rw [e]; simp [Raw.putA, Raw.putB, Hdr.raw, Raw.hdr, *]) rest

theorem parse_043 {r : Raw} (h : r.opcode = 0x043) : parse r = (
    let qw := r.imm.getLsbD 32
    let touch := r.imm.getLsbD 33
    do some (.lds r.hdr (← r.qual) (← r.ty) qw touch (← Opd.ofBits r.d) (← r.srcA) (← r.srcB) r.imm32)) := by
  unfold parse; rw [h]; show parseMemory r = _; unfold parseMemory; rw [h]; rfl

theorem Sys2Proof.Laws.RoundTrip.lds (h : Hdr) (q : Qual) (ty : Ty) (qw touch : Bool) (d : Opd) (a b : Src) (off : BitVec 32)
    : Statement (.lds h q ty qw touch d a b off) := by
  intro he hw hl
  have hw' : (!h.never && a.regIn h.len && b.regIn h.len && offIn h.len off && (h.len == .b128 || (!qw && !touch))) = true := hw
  have e : (Instr.lds h q ty qw touch d a b off).toRaw =
      ({ ((h.raw 0x043).putA a).putB b with d := d.bits, mod := modTy ty q.code, imm := immOff touch qw off }) := rfl
  obtain ⟨len, sw, stall, guard, neg⟩ := h
  cases len <;> cases a <;> cases b <;> simp [Src.regIn, offIn] at hw'
  all_goals
    exact fun rest => decode_encode he hw hl
      (by rw [e, parse_043 rfl]; simp (disch := omega) [-BitVec.getLsbD_eq_getElem, Raw.putA, Raw.putB, Hdr.raw, Raw.srcA, Raw.srcB, Raw.hdr,
        Raw.ty, Raw.qual, Raw.imm32, modTy, immOff, ext_low, ext_high, bit_low, bit_high, ofBits_bits, perm_code, ty_code, qual_code, *])
      (by rw [e]; simp [Raw.tidy, Raw.putA, Raw.putB, Hdr.raw, Perm.code, Perm.q, immOff_zero, *])
      (by rw [e]; simp [Raw.putA, Raw.putB, Hdr.raw, Raw.hdr, *]) rest

theorem parse_044 {r : Raw} (h : r.opcode = 0x044) : parse r = (
    let qw := r.imm.getLsbD 32
    do some (.sts r.hdr (← r.qual) (← r.ty) qw (← Opd.ofBits r.d) (← r.srcA) (← r.srcB) r.imm32)) := by
  unfold parse; rw [h]; show parseMemory r = _; unfold parseMemory; rw [h]; rfl

theorem Sys2Proof.Laws.RoundTrip.sts (h : Hdr) (q : Qual) (ty : Ty) (qw : Bool) (d : Opd) (a b : Src) (off : BitVec 32)
    : Statement (.sts h q ty qw d a b off) := by
  intro he hw hl
  have hw' : (!h.never && a.regIn h.len && b.regIn h.len && offIn h.len off && (h.len == .b128 || !qw)) = true := hw
  have e : (Instr.sts h q ty qw d a b off).toRaw =
      ({ ((h.raw 0x044).putA a).putB b with d := d.bits, mod := modTy ty q.code, imm := immOff false qw off }) := rfl
  obtain ⟨len, sw, stall, guard, neg⟩ := h
  cases len <;> cases a <;> cases b <;> simp [Src.regIn, offIn] at hw'
  all_goals
    exact fun rest => decode_encode he hw hl
      (by rw [e, parse_044 rfl]; simp (disch := omega) [-BitVec.getLsbD_eq_getElem, Raw.putA, Raw.putB, Hdr.raw, Raw.srcA, Raw.srcB, Raw.hdr,
        Raw.ty, Raw.qual, Raw.imm32, modTy, immOff, ext_low, ext_high, bit_low, bit_high, ofBits_bits, perm_code, ty_code, qual_code, *])
      (by rw [e]; simp [Raw.tidy, Raw.putA, Raw.putB, Hdr.raw, Perm.code, Perm.q, immOff_zero, *])
      (by rw [e]; simp [Raw.putA, Raw.putB, Hdr.raw, Raw.hdr, *]) rest

theorem parse_045 {r : Raw} (h : r.opcode = 0x045) : parse r = (
    let qw := r.imm.getLsbD 32
    let touch := r.imm.getLsbD 33
    do some (.ldc r.hdr (← r.ty) qw touch (← Opd.ofBits r.d) (← r.srcA) (← r.srcB) r.imm32)) := by
  unfold parse; rw [h]; show parseMemory r = _; unfold parseMemory; rw [h]; rfl

theorem Sys2Proof.Laws.RoundTrip.ldc (h : Hdr) (ty : Ty) (qw touch : Bool) (d : Opd) (a b : Src) (off : BitVec 32)
    : Statement (.ldc h ty qw touch d a b off) := by
  intro he hw hl
  have hw' : (!h.never && a.regIn h.len && b.regIn h.len && offIn h.len off && (h.len == .b128 || (!qw && !touch))) = true := hw
  have e : (Instr.ldc h ty qw touch d a b off).toRaw =
      ({ ((h.raw 0x045).putA a).putB b with d := d.bits, mod := modTy ty 0, imm := immOff touch qw off }) := rfl
  obtain ⟨len, sw, stall, guard, neg⟩ := h
  cases len <;> cases a <;> cases b <;> simp [Src.regIn, offIn] at hw'
  all_goals
    exact fun rest => decode_encode he hw hl
      (by rw [e, parse_045 rfl]; simp (disch := omega) [-BitVec.getLsbD_eq_getElem, Raw.putA, Raw.putB, Hdr.raw, Raw.srcA, Raw.srcB, Raw.hdr,
        Raw.ty, Raw.imm32, modTy, immOff, ext_low, bit_low, bit_high, ofBits_bits, perm_code, ty_code, *])
      (by rw [e]; simp [Raw.tidy, Raw.putA, Raw.putB, Hdr.raw, Perm.code, Perm.q, immOff_zero, *])
      (by rw [e]; simp [Raw.putA, Raw.putB, Hdr.raw, Raw.hdr, *]) rest

theorem parse_046 {r : Raw} (h : r.opcode = 0x046) : parse r = (
    let qw := r.imm.getLsbD 32
    do some (.ldfe r.hdr (r.mod.getLsbD 9) (← r.ty) qw (← Opd.ofBits r.d) (← r.srcA) (← r.srcB) r.imm32)) := by
  unfold parse; rw [h]; show parseMemory r = _; unfold parseMemory; rw [h]; rfl

theorem Sys2Proof.Laws.RoundTrip.ldfe (h : Hdr) (clr : Bool) (ty : Ty) (qw : Bool) (d : Opd) (a b : Src) (off : BitVec 32)
    : Statement (.ldfe h clr ty qw d a b off) := by
  intro he hw hl
  have hw' : (!h.never && a.regIn h.len && b.regIn h.len && offIn h.len off && (h.len == .b128 || !qw)) = true := hw
  have e : (Instr.ldfe h clr ty qw d a b off).toRaw =
      ({ ((h.raw 0x046).putA a).putB b with d := d.bits, mod := modTy ty (BitVec.ofBool clr ++ (0 : BitVec 5)), imm := immOff false qw off }) := rfl
  obtain ⟨len, sw, stall, guard, neg⟩ := h
  cases len <;> cases a <;> cases b <;> simp [Src.regIn, offIn] at hw'
  all_goals
    exact fun rest => decode_encode he hw hl
      (by rw [e, parse_046 rfl]; simp (disch := omega) [-BitVec.getLsbD_eq_getElem, Raw.putA, Raw.putB, Hdr.raw, Raw.srcA, Raw.srcB, Raw.hdr,
        Raw.ty, Raw.imm32, modTy, immOff, ext_low, bit_low, bit_high, ofBits_bits, perm_code, ty_code, *])
      (by rw [e]; simp [Raw.tidy, Raw.putA, Raw.putB, Hdr.raw, Perm.code, Perm.q, immOff_zero, *])
      (by rw [e]; simp [Raw.putA, Raw.putB, Hdr.raw, Raw.hdr, *]) rest

theorem parse_047 {r : Raw} (h : r.opcode = 0x047) : parse r = (
    let qw := r.imm.getLsbD 32
    do some (.stfe r.hdr (← r.ty) qw (← Opd.ofBits r.d) (← r.srcA) (← r.srcB) r.imm32)) := by
  unfold parse; rw [h]; show parseMemory r = _; unfold parseMemory; rw [h]; rfl

theorem Sys2Proof.Laws.RoundTrip.stfe (h : Hdr) (ty : Ty) (qw : Bool) (d : Opd) (a b : Src) (off : BitVec 32)
    : Statement (.stfe h ty qw d a b off) := by
  intro he hw hl
  have hw' : (!h.never && a.regIn h.len && b.regIn h.len && offIn h.len off && (h.len == .b128 || !qw)) = true := hw
  have e : (Instr.stfe h ty qw d a b off).toRaw =
      ({ ((h.raw 0x047).putA a).putB b with d := d.bits, mod := modTy ty 0, imm := immOff false qw off }) := rfl
  obtain ⟨len, sw, stall, guard, neg⟩ := h
  cases len <;> cases a <;> cases b <;> simp [Src.regIn, offIn] at hw'
  all_goals
    exact fun rest => decode_encode he hw hl
      (by rw [e, parse_047 rfl]; simp (disch := omega) [-BitVec.getLsbD_eq_getElem, Raw.putA, Raw.putB, Hdr.raw, Raw.srcA, Raw.srcB, Raw.hdr,
        Raw.ty, Raw.imm32, modTy, immOff, ext_low, bit_low, bit_high, ofBits_bits, perm_code, ty_code, *])
      (by rw [e]; simp [Raw.tidy, Raw.putA, Raw.putB, Hdr.raw, Perm.code, Perm.q, immOff_zero, *])
      (by rw [e]; simp [Raw.putA, Raw.putB, Hdr.raw, Raw.hdr, *]) rest

theorem parse_048 {r : Raw} (h : r.opcode = 0x048) : parse r = (
    do some (.feset r.hdr (r.mod.getLsbD 9) (← Opd.ofBits r.a) (← Opd.ofBits r.b) r.imm32)) := by
  unfold parse; rw [h]; show parseMemory r = _; unfold parseMemory; rw [h]; rfl

theorem Sys2Proof.Laws.RoundTrip.feset (h : Hdr) (full : Bool) (a b : Opd) (off : BitVec 32) : Statement (.feset h full a b off) := by
  intro he hw hl
  have hw' : (Letter.f.admits h.len && !h.never && offIn h.len off) = true := hw
  have e : (Instr.feset h full a b off).toRaw =
      ({ h.raw 0x048 with a := a.bits, b := b.bits, mod := BitVec.ofBool full ++ (0 : BitVec 9), imm := off.zeroExtend 64 }) := rfl
  obtain ⟨len, sw, stall, guard, neg⟩ := h
  cases len <;> simp [Letter.admits, offIn] at hw'
  all_goals
    exact fun rest => decode_encode he hw hl
      (by rw [e, parse_048 rfl]; simp (disch := omega) [-BitVec.getLsbD_eq_getElem, Hdr.raw, Raw.hdr, Raw.imm32, ext_wide, bit_high, ofBits_bits,
        *])
      (by rw [e]; simp [Raw.tidy, Hdr.raw, *])
      (by rw [e]; simp [Hdr.raw, Raw.hdr, *]) rest

theorem parse_049 {r : Raw} (h : r.opcode = 0x049) : parse r = (
    do
    let op := AOp.ofCode r.modx
    some (.atomg r.hdr (← r.qual) op (← r.ty) (← Opd.ofBits r.d) (← r.srcA) (← r.srcB) (← optOpd (op == .cas) r.c))) := by
  unfold parse; rw [h]; show parseMemory r = _; unfold parseMemory; rw [h]; rfl

theorem Sys2Proof.Laws.RoundTrip.atomg (h : Hdr) (q : Qual) (op : AOp) (ty : Ty) (d : Opd) (a b : Src) (c : Option Opd)
    : Statement (.atomg h q op ty d a b c) := by
  intro he hw hl
  have hw' : (Letter.b.admits h.len && !h.never && a.regIn h.len && b.regIn h.len && (h.len == .b96 || op == .add)
      && (c.isSome == (op == .cas))) = true := hw
  have e : (Instr.atomg h q op ty d a b c).toRaw =
      ({ ((h.raw 0x049).putA a).putB b with d := d.bits, mod := modTy ty q.code, c := optBits c, modx := op.code }) := rfl
  obtain ⟨len, sw, stall, guard, neg⟩ := h
  cases len <;> cases a <;> cases b <;> cases c <;> cases op <;> simp [Letter.admits, Src.regIn] at hw'
  all_goals
    exact fun rest => decode_encode he hw hl
      (by rw [e, parse_049 rfl]; simp (disch := omega) [-BitVec.getLsbD_eq_getElem, Raw.putA, Raw.putB, Hdr.raw, Raw.srcA, Raw.srcB, Raw.hdr,
        Raw.ty, Raw.qual, modTy, optBits, optOpd, ext_low, ext_high, ofBits_bits, perm_code, ty_code, aop_code, qual_code, *])
      (by rw [e]; simp [Raw.tidy, Raw.putA, Raw.putB, Hdr.raw, optBits, Perm.code, Perm.q, aop_add_code, *])
      (by rw [e]; simp [Raw.putA, Raw.putB, Hdr.raw, Raw.hdr, *]) rest

theorem parse_04A {r : Raw} (h : r.opcode = 0x04A) : parse r = (
    do
    let op := AOp.ofCode r.modx
    some (.atoms r.hdr (← r.qual) op (← r.ty) (← Opd.ofBits r.d) (← r.srcA) (← r.srcB) (← optOpd (op == .cas) r.c))) := by
  unfold parse; rw [h]; show parseMemory r = _; unfold parseMemory; rw [h]; rfl

theorem Sys2Proof.Laws.RoundTrip.atoms (h : Hdr) (q : Qual) (op : AOp) (ty : Ty) (d : Opd) (a b : Src) (c : Option Opd)
    : Statement (.atoms h q op ty d a b c) := by
  intro he hw hl
  have hw' : (Letter.b.admits h.len && !h.never && a.regIn h.len && b.regIn h.len && (h.len == .b96 || op == .add)
      && (c.isSome == (op == .cas))) = true := hw
  have e : (Instr.atoms h q op ty d a b c).toRaw =
      ({ ((h.raw 0x04A).putA a).putB b with d := d.bits, mod := modTy ty q.code, c := optBits c, modx := op.code }) := rfl
  obtain ⟨len, sw, stall, guard, neg⟩ := h
  cases len <;> cases a <;> cases b <;> cases c <;> cases op <;> simp [Letter.admits, Src.regIn] at hw'
  all_goals
    exact fun rest => decode_encode he hw hl
      (by rw [e, parse_04A rfl]; simp (disch := omega) [-BitVec.getLsbD_eq_getElem, Raw.putA, Raw.putB, Hdr.raw, Raw.srcA, Raw.srcB, Raw.hdr,
        Raw.ty, Raw.qual, modTy, optBits, optOpd, ext_low, ext_high, ofBits_bits, perm_code, ty_code, aop_code, qual_code, *])
      (by rw [e]; simp [Raw.tidy, Raw.putA, Raw.putB, Hdr.raw, optBits, Perm.code, Perm.q, aop_add_code, *])
      (by rw [e]; simp [Raw.putA, Raw.putB, Hdr.raw, Raw.hdr, *]) rest

theorem parse_04B {r : Raw} (h : r.opcode = 0x04B) : parse r = (
    do some (.redg r.hdr (← r.qual) (AOp.ofCode r.modx) (← r.ty) (← r.srcA) (← r.srcB))) := by
  unfold parse; rw [h]; show parseMemory r = _; unfold parseMemory; rw [h]; rfl

theorem Sys2Proof.Laws.RoundTrip.redg (h : Hdr) (q : Qual) (op : AOp) (ty : Ty) (a b : Src) : Statement (.redg h q op ty a b) := by
  intro he hw hl
  have hw' : (Letter.b.admits h.len && !h.never && a.regIn h.len && b.regIn h.len && (h.len == .b96 || op == .add)) = true := hw
  have e : (Instr.redg h q op ty a b).toRaw = ({ ((h.raw 0x04B).putA a).putB b with mod := modTy ty q.code, modx := op.code }) := rfl
  obtain ⟨len, sw, stall, guard, neg⟩ := h
  cases len <;> cases a <;> cases b <;> simp [Letter.admits, Src.regIn] at hw'
  all_goals
    exact fun rest => decode_encode he hw hl
      (by rw [e, parse_04B rfl]; simp (disch := omega) [-BitVec.getLsbD_eq_getElem, Raw.putA, Raw.putB, Hdr.raw, Raw.srcA, Raw.srcB, Raw.hdr,
        Raw.ty, Raw.qual, modTy, ext_low, ext_high, ofBits_bits, perm_code, ty_code, aop_code, qual_code, *])
      (by rw [e]; simp [Raw.tidy, Raw.putA, Raw.putB, Hdr.raw, Perm.code, Perm.q, aop_add_code, *])
      (by rw [e]; simp [Raw.putA, Raw.putB, Hdr.raw, Raw.hdr, *]) rest

theorem parse_04C {r : Raw} (h : r.opcode = 0x04C) : parse r = (
    let touch := r.imm.getLsbD 33
    do some (.pref r.hdr (r.mod.getLsbD 0) touch (← Opd.ofBits r.a) (← Opd.ofBits r.b) r.imm32)) := by
  unfold parse; rw [h]; show parseMemory r = _; unfold parseMemory; rw [h]; rfl

theorem Sys2Proof.Laws.RoundTrip.pref (h : Hdr) (l1 touch : Bool) (a b : Opd) (off : BitVec 32) : Statement (.pref h l1 touch a b off) := by
  intro he hw hl
  have hw' : (Letter.f.admits h.len && !h.never && offIn h.len off && (h.len == .b128 || !touch)) = true := hw
  have e : (Instr.pref h l1 touch a b off).toRaw =
      ({ h.raw 0x04C with a := a.bits, b := b.bits, mod := (BitVec.ofBool l1).zeroExtend 10, imm := immOff touch false off }) := rfl
  obtain ⟨len, sw, stall, guard, neg⟩ := h
  cases len <;> simp [Letter.admits, offIn] at hw'
  all_goals
    exact fun rest => decode_encode he hw hl
      (by rw [e, parse_04C rfl]; simp (disch := omega) [-BitVec.getLsbD_eq_getElem, Hdr.raw, Raw.hdr, Raw.imm32, immOff, ext_low, bit_low,
        bit_high, ofBits_bits, *])
      (by rw [e]; simp [Raw.tidy, Hdr.raw, immOff_zero, *])
      (by rw [e]; simp [Hdr.raw, Raw.hdr, *]) rest

theorem parse_04D {r : Raw} (h : r.opcode = 0x04D) : parse r = (
    do
    let scope ← (← Scope.ofCode (r.mod.extractLsb' 4 3))
    some (.fence r.hdr (MemOrd.ofCode (r.mod.extractLsb' 7 2)) scope)) := by
  unfold parse; rw [h]; show parseMemory r = _; unfold parseMemory; rw [h]; rfl

theorem Sys2Proof.Laws.RoundTrip.fence (h : Hdr) (ord : MemOrd) (scope : Scope) : Statement (.fence h ord scope) := by
  intro he hw hl
  have hw' : (Letter.a.admits h.len && !h.never) = true := hw
  have e : (Instr.fence h ord scope).toRaw =
      ({ h.raw 0x04D with mod := (0 : BitVec 1) ++ ord.code ++ Scope.code (some scope) ++ (0 : BitVec 4) }) := rfl
  obtain ⟨len, sw, stall, guard, neg⟩ := h
  cases len <;> simp [Letter.admits] at hw'
  all_goals
    exact fun rest => decode_encode he hw hl
      (by rw [e, parse_04D rfl]; simp (disch := omega) [-BitVec.getLsbD_eq_getElem, Hdr.raw, Raw.hdr, ext_low, ext_high, scope_code, ord_code, *])
      (by rw [e]; simp [Raw.tidy, Hdr.raw, *])
      (by rw [e]; simp [Hdr.raw, Raw.hdr, *]) rest

theorem parse_04E {r : Raw} (h : r.opcode = 0x04E) : parse r = (
    do
    let scope ← (← Scope.ofCode (r.mod.extractLsb' 4 3))
    some (.icinv r.hdr scope (← Opd.ofBits r.a) (← Opd.ofBits r.b))) := by
  unfold parse; rw [h]; show parseMemory r = _; unfold parseMemory; rw [h]; rfl

theorem Sys2Proof.Laws.RoundTrip.icinv (h : Hdr) (scope : Scope) (a b : Opd) : Statement (.icinv h scope a b) := by
  intro he hw hl
  have hw' : (Letter.a.admits h.len && !h.never) = true := hw
  have e : (Instr.icinv h scope a b).toRaw =
      ({ h.raw 0x04E with a := a.bits, b := b.bits, mod := (0 : BitVec 3) ++ Scope.code (some scope) ++ (0 : BitVec 4) }) := rfl
  obtain ⟨len, sw, stall, guard, neg⟩ := h
  cases len <;> simp [Letter.admits] at hw'
  all_goals
    exact fun rest => decode_encode he hw hl
      (by rw [e, parse_04E rfl]; simp (disch := omega) [-BitVec.getLsbD_eq_getElem, Hdr.raw, Raw.hdr, ext_low, ext_high, ofBits_bits, scope_code,
        *])
      (by rw [e]; simp [Raw.tidy, Hdr.raw, *])
      (by rw [e]; simp [Hdr.raw, Raw.hdr, *]) rest

theorem parse_04F {r : Raw} (h : r.opcode = 0x04F) : parse r = (
    do some (.cinv r.hdr (← CinvKind.ofCode (r.mod.extractLsb' 0 2)))) := by
  unfold parse; rw [h]; show parseMemory r = _; unfold parseMemory; rw [h]; rfl

theorem Sys2Proof.Laws.RoundTrip.cinv (h : Hdr) (kind : CinvKind) : Statement (.cinv h kind) := by
  intro he hw hl
  have hw' : (Letter.a.admits h.len && !h.never) = true := hw
  have e : (Instr.cinv h kind).toRaw = ({ h.raw 0x04F with mod := kind.code.zeroExtend 10 }) := rfl
  obtain ⟨len, sw, stall, guard, neg⟩ := h
  cases len <;> simp [Letter.admits] at hw'
  all_goals
    exact fun rest => decode_encode he hw hl
      (by rw [e, parse_04F rfl]; simp (disch := omega) [-BitVec.getLsbD_eq_getElem, Hdr.raw, Raw.hdr, ext_wide, cinv_code, *])
      (by rw [e]; simp [Raw.tidy, Hdr.raw, *])
      (by rw [e]; simp [Hdr.raw, Raw.hdr, *]) rest

theorem parse_050 {r : Raw} (h : r.opcode = 0x050) : parse r = (
    do some (.cwb r.hdr (← Opd.ofBits r.a) (← Opd.ofBits r.b))) := by
  unfold parse; rw [h]; show parseMemory r = _; unfold parseMemory; rw [h]; rfl

theorem Sys2Proof.Laws.RoundTrip.cwb (h : Hdr) (a b : Opd) : Statement (.cwb h a b) := by
  intro he hw hl
  have hw' : (Letter.a.admits h.len && !h.never) = true := hw
  have e : (Instr.cwb h a b).toRaw = ({ h.raw 0x050 with a := a.bits, b := b.bits }) := rfl
  obtain ⟨len, sw, stall, guard, neg⟩ := h
  cases len <;> simp [Letter.admits] at hw'
  all_goals
    exact fun rest => decode_encode he hw hl
      (by rw [e, parse_050 rfl]; simp (disch := omega) [-BitVec.getLsbD_eq_getElem, Hdr.raw, Raw.hdr, ofBits_bits, *])
      (by rw [e]; simp [Raw.tidy, Hdr.raw, *])
      (by rw [e]; simp [Hdr.raw, Raw.hdr, *]) rest

theorem parse_051 {r : Raw} (h : r.opcode = 0x051) : parse r = (
    do some (.marm r.hdr (← r.srcA) (← r.srcB))) := by
  unfold parse; rw [h]; show parseMemory r = _; unfold parseMemory; rw [h]; rfl

theorem Sys2Proof.Laws.RoundTrip.marm (h : Hdr) (a b : Src) : Statement (.marm h a b) := by
  intro he hw hl
  have hw' : (Letter.b.admits h.len && !h.never && a.regIn h.len && b.regIn h.len) = true := hw
  have e : (Instr.marm h a b).toRaw = (((h.raw 0x051).putA a).putB b) := rfl
  obtain ⟨len, sw, stall, guard, neg⟩ := h
  cases len <;> cases a <;> cases b <;> simp [Letter.admits, Src.regIn] at hw'
  all_goals
    exact fun rest => decode_encode he hw hl
      (by rw [e, parse_051 rfl]; simp (disch := omega) [-BitVec.getLsbD_eq_getElem, Raw.putA, Raw.putB, Hdr.raw, Raw.srcA, Raw.srcB, Raw.hdr,
        ofBits_bits, perm_code, *])
      (by rw [e]; simp [Raw.tidy, Raw.putA, Raw.putB, Hdr.raw, Perm.code, Perm.q, *])
      (by rw [e]; simp [Raw.putA, Raw.putB, Hdr.raw, Raw.hdr, *]) rest

theorem parse_052 {r : Raw} (h : r.opcode = 0x052) : parse r = (
    do some (.mwait r.hdr (← Opd.ofBits r.d) (← Opd.ofBits r.a))) := by
  unfold parse; rw [h]; show parseMemory r = _; unfold parseMemory; rw [h]; rfl

theorem Sys2Proof.Laws.RoundTrip.mwait (h : Hdr) (d a : Opd) : Statement (.mwait h d a) := by
  intro he hw hl
  have hw' : (Letter.a.admits h.len && !h.never) = true := hw
  have e : (Instr.mwait h d a).toRaw = ({ h.raw 0x052 with d := d.bits, a := a.bits }) := rfl
  obtain ⟨len, sw, stall, guard, neg⟩ := h
  cases len <;> simp [Letter.admits] at hw'
  all_goals
    exact fun rest => decode_encode he hw hl
      (by rw [e, parse_052 rfl]; simp (disch := omega) [-BitVec.getLsbD_eq_getElem, Hdr.raw, Raw.hdr, ofBits_bits, *])
      (by rw [e]; simp [Raw.tidy, Hdr.raw, *])
      (by rw [e]; simp [Hdr.raw, Raw.hdr, *]) rest

theorem parse_080 {r : Raw} (h : r.opcode = 0x080) : parse r = (
    do
    let ck ← Ck.ofCode (r.mod.extractLsb' 0 2)
    some (.tcopy r.hdr ck (← Opd.ofBits r.d) (← Opd.ofBits r.a) (← optOpd (ck == .stamp) r.b) (r.imm.extractLsb' 0 4) (r.imm.extractLsb' 4 4))) := by
  unfold parse; rw [h]; show parseAsync r = _; unfold parseAsync; rw [h]; rfl

theorem Sys2Proof.Laws.RoundTrip.tcopy (h : Hdr) (ck : Ck) (d a : Opd) (b : Option Opd) (tb tnm1 : BitVec 4)
    : Statement (.tcopy h ck d a b tb tnm1) := by
  intro he hw hl
  have hw' : (Letter.e.admits h.len && !h.never && (b.isSome == (ck == .stamp))) = true := hw
  have e : (Instr.tcopy h ck d a b tb tnm1).toRaw =
      ({ h.raw 0x080 with d := d.bits, a := a.bits, b := optBits b, mod := ck.code.zeroExtend 10, imm := (tnm1 ++ tb).zeroExtend 64 }) := rfl
  obtain ⟨len, sw, stall, guard, neg⟩ := h
  cases len <;> cases b <;> simp [Letter.admits] at hw'
  all_goals
    exact fun rest => decode_encode he hw hl
      (by rw [e, parse_080 rfl]; simp (disch := omega) [-BitVec.getLsbD_eq_getElem, Hdr.raw, Raw.hdr, optBits, optOpd, ext_low, ext_high,
        ext_wide, ofBits_bits, ck_code, *])
      (by rw [e]; simp [Raw.tidy, Hdr.raw, *])
      (by rw [e]; simp [Hdr.raw, Raw.hdr, *]) rest

theorem parse_081 {r : Raw} (h : r.opcode = 0x081) : parse r = (
    do
    let ck ← Ck.ofCode (r.mod.extractLsb' 0 2)
    some (.acopy r.hdr ck (← CopyPath.ofCode (r.mod.extractLsb' 2 3)) (← optOpd (ck != .fe) r.d) (← Opd.ofBits r.a)
      (← optOpd (ck == .stamp) r.b) (r.imm.extractLsb' 0 12))) := by
  unfold parse; rw [h]; show parseAsync r = _; unfold parseAsync; rw [h]; rfl

theorem Sys2Proof.Laws.RoundTrip.acopy (h : Hdr) (ck : Ck) (path : CopyPath) (d : Option Opd) (a : Opd) (b : Option Opd)
    (entry : BitVec 12) : Statement (.acopy h ck path d a b entry) := by
  intro he hw hl
  have hw' : (Letter.e.admits h.len && !h.never && (b.isSome == (ck == .stamp)) && (d.isSome == (ck != .fe))) = true := hw
  have e : (Instr.acopy h ck path d a b entry).toRaw =
      ({ h.raw 0x081 with d := optBits d, a := a.bits, b := optBits b, mod := (path.code ++ ck.code).zeroExtend 10, imm := entry.zeroExtend 64 }) := rfl
  obtain ⟨len, sw, stall, guard, neg⟩ := h
  cases len <;> cases d <;> cases b <;> cases ck <;> simp [Letter.admits] at hw'
  all_goals
    exact fun rest => decode_encode he hw hl
      (by rw [e, parse_081 rfl]; simp (disch := omega) [-BitVec.getLsbD_eq_getElem, Hdr.raw, Raw.hdr, optBits, optOpd, ext_low, ext_high,
        ext_wide, ofBits_bits, ck_code, path_code, *])
      (by rw [e]; simp [Raw.tidy, Hdr.raw, *])
      (by rw [e]; simp [Hdr.raw, Raw.hdr, *]) rest

theorem parse_082 {r : Raw} (h : r.opcode = 0x082) : parse r = (
    do some (.barinit r.hdr (← Opd.ofBits r.a) (← r.srcBI))) := by
  unfold parse; rw [h]; show parseAsync r = _; unfold parseAsync; rw [h]; rfl

theorem Sys2Proof.Laws.RoundTrip.barinit (h : Hdr) (a : Opd) (n : Src) : Statement (.barinit h a n) := by
  intro he hw hl
  have hw' : (Letter.f.admits h.len && !h.never && n.orImm h.len false) = true := hw
  have e : (Instr.barinit h a n).toRaw = ({ (h.raw 0x082).putB n with a := a.bits }) := rfl
  obtain ⟨len, sw, stall, guard, neg⟩ := h
  cases len <;> cases n <;> simp [Letter.admits, Src.orImm] at hw'
  all_goals
    exact fun rest => decode_encode he hw hl
      (by rw [e, parse_082 rfl]; simp (disch := omega) [-BitVec.getLsbD_eq_getElem, Raw.putB, Hdr.raw, Raw.srcB, Raw.srcBI, Raw.hdr, ofBits_bits,
        perm_code, *])
      (by rw [e]; simp [Raw.tidy, Raw.putB, Hdr.raw, Perm.code, Perm.q, *])
      (by rw [e]; simp [Raw.putB, Hdr.raw, Raw.hdr, *]) rest

theorem parse_083 {r : Raw} (h : r.opcode = 0x083) : parse r = (
    do some (.barexp r.hdr (← Opd.ofBits r.a) (← r.srcBI))) := by
  unfold parse; rw [h]; show parseAsync r = _; unfold parseAsync; rw [h]; rfl

theorem Sys2Proof.Laws.RoundTrip.barexp (h : Hdr) (a : Opd) (n : Src) : Statement (.barexp h a n) := by
  intro he hw hl
  have hw' : (Letter.f.admits h.len && !h.never && n.orImm h.len false) = true := hw
  have e : (Instr.barexp h a n).toRaw = ({ (h.raw 0x083).putB n with a := a.bits }) := rfl
  obtain ⟨len, sw, stall, guard, neg⟩ := h
  cases len <;> cases n <;> simp [Letter.admits, Src.orImm] at hw'
  all_goals
    exact fun rest => decode_encode he hw hl
      (by rw [e, parse_083 rfl]; simp (disch := omega) [-BitVec.getLsbD_eq_getElem, Raw.putB, Hdr.raw, Raw.srcB, Raw.srcBI, Raw.hdr, ofBits_bits,
        perm_code, *])
      (by rw [e]; simp [Raw.tidy, Raw.putB, Hdr.raw, Perm.code, Perm.q, *])
      (by rw [e]; simp [Raw.putB, Hdr.raw, Raw.hdr, *]) rest

theorem parse_084 {r : Raw} (h : r.opcode = 0x084) : parse r = (
    do some (.bararv r.hdr (← Opd.ofBits r.d) (← Opd.ofBits r.a) (r.mod.extractLsb' 0 3))) := by
  unfold parse; rw [h]; show parseAsync r = _; unfold parseAsync; rw [h]; rfl

theorem Sys2Proof.Laws.RoundTrip.bararv (h : Hdr) (d a : Opd) (p : BitVec 3) : Statement (.bararv h d a p) := by
  intro he hw hl
  have hw' : (Letter.a.admits h.len && !h.never) = true := hw
  have e : (Instr.bararv h d a p).toRaw = ({ h.raw 0x084 with d := d.bits, a := a.bits, mod := p.zeroExtend 10 }) := rfl
  obtain ⟨len, sw, stall, guard, neg⟩ := h
  cases len <;> simp [Letter.admits] at hw'
  all_goals
    exact fun rest => decode_encode he hw hl
      (by rw [e, parse_084 rfl]; simp (disch := omega) [-BitVec.getLsbD_eq_getElem, Hdr.raw, Raw.hdr, ext_wide, ofBits_bits, *])
      (by rw [e]; simp [Raw.tidy, Hdr.raw, *])
      (by rw [e]; simp [Hdr.raw, Raw.hdr, *]) rest

theorem parse_085 {r : Raw} (h : r.opcode = 0x085) : parse r = (
    do some (.barwt r.hdr (← Opd.ofBits r.a) (← Opd.ofBits r.b))) := by
  unfold parse; rw [h]; show parseAsync r = _; unfold parseAsync; rw [h]; rfl

theorem Sys2Proof.Laws.RoundTrip.barwt (h : Hdr) (a b : Opd) : Statement (.barwt h a b) := by
  intro he hw hl
  have hw' : (Letter.a.admits h.len && !h.never) = true := hw
  have e : (Instr.barwt h a b).toRaw = ({ h.raw 0x085 with a := a.bits, b := b.bits }) := rfl
  obtain ⟨len, sw, stall, guard, neg⟩ := h
  cases len <;> simp [Letter.admits] at hw'
  all_goals
    exact fun rest => decode_encode he hw hl
      (by rw [e, parse_085 rfl]; simp (disch := omega) [-BitVec.getLsbD_eq_getElem, Hdr.raw, Raw.hdr, ofBits_bits, *])
      (by rw [e]; simp [Raw.tidy, Hdr.raw, *])
      (by rw [e]; simp [Hdr.raw, Raw.hdr, *]) rest

theorem parse_086 {r : Raw} (h : r.opcode = 0x086) : parse r = (
    do some (.barcont r.hdr (← Opd.ofBits r.a) (← Opd.ofBits r.b) r.imm32)) := by
  unfold parse; rw [h]; show parseAsync r = _; unfold parseAsync; rw [h]; rfl

theorem Sys2Proof.Laws.RoundTrip.barcont (h : Hdr) (a b : Opd) (off : BitVec 32) : Statement (.barcont h a b off) := by
  intro he hw hl
  have hw' : (Letter.e.admits h.len && !h.never) = true := hw
  have e : (Instr.barcont h a b off).toRaw = ({ h.raw 0x086 with a := a.bits, b := b.bits, imm := off.zeroExtend 64 }) := rfl
  obtain ⟨len, sw, stall, guard, neg⟩ := h
  cases len <;> simp [Letter.admits] at hw'
  all_goals
    exact fun rest => decode_encode he hw hl
      (by rw [e, parse_086 rfl]; simp (disch := omega) [-BitVec.getLsbD_eq_getElem, Hdr.raw, Raw.hdr, Raw.imm32, ext_wide, ofBits_bits, *])
      (by rw [e]; simp [Raw.tidy, Hdr.raw, *])
      (by rw [e]; simp [Hdr.raw, Raw.hdr, *]) rest

theorem parse_087 {r : Raw} (h : r.opcode = 0x087) : parse r = (
    do some (.subs r.hdr (← Opd.ofBits r.d) (← Opd.ofBits r.a) (← Opd.ofBits r.b) (r.imm.extractLsb' 0 4) (r.imm.getLsbD 4))) := by
  unfold parse; rw [h]; show parseAsync r = _; unfold parseAsync; rw [h]; rfl

theorem Sys2Proof.Laws.RoundTrip.subs (h : Hdr) (d a b : Opd) (logn : BitVec 4) (dir : Bool) : Statement (.subs h d a b logn dir) := by
  intro he hw hl
  have hw' : (Letter.e.admits h.len && !h.never) = true := hw
  have e : (Instr.subs h d a b logn dir).toRaw =
      ({ h.raw 0x087 with d := d.bits, a := a.bits, b := b.bits, imm := (BitVec.ofBool dir ++ logn).zeroExtend 64 }) := rfl
  obtain ⟨len, sw, stall, guard, neg⟩ := h
  cases len <;> simp [Letter.admits] at hw'
  all_goals
    exact fun rest => decode_encode he hw hl
      (by rw [e, parse_087 rfl]; simp (disch := omega) [-BitVec.getLsbD_eq_getElem, Hdr.raw, Raw.hdr, ext_low, ext_wide, bit_high, ofBits_bits, *])
      (by rw [e]; simp [Raw.tidy, Hdr.raw, *])
      (by rw [e]; simp [Hdr.raw, Raw.hdr, *]) rest

theorem parse_088 {r : Raw} (h : r.opcode = 0x088) : parse r = (
    do some (.rrel r.hdr (← Opd.ofBits r.a) (← r.srcBI))) := by
  unfold parse; rw [h]; show parseAsync r = _; unfold parseAsync; rw [h]; rfl

theorem Sys2Proof.Laws.RoundTrip.rrel (h : Hdr) (a : Opd) (n : Src) : Statement (.rrel h a n) := by
  intro he hw hl
  have hw' : (Letter.f.admits h.len && !h.never && n.orImm h.len false) = true := hw
  have e : (Instr.rrel h a n).toRaw = ({ (h.raw 0x088).putB n with a := a.bits }) := rfl
  obtain ⟨len, sw, stall, guard, neg⟩ := h
  cases len <;> cases n <;> simp [Letter.admits, Src.orImm] at hw'
  all_goals
    exact fun rest => decode_encode he hw hl
      (by rw [e, parse_088 rfl]; simp (disch := omega) [-BitVec.getLsbD_eq_getElem, Raw.putB, Hdr.raw, Raw.srcB, Raw.srcBI, Raw.hdr, ofBits_bits,
        perm_code, *])
      (by rw [e]; simp [Raw.tidy, Raw.putB, Hdr.raw, Perm.code, Perm.q, *])
      (by rw [e]; simp [Raw.putB, Hdr.raw, Raw.hdr, *]) rest

theorem parse_089 {r : Raw} (h : r.opcode = 0x089) : parse r = (
    do some (.rfin r.hdr (← Opd.ofBits r.a) (← r.srcBI))) := by
  unfold parse; rw [h]; show parseAsync r = _; unfold parseAsync; rw [h]; rfl

theorem Sys2Proof.Laws.RoundTrip.rfin (h : Hdr) (a : Opd) (n : Src) : Statement (.rfin h a n) := by
  intro he hw hl
  have hw' : (Letter.f.admits h.len && !h.never && n.orImm h.len false) = true := hw
  have e : (Instr.rfin h a n).toRaw = ({ (h.raw 0x089).putB n with a := a.bits }) := rfl
  obtain ⟨len, sw, stall, guard, neg⟩ := h
  cases len <;> cases n <;> simp [Letter.admits, Src.orImm] at hw'
  all_goals
    exact fun rest => decode_encode he hw hl
      (by rw [e, parse_089 rfl]; simp (disch := omega) [-BitVec.getLsbD_eq_getElem, Raw.putB, Hdr.raw, Raw.srcB, Raw.srcBI, Raw.hdr, ofBits_bits,
        perm_code, *])
      (by rw [e]; simp [Raw.tidy, Raw.putB, Hdr.raw, Perm.code, Perm.q, *])
      (by rw [e]; simp [Raw.putB, Hdr.raw, Raw.hdr, *]) rest

theorem parse_08A {r : Raw} (h : r.opcode = 0x08A) : parse r = (
    do some (.wqry r.hdr (← Opd.ofBits r.a) (← Opd.ofBits r.b))) := by
  unfold parse; rw [h]; show parseAsync r = _; unfold parseAsync; rw [h]; rfl

theorem Sys2Proof.Laws.RoundTrip.wqry (h : Hdr) (a b : Opd) : Statement (.wqry h a b) := by
  intro he hw hl
  have hw' : (Letter.a.admits h.len && !h.never) = true := hw
  have e : (Instr.wqry h a b).toRaw = ({ h.raw 0x08A with a := a.bits, b := b.bits }) := rfl
  obtain ⟨len, sw, stall, guard, neg⟩ := h
  cases len <;> simp [Letter.admits] at hw'
  all_goals
    exact fun rest => decode_encode he hw hl
      (by rw [e, parse_08A rfl]; simp (disch := omega) [-BitVec.getLsbD_eq_getElem, Hdr.raw, Raw.hdr, ofBits_bits, *])
      (by rw [e]; simp [Raw.tidy, Hdr.raw, *])
      (by rw [e]; simp [Hdr.raw, Raw.hdr, *]) rest

theorem parse_08B {r : Raw} (h : r.opcode = 0x08B) : parse r = (
    do some (.rmtw r.hdr (← r.ty) (← Opd.ofBits r.d) (← Opd.ofBits r.a) (r.imm.extractLsb' 0 12) (r.imm.extractLsb' 12 40))) := by
  unfold parse; rw [h]; show parseAsync r = _; unfold parseAsync; rw [h]; rfl

theorem Sys2Proof.Laws.RoundTrip.rmtw (h : Hdr) (ty : Ty) (d a : Opd) (entry : BitVec 12) (off : BitVec 40)
    : Statement (.rmtw h ty d a entry off) := by
  intro he hw hl
  have hw' : (Letter.e.admits h.len && !h.never) = true := hw
  have e : (Instr.rmtw h ty d a entry off).toRaw =
      ({ h.raw 0x08B with d := d.bits, a := a.bits, mod := modTy ty 0, imm := (0 : BitVec 12) ++ off ++ entry }) := rfl
  obtain ⟨len, sw, stall, guard, neg⟩ := h
  cases len <;> simp [Letter.admits] at hw'
  all_goals
    exact fun rest => decode_encode he hw hl
      (by rw [e, parse_08B rfl]; simp (disch := omega) [-BitVec.getLsbD_eq_getElem, Hdr.raw, Raw.hdr, Raw.ty, modTy, ext_low, ext_high,
        ofBits_bits, ty_code, *])
      (by rw [e]; simp [Raw.tidy, Hdr.raw, *])
      (by rw [e]; simp [Hdr.raw, Raw.hdr, *]) rest

theorem parse_08C {r : Raw} (h : r.opcode = 0x08C) : parse r = (
    do some (.rmtr r.hdr (← r.ty) (← Opd.ofBits r.d) (← Opd.ofBits r.a) (r.imm.extractLsb' 0 12) (r.imm.extractLsb' 12 40))) := by
  unfold parse; rw [h]; show parseAsync r = _; unfold parseAsync; rw [h]; rfl

theorem Sys2Proof.Laws.RoundTrip.rmtr (h : Hdr) (ty : Ty) (d a : Opd) (entry : BitVec 12) (off : BitVec 40)
    : Statement (.rmtr h ty d a entry off) := by
  intro he hw hl
  have hw' : (Letter.e.admits h.len && !h.never) = true := hw
  have e : (Instr.rmtr h ty d a entry off).toRaw =
      ({ h.raw 0x08C with d := d.bits, a := a.bits, mod := modTy ty 0, imm := (0 : BitVec 12) ++ off ++ entry }) := rfl
  obtain ⟨len, sw, stall, guard, neg⟩ := h
  cases len <;> simp [Letter.admits] at hw'
  all_goals
    exact fun rest => decode_encode he hw hl
      (by rw [e, parse_08C rfl]; simp (disch := omega) [-BitVec.getLsbD_eq_getElem, Hdr.raw, Raw.hdr, Raw.ty, modTy, ext_low, ext_high,
        ofBits_bits, ty_code, *])
      (by rw [e]; simp [Raw.tidy, Hdr.raw, *])
      (by rw [e]; simp [Hdr.raw, Raw.hdr, *]) rest

theorem parse_0C0 {r : Raw} (h : r.opcode = 0x0C0) : parse r = (
    parseTDAB r fun h ty => .iadd h ty (r.mod.extractLsb' 4 3) (r.mod.extractLsb' 7 3)) := by
  unfold parse; rw [h]; show parseInteger r = _; unfold parseInteger; rw [h]; rfl

theorem Sys2Proof.Laws.RoundTrip.iadd (h : Hdr) (ty : Ty) (co ci : BitVec 3) (d : Opd) (a b : Src) : Statement (.iadd h ty co ci d a b) := by
  intro he hw hl
  have hw' : (!h.never && a.regIn h.len && b.orImm h.len ty.is64) = true := hw
  have e : (Instr.iadd h ty co ci d a b).toRaw = (rawDAB h 0x0C0 (ci ++ co ++ ty.code) d a b) := rfl
  obtain ⟨len, sw, stall, guard, neg⟩ := h
  cases len <;> cases a <;> cases b <;> simp [Src.regIn, Src.orImm] at hw'
  all_goals
    exact fun rest => decode_encode he hw hl
      (by rw [e, parse_0C0 rfl]; simp (disch := omega) [-BitVec.getLsbD_eq_getElem, parseTDAB, rawDAB, Raw.putA, Raw.putB, Hdr.raw, Raw.srcA,
        Raw.srcB, Raw.srcBI, Raw.hdr, Raw.ty, ext_low, ext_high, ofBits_bits, perm_code, ty_code, *])
      (by rw [e]; simp [Raw.tidy, rawDAB, Raw.putA, Raw.putB, Hdr.raw, Perm.code, Perm.q, *])
      (by rw [e]; simp [rawDAB, Raw.putA, Raw.putB, Hdr.raw, Raw.hdr, *]) rest

theorem parse_0C1 {r : Raw} (h : r.opcode = 0x0C1) : parse r = (
    parseTDAB r fun h ty => .isub h ty (r.mod.extractLsb' 4 3) (r.mod.extractLsb' 7 3)) := by
  unfold parse; rw [h]; show parseInteger r = _; unfold parseInteger; rw [h]; rfl

theorem Sys2Proof.Laws.RoundTrip.isub (h : Hdr) (ty : Ty) (co ci : BitVec 3) (d : Opd) (a b : Src) : Statement (.isub h ty co ci d a b) := by
  intro he hw hl
  have hw' : (!h.never && a.regIn h.len && b.orImm h.len ty.is64) = true := hw
  have e : (Instr.isub h ty co ci d a b).toRaw = (rawDAB h 0x0C1 (ci ++ co ++ ty.code) d a b) := rfl
  obtain ⟨len, sw, stall, guard, neg⟩ := h
  cases len <;> cases a <;> cases b <;> simp [Src.regIn, Src.orImm] at hw'
  all_goals
    exact fun rest => decode_encode he hw hl
      (by rw [e, parse_0C1 rfl]; simp (disch := omega) [-BitVec.getLsbD_eq_getElem, parseTDAB, rawDAB, Raw.putA, Raw.putB, Hdr.raw, Raw.srcA,
        Raw.srcB, Raw.srcBI, Raw.hdr, Raw.ty, ext_low, ext_high, ofBits_bits, perm_code, ty_code, *])
      (by rw [e]; simp [Raw.tidy, rawDAB, Raw.putA, Raw.putB, Hdr.raw, Perm.code, Perm.q, *])
      (by rw [e]; simp [rawDAB, Raw.putA, Raw.putB, Hdr.raw, Raw.hdr, *]) rest

theorem parse_0C2 {r : Raw} (h : r.opcode = 0x0C2) : parse r = (
    parseTDABC r .iadd3) := by
  unfold parse; rw [h]; show parseInteger r = _; unfold parseInteger; rw [h]; rfl

theorem Sys2Proof.Laws.RoundTrip.iadd3 (h : Hdr) (ty : Ty) (d : Opd) (a b : Src) (c : Opd) : Statement (.iadd3 h ty d a b c) := by
  intro he hw hl
  have hw' : (Letter.d.admits h.len && !h.never && a.regIn h.len && b.regIn h.len) = true := hw
  have e : (Instr.iadd3 h ty d a b c).toRaw = ({ rawDAB h 0x0C2 (modTy ty 0) d a b with c := c.bits }) := rfl
  obtain ⟨len, sw, stall, guard, neg⟩ := h
  cases len <;> cases a <;> cases b <;> simp [Letter.admits, Src.regIn] at hw'
  all_goals
    exact fun rest => decode_encode he hw hl
      (by rw [e, parse_0C2 rfl]; simp (disch := omega) [-BitVec.getLsbD_eq_getElem, parseTDABC, rawDAB, Raw.putA, Raw.putB, Hdr.raw, Raw.srcA,
        Raw.srcB, Raw.hdr, Raw.ty, modTy, ext_low, ofBits_bits, perm_code, ty_code, *])
      (by rw [e]; simp [Raw.tidy, rawDAB, Raw.putA, Raw.putB, Hdr.raw, Perm.code, Perm.q, modTy, *])
      (by rw [e]; simp [rawDAB, Raw.putA, Raw.putB, Hdr.raw, Raw.hdr, *]) rest

theorem parse_0C3 {r : Raw} (h : r.opcode = 0x0C3) : parse r = (
    parseTDAB r .imul) := by
  unfold parse; rw [h]; show parseInteger r = _; unfold parseInteger; rw [h]; rfl

theorem Sys2Proof.Laws.RoundTrip.imul (h : Hdr) (ty : Ty) (d : Opd) (a b : Src) : Statement (.imul h ty d a b) := by
  intro he hw hl
  have hw' : (!h.never && a.regIn h.len && b.orImm h.len ty.is64) = true := hw
  have e : (Instr.imul h ty d a b).toRaw = (rawDAB h 0x0C3 (modTy ty 0) d a b) := rfl
  obtain ⟨len, sw, stall, guard, neg⟩ := h
  cases len <;> cases a <;> cases b <;> simp [Src.regIn, Src.orImm] at hw'
  all_goals
    exact fun rest => decode_encode he hw hl
      (by rw [e, parse_0C3 rfl]; simp (disch := omega) [-BitVec.getLsbD_eq_getElem, parseTDAB, rawDAB, Raw.putA, Raw.putB, Hdr.raw, Raw.srcA,
        Raw.srcB, Raw.srcBI, Raw.hdr, Raw.ty, modTy, ext_low, ofBits_bits, perm_code, ty_code, *])
      (by rw [e]; simp [Raw.tidy, rawDAB, Raw.putA, Raw.putB, Hdr.raw, Perm.code, Perm.q, modTy, *])
      (by rw [e]; simp [rawDAB, Raw.putA, Raw.putB, Hdr.raw, Raw.hdr, *]) rest

theorem parse_0C4 {r : Raw} (h : r.opcode = 0x0C4) : parse r = (
    parseTDAB r .imulh) := by
  unfold parse; rw [h]; show parseInteger r = _; unfold parseInteger; rw [h]; rfl

theorem Sys2Proof.Laws.RoundTrip.imulh (h : Hdr) (ty : Ty) (d : Opd) (a b : Src) : Statement (.imulh h ty d a b) := by
  intro he hw hl
  have hw' : (!h.never && a.regIn h.len && b.orImm h.len ty.is64) = true := hw
  have e : (Instr.imulh h ty d a b).toRaw = (rawDAB h 0x0C4 (modTy ty 0) d a b) := rfl
  obtain ⟨len, sw, stall, guard, neg⟩ := h
  cases len <;> cases a <;> cases b <;> simp [Src.regIn, Src.orImm] at hw'
  all_goals
    exact fun rest => decode_encode he hw hl
      (by rw [e, parse_0C4 rfl]; simp (disch := omega) [-BitVec.getLsbD_eq_getElem, parseTDAB, rawDAB, Raw.putA, Raw.putB, Hdr.raw, Raw.srcA,
        Raw.srcB, Raw.srcBI, Raw.hdr, Raw.ty, modTy, ext_low, ofBits_bits, perm_code, ty_code, *])
      (by rw [e]; simp [Raw.tidy, rawDAB, Raw.putA, Raw.putB, Hdr.raw, Perm.code, Perm.q, modTy, *])
      (by rw [e]; simp [rawDAB, Raw.putA, Raw.putB, Hdr.raw, Raw.hdr, *]) rest

theorem parse_0C5 {r : Raw} (h : r.opcode = 0x0C5) : parse r = (
    parseTDABC r .imad) := by
  unfold parse; rw [h]; show parseInteger r = _; unfold parseInteger; rw [h]; rfl

theorem Sys2Proof.Laws.RoundTrip.imad (h : Hdr) (ty : Ty) (d : Opd) (a b : Src) (c : Opd) : Statement (.imad h ty d a b c) := by
  intro he hw hl
  have hw' : (Letter.d.admits h.len && !h.never && a.regIn h.len && b.regIn h.len) = true := hw
  have e : (Instr.imad h ty d a b c).toRaw = ({ rawDAB h 0x0C5 (modTy ty 0) d a b with c := c.bits }) := rfl
  obtain ⟨len, sw, stall, guard, neg⟩ := h
  cases len <;> cases a <;> cases b <;> simp [Letter.admits, Src.regIn] at hw'
  all_goals
    exact fun rest => decode_encode he hw hl
      (by rw [e, parse_0C5 rfl]; simp (disch := omega) [-BitVec.getLsbD_eq_getElem, parseTDABC, rawDAB, Raw.putA, Raw.putB, Hdr.raw, Raw.srcA,
        Raw.srcB, Raw.hdr, Raw.ty, modTy, ext_low, ofBits_bits, perm_code, ty_code, *])
      (by rw [e]; simp [Raw.tidy, rawDAB, Raw.putA, Raw.putB, Hdr.raw, Perm.code, Perm.q, modTy, *])
      (by rw [e]; simp [rawDAB, Raw.putA, Raw.putB, Hdr.raw, Raw.hdr, *]) rest

theorem parse_0C6 {r : Raw} (h : r.opcode = 0x0C6) : parse r = (
    parseTDABC r .imadw) := by
  unfold parse; rw [h]; show parseInteger r = _; unfold parseInteger; rw [h]; rfl

theorem Sys2Proof.Laws.RoundTrip.imadw (h : Hdr) (ty : Ty) (d : Opd) (a b : Src) (c : Opd) : Statement (.imadw h ty d a b c) := by
  intro he hw hl
  have hw' : (Letter.d.admits h.len && !h.never && a.regIn h.len && b.regIn h.len) = true := hw
  have e : (Instr.imadw h ty d a b c).toRaw = ({ rawDAB h 0x0C6 (modTy ty 0) d a b with c := c.bits }) := rfl
  obtain ⟨len, sw, stall, guard, neg⟩ := h
  cases len <;> cases a <;> cases b <;> simp [Letter.admits, Src.regIn] at hw'
  all_goals
    exact fun rest => decode_encode he hw hl
      (by rw [e, parse_0C6 rfl]; simp (disch := omega) [-BitVec.getLsbD_eq_getElem, parseTDABC, rawDAB, Raw.putA, Raw.putB, Hdr.raw, Raw.srcA,
        Raw.srcB, Raw.hdr, Raw.ty, modTy, ext_low, ofBits_bits, perm_code, ty_code, *])
      (by rw [e]; simp [Raw.tidy, rawDAB, Raw.putA, Raw.putB, Hdr.raw, Perm.code, Perm.q, modTy, *])
      (by rw [e]; simp [rawDAB, Raw.putA, Raw.putB, Hdr.raw, Raw.hdr, *]) rest

theorem parse_0C7 {r : Raw} (h : r.opcode = 0x0C7) : parse r = (
    parseTDA r .ineg) := by
  unfold parse; rw [h]; show parseInteger r = _; unfold parseInteger; rw [h]; rfl

theorem Sys2Proof.Laws.RoundTrip.ineg (h : Hdr) (ty : Ty) (d : Opd) (a : Src) : Statement (.ineg h ty d a) := by
  intro he hw hl
  have hw' : (Letter.b.admits h.len && !h.never && a.regIn h.len) = true := hw
  have e : (Instr.ineg h ty d a).toRaw = (rawDA h 0x0C7 (modTy ty 0) d a) := rfl
  obtain ⟨len, sw, stall, guard, neg⟩ := h
  cases len <;> cases a <;> simp [Letter.admits, Src.regIn] at hw'
  all_goals
    exact fun rest => decode_encode he hw hl
      (by rw [e, parse_0C7 rfl]; simp (disch := omega) [-BitVec.getLsbD_eq_getElem, parseTDA, rawDA, Raw.putA, Hdr.raw, Raw.srcA, Raw.hdr, Raw.ty,
        modTy, ext_low, ofBits_bits, perm_code, ty_code, *])
      (by rw [e]; simp [Raw.tidy, rawDA, Raw.putA, Hdr.raw, Perm.code, Perm.q, modTy, *])
      (by rw [e]; simp [rawDA, Raw.putA, Hdr.raw, Raw.hdr, *]) rest

theorem parse_0C8 {r : Raw} (h : r.opcode = 0x0C8) : parse r = (
    parseTDA r .iabs) := by
  unfold parse; rw [h]; show parseInteger r = _; unfold parseInteger; rw [h]; rfl

theorem Sys2Proof.Laws.RoundTrip.iabs (h : Hdr) (ty : Ty) (d : Opd) (a : Src) : Statement (.iabs h ty d a) := by
  intro he hw hl
  have hw' : (Letter.b.admits h.len && !h.never && a.regIn h.len) = true := hw
  have e : (Instr.iabs h ty d a).toRaw = (rawDA h 0x0C8 (modTy ty 0) d a) := rfl
  obtain ⟨len, sw, stall, guard, neg⟩ := h
  cases len <;> cases a <;> simp [Letter.admits, Src.regIn] at hw'
  all_goals
    exact fun rest => decode_encode he hw hl
      (by rw [e, parse_0C8 rfl]; simp (disch := omega) [-BitVec.getLsbD_eq_getElem, parseTDA, rawDA, Raw.putA, Hdr.raw, Raw.srcA, Raw.hdr, Raw.ty,
        modTy, ext_low, ofBits_bits, perm_code, ty_code, *])
      (by rw [e]; simp [Raw.tidy, rawDA, Raw.putA, Hdr.raw, Perm.code, Perm.q, modTy, *])
      (by rw [e]; simp [rawDA, Raw.putA, Hdr.raw, Raw.hdr, *]) rest

theorem parse_0C9 {r : Raw} (h : r.opcode = 0x0C9) : parse r = (
    parseTDAB r .imin) := by
  unfold parse; rw [h]; show parseInteger r = _; unfold parseInteger; rw [h]; rfl

theorem Sys2Proof.Laws.RoundTrip.imin (h : Hdr) (ty : Ty) (d : Opd) (a b : Src) : Statement (.imin h ty d a b) := by
  intro he hw hl
  have hw' : (!h.never && a.regIn h.len && b.orImm h.len ty.is64) = true := hw
  have e : (Instr.imin h ty d a b).toRaw = (rawDAB h 0x0C9 (modTy ty 0) d a b) := rfl
  obtain ⟨len, sw, stall, guard, neg⟩ := h
  cases len <;> cases a <;> cases b <;> simp [Src.regIn, Src.orImm] at hw'
  all_goals
    exact fun rest => decode_encode he hw hl
      (by rw [e, parse_0C9 rfl]; simp (disch := omega) [-BitVec.getLsbD_eq_getElem, parseTDAB, rawDAB, Raw.putA, Raw.putB, Hdr.raw, Raw.srcA,
        Raw.srcB, Raw.srcBI, Raw.hdr, Raw.ty, modTy, ext_low, ofBits_bits, perm_code, ty_code, *])
      (by rw [e]; simp [Raw.tidy, rawDAB, Raw.putA, Raw.putB, Hdr.raw, Perm.code, Perm.q, modTy, *])
      (by rw [e]; simp [rawDAB, Raw.putA, Raw.putB, Hdr.raw, Raw.hdr, *]) rest

theorem parse_0CA {r : Raw} (h : r.opcode = 0x0CA) : parse r = (
    parseTDAB r .imax) := by
  unfold parse; rw [h]; show parseInteger r = _; unfold parseInteger; rw [h]; rfl

theorem Sys2Proof.Laws.RoundTrip.imax (h : Hdr) (ty : Ty) (d : Opd) (a b : Src) : Statement (.imax h ty d a b) := by
  intro he hw hl
  have hw' : (!h.never && a.regIn h.len && b.orImm h.len ty.is64) = true := hw
  have e : (Instr.imax h ty d a b).toRaw = (rawDAB h 0x0CA (modTy ty 0) d a b) := rfl
  obtain ⟨len, sw, stall, guard, neg⟩ := h
  cases len <;> cases a <;> cases b <;> simp [Src.regIn, Src.orImm] at hw'
  all_goals
    exact fun rest => decode_encode he hw hl
      (by rw [e, parse_0CA rfl]; simp (disch := omega) [-BitVec.getLsbD_eq_getElem, parseTDAB, rawDAB, Raw.putA, Raw.putB, Hdr.raw, Raw.srcA,
        Raw.srcB, Raw.srcBI, Raw.hdr, Raw.ty, modTy, ext_low, ofBits_bits, perm_code, ty_code, *])
      (by rw [e]; simp [Raw.tidy, rawDAB, Raw.putA, Raw.putB, Hdr.raw, Perm.code, Perm.q, modTy, *])
      (by rw [e]; simp [rawDAB, Raw.putA, Raw.putB, Hdr.raw, Raw.hdr, *]) rest

theorem parse_0CB {r : Raw} (h : r.opcode = 0x0CB) : parse r = (
    parseTDAB r .ishl) := by
  unfold parse; rw [h]; show parseInteger r = _; unfold parseInteger; rw [h]; rfl

theorem Sys2Proof.Laws.RoundTrip.ishl (h : Hdr) (ty : Ty) (d : Opd) (a b : Src) : Statement (.ishl h ty d a b) := by
  intro he hw hl
  have hw' : (!h.never && a.regIn h.len && b.orImm h.len false) = true := hw
  have e : (Instr.ishl h ty d a b).toRaw = (rawDAB h 0x0CB (modTy ty 0) d a b) := rfl
  obtain ⟨len, sw, stall, guard, neg⟩ := h
  cases len <;> cases a <;> cases b <;> simp [Src.regIn, Src.orImm] at hw'
  all_goals
    exact fun rest => decode_encode he hw hl
      (by rw [e, parse_0CB rfl]; simp (disch := omega) [-BitVec.getLsbD_eq_getElem, parseTDAB, rawDAB, Raw.putA, Raw.putB, Hdr.raw, Raw.srcA,
        Raw.srcB, Raw.srcBI, Raw.hdr, Raw.ty, modTy, ext_low, ofBits_bits, perm_code, ty_code, *])
      (by rw [e]; simp [Raw.tidy, rawDAB, Raw.putA, Raw.putB, Hdr.raw, Perm.code, Perm.q, modTy, *])
      (by rw [e]; simp [rawDAB, Raw.putA, Raw.putB, Hdr.raw, Raw.hdr, *]) rest

theorem parse_0CC {r : Raw} (h : r.opcode = 0x0CC) : parse r = (
    parseTDAB r .ishr) := by
  unfold parse; rw [h]; show parseInteger r = _; unfold parseInteger; rw [h]; rfl

theorem Sys2Proof.Laws.RoundTrip.ishr (h : Hdr) (ty : Ty) (d : Opd) (a b : Src) : Statement (.ishr h ty d a b) := by
  intro he hw hl
  have hw' : (!h.never && a.regIn h.len && b.orImm h.len false) = true := hw
  have e : (Instr.ishr h ty d a b).toRaw = (rawDAB h 0x0CC (modTy ty 0) d a b) := rfl
  obtain ⟨len, sw, stall, guard, neg⟩ := h
  cases len <;> cases a <;> cases b <;> simp [Src.regIn, Src.orImm] at hw'
  all_goals
    exact fun rest => decode_encode he hw hl
      (by rw [e, parse_0CC rfl]; simp (disch := omega) [-BitVec.getLsbD_eq_getElem, parseTDAB, rawDAB, Raw.putA, Raw.putB, Hdr.raw, Raw.srcA,
        Raw.srcB, Raw.srcBI, Raw.hdr, Raw.ty, modTy, ext_low, ofBits_bits, perm_code, ty_code, *])
      (by rw [e]; simp [Raw.tidy, rawDAB, Raw.putA, Raw.putB, Hdr.raw, Perm.code, Perm.q, modTy, *])
      (by rw [e]; simp [rawDAB, Raw.putA, Raw.putB, Hdr.raw, Raw.hdr, *]) rest

theorem parse_0CD {r : Raw} (h : r.opcode = 0x0CD) : parse r = (
    parseTDAB r .isar) := by
  unfold parse; rw [h]; show parseInteger r = _; unfold parseInteger; rw [h]; rfl

theorem Sys2Proof.Laws.RoundTrip.isar (h : Hdr) (ty : Ty) (d : Opd) (a b : Src) : Statement (.isar h ty d a b) := by
  intro he hw hl
  have hw' : (!h.never && a.regIn h.len && b.orImm h.len false) = true := hw
  have e : (Instr.isar h ty d a b).toRaw = (rawDAB h 0x0CD (modTy ty 0) d a b) := rfl
  obtain ⟨len, sw, stall, guard, neg⟩ := h
  cases len <;> cases a <;> cases b <;> simp [Src.regIn, Src.orImm] at hw'
  all_goals
    exact fun rest => decode_encode he hw hl
      (by rw [e, parse_0CD rfl]; simp (disch := omega) [-BitVec.getLsbD_eq_getElem, parseTDAB, rawDAB, Raw.putA, Raw.putB, Hdr.raw, Raw.srcA,
        Raw.srcB, Raw.srcBI, Raw.hdr, Raw.ty, modTy, ext_low, ofBits_bits, perm_code, ty_code, *])
      (by rw [e]; simp [Raw.tidy, rawDAB, Raw.putA, Raw.putB, Hdr.raw, Perm.code, Perm.q, modTy, *])
      (by rw [e]; simp [rawDAB, Raw.putA, Raw.putB, Hdr.raw, Raw.hdr, *]) rest

theorem parse_0CE {r : Raw} (h : r.opcode = 0x0CE) : parse r = (
    parseTDAB r .rot) := by
  unfold parse; rw [h]; show parseInteger r = _; unfold parseInteger; rw [h]; rfl

theorem Sys2Proof.Laws.RoundTrip.rot (h : Hdr) (ty : Ty) (d : Opd) (a b : Src) : Statement (.rot h ty d a b) := by
  intro he hw hl
  have hw' : (!h.never && a.regIn h.len && b.orImm h.len false) = true := hw
  have e : (Instr.rot h ty d a b).toRaw = (rawDAB h 0x0CE (modTy ty 0) d a b) := rfl
  obtain ⟨len, sw, stall, guard, neg⟩ := h
  cases len <;> cases a <;> cases b <;> simp [Src.regIn, Src.orImm] at hw'
  all_goals
    exact fun rest => decode_encode he hw hl
      (by rw [e, parse_0CE rfl]; simp (disch := omega) [-BitVec.getLsbD_eq_getElem, parseTDAB, rawDAB, Raw.putA, Raw.putB, Hdr.raw, Raw.srcA,
        Raw.srcB, Raw.srcBI, Raw.hdr, Raw.ty, modTy, ext_low, ofBits_bits, perm_code, ty_code, *])
      (by rw [e]; simp [Raw.tidy, rawDAB, Raw.putA, Raw.putB, Hdr.raw, Perm.code, Perm.q, modTy, *])
      (by rw [e]; simp [rawDAB, Raw.putA, Raw.putB, Hdr.raw, Raw.hdr, *]) rest

theorem parse_0CF {r : Raw} (h : r.opcode = 0x0CF) : parse r = (
    parseTDAB r .land) := by
  unfold parse; rw [h]; show parseInteger r = _; unfold parseInteger; rw [h]; rfl

theorem Sys2Proof.Laws.RoundTrip.land (h : Hdr) (ty : Ty) (d : Opd) (a b : Src) : Statement (.land h ty d a b) := by
  intro he hw hl
  have hw' : (!h.never && a.regIn h.len && b.orImm h.len ty.is64) = true := hw
  have e : (Instr.land h ty d a b).toRaw = (rawDAB h 0x0CF (modTy ty 0) d a b) := rfl
  obtain ⟨len, sw, stall, guard, neg⟩ := h
  cases len <;> cases a <;> cases b <;> simp [Src.regIn, Src.orImm] at hw'
  all_goals
    exact fun rest => decode_encode he hw hl
      (by rw [e, parse_0CF rfl]; simp (disch := omega) [-BitVec.getLsbD_eq_getElem, parseTDAB, rawDAB, Raw.putA, Raw.putB, Hdr.raw, Raw.srcA,
        Raw.srcB, Raw.srcBI, Raw.hdr, Raw.ty, modTy, ext_low, ofBits_bits, perm_code, ty_code, *])
      (by rw [e]; simp [Raw.tidy, rawDAB, Raw.putA, Raw.putB, Hdr.raw, Perm.code, Perm.q, modTy, *])
      (by rw [e]; simp [rawDAB, Raw.putA, Raw.putB, Hdr.raw, Raw.hdr, *]) rest

theorem parse_0D0 {r : Raw} (h : r.opcode = 0x0D0) : parse r = (
    parseTDAB r .lor) := by
  unfold parse; rw [h]; show parseInteger r = _; unfold parseInteger; rw [h]; rfl

theorem Sys2Proof.Laws.RoundTrip.lor (h : Hdr) (ty : Ty) (d : Opd) (a b : Src) : Statement (.lor h ty d a b) := by
  intro he hw hl
  have hw' : (!h.never && a.regIn h.len && b.orImm h.len ty.is64) = true := hw
  have e : (Instr.lor h ty d a b).toRaw = (rawDAB h 0x0D0 (modTy ty 0) d a b) := rfl
  obtain ⟨len, sw, stall, guard, neg⟩ := h
  cases len <;> cases a <;> cases b <;> simp [Src.regIn, Src.orImm] at hw'
  all_goals
    exact fun rest => decode_encode he hw hl
      (by rw [e, parse_0D0 rfl]; simp (disch := omega) [-BitVec.getLsbD_eq_getElem, parseTDAB, rawDAB, Raw.putA, Raw.putB, Hdr.raw, Raw.srcA,
        Raw.srcB, Raw.srcBI, Raw.hdr, Raw.ty, modTy, ext_low, ofBits_bits, perm_code, ty_code, *])
      (by rw [e]; simp [Raw.tidy, rawDAB, Raw.putA, Raw.putB, Hdr.raw, Perm.code, Perm.q, modTy, *])
      (by rw [e]; simp [rawDAB, Raw.putA, Raw.putB, Hdr.raw, Raw.hdr, *]) rest

theorem parse_0D1 {r : Raw} (h : r.opcode = 0x0D1) : parse r = (
    parseTDAB r .lxor) := by
  unfold parse; rw [h]; show parseInteger r = _; unfold parseInteger; rw [h]; rfl

theorem Sys2Proof.Laws.RoundTrip.lxor (h : Hdr) (ty : Ty) (d : Opd) (a b : Src) : Statement (.lxor h ty d a b) := by
  intro he hw hl
  have hw' : (!h.never && a.regIn h.len && b.orImm h.len ty.is64) = true := hw
  have e : (Instr.lxor h ty d a b).toRaw = (rawDAB h 0x0D1 (modTy ty 0) d a b) := rfl
  obtain ⟨len, sw, stall, guard, neg⟩ := h
  cases len <;> cases a <;> cases b <;> simp [Src.regIn, Src.orImm] at hw'
  all_goals
    exact fun rest => decode_encode he hw hl
      (by rw [e, parse_0D1 rfl]; simp (disch := omega) [-BitVec.getLsbD_eq_getElem, parseTDAB, rawDAB, Raw.putA, Raw.putB, Hdr.raw, Raw.srcA,
        Raw.srcB, Raw.srcBI, Raw.hdr, Raw.ty, modTy, ext_low, ofBits_bits, perm_code, ty_code, *])
      (by rw [e]; simp [Raw.tidy, rawDAB, Raw.putA, Raw.putB, Hdr.raw, Perm.code, Perm.q, modTy, *])
      (by rw [e]; simp [rawDAB, Raw.putA, Raw.putB, Hdr.raw, Raw.hdr, *]) rest

theorem parse_0D2 {r : Raw} (h : r.opcode = 0x0D2) : parse r = (
    parseTDA r .lnot) := by
  unfold parse; rw [h]; show parseInteger r = _; unfold parseInteger; rw [h]; rfl

theorem Sys2Proof.Laws.RoundTrip.lnot (h : Hdr) (ty : Ty) (d : Opd) (a : Src) : Statement (.lnot h ty d a) := by
  intro he hw hl
  have hw' : (Letter.b.admits h.len && !h.never && a.regIn h.len) = true := hw
  have e : (Instr.lnot h ty d a).toRaw = (rawDA h 0x0D2 (modTy ty 0) d a) := rfl
  obtain ⟨len, sw, stall, guard, neg⟩ := h
  cases len <;> cases a <;> simp [Letter.admits, Src.regIn] at hw'
  all_goals
    exact fun rest => decode_encode he hw hl
      (by rw [e, parse_0D2 rfl]; simp (disch := omega) [-BitVec.getLsbD_eq_getElem, parseTDA, rawDA, Raw.putA, Hdr.raw, Raw.srcA, Raw.hdr, Raw.ty,
        modTy, ext_low, ofBits_bits, perm_code, ty_code, *])
      (by rw [e]; simp [Raw.tidy, rawDA, Raw.putA, Hdr.raw, Perm.code, Perm.q, modTy, *])
      (by rw [e]; simp [rawDA, Raw.putA, Hdr.raw, Raw.hdr, *]) rest

theorem parse_0D3 {r : Raw} (h : r.opcode = 0x0D3) : parse r = (
    parseTDABC r fun h _ => .bfn3 h (r.modx.extractLsb' 0 2 ++ r.mod.extractLsb' 4 6)) := by
  unfold parse; rw [h]; show parseInteger r = _; unfold parseInteger; rw [h]; rfl

theorem Sys2Proof.Laws.RoundTrip.bfn3 (h : Hdr) (lut : BitVec 8) (d : Opd) (a b : Src) (c : Opd) : Statement (.bfn3 h lut d a b c) := by
  intro he hw hl
  have hw' : (Letter.d.admits h.len && !h.never && a.regIn h.len && b.regIn h.len) = true := hw
  have e : (Instr.bfn3 h lut d a b c).toRaw =
      ({ rawDAB h 0x0D3 (modTy .b32 (lut.extractLsb' 0 6)) d a b with c := c.bits, modx := (lut.extractLsb' 6 2).zeroExtend 3 }) := rfl
  obtain ⟨len, sw, stall, guard, neg⟩ := h
  cases len <;> cases a <;> cases b <;> simp [Letter.admits, Src.regIn] at hw'
  all_goals
    exact fun rest => decode_encode he hw hl
      (by rw [e, parse_0D3 rfl]; simp (disch := omega) [-BitVec.getLsbD_eq_getElem, lut_join, parseTDABC, rawDAB, Raw.putA, Raw.putB, Hdr.raw,
        Raw.srcA, Raw.srcB, Raw.hdr, Raw.ty, modTy, ext_low, ext_high, ext_wide, ofBits_bits, perm_code, ty_code, *])
      (by rw [e]; simp [Raw.tidy, rawDAB, Raw.putA, Raw.putB, Hdr.raw, Perm.code, Perm.q, modTy, *])
      (by rw [e]; simp [rawDAB, Raw.putA, Raw.putB, Hdr.raw, Raw.hdr, *]) rest

theorem parse_0D4 {r : Raw} (h : r.opcode = 0x0D4) : parse r = (
    parseTDA r .popc) := by
  unfold parse; rw [h]; show parseInteger r = _; unfold parseInteger; rw [h]; rfl

theorem Sys2Proof.Laws.RoundTrip.popc (h : Hdr) (ty : Ty) (d : Opd) (a : Src) : Statement (.popc h ty d a) := by
  intro he hw hl
  have hw' : (Letter.b.admits h.len && !h.never && a.regIn h.len) = true := hw
  have e : (Instr.popc h ty d a).toRaw = (rawDA h 0x0D4 (modTy ty 0) d a) := rfl
  obtain ⟨len, sw, stall, guard, neg⟩ := h
  cases len <;> cases a <;> simp [Letter.admits, Src.regIn] at hw'
  all_goals
    exact fun rest => decode_encode he hw hl
      (by rw [e, parse_0D4 rfl]; simp (disch := omega) [-BitVec.getLsbD_eq_getElem, parseTDA, rawDA, Raw.putA, Hdr.raw, Raw.srcA, Raw.hdr, Raw.ty,
        modTy, ext_low, ofBits_bits, perm_code, ty_code, *])
      (by rw [e]; simp [Raw.tidy, rawDA, Raw.putA, Hdr.raw, Perm.code, Perm.q, modTy, *])
      (by rw [e]; simp [rawDA, Raw.putA, Hdr.raw, Raw.hdr, *]) rest

theorem parse_0D5 {r : Raw} (h : r.opcode = 0x0D5) : parse r = (
    parseTDA r .clz) := by
  unfold parse; rw [h]; show parseInteger r = _; unfold parseInteger; rw [h]; rfl

theorem Sys2Proof.Laws.RoundTrip.clz (h : Hdr) (ty : Ty) (d : Opd) (a : Src) : Statement (.clz h ty d a) := by
  intro he hw hl
  have hw' : (Letter.b.admits h.len && !h.never && a.regIn h.len) = true := hw
  have e : (Instr.clz h ty d a).toRaw = (rawDA h 0x0D5 (modTy ty 0) d a) := rfl
  obtain ⟨len, sw, stall, guard, neg⟩ := h
  cases len <;> cases a <;> simp [Letter.admits, Src.regIn] at hw'
  all_goals
    exact fun rest => decode_encode he hw hl
      (by rw [e, parse_0D5 rfl]; simp (disch := omega) [-BitVec.getLsbD_eq_getElem, parseTDA, rawDA, Raw.putA, Hdr.raw, Raw.srcA, Raw.hdr, Raw.ty,
        modTy, ext_low, ofBits_bits, perm_code, ty_code, *])
      (by rw [e]; simp [Raw.tidy, rawDA, Raw.putA, Hdr.raw, Perm.code, Perm.q, modTy, *])
      (by rw [e]; simp [rawDA, Raw.putA, Hdr.raw, Raw.hdr, *]) rest

theorem parse_0D6 {r : Raw} (h : r.opcode = 0x0D6) : parse r = (
    parseTDA r .ctz) := by
  unfold parse; rw [h]; show parseInteger r = _; unfold parseInteger; rw [h]; rfl

theorem Sys2Proof.Laws.RoundTrip.ctz (h : Hdr) (ty : Ty) (d : Opd) (a : Src) : Statement (.ctz h ty d a) := by
  intro he hw hl
  have hw' : (Letter.b.admits h.len && !h.never && a.regIn h.len) = true := hw
  have e : (Instr.ctz h ty d a).toRaw = (rawDA h 0x0D6 (modTy ty 0) d a) := rfl
  obtain ⟨len, sw, stall, guard, neg⟩ := h
  cases len <;> cases a <;> simp [Letter.admits, Src.regIn] at hw'
  all_goals
    exact fun rest => decode_encode he hw hl
      (by rw [e, parse_0D6 rfl]; simp (disch := omega) [-BitVec.getLsbD_eq_getElem, parseTDA, rawDA, Raw.putA, Hdr.raw, Raw.srcA, Raw.hdr, Raw.ty,
        modTy, ext_low, ofBits_bits, perm_code, ty_code, *])
      (by rw [e]; simp [Raw.tidy, rawDA, Raw.putA, Hdr.raw, Perm.code, Perm.q, modTy, *])
      (by rw [e]; simp [rawDA, Raw.putA, Hdr.raw, Raw.hdr, *]) rest

theorem parse_0D7 {r : Raw} (h : r.opcode = 0x0D7) : parse r = (
    parseTDA r .brev) := by
  unfold parse; rw [h]; show parseInteger r = _; unfold parseInteger; rw [h]; rfl

theorem Sys2Proof.Laws.RoundTrip.brev (h : Hdr) (ty : Ty) (d : Opd) (a : Src) : Statement (.brev h ty d a) := by
  intro he hw hl
  have hw' : (Letter.b.admits h.len && !h.never && a.regIn h.len) = true := hw
  have e : (Instr.brev h ty d a).toRaw = (rawDA h 0x0D7 (modTy ty 0) d a) := rfl
  obtain ⟨len, sw, stall, guard, neg⟩ := h
  cases len <;> cases a <;> simp [Letter.admits, Src.regIn] at hw'
  all_goals
    exact fun rest => decode_encode he hw hl
      (by rw [e, parse_0D7 rfl]; simp (disch := omega) [-BitVec.getLsbD_eq_getElem, parseTDA, rawDA, Raw.putA, Hdr.raw, Raw.srcA, Raw.hdr, Raw.ty,
        modTy, ext_low, ofBits_bits, perm_code, ty_code, *])
      (by rw [e]; simp [Raw.tidy, rawDA, Raw.putA, Hdr.raw, Perm.code, Perm.q, modTy, *])
      (by rw [e]; simp [rawDA, Raw.putA, Hdr.raw, Raw.hdr, *]) rest

theorem parse_0D8 {r : Raw} (h : r.opcode = 0x0D8) : parse r = (
    parseTDAB r .bfe) := by
  unfold parse; rw [h]; show parseInteger r = _; unfold parseInteger; rw [h]; rfl

theorem Sys2Proof.Laws.RoundTrip.bfe (h : Hdr) (ty : Ty) (d : Opd) (a b : Src) : Statement (.bfe h ty d a b) := by
  intro he hw hl
  have hw' : (!h.never && a.regIn h.len && b.orImm h.len false) = true := hw
  have e : (Instr.bfe h ty d a b).toRaw = (rawDAB h 0x0D8 (modTy ty 0) d a b) := rfl
  obtain ⟨len, sw, stall, guard, neg⟩ := h
  cases len <;> cases a <;> cases b <;> simp [Src.regIn, Src.orImm] at hw'
  all_goals
    exact fun rest => decode_encode he hw hl
      (by rw [e, parse_0D8 rfl]; simp (disch := omega) [-BitVec.getLsbD_eq_getElem, parseTDAB, rawDAB, Raw.putA, Raw.putB, Hdr.raw, Raw.srcA,
        Raw.srcB, Raw.srcBI, Raw.hdr, Raw.ty, modTy, ext_low, ofBits_bits, perm_code, ty_code, *])
      (by rw [e]; simp [Raw.tidy, rawDAB, Raw.putA, Raw.putB, Hdr.raw, Perm.code, Perm.q, modTy, *])
      (by rw [e]; simp [rawDAB, Raw.putA, Raw.putB, Hdr.raw, Raw.hdr, *]) rest

theorem parse_0D9 {r : Raw} (h : r.opcode = 0x0D9) : parse r = (
    parseTDABC r fun h _ => .bfi h) := by
  unfold parse; rw [h]; show parseInteger r = _; unfold parseInteger; rw [h]; rfl

theorem Sys2Proof.Laws.RoundTrip.bfi (h : Hdr) (d : Opd) (a b : Src) (c : Opd) : Statement (.bfi h d a b c) := by
  intro he hw hl
  have hw' : (Letter.d.admits h.len && !h.never && a.regIn h.len && b.regIn h.len) = true := hw
  have e : (Instr.bfi h d a b c).toRaw = ({ rawDAB h 0x0D9 (modTy .b32 0) d a b with c := c.bits }) := rfl
  obtain ⟨len, sw, stall, guard, neg⟩ := h
  cases len <;> cases a <;> cases b <;> simp [Letter.admits, Src.regIn] at hw'
  all_goals
    exact fun rest => decode_encode he hw hl
      (by rw [e, parse_0D9 rfl]; simp (disch := omega) [-BitVec.getLsbD_eq_getElem, parseTDABC, rawDAB, Raw.putA, Raw.putB, Hdr.raw, Raw.srcA,
        Raw.srcB, Raw.hdr, Raw.ty, modTy, ext_low, ofBits_bits, perm_code, ty_code, *])
      (by rw [e]; simp [Raw.tidy, rawDAB, Raw.putA, Raw.putB, Hdr.raw, Perm.code, Perm.q, modTy, *])
      (by rw [e]; simp [rawDAB, Raw.putA, Raw.putB, Hdr.raw, Raw.hdr, *]) rest

theorem parse_0DA {r : Raw} (h : r.opcode = 0x0DA) : parse r = (
    do
    let sel ← match r.len with
      | .b64 => some none
      | .b96 => (Opd.ofBits r.c).map fun o => some (Src.reg o .id)
      | .b128 => some (some (Src.imm r.imm))
    some (.bysel r.hdr (← Opd.ofBits r.d) (← r.srcA) (← r.srcB) sel)) := by
  unfold parse; rw [h]; show parseInteger r = _; unfold parseInteger; rw [h]; rfl

theorem Sys2Proof.Laws.RoundTrip.bysel (h : Hdr) (d : Opd) (a b : Src) (sel : Option Src) : Statement (.bysel h d a b sel) := by
  intro he hw hl
  have hw' : (!h.never && a.regIn h.len && b.regIn h.len && selIn h.len sel) = true := hw
  have e : (Instr.bysel h d a b sel).toRaw = ((rawDAB h 0x0DA (modTy .b32 0) d a b).putSel sel) := rfl
  obtain ⟨len, sw, stall, guard, neg⟩ := h
  cases len <;> cases a <;> cases b <;> rcases sel with _ | (⟨_, _⟩ | _) <;> simp [selIn, Src.regIn, Src.plain] at hw'
  all_goals
    exact fun rest => decode_encode he hw hl
      (by rw [e, parse_0DA rfl]; simp (disch := omega) [-BitVec.getLsbD_eq_getElem, Raw.putSel, rawDAB, Raw.putA, Raw.putB, Hdr.raw, Raw.srcA,
        Raw.srcB, Raw.hdr, modTy, ofBits_bits, perm_code, *])
      (by rw [e]; simp [Raw.tidy, rawDAB, Raw.putA, Raw.putB, Hdr.raw, Perm.code, Perm.q, modTy, Raw.putSel, *])
      (by rw [e]; simp [Raw.putSel, rawDAB, Raw.putA, Raw.putB, Hdr.raw, Raw.hdr, *]) rest

theorem parse_0DB {r : Raw} (h : r.opcode = 0x0DB) : parse r = (
    do some (.iset r.hdr (← r.ty) (← ICmp.ofCode (r.mod.extractLsb' 4 3)) (r.mod.extractLsb' 7 3) (← r.srcA) (← r.srcBI))) := by
  unfold parse; rw [h]; show parseInteger r = _; unfold parseInteger; rw [h]; rfl

theorem Sys2Proof.Laws.RoundTrip.iset (h : Hdr) (ty : Ty) (cmp : ICmp) (p : BitVec 3) (a b : Src) : Statement (.iset h ty cmp p a b) := by
  intro he hw hl
  have hw' : (!h.never && a.regIn h.len && b.orImm h.len ty.is64) = true := hw
  have e : (Instr.iset h ty cmp p a b).toRaw = ({ ((h.raw 0x0DB).putA a).putB b with mod := p ++ cmp.code ++ ty.code }) := rfl
  obtain ⟨len, sw, stall, guard, neg⟩ := h
  cases len <;> cases a <;> cases b <;> simp [Src.regIn, Src.orImm] at hw'
  all_goals
    exact fun rest => decode_encode he hw hl
      (by rw [e, parse_0DB rfl]; simp (disch := omega) [-BitVec.getLsbD_eq_getElem, Raw.putA, Raw.putB, Hdr.raw, Raw.srcA, Raw.srcB, Raw.srcBI,
        Raw.hdr, Raw.ty, ext_low, ext_high, ofBits_bits, perm_code, ty_code, icmp_code, *])
      (by rw [e]; simp [Raw.tidy, Raw.putA, Raw.putB, Hdr.raw, Perm.code, Perm.q, *])
      (by rw [e]; simp [Raw.putA, Raw.putB, Hdr.raw, Raw.hdr, *]) rest

theorem parse_0DC {r : Raw} (h : r.opcode = 0x0DC) : parse r = (
    parseTDAB r fun h ty => .isel h ty (r.mod.extractLsb' 4 3) (r.mod.getLsbD 7)) := by
  unfold parse; rw [h]; show parseInteger r = _; unfold parseInteger; rw [h]; rfl

theorem Sys2Proof.Laws.RoundTrip.isel (h : Hdr) (ty : Ty) (p : BitVec 3) (neg : Bool) (d : Opd) (a b : Src)
    : Statement (.isel h ty p neg d a b) := by
  intro he hw hl
  have hw' : (!h.never && a.regIn h.len && b.orImm h.len ty.is64) = true := hw
  have e : (Instr.isel h ty p neg d a b).toRaw = (rawDAB h 0x0DC ((0 : BitVec 2) ++ BitVec.ofBool neg ++ p ++ ty.code) d a b) := rfl
  obtain ⟨len, sw, stall, guard, neg⟩ := h
  cases len <;> cases a <;> cases b <;> simp [Src.regIn, Src.orImm] at hw'
  all_goals
    exact fun rest => decode_encode he hw hl
      (by rw [e, parse_0DC rfl]; simp (disch := omega) [-BitVec.getLsbD_eq_getElem, parseTDAB, rawDAB, Raw.putA, Raw.putB, Hdr.raw, Raw.srcA,
        Raw.srcB, Raw.srcBI, Raw.hdr, Raw.ty, ext_low, ext_high, bit_low, bit_high, ofBits_bits, perm_code, ty_code, *])
      (by rw [e]; simp [Raw.tidy, rawDAB, Raw.putA, Raw.putB, Hdr.raw, Perm.code, Perm.q, *])
      (by rw [e]; simp [rawDAB, Raw.putA, Raw.putB, Hdr.raw, Raw.hdr, *]) rest

theorem parse_0DD {r : Raw} (h : r.opcode = 0x0DD) : parse r = (
    parseTDAB r fun h ty => .lea h ty (r.mod.extractLsb' 4 4)) := by
  unfold parse; rw [h]; show parseInteger r = _; unfold parseInteger; rw [h]; rfl

theorem Sys2Proof.Laws.RoundTrip.lea (h : Hdr) (ty : Ty) (sh : BitVec 4) (d : Opd) (a b : Src) : Statement (.lea h ty sh d a b) := by
  intro he hw hl
  have hw' : (!h.never && a.regIn h.len && b.orImm h.len false) = true := hw
  have e : (Instr.lea h ty sh d a b).toRaw = (rawDAB h 0x0DD ((0 : BitVec 2) ++ sh ++ ty.code) d a b) := rfl
  obtain ⟨len, sw, stall, guard, neg⟩ := h
  cases len <;> cases a <;> cases b <;> simp [Src.regIn, Src.orImm] at hw'
  all_goals
    exact fun rest => decode_encode he hw hl
      (by rw [e, parse_0DD rfl]; simp (disch := omega) [-BitVec.getLsbD_eq_getElem, parseTDAB, rawDAB, Raw.putA, Raw.putB, Hdr.raw, Raw.srcA,
        Raw.srcB, Raw.srcBI, Raw.hdr, Raw.ty, ext_low, ext_high, ofBits_bits, perm_code, ty_code, *])
      (by rw [e]; simp [Raw.tidy, rawDAB, Raw.putA, Raw.putB, Hdr.raw, Perm.code, Perm.q, *])
      (by rw [e]; simp [rawDAB, Raw.putA, Raw.putB, Hdr.raw, Raw.hdr, *]) rest

theorem parse_0DE {r : Raw} (h : r.opcode = 0x0DE) : parse r = (
    parseTDA r .mov) := by
  unfold parse; rw [h]; show parseInteger r = _; unfold parseInteger; rw [h]; rfl

theorem Sys2Proof.Laws.RoundTrip.mov (h : Hdr) (ty : Ty) (d : Opd) (a : Src) : Statement (.mov h ty d a) := by
  intro he hw hl
  have hw' : (Letter.b.admits h.len && !h.never && a.regIn h.len) = true := hw
  have e : (Instr.mov h ty d a).toRaw = (rawDA h 0x0DE (modTy ty 0) d a) := rfl
  obtain ⟨len, sw, stall, guard, neg⟩ := h
  cases len <;> cases a <;> simp [Letter.admits, Src.regIn] at hw'
  all_goals
    exact fun rest => decode_encode he hw hl
      (by rw [e, parse_0DE rfl]; simp (disch := omega) [-BitVec.getLsbD_eq_getElem, parseTDA, rawDA, Raw.putA, Hdr.raw, Raw.srcA, Raw.hdr, Raw.ty,
        modTy, ext_low, ofBits_bits, perm_code, ty_code, *])
      (by rw [e]; simp [Raw.tidy, rawDA, Raw.putA, Hdr.raw, Perm.code, Perm.q, modTy, *])
      (by rw [e]; simp [rawDA, Raw.putA, Hdr.raw, Raw.hdr, *]) rest

theorem parse_0DF {r : Raw} (h : r.opcode = 0x0DF) : parse r = (
    do some (.movi r.hdr (← r.ty) (← Opd.ofBits r.d) r.imm)) := by
  unfold parse; rw [h]; show parseInteger r = _; unfold parseInteger; rw [h]; rfl

theorem Sys2Proof.Laws.RoundTrip.movi (h : Hdr) (ty : Ty) (d : Opd) (x : BitVec 64) : Statement (.movi h ty d x) := by
  intro he hw hl
  have hw' : (Letter.e.admits h.len && !h.never && (ty.is64 || x.toNat < 2 ^ 32)) = true := hw
  have e : (Instr.movi h ty d x).toRaw = ({ h.raw 0x0DF with d := d.bits, mod := modTy ty 0, imm := x }) := rfl
  obtain ⟨len, sw, stall, guard, neg⟩ := h
  cases len <;> simp [Letter.admits] at hw'
  all_goals
    exact fun rest => decode_encode he hw hl
      (by rw [e, parse_0DF rfl]; simp (disch := omega) [-BitVec.getLsbD_eq_getElem, Hdr.raw, Raw.hdr, Raw.ty, modTy, ext_low, ofBits_bits,
        ty_code, *])
      (by rw [e]; simp [Raw.tidy, Hdr.raw, *])
      (by rw [e]; simp [Hdr.raw, Raw.hdr, *]) rest

theorem parse_0E0 {r : Raw} (h : r.opcode = 0x0E0) : parse r = (
    some (.pset r.hdr (r.d.extractLsb' 3 8) (r.d.extractLsb' 0 3) (r.a.extractLsb' 0 3) (r.b.extractLsb' 0 3) (r.mod.extractLsb' 0 3))) := by
  unfold parse; rw [h]; show parseInteger r = _; unfold parseInteger; rw [h]; rfl

theorem Sys2Proof.Laws.RoundTrip.pset (h : Hdr) (lut : BitVec 8) (pd pa pb pc : BitVec 3) : Statement (.pset h lut pd pa pb pc) := by
  intro he hw hl
  have hw' : (Letter.a.admits h.len && !h.never) = true := hw
  have e : (Instr.pset h lut pd pa pb pc).toRaw =
      ({ h.raw 0x0E0 with d := lut ++ pd, a := pa.zeroExtend 11, b := pb.zeroExtend 11, mod := pc.zeroExtend 10 }) := rfl
  obtain ⟨len, sw, stall, guard, neg⟩ := h
  cases len <;> simp [Letter.admits] at hw'
  all_goals
    exact fun rest => decode_encode he hw hl
      (by rw [e, parse_0E0 rfl]; simp (disch := omega) [-BitVec.getLsbD_eq_getElem, Hdr.raw, Raw.hdr, ext_low, ext_high, ext_wide, *])
      (by rw [e]; simp [Raw.tidy, Hdr.raw, *])
      (by rw [e]; simp [Hdr.raw, Raw.hdr, *]) rest

theorem parse_100 {r : Raw} (h : r.opcode = 0x100) : parse r = (
    parseFDAB r fun h _ => .fadd h) := by
  unfold parse; rw [h]; show parseFloat r = _; unfold parseFloat; rw [h]; rfl

theorem Sys2Proof.Laws.RoundTrip.fadd (h : Hdr) (rm : Rm) (na nb : Bool) (d : Opd) (a b : Src) : Statement (.fadd h rm na nb d a b) := by
  intro he hw hl
  have hw' : (!h.never && a.regIn h.len && b.orImm h.len false) = true := hw
  have e : (Instr.fadd h rm na nb d a b).toRaw = (rawDAB h 0x100 (modF .f32 rm na nb false) d a b) := rfl
  obtain ⟨len, sw, stall, guard, neg⟩ := h
  cases len <;> cases a <;> cases b <;> simp [Src.regIn, Src.orImm] at hw'
  all_goals
    exact fun rest => decode_encode he hw hl
      (by rw [e, parse_100 rfl]; simp (disch := omega) [-BitVec.getLsbD_eq_getElem, parseFDAB, rawDAB, Raw.putA, Raw.putB, Hdr.raw, Raw.srcA,
        Raw.srcB, Raw.srcBI, Raw.hdr, Raw.ty, Raw.rm, modF, ext_low, ext_high, bit_low, bit_high, ofBits_bits, perm_code, ty_code, rm_code, *])
      (by rw [e]; simp [Raw.tidy, rawDAB, Raw.putA, Raw.putB, Hdr.raw, Perm.code, Perm.q, *])
      (by rw [e]; simp [rawDAB, Raw.putA, Raw.putB, Hdr.raw, Raw.hdr, *]) rest

theorem parse_101 {r : Raw} (h : r.opcode = 0x101) : parse r = (
    parseFDAB r fun h _ => .fmul h) := by
  unfold parse; rw [h]; show parseFloat r = _; unfold parseFloat; rw [h]; rfl

theorem Sys2Proof.Laws.RoundTrip.fmul (h : Hdr) (rm : Rm) (na nb : Bool) (d : Opd) (a b : Src) : Statement (.fmul h rm na nb d a b) := by
  intro he hw hl
  have hw' : (!h.never && a.regIn h.len && b.orImm h.len false) = true := hw
  have e : (Instr.fmul h rm na nb d a b).toRaw = (rawDAB h 0x101 (modF .f32 rm na nb false) d a b) := rfl
  obtain ⟨len, sw, stall, guard, neg⟩ := h
  cases len <;> cases a <;> cases b <;> simp [Src.regIn, Src.orImm] at hw'
  all_goals
    exact fun rest => decode_encode he hw hl
      (by rw [e, parse_101 rfl]; simp (disch := omega) [-BitVec.getLsbD_eq_getElem, parseFDAB, rawDAB, Raw.putA, Raw.putB, Hdr.raw, Raw.srcA,
        Raw.srcB, Raw.srcBI, Raw.hdr, Raw.ty, Raw.rm, modF, ext_low, ext_high, bit_low, bit_high, ofBits_bits, perm_code, ty_code, rm_code, *])
      (by rw [e]; simp [Raw.tidy, rawDAB, Raw.putA, Raw.putB, Hdr.raw, Perm.code, Perm.q, *])
      (by rw [e]; simp [rawDAB, Raw.putA, Raw.putB, Hdr.raw, Raw.hdr, *]) rest

theorem parse_102 {r : Raw} (h : r.opcode = 0x102) : parse r = (
    parseFDABC r fun h _ => .ffma h) := by
  unfold parse; rw [h]; show parseFloat r = _; unfold parseFloat; rw [h]; rfl

theorem Sys2Proof.Laws.RoundTrip.ffma (h : Hdr) (rm : Rm) (na nb nc : Bool) (d : Opd) (a b : Src) (c : Opd)
    : Statement (.ffma h rm na nb nc d a b c) := by
  intro he hw hl
  have hw' : (Letter.d.admits h.len && !h.never && a.regIn h.len && b.regIn h.len) = true := hw
  have e : (Instr.ffma h rm na nb nc d a b c).toRaw = ({ rawDAB h 0x102 (modF .f32 rm na nb nc) d a b with c := c.bits }) := rfl
  obtain ⟨len, sw, stall, guard, neg⟩ := h
  cases len <;> cases a <;> cases b <;> simp [Letter.admits, Src.regIn] at hw'
  all_goals
    exact fun rest => decode_encode he hw hl
      (by rw [e, parse_102 rfl]; simp (disch := omega) [-BitVec.getLsbD_eq_getElem, parseFDABC, rawDAB, Raw.putA, Raw.putB, Hdr.raw, Raw.srcA,
        Raw.srcB, Raw.hdr, Raw.ty, Raw.rm, modF, ext_low, ext_high, bit_low, bit_high, ofBits_bits, perm_code, ty_code, rm_code, *])
      (by rw [e]; simp [Raw.tidy, rawDAB, Raw.putA, Raw.putB, Hdr.raw, Perm.code, Perm.q, *])
      (by rw [e]; simp [rawDAB, Raw.putA, Raw.putB, Hdr.raw, Raw.hdr, *]) rest

theorem parse_103 {r : Raw} (h : r.opcode = 0x103) : parse r = (
    parseTDAB r fun h _ => .fmin h) := by
  unfold parse; rw [h]; show parseFloat r = _; unfold parseFloat; rw [h]; rfl

theorem Sys2Proof.Laws.RoundTrip.fmin (h : Hdr) (d : Opd) (a b : Src) : Statement (.fmin h d a b) := by
  intro he hw hl
  have hw' : (!h.never && a.regIn h.len && b.orImm h.len false) = true := hw
  have e : (Instr.fmin h d a b).toRaw = (rawDAB h 0x103 (modTy .f32 0) d a b) := rfl
  obtain ⟨len, sw, stall, guard, neg⟩ := h
  cases len <;> cases a <;> cases b <;> simp [Src.regIn, Src.orImm] at hw'
  all_goals
    exact fun rest => decode_encode he hw hl
      (by rw [e, parse_103 rfl]; simp (disch := omega) [-BitVec.getLsbD_eq_getElem, parseTDAB, rawDAB, Raw.putA, Raw.putB, Hdr.raw, Raw.srcA,
        Raw.srcB, Raw.srcBI, Raw.hdr, Raw.ty, modTy, ext_low, ofBits_bits, perm_code, ty_code, *])
      (by rw [e]; simp [Raw.tidy, rawDAB, Raw.putA, Raw.putB, Hdr.raw, Perm.code, Perm.q, modTy, *])
      (by rw [e]; simp [rawDAB, Raw.putA, Raw.putB, Hdr.raw, Raw.hdr, *]) rest

theorem parse_104 {r : Raw} (h : r.opcode = 0x104) : parse r = (
    parseTDAB r fun h _ => .fmax h) := by
  unfold parse; rw [h]; show parseFloat r = _; unfold parseFloat; rw [h]; rfl

theorem Sys2Proof.Laws.RoundTrip.fmax (h : Hdr) (d : Opd) (a b : Src) : Statement (.fmax h d a b) := by
  intro he hw hl
  have hw' : (!h.never && a.regIn h.len && b.orImm h.len false) = true := hw
  have e : (Instr.fmax h d a b).toRaw = (rawDAB h 0x104 (modTy .f32 0) d a b) := rfl
  obtain ⟨len, sw, stall, guard, neg⟩ := h
  cases len <;> cases a <;> cases b <;> simp [Src.regIn, Src.orImm] at hw'
  all_goals
    exact fun rest => decode_encode he hw hl
      (by rw [e, parse_104 rfl]; simp (disch := omega) [-BitVec.getLsbD_eq_getElem, parseTDAB, rawDAB, Raw.putA, Raw.putB, Hdr.raw, Raw.srcA,
        Raw.srcB, Raw.srcBI, Raw.hdr, Raw.ty, modTy, ext_low, ofBits_bits, perm_code, ty_code, *])
      (by rw [e]; simp [Raw.tidy, rawDAB, Raw.putA, Raw.putB, Hdr.raw, Perm.code, Perm.q, modTy, *])
      (by rw [e]; simp [rawDAB, Raw.putA, Raw.putB, Hdr.raw, Raw.hdr, *]) rest

theorem parse_105 {r : Raw} (h : r.opcode = 0x105) : parse r = (
    do some (.fset r.hdr (FCmp.ofCode (r.mod.extractLsb' 4 3)) (r.mod.extractLsb' 7 3) (← r.srcA) (← r.srcBI))) := by
  unfold parse; rw [h]; show parseFloat r = _; unfold parseFloat; rw [h]; rfl

theorem Sys2Proof.Laws.RoundTrip.fset (h : Hdr) (cmp : FCmp) (p : BitVec 3) (a b : Src) : Statement (.fset h cmp p a b) := by
  intro he hw hl
  have hw' : (!h.never && a.regIn h.len && b.orImm h.len false) = true := hw
  have e : (Instr.fset h cmp p a b).toRaw = ({ ((h.raw 0x105).putA a).putB b with mod := p ++ cmp.code ++ Ty.code .f32 }) := rfl
  obtain ⟨len, sw, stall, guard, neg⟩ := h
  cases len <;> cases a <;> cases b <;> simp [Src.regIn, Src.orImm] at hw'
  all_goals
    exact fun rest => decode_encode he hw hl
      (by rw [e, parse_105 rfl]; simp (disch := omega) [-BitVec.getLsbD_eq_getElem, Raw.putA, Raw.putB, Hdr.raw, Raw.srcA, Raw.srcB, Raw.srcBI,
        Raw.hdr, ext_low, ext_high, ofBits_bits, perm_code, fcmp_code, *])
      (by rw [e]; simp [Raw.tidy, Raw.putA, Raw.putB, Hdr.raw, Perm.code, Perm.q, *])
      (by rw [e]; simp [Raw.putA, Raw.putB, Hdr.raw, Raw.hdr, *]) rest

theorem parse_106 {r : Raw} (h : r.opcode = 0x106) : parse r = (
    parseFDA r .frcp) := by
  unfold parse; rw [h]; show parseFloat r = _; unfold parseFloat; rw [h]; rfl

theorem Sys2Proof.Laws.RoundTrip.frcp (h : Hdr) (rm : Rm) (d : Opd) (a : Src) : Statement (.frcp h rm d a) := by
  intro he hw hl
  have hw' : (Letter.b.admits h.len && !h.never && a.regIn h.len) = true := hw
  have e : (Instr.frcp h rm d a).toRaw = (rawDA h 0x106 (modF .f32 rm false false false) d a) := rfl
  obtain ⟨len, sw, stall, guard, neg⟩ := h
  cases len <;> cases a <;> simp [Letter.admits, Src.regIn] at hw'
  all_goals
    exact fun rest => decode_encode he hw hl
      (by rw [e, parse_106 rfl]; simp (disch := omega) [-BitVec.getLsbD_eq_getElem, parseFDA, rawDA, Raw.putA, Hdr.raw, Raw.srcA, Raw.hdr, Raw.rm,
        modF, ext_low, ext_high, ofBits_bits, perm_code, rm_code, *])
      (by rw [e]; simp [Raw.tidy, rawDA, Raw.putA, Hdr.raw, Perm.code, Perm.q, *])
      (by rw [e]; simp [rawDA, Raw.putA, Hdr.raw, Raw.hdr, *]) rest

theorem parse_107 {r : Raw} (h : r.opcode = 0x107) : parse r = (
    parseTDA r fun h _ => .frsq h) := by
  unfold parse; rw [h]; show parseFloat r = _; unfold parseFloat; rw [h]; rfl

theorem Sys2Proof.Laws.RoundTrip.frsq (h : Hdr) (d : Opd) (a : Src) : Statement (.frsq h d a) := by
  intro he hw hl
  have hw' : (Letter.b.admits h.len && !h.never && a.regIn h.len) = true := hw
  have e : (Instr.frsq h d a).toRaw = (rawDA h 0x107 (modTy .f32 0) d a) := rfl
  obtain ⟨len, sw, stall, guard, neg⟩ := h
  cases len <;> cases a <;> simp [Letter.admits, Src.regIn] at hw'
  all_goals
    exact fun rest => decode_encode he hw hl
      (by rw [e, parse_107 rfl]; simp (disch := omega) [-BitVec.getLsbD_eq_getElem, parseTDA, rawDA, Raw.putA, Hdr.raw, Raw.srcA, Raw.hdr, Raw.ty,
        modTy, ext_low, ofBits_bits, perm_code, ty_code, *])
      (by rw [e]; simp [Raw.tidy, rawDA, Raw.putA, Hdr.raw, Perm.code, Perm.q, modTy, *])
      (by rw [e]; simp [rawDA, Raw.putA, Hdr.raw, Raw.hdr, *]) rest

theorem parse_108 {r : Raw} (h : r.opcode = 0x108) : parse r = (
    parseFDA r .fsqrt) := by
  unfold parse; rw [h]; show parseFloat r = _; unfold parseFloat; rw [h]; rfl

theorem Sys2Proof.Laws.RoundTrip.fsqrt (h : Hdr) (rm : Rm) (d : Opd) (a : Src) : Statement (.fsqrt h rm d a) := by
  intro he hw hl
  have hw' : (Letter.b.admits h.len && !h.never && a.regIn h.len) = true := hw
  have e : (Instr.fsqrt h rm d a).toRaw = (rawDA h 0x108 (modF .f32 rm false false false) d a) := rfl
  obtain ⟨len, sw, stall, guard, neg⟩ := h
  cases len <;> cases a <;> simp [Letter.admits, Src.regIn] at hw'
  all_goals
    exact fun rest => decode_encode he hw hl
      (by rw [e, parse_108 rfl]; simp (disch := omega) [-BitVec.getLsbD_eq_getElem, parseFDA, rawDA, Raw.putA, Hdr.raw, Raw.srcA, Raw.hdr, Raw.rm,
        modF, ext_low, ext_high, ofBits_bits, perm_code, rm_code, *])
      (by rw [e]; simp [Raw.tidy, rawDA, Raw.putA, Hdr.raw, Perm.code, Perm.q, *])
      (by rw [e]; simp [rawDA, Raw.putA, Hdr.raw, Raw.hdr, *]) rest

theorem parse_109 {r : Raw} (h : r.opcode = 0x109) : parse r = (
    parseTDA r fun h _ => .fex2 h) := by
  unfold parse; rw [h]; show parseFloat r = _; unfold parseFloat; rw [h]; rfl

theorem Sys2Proof.Laws.RoundTrip.fex2 (h : Hdr) (d : Opd) (a : Src) : Statement (.fex2 h d a) := by
  intro he hw hl
  have hw' : (Letter.b.admits h.len && !h.never && a.regIn h.len) = true := hw
  have e : (Instr.fex2 h d a).toRaw = (rawDA h 0x109 (modTy .f32 0) d a) := rfl
  obtain ⟨len, sw, stall, guard, neg⟩ := h
  cases len <;> cases a <;> simp [Letter.admits, Src.regIn] at hw'
  all_goals
    exact fun rest => decode_encode he hw hl
      (by rw [e, parse_109 rfl]; simp (disch := omega) [-BitVec.getLsbD_eq_getElem, parseTDA, rawDA, Raw.putA, Hdr.raw, Raw.srcA, Raw.hdr, Raw.ty,
        modTy, ext_low, ofBits_bits, perm_code, ty_code, *])
      (by rw [e]; simp [Raw.tidy, rawDA, Raw.putA, Hdr.raw, Perm.code, Perm.q, modTy, *])
      (by rw [e]; simp [rawDA, Raw.putA, Hdr.raw, Raw.hdr, *]) rest

theorem parse_10A {r : Raw} (h : r.opcode = 0x10A) : parse r = (
    parseTDA r fun h _ => .flg2 h) := by
  unfold parse; rw [h]; show parseFloat r = _; unfold parseFloat; rw [h]; rfl

theorem Sys2Proof.Laws.RoundTrip.flg2 (h : Hdr) (d : Opd) (a : Src) : Statement (.flg2 h d a) := by
  intro he hw hl
  have hw' : (Letter.b.admits h.len && !h.never && a.regIn h.len) = true := hw
  have e : (Instr.flg2 h d a).toRaw = (rawDA h 0x10A (modTy .f32 0) d a) := rfl
  obtain ⟨len, sw, stall, guard, neg⟩ := h
  cases len <;> cases a <;> simp [Letter.admits, Src.regIn] at hw'
  all_goals
    exact fun rest => decode_encode he hw hl
      (by rw [e, parse_10A rfl]; simp (disch := omega) [-BitVec.getLsbD_eq_getElem, parseTDA, rawDA, Raw.putA, Hdr.raw, Raw.srcA, Raw.hdr, Raw.ty,
        modTy, ext_low, ofBits_bits, perm_code, ty_code, *])
      (by rw [e]; simp [Raw.tidy, rawDA, Raw.putA, Hdr.raw, Perm.code, Perm.q, modTy, *])
      (by rw [e]; simp [rawDA, Raw.putA, Hdr.raw, Raw.hdr, *]) rest

theorem parse_10B {r : Raw} (h : r.opcode = 0x10B) : parse r = (
    parseTDA r fun h _ => .fsin h) := by
  unfold parse; rw [h]; show parseFloat r = _; unfold parseFloat; rw [h]; rfl

theorem Sys2Proof.Laws.RoundTrip.fsin (h : Hdr) (d : Opd) (a : Src) : Statement (.fsin h d a) := by
  intro he hw hl
  have hw' : (Letter.b.admits h.len && !h.never && a.regIn h.len) = true := hw
  have e : (Instr.fsin h d a).toRaw = (rawDA h 0x10B (modTy .f32 0) d a) := rfl
  obtain ⟨len, sw, stall, guard, neg⟩ := h
  cases len <;> cases a <;> simp [Letter.admits, Src.regIn] at hw'
  all_goals
    exact fun rest => decode_encode he hw hl
      (by rw [e, parse_10B rfl]; simp (disch := omega) [-BitVec.getLsbD_eq_getElem, parseTDA, rawDA, Raw.putA, Hdr.raw, Raw.srcA, Raw.hdr, Raw.ty,
        modTy, ext_low, ofBits_bits, perm_code, ty_code, *])
      (by rw [e]; simp [Raw.tidy, rawDA, Raw.putA, Hdr.raw, Perm.code, Perm.q, modTy, *])
      (by rw [e]; simp [rawDA, Raw.putA, Hdr.raw, Raw.hdr, *]) rest

theorem parse_10C {r : Raw} (h : r.opcode = 0x10C) : parse r = (
    parseTDA r fun h _ => .fcos h) := by
  unfold parse; rw [h]; show parseFloat r = _; unfold parseFloat; rw [h]; rfl

theorem Sys2Proof.Laws.RoundTrip.fcos (h : Hdr) (d : Opd) (a : Src) : Statement (.fcos h d a) := by
  intro he hw hl
  have hw' : (Letter.b.admits h.len && !h.never && a.regIn h.len) = true := hw
  have e : (Instr.fcos h d a).toRaw = (rawDA h 0x10C (modTy .f32 0) d a) := rfl
  obtain ⟨len, sw, stall, guard, neg⟩ := h
  cases len <;> cases a <;> simp [Letter.admits, Src.regIn] at hw'
  all_goals
    exact fun rest => decode_encode he hw hl
      (by rw [e, parse_10C rfl]; simp (disch := omega) [-BitVec.getLsbD_eq_getElem, parseTDA, rawDA, Raw.putA, Hdr.raw, Raw.srcA, Raw.hdr, Raw.ty,
        modTy, ext_low, ofBits_bits, perm_code, ty_code, *])
      (by rw [e]; simp [Raw.tidy, rawDA, Raw.putA, Hdr.raw, Perm.code, Perm.q, modTy, *])
      (by rw [e]; simp [rawDA, Raw.putA, Hdr.raw, Raw.hdr, *]) rest

theorem parse_10D {r : Raw} (h : r.opcode = 0x10D) : parse r = (
    parseFDA r .frnd) := by
  unfold parse; rw [h]; show parseFloat r = _; unfold parseFloat; rw [h]; rfl

theorem Sys2Proof.Laws.RoundTrip.frnd (h : Hdr) (rm : Rm) (d : Opd) (a : Src) : Statement (.frnd h rm d a) := by
  intro he hw hl
  have hw' : (Letter.b.admits h.len && !h.never && a.regIn h.len) = true := hw
  have e : (Instr.frnd h rm d a).toRaw = (rawDA h 0x10D (modF .f32 rm false false false) d a) := rfl
  obtain ⟨len, sw, stall, guard, neg⟩ := h
  cases len <;> cases a <;> simp [Letter.admits, Src.regIn] at hw'
  all_goals
    exact fun rest => decode_encode he hw hl
      (by rw [e, parse_10D rfl]; simp (disch := omega) [-BitVec.getLsbD_eq_getElem, parseFDA, rawDA, Raw.putA, Hdr.raw, Raw.srcA, Raw.hdr, Raw.rm,
        modF, ext_low, ext_high, ofBits_bits, perm_code, rm_code, *])
      (by rw [e]; simp [Raw.tidy, rawDA, Raw.putA, Hdr.raw, Perm.code, Perm.q, *])
      (by rw [e]; simp [rawDA, Raw.putA, Hdr.raw, Raw.hdr, *]) rest

theorem parse_10E {r : Raw} (h : r.opcode = 0x10E) : parse r = (
    parseTDA r .fclass) := by
  unfold parse; rw [h]; show parseFloat r = _; unfold parseFloat; rw [h]; rfl

theorem Sys2Proof.Laws.RoundTrip.fclass (h : Hdr) (ty : Ty) (d : Opd) (a : Src) : Statement (.fclass h ty d a) := by
  intro he hw hl
  have hw' : (Letter.b.admits h.len && !h.never && a.regIn h.len) = true := hw
  have e : (Instr.fclass h ty d a).toRaw = (rawDA h 0x10E (modTy ty 0) d a) := rfl
  obtain ⟨len, sw, stall, guard, neg⟩ := h
  cases len <;> cases a <;> simp [Letter.admits, Src.regIn] at hw'
  all_goals
    exact fun rest => decode_encode he hw hl
      (by rw [e, parse_10E rfl]; simp (disch := omega) [-BitVec.getLsbD_eq_getElem, parseTDA, rawDA, Raw.putA, Hdr.raw, Raw.srcA, Raw.hdr, Raw.ty,
        modTy, ext_low, ofBits_bits, perm_code, ty_code, *])
      (by rw [e]; simp [Raw.tidy, rawDA, Raw.putA, Hdr.raw, Perm.code, Perm.q, modTy, *])
      (by rw [e]; simp [rawDA, Raw.putA, Hdr.raw, Raw.hdr, *]) rest

theorem parse_10F {r : Raw} (h : r.opcode = 0x10F) : parse r = (
    parseFDAB r fun h _ => .dadd h) := by
  unfold parse; rw [h]; show parseFloat r = _; unfold parseFloat; rw [h]; rfl

theorem Sys2Proof.Laws.RoundTrip.dadd (h : Hdr) (rm : Rm) (na nb : Bool) (d : Opd) (a b : Src) : Statement (.dadd h rm na nb d a b) := by
  intro he hw hl
  have hw' : (!h.never && a.regIn h.len && b.orImm h.len true) = true := hw
  have e : (Instr.dadd h rm na nb d a b).toRaw = (rawDAB h 0x10F (modF .f64 rm na nb false) d a b) := rfl
  obtain ⟨len, sw, stall, guard, neg⟩ := h
  cases len <;> cases a <;> cases b <;> simp [Src.regIn, Src.orImm] at hw'
  all_goals
    exact fun rest => decode_encode he hw hl
      (by rw [e, parse_10F rfl]; simp (disch := omega) [-BitVec.getLsbD_eq_getElem, parseFDAB, rawDAB, Raw.putA, Raw.putB, Hdr.raw, Raw.srcA,
        Raw.srcB, Raw.srcBI, Raw.hdr, Raw.ty, Raw.rm, modF, ext_low, ext_high, bit_low, bit_high, ofBits_bits, perm_code, ty_code, rm_code, *])
      (by rw [e]; simp [Raw.tidy, rawDAB, Raw.putA, Raw.putB, Hdr.raw, Perm.code, Perm.q, *])
      (by rw [e]; simp [rawDAB, Raw.putA, Raw.putB, Hdr.raw, Raw.hdr, *]) rest

theorem parse_110 {r : Raw} (h : r.opcode = 0x110) : parse r = (
    parseFDAB r fun h _ => .dmul h) := by
  unfold parse; rw [h]; show parseFloat r = _; unfold parseFloat; rw [h]; rfl

theorem Sys2Proof.Laws.RoundTrip.dmul (h : Hdr) (rm : Rm) (na nb : Bool) (d : Opd) (a b : Src) : Statement (.dmul h rm na nb d a b) := by
  intro he hw hl
  have hw' : (!h.never && a.regIn h.len && b.orImm h.len true) = true := hw
  have e : (Instr.dmul h rm na nb d a b).toRaw = (rawDAB h 0x110 (modF .f64 rm na nb false) d a b) := rfl
  obtain ⟨len, sw, stall, guard, neg⟩ := h
  cases len <;> cases a <;> cases b <;> simp [Src.regIn, Src.orImm] at hw'
  all_goals
    exact fun rest => decode_encode he hw hl
      (by rw [e, parse_110 rfl]; simp (disch := omega) [-BitVec.getLsbD_eq_getElem, parseFDAB, rawDAB, Raw.putA, Raw.putB, Hdr.raw, Raw.srcA,
        Raw.srcB, Raw.srcBI, Raw.hdr, Raw.ty, Raw.rm, modF, ext_low, ext_high, bit_low, bit_high, ofBits_bits, perm_code, ty_code, rm_code, *])
      (by rw [e]; simp [Raw.tidy, rawDAB, Raw.putA, Raw.putB, Hdr.raw, Perm.code, Perm.q, *])
      (by rw [e]; simp [rawDAB, Raw.putA, Raw.putB, Hdr.raw, Raw.hdr, *]) rest

theorem parse_111 {r : Raw} (h : r.opcode = 0x111) : parse r = (
    parseFDABC r fun h _ => .dfma h) := by
  unfold parse; rw [h]; show parseFloat r = _; unfold parseFloat; rw [h]; rfl

theorem Sys2Proof.Laws.RoundTrip.dfma (h : Hdr) (rm : Rm) (na nb nc : Bool) (d : Opd) (a b : Src) (c : Opd)
    : Statement (.dfma h rm na nb nc d a b c) := by
  intro he hw hl
  have hw' : (Letter.d.admits h.len && !h.never && a.regIn h.len && b.regIn h.len) = true := hw
  have e : (Instr.dfma h rm na nb nc d a b c).toRaw = ({ rawDAB h 0x111 (modF .f64 rm na nb nc) d a b with c := c.bits }) := rfl
  obtain ⟨len, sw, stall, guard, neg⟩ := h
  cases len <;> cases a <;> cases b <;> simp [Letter.admits, Src.regIn] at hw'
  all_goals
    exact fun rest => decode_encode he hw hl
      (by rw [e, parse_111 rfl]; simp (disch := omega) [-BitVec.getLsbD_eq_getElem, parseFDABC, rawDAB, Raw.putA, Raw.putB, Hdr.raw, Raw.srcA,
        Raw.srcB, Raw.hdr, Raw.ty, Raw.rm, modF, ext_low, ext_high, bit_low, bit_high, ofBits_bits, perm_code, ty_code, rm_code, *])
      (by rw [e]; simp [Raw.tidy, rawDAB, Raw.putA, Raw.putB, Hdr.raw, Perm.code, Perm.q, *])
      (by rw [e]; simp [rawDAB, Raw.putA, Raw.putB, Hdr.raw, Raw.hdr, *]) rest

theorem parse_112 {r : Raw} (h : r.opcode = 0x112) : parse r = (
    do some (.dset r.hdr (FCmp.ofCode (r.mod.extractLsb' 4 3)) (r.mod.extractLsb' 7 3) (← r.srcA) (← r.srcBI))) := by
  unfold parse; rw [h]; show parseFloat r = _; unfold parseFloat; rw [h]; rfl

theorem Sys2Proof.Laws.RoundTrip.dset (h : Hdr) (cmp : FCmp) (p : BitVec 3) (a b : Src) : Statement (.dset h cmp p a b) := by
  intro he hw hl
  have hw' : (!h.never && a.regIn h.len && b.orImm h.len true) = true := hw
  have e : (Instr.dset h cmp p a b).toRaw = ({ ((h.raw 0x112).putA a).putB b with mod := p ++ cmp.code ++ Ty.code .f64 }) := rfl
  obtain ⟨len, sw, stall, guard, neg⟩ := h
  cases len <;> cases a <;> cases b <;> simp [Src.regIn, Src.orImm] at hw'
  all_goals
    exact fun rest => decode_encode he hw hl
      (by rw [e, parse_112 rfl]; simp (disch := omega) [-BitVec.getLsbD_eq_getElem, Raw.putA, Raw.putB, Hdr.raw, Raw.srcA, Raw.srcB, Raw.srcBI,
        Raw.hdr, ext_low, ext_high, ofBits_bits, perm_code, fcmp_code, *])
      (by rw [e]; simp [Raw.tidy, Raw.putA, Raw.putB, Hdr.raw, Perm.code, Perm.q, *])
      (by rw [e]; simp [Raw.putA, Raw.putB, Hdr.raw, Raw.hdr, *]) rest

theorem parse_113 {r : Raw} (h : r.opcode = 0x113) : parse r = (
    parseFDAB r .hadd2) := by
  unfold parse; rw [h]; show parseFloat r = _; unfold parseFloat; rw [h]; rfl

theorem Sys2Proof.Laws.RoundTrip.hadd2 (h : Hdr) (ty : Ty) (rm : Rm) (na nb : Bool) (d : Opd) (a b : Src)
    : Statement (.hadd2 h ty rm na nb d a b) := by
  intro he hw hl
  have hw' : (!h.never && a.regIn h.len && b.orImm h.len false) = true := hw
  have e : (Instr.hadd2 h ty rm na nb d a b).toRaw = (rawDAB h 0x113 (modF ty rm na nb false) d a b) := rfl
  obtain ⟨len, sw, stall, guard, neg⟩ := h
  cases len <;> cases a <;> cases b <;> simp [Src.regIn, Src.orImm] at hw'
  all_goals
    exact fun rest => decode_encode he hw hl
      (by rw [e, parse_113 rfl]; simp (disch := omega) [-BitVec.getLsbD_eq_getElem, parseFDAB, rawDAB, Raw.putA, Raw.putB, Hdr.raw, Raw.srcA,
        Raw.srcB, Raw.srcBI, Raw.hdr, Raw.ty, Raw.rm, modF, ext_low, ext_high, bit_low, bit_high, ofBits_bits, perm_code, ty_code, rm_code, *])
      (by rw [e]; simp [Raw.tidy, rawDAB, Raw.putA, Raw.putB, Hdr.raw, Perm.code, Perm.q, *])
      (by rw [e]; simp [rawDAB, Raw.putA, Raw.putB, Hdr.raw, Raw.hdr, *]) rest

theorem parse_114 {r : Raw} (h : r.opcode = 0x114) : parse r = (
    parseFDAB r .hmul2) := by
  unfold parse; rw [h]; show parseFloat r = _; unfold parseFloat; rw [h]; rfl

theorem Sys2Proof.Laws.RoundTrip.hmul2 (h : Hdr) (ty : Ty) (rm : Rm) (na nb : Bool) (d : Opd) (a b : Src)
    : Statement (.hmul2 h ty rm na nb d a b) := by
  intro he hw hl
  have hw' : (!h.never && a.regIn h.len && b.orImm h.len false) = true := hw
  have e : (Instr.hmul2 h ty rm na nb d a b).toRaw = (rawDAB h 0x114 (modF ty rm na nb false) d a b) := rfl
  obtain ⟨len, sw, stall, guard, neg⟩ := h
  cases len <;> cases a <;> cases b <;> simp [Src.regIn, Src.orImm] at hw'
  all_goals
    exact fun rest => decode_encode he hw hl
      (by rw [e, parse_114 rfl]; simp (disch := omega) [-BitVec.getLsbD_eq_getElem, parseFDAB, rawDAB, Raw.putA, Raw.putB, Hdr.raw, Raw.srcA,
        Raw.srcB, Raw.srcBI, Raw.hdr, Raw.ty, Raw.rm, modF, ext_low, ext_high, bit_low, bit_high, ofBits_bits, perm_code, ty_code, rm_code, *])
      (by rw [e]; simp [Raw.tidy, rawDAB, Raw.putA, Raw.putB, Hdr.raw, Perm.code, Perm.q, *])
      (by rw [e]; simp [rawDAB, Raw.putA, Raw.putB, Hdr.raw, Raw.hdr, *]) rest

theorem parse_115 {r : Raw} (h : r.opcode = 0x115) : parse r = (
    parseFDABC r .hfma2) := by
  unfold parse; rw [h]; show parseFloat r = _; unfold parseFloat; rw [h]; rfl

theorem Sys2Proof.Laws.RoundTrip.hfma2 (h : Hdr) (ty : Ty) (rm : Rm) (na nb nc : Bool) (d : Opd) (a b : Src) (c : Opd)
    : Statement (.hfma2 h ty rm na nb nc d a b c) := by
  intro he hw hl
  have hw' : (Letter.d.admits h.len && !h.never && a.regIn h.len && b.regIn h.len) = true := hw
  have e : (Instr.hfma2 h ty rm na nb nc d a b c).toRaw = ({ rawDAB h 0x115 (modF ty rm na nb nc) d a b with c := c.bits }) := rfl
  obtain ⟨len, sw, stall, guard, neg⟩ := h
  cases len <;> cases a <;> cases b <;> simp [Letter.admits, Src.regIn] at hw'
  all_goals
    exact fun rest => decode_encode he hw hl
      (by rw [e, parse_115 rfl]; simp (disch := omega) [-BitVec.getLsbD_eq_getElem, parseFDABC, rawDAB, Raw.putA, Raw.putB, Hdr.raw, Raw.srcA,
        Raw.srcB, Raw.hdr, Raw.ty, Raw.rm, modF, ext_low, ext_high, bit_low, bit_high, ofBits_bits, perm_code, ty_code, rm_code, *])
      (by rw [e]; simp [Raw.tidy, rawDAB, Raw.putA, Raw.putB, Hdr.raw, Perm.code, Perm.q, *])
      (by rw [e]; simp [rawDAB, Raw.putA, Raw.putB, Hdr.raw, Raw.hdr, *]) rest

theorem parse_116 {r : Raw} (h : r.opcode = 0x116) : parse r = (
    do
    let rm ← r.rm
    some (.cvt r.hdr rm (r.b.extractLsb' 0 5) (r.b.extractLsb' 5 5) (← Opd.ofBits r.d) (← r.srcA) (← r.rs rm))) := by
  unfold parse; rw [h]; show parseFloat r = _; unfold parseFloat; rw [h]; rfl

theorem Sys2Proof.Laws.RoundTrip.cvt (h : Hdr) (rm : Rm) (dfmt sfmt : BitVec 5) (d : Opd) (a : Src) (rs : Option (BitVec 6 × Opd))
    : Statement (.cvt h rm dfmt sfmt d a rs) := by
  intro he hw hl
  have hw' : (Letter.b.admits h.len && !h.never && a.regIn h.len && (rs.isSome == (rm == .rs)) && (h.len == .b96 || rs.isNone)) = true := hw
  have e : (Instr.cvt h rm dfmt sfmt d a rs).toRaw =
      ({ (rawDA h 0x116 ((0 : BitVec 3) ++ rm.code ++ (0 : BitVec 4)) d a).putRs rs with b := (0 : BitVec 1) ++ sfmt ++ dfmt }) := rfl
  obtain ⟨len, sw, stall, guard, neg⟩ := h
  cases len <;> cases a <;> cases rs <;> simp [Letter.admits, Src.regIn] at hw'
  all_goals
    exact fun rest => decode_encode he hw hl
      (by rw [e, parse_116 rfl]; simp (disch := omega) [-BitVec.getLsbD_eq_getElem, rawDA, Raw.putA, Raw.putRs, Hdr.raw, Raw.srcA, Raw.hdr,
        Raw.rm, Raw.rs, ext_low, ext_high, ofBits_bits, perm_code, rm_code, *])
      (by rw [e]; simp [Raw.tidy, rawDA, Raw.putA, Raw.putRs, Hdr.raw, Perm.code, Perm.q, *])
      (by rw [e]; simp [rawDA, Raw.putA, Raw.putRs, Hdr.raw, Raw.hdr, *]) rest

theorem parse_117 {r : Raw} (h : r.opcode = 0x117) : parse r = (
    do
    let rm ← r.rm
    some (.pack r.hdr rm (r.b.extractLsb' 0 5) (r.b.extractLsb' 5 5) (← Opd.ofBits r.d) (← Opd.ofBits r.a) (← r.rs rm))) := by
  unfold parse; rw [h]; show parseFloat r = _; unfold parseFloat; rw [h]; rfl

theorem Sys2Proof.Laws.RoundTrip.pack (h : Hdr) (rm : Rm) (fmt lm1 : BitVec 5) (d : Opd) (a : Opd) (rs : Option (BitVec 6 × Opd))
    : Statement (.pack h rm fmt lm1 d a rs) := by
  intro he hw hl
  have hw' : (Letter.d.admits h.len && !h.never && (rs.isSome == (rm == .rs))) = true := hw
  have e : (Instr.pack h rm fmt lm1 d a rs).toRaw =
      ({ (h.raw 0x117).putRs rs with d := d.bits, a := a.bits, b := (0 : BitVec 1) ++ lm1 ++ fmt, mod := (0 : BitVec 3) ++ rm.code ++ (0 : BitVec 4) }) := rfl
  obtain ⟨len, sw, stall, guard, neg⟩ := h
  cases len <;> cases rs <;> simp [Letter.admits] at hw'
  all_goals
    exact fun rest => decode_encode he hw hl
      (by rw [e, parse_117 rfl]; simp (disch := omega) [-BitVec.getLsbD_eq_getElem, Raw.putRs, Hdr.raw, Raw.hdr, Raw.rm, Raw.rs, ext_low,
        ext_high, ofBits_bits, rm_code, *])
      (by rw [e]; simp [Raw.tidy, Raw.putRs, Hdr.raw, *])
      (by rw [e]; simp [Raw.putRs, Hdr.raw, Raw.hdr, *]) rest

theorem parse_118 {r : Raw} (h : r.opcode = 0x118) : parse r = (
    do some (.fstk r.hdr (← Opd.ofBits r.d) (← Opd.ofBits r.a))) := by
  unfold parse; rw [h]; show parseFloat r = _; unfold parseFloat; rw [h]; rfl

theorem Sys2Proof.Laws.RoundTrip.fstk (h : Hdr) (d a : Opd) : Statement (.fstk h d a) := by
  intro he hw hl
  have hw' : (Letter.a.admits h.len && !h.never) = true := hw
  have e : (Instr.fstk h d a).toRaw = ({ h.raw 0x118 with d := d.bits, a := a.bits }) := rfl
  obtain ⟨len, sw, stall, guard, neg⟩ := h
  cases len <;> simp [Letter.admits] at hw'
  all_goals
    exact fun rest => decode_encode he hw hl
      (by rw [e, parse_118 rfl]; simp (disch := omega) [-BitVec.getLsbD_eq_getElem, Hdr.raw, Raw.hdr, ofBits_bits, *])
      (by rw [e]; simp [Raw.tidy, Hdr.raw, *])
      (by rw [e]; simp [Hdr.raw, Raw.hdr, *]) rest

theorem parse_140 {r : Raw} (h : r.opcode = 0x140) : parse r = (
    do some (.xch r.hdr (← r.ty) (r.mod.getLsbD 4) (← Opd.ofBits r.d) (← r.srcA) (← r.srcB))) := by
  unfold parse; rw [h]; show parseExchange r = _; unfold parseExchange; rw [h]; rfl

theorem Sys2Proof.Laws.RoundTrip.xch (h : Hdr) (ty : Ty) (wrap : Bool) (d : Opd) (a b : Src) : Statement (.xch h ty wrap d a b) := by
  intro he hw hl
  have hw' : (Letter.b.admits h.len && !h.never && a.regIn h.len && b.regIn h.len) = true := hw
  have e : (Instr.xch h ty wrap d a b).toRaw = (rawDAB h 0x140 ((0 : BitVec 5) ++ BitVec.ofBool wrap ++ ty.code) d a b) := rfl
  obtain ⟨len, sw, stall, guard, neg⟩ := h
  cases len <;> cases a <;> cases b <;> simp [Letter.admits, Src.regIn] at hw'
  all_goals
    exact fun rest => decode_encode he hw hl
      (by rw [e, parse_140 rfl]; simp (disch := omega) [-BitVec.getLsbD_eq_getElem, rawDAB, Raw.putA, Raw.putB, Hdr.raw, Raw.srcA, Raw.srcB,
        Raw.hdr, Raw.ty, ext_low, bit_low, bit_high, ofBits_bits, perm_code, ty_code, *])
      (by rw [e]; simp [Raw.tidy, rawDAB, Raw.putA, Raw.putB, Hdr.raw, Perm.code, Perm.q, *])
      (by rw [e]; simp [rawDAB, Raw.putA, Raw.putB, Hdr.raw, Raw.hdr, *]) rest

theorem parse_141 {r : Raw} (h : r.opcode = 0x141) : parse r = (
    some (.vote r.hdr (VoteMode.ofCode (r.mod.extractLsb' 4 2)) (r.mod.getLsbD 6) (r.d.extractLsb' 0 3) (r.a.extractLsb' 0 3))) := by
  unfold parse; rw [h]; show parseExchange r = _; unfold parseExchange; rw [h]; rfl

theorem Sys2Proof.Laws.RoundTrip.vote (h : Hdr) (mode : VoteMode) (na : Bool) (pd pa : BitVec 3) : Statement (.vote h mode na pd pa) := by
  intro he hw hl
  have hw' : (Letter.b.admits h.len && !h.never) = true := hw
  have e : (Instr.vote h mode na pd pa).toRaw =
      ({ h.raw 0x141 with d := pd.zeroExtend 11, a := pa.zeroExtend 11, mod := (0 : BitVec 3) ++ BitVec.ofBool na ++ mode.code ++ (0 : BitVec 4) }) := rfl
  obtain ⟨len, sw, stall, guard, neg⟩ := h
  cases len <;> simp [Letter.admits] at hw'
  all_goals
    exact fun rest => decode_encode he hw hl
      (by rw [e, parse_141 rfl]; simp (disch := omega) [-BitVec.getLsbD_eq_getElem, Hdr.raw, Raw.hdr, ext_low, ext_high, ext_wide, bit_low,
        bit_high, vote_code, *])
      (by rw [e]; simp [Raw.tidy, Hdr.raw, *])
      (by rw [e]; simp [Hdr.raw, Raw.hdr, *]) rest

theorem parse_142 {r : Raw} (h : r.opcode = 0x142) : parse r = (
    do some (.ballot r.hdr (← r.ty) (r.mod.getLsbD 6) (← Opd.ofBits r.d) (r.a.extractLsb' 0 3))) := by
  unfold parse; rw [h]; show parseExchange r = _; unfold parseExchange; rw [h]; rfl

theorem Sys2Proof.Laws.RoundTrip.ballot (h : Hdr) (ty : Ty) (na : Bool) (d : Opd) (pa : BitVec 3) : Statement (.ballot h ty na d pa) := by
  intro he hw hl
  have hw' : (Letter.b.admits h.len && !h.never) = true := hw
  have e : (Instr.ballot h ty na d pa).toRaw =
      ({ h.raw 0x142 with d := d.bits, a := pa.zeroExtend 11, mod := (0 : BitVec 3) ++ BitVec.ofBool na ++ (0 : BitVec 2) ++ ty.code }) := rfl
  obtain ⟨len, sw, stall, guard, neg⟩ := h
  cases len <;> simp [Letter.admits] at hw'
  all_goals
    exact fun rest => decode_encode he hw hl
      (by rw [e, parse_142 rfl]; simp (disch := omega) [-BitVec.getLsbD_eq_getElem, Hdr.raw, Raw.hdr, Raw.ty, ext_low, ext_wide, bit_low,
        bit_high, ofBits_bits, ty_code, *])
      (by rw [e]; simp [Raw.tidy, Hdr.raw, *])
      (by rw [e]; simp [Hdr.raw, Raw.hdr, *]) rest

theorem parse_143 {r : Raw} (h : r.opcode = 0x143) : parse r = (
    do some (.scan r.hdr (← r.ty) (← r.rop) (r.mod.getLsbD 7) (← Opd.ofBits r.d) (← r.srcA) (← optOpd (r.mod.getLsbD 8) r.b))) := by
  unfold parse; rw [h]; show parseExchange r = _; unfold parseExchange; rw [h]; rfl

theorem Sys2Proof.Laws.RoundTrip.scan (h : Hdr) (ty : Ty) (op : ROp) (exc : Bool) (d : Opd) (a : Src) (b : Option Opd)
    : Statement (.scan h ty op exc d a b) := by
  intro he hw hl
  have hw' : (Letter.b.admits h.len && !h.never && a.regIn h.len) = true := hw
  have e : (Instr.scan h ty op exc d a b).toRaw = ({ rawDA h 0x143 (modScan ty op exc b.isSome) d a with b := optBits b }) := rfl
  obtain ⟨len, sw, stall, guard, neg⟩ := h
  cases len <;> cases a <;> cases b <;> simp [Letter.admits, Src.regIn] at hw'
  all_goals
    exact fun rest => decode_encode he hw hl
      (by rw [e, parse_143 rfl]; simp (disch := omega) [-BitVec.getLsbD_eq_getElem, rawDA, Raw.putA, Hdr.raw, Raw.srcA, Raw.hdr, Raw.ty, Raw.rop,
        modScan, optBits, optOpd, ext_low, ext_high, bit_low, bit_high, ofBits_bits, perm_code, ty_code, rop_code, *])
      (by rw [e]; simp [Raw.tidy, rawDA, Raw.putA, Hdr.raw, Perm.code, Perm.q, *])
      (by rw [e]; simp [rawDA, Raw.putA, Hdr.raw, Raw.hdr, *]) rest

theorem parse_144 {r : Raw} (h : r.opcode = 0x144) : parse r = (
    do some (.redx r.hdr (← r.ty) (← r.rop) (← Opd.ofBits r.d) (← r.srcA) (← optOpd (r.mod.getLsbD 8) r.b))) := by
  unfold parse; rw [h]; show parseExchange r = _; unfold parseExchange; rw [h]; rfl

theorem Sys2Proof.Laws.RoundTrip.redx (h : Hdr) (ty : Ty) (op : ROp) (d : Opd) (a : Src) (b : Option Opd) : Statement (.redx h ty op d a b) := by
  intro he hw hl
  have hw' : (Letter.b.admits h.len && !h.never && a.regIn h.len) = true := hw
  have e : (Instr.redx h ty op d a b).toRaw = ({ rawDA h 0x144 (modScan ty op false b.isSome) d a with b := optBits b }) := rfl
  obtain ⟨len, sw, stall, guard, neg⟩ := h
  cases len <;> cases a <;> cases b <;> simp [Letter.admits, Src.regIn] at hw'
  all_goals
    exact fun rest => decode_encode he hw hl
      (by rw [e, parse_144 rfl]; simp (disch := omega) [-BitVec.getLsbD_eq_getElem, rawDA, Raw.putA, Hdr.raw, Raw.srcA, Raw.hdr, Raw.ty, Raw.rop,
        modScan, optBits, optOpd, ext_low, ext_high, bit_high, ofBits_bits, perm_code, ty_code, rop_code, *])
      (by rw [e]; simp [Raw.tidy, rawDA, Raw.putA, Hdr.raw, Perm.code, Perm.q, *])
      (by rw [e]; simp [rawDA, Raw.putA, Hdr.raw, Raw.hdr, *]) rest

theorem parse_145 {r : Raw} (h : r.opcode = 0x145) : parse r = (
    parseTDA r .matchB) := by
  unfold parse; rw [h]; show parseExchange r = _; unfold parseExchange; rw [h]; rfl

theorem Sys2Proof.Laws.RoundTrip.matchB (h : Hdr) (ty : Ty) (d : Opd) (a : Src) : Statement (.matchB h ty d a) := by
  intro he hw hl
  have hw' : (Letter.b.admits h.len && !h.never && a.regIn h.len) = true := hw
  have e : (Instr.matchB h ty d a).toRaw = (rawDA h 0x145 (modTy ty 0) d a) := rfl
  obtain ⟨len, sw, stall, guard, neg⟩ := h
  cases len <;> cases a <;> simp [Letter.admits, Src.regIn] at hw'
  all_goals
    exact fun rest => decode_encode he hw hl
      (by rw [e, parse_145 rfl]; simp (disch := omega) [-BitVec.getLsbD_eq_getElem, parseTDA, rawDA, Raw.putA, Hdr.raw, Raw.srcA, Raw.hdr, Raw.ty,
        modTy, ext_low, ofBits_bits, perm_code, ty_code, *])
      (by rw [e]; simp [Raw.tidy, rawDA, Raw.putA, Hdr.raw, Perm.code, Perm.q, modTy, *])
      (by rw [e]; simp [rawDA, Raw.putA, Hdr.raw, Raw.hdr, *]) rest

theorem parse_146 {r : Raw} (h : r.opcode = 0x146) : parse r = (
    do
    let a ← if r.mod.getLsbD 4 then some none else r.srcA.map some
    some (.first r.hdr (← r.ty) (← Opd.ofBits r.d) a)) := by
  unfold parse; rw [h]; show parseExchange r = _; unfold parseExchange; rw [h]; rfl

theorem Sys2Proof.Laws.RoundTrip.first (h : Hdr) (ty : Ty) (d : Opd) (a : Option Src) : Statement (.first h ty d a) := by
  intro he hw hl
  have hw' : (Letter.b.admits h.len && !h.never && a.all (Src.regIn h.len)) = true := hw
  have e : (Instr.first h ty d a).toRaw = ({ (h.raw 0x146).putOpt a with d := d.bits, mod := modTy ty (if a.isSome then 0 else 1) }) := rfl
  obtain ⟨len, sw, stall, guard, neg⟩ := h
  cases len <;> rcases a with _ | (⟨_, _⟩ | _) <;> simp [Letter.admits, Src.regIn] at hw'
  all_goals
    exact fun rest => decode_encode he hw hl
      (by rw [e, parse_146 rfl]; simp (disch := omega) [-BitVec.getLsbD_eq_getElem, Raw.putOpt, Raw.putA, Hdr.raw, Raw.srcA, Raw.hdr, Raw.ty,
        modTy, ext_low, bit_high, ofBits_bits, perm_code, ty_code, *])
      (by rw [e]; simp [Raw.tidy, Raw.putA, Hdr.raw, Perm.code, Perm.q, Raw.putOpt, *])
      (by rw [e]; simp [Raw.putOpt, Raw.putA, Hdr.raw, Raw.hdr, *]) rest

theorem parse_147 {r : Raw} (h : r.opcode = 0x147) : parse r = (
    do some (.rand r.hdr (← RandCount.ofCode (r.mod.extractLsb' 0 2)) (r.mod.getLsbD 2) (← Opd.ofBits r.d) (← Opd.ofBits r.b) (← Opd.ofBits r.c))) := by
  unfold parse; rw [h]; show parseExchange r = _; unfold parseExchange; rw [h]; rfl

theorem Sys2Proof.Laws.RoundTrip.rand (h : Hdr) (count : RandCount) (inc : Bool) (d b c : Opd) : Statement (.rand h count inc d b c) := by
  intro he hw hl
  have hw' : (Letter.d.admits h.len && !h.never) = true := hw
  have e : (Instr.rand h count inc d b c).toRaw =
      ({ h.raw 0x147 with d := d.bits, b := b.bits, c := c.bits, mod := (BitVec.ofBool inc ++ count.code).zeroExtend 10 }) := rfl
  obtain ⟨len, sw, stall, guard, neg⟩ := h
  cases len <;> simp [Letter.admits] at hw'
  all_goals
    exact fun rest => decode_encode he hw hl
      (by rw [e, parse_147 rfl]; simp (disch := omega) [-BitVec.getLsbD_eq_getElem, Hdr.raw, Raw.hdr, ext_low, ext_wide, bit_high, ofBits_bits,
        rand_code, *])
      (by rw [e]; simp [Raw.tidy, Hdr.raw, *])
      (by rw [e]; simp [Hdr.raw, Raw.hdr, *]) rest

theorem parse_180 {r : Raw} (h : r.opcode = 0x180) : parse r = (
    do some (.mxcfg r.hdr (← r.srcAI))) := by
  unfold parse; rw [h]; show parseMatrix r = _; unfold parseMatrix; rw [h]; rfl

theorem Sys2Proof.Laws.RoundTrip.mxcfg (h : Hdr) (x : Src) : Statement (.mxcfg h x) := by
  intro he hw hl
  have hw' : (Letter.f.admits h.len && !h.never && x.orImm h.len true) = true := hw
  have e : (Instr.mxcfg h x).toRaw = ((h.raw 0x180).putA x) := rfl
  obtain ⟨len, sw, stall, guard, neg⟩ := h
  cases len <;> cases x <;> simp [Letter.admits, Src.orImm] at hw'
  all_goals
    exact fun rest => decode_encode he hw hl
      (by rw [e, parse_180 rfl]; simp (disch := omega) [-BitVec.getLsbD_eq_getElem, Raw.putA, Hdr.raw, Raw.srcA, Raw.srcAI, Raw.hdr, ofBits_bits,
        perm_code, *])
      (by rw [e]; simp [Raw.tidy, Raw.putA, Hdr.raw, Perm.code, Perm.q, *])
      (by rw [e]; simp [Raw.putA, Hdr.raw, Raw.hdr, *]) rest

theorem parse_181 {r : Raw} (h : r.opcode = 0x181) : parse r = (
    do some (.mxpre r.hdr (← r.srcAI))) := by
  unfold parse; rw [h]; show parseMatrix r = _; unfold parseMatrix; rw [h]; rfl

theorem Sys2Proof.Laws.RoundTrip.mxpre (h : Hdr) (x : Src) : Statement (.mxpre h x) := by
  intro he hw hl
  have hw' : (Letter.f.admits h.len && !h.never && x.orImm h.len true) = true := hw
  have e : (Instr.mxpre h x).toRaw = ((h.raw 0x181).putA x) := rfl
  obtain ⟨len, sw, stall, guard, neg⟩ := h
  cases len <;> cases x <;> simp [Letter.admits, Src.orImm] at hw'
  all_goals
    exact fun rest => decode_encode he hw hl
      (by rw [e, parse_181 rfl]; simp (disch := omega) [-BitVec.getLsbD_eq_getElem, Raw.putA, Hdr.raw, Raw.srcA, Raw.srcAI, Raw.hdr, ofBits_bits,
        perm_code, *])
      (by rw [e]; simp [Raw.tidy, Raw.putA, Hdr.raw, Perm.code, Perm.q, *])
      (by rw [e]; simp [Raw.putA, Hdr.raw, Raw.hdr, *]) rest

theorem parse_182 {r : Raw} (h : r.opcode = 0x182) : parse r = (
    do some (.mxpost r.hdr (r.mod.getLsbD 0) (← r.srcAI))) := by
  unfold parse; rw [h]; show parseMatrix r = _; unfold parseMatrix; rw [h]; rfl

theorem Sys2Proof.Laws.RoundTrip.mxpost (h : Hdr) (w : Bool) (x : Src) : Statement (.mxpost h w x) := by
  intro he hw hl
  have hw' : (Letter.f.admits h.len && !h.never && x.orImm h.len true) = true := hw
  have e : (Instr.mxpost h w x).toRaw = ({ (h.raw 0x182).putA x with mod := (BitVec.ofBool w).zeroExtend 10 }) := rfl
  obtain ⟨len, sw, stall, guard, neg⟩ := h
  cases len <;> cases x <;> simp [Letter.admits, Src.orImm] at hw'
  all_goals
    exact fun rest => decode_encode he hw hl
      (by rw [e, parse_182 rfl]; simp (disch := omega) [-BitVec.getLsbD_eq_getElem, Raw.putA, Hdr.raw, Raw.srcA, Raw.srcAI, Raw.hdr, ofBits_bits,
        perm_code, *])
      (by rw [e]; simp [Raw.tidy, Raw.putA, Hdr.raw, Perm.code, Perm.q, *])
      (by rw [e]; simp [Raw.putA, Hdr.raw, Raw.hdr, *]) rest

theorem parse_183 {r : Raw} (h : r.opcode = 0x183) : parse r = (
    do some (.unf r.hdr (r.mod.getLsbD 0) (← r.srcAI))) := by
  unfold parse; rw [h]; show parseMatrix r = _; unfold parseMatrix; rw [h]; rfl

theorem Sys2Proof.Laws.RoundTrip.unf (h : Hdr) (w : Bool) (x : Src) : Statement (.unf h w x) := by
  intro he hw hl
  have hw' : (Letter.f.admits h.len && !h.never && x.orImm h.len true) = true := hw
  have e : (Instr.unf h w x).toRaw = ({ (h.raw 0x183).putA x with mod := (BitVec.ofBool w).zeroExtend 10 }) := rfl
  obtain ⟨len, sw, stall, guard, neg⟩ := h
  cases len <;> cases x <;> simp [Letter.admits, Src.orImm] at hw'
  all_goals
    exact fun rest => decode_encode he hw hl
      (by rw [e, parse_183 rfl]; simp (disch := omega) [-BitVec.getLsbD_eq_getElem, Raw.putA, Hdr.raw, Raw.srcA, Raw.srcAI, Raw.hdr, ofBits_bits,
        perm_code, *])
      (by rw [e]; simp [Raw.tidy, Raw.putA, Hdr.raw, Perm.code, Perm.q, *])
      (by rw [e]; simp [Raw.putA, Hdr.raw, Raw.hdr, *]) rest

theorem parse_184 {r : Raw} (h : r.opcode = 0x184) : parse r = (
    let k := r.mod.extractLsb' 0 4
    do some (.kset r.hdr k (r.mod.getLsbD 4) (← Opd.ofBits r.d) (← Opd.ofBits r.a) (← Opd.ofBits r.b) (r.imm.extractLsb' 0 8))) := by
  unfold parse; rw [h]; show parseMatrix r = _; unfold parseMatrix; rw [h]; rfl

theorem Sys2Proof.Laws.RoundTrip.kset (h : Hdr) (k : BitVec 4) (fibSet : Bool) (d a b : Opd) (count : BitVec 8)
    : Statement (.kset h k fibSet d a b count) := by
  intro he hw hl
  have hw' : (Letter.e.admits h.len && !h.never) = true := hw
  have e : (Instr.kset h k fibSet d a b count).toRaw =
      ({ h.raw 0x184 with d := d.bits, a := a.bits, b := b.bits, mod := (BitVec.ofBool fibSet ++ k).zeroExtend 10, imm := count.zeroExtend 64 }) := rfl
  obtain ⟨len, sw, stall, guard, neg⟩ := h
  cases len <;> simp [Letter.admits] at hw'
  all_goals
    exact fun rest => decode_encode he hw hl
      (by rw [e, parse_184 rfl]; simp (disch := omega) [-BitVec.getLsbD_eq_getElem, Hdr.raw, Raw.hdr, ext_low, ext_wide, bit_high, ofBits_bits, *])
      (by rw [e]; simp [Raw.tidy, Hdr.raw, *])
      (by rw [e]; simp [Hdr.raw, Raw.hdr, *]) rest

theorem parse_185 {r : Raw} (h : r.opcode = 0x185) : parse r = (
    let k := r.mod.extractLsb' 0 4
    do some (.sign r.hdr k (← Opd.ofBits r.a))) := by
  unfold parse; rw [h]; show parseMatrix r = _; unfold parseMatrix; rw [h]; rfl

theorem Sys2Proof.Laws.RoundTrip.sign (h : Hdr) (k : BitVec 4) (a : Opd) : Statement (.sign h k a) := by
  intro he hw hl
  have hw' : (Letter.a.admits h.len && !h.never) = true := hw
  have e : (Instr.sign h k a).toRaw = ({ h.raw 0x185 with a := a.bits, mod := k.zeroExtend 10 }) := rfl
  obtain ⟨len, sw, stall, guard, neg⟩ := h
  cases len <;> simp [Letter.admits] at hw'
  all_goals
    exact fun rest => decode_encode he hw hl
      (by rw [e, parse_185 rfl]; simp (disch := omega) [-BitVec.getLsbD_eq_getElem, Hdr.raw, Raw.hdr, ext_wide, ofBits_bits, *])
      (by rw [e]; simp [Raw.tidy, Hdr.raw, *])
      (by rw [e]; simp [Hdr.raw, Raw.hdr, *]) rest

theorem parse_186 {r : Raw} (h : r.opcode = 0x186) : parse r = (
    let k := r.mod.extractLsb' 0 4
    do some (.mxwait r.hdr k (← Scope.ofCode (r.mod.extractLsb' 4 3)))) := by
  unfold parse; rw [h]; show parseMatrix r = _; unfold parseMatrix; rw [h]; rfl

theorem Sys2Proof.Laws.RoundTrip.mxwait (h : Hdr) (k : BitVec 4) (scope : Option Scope) : Statement (.mxwait h k scope) := by
  intro he hw hl
  have hw' : (Letter.a.admits h.len && !h.never) = true := hw
  have e : (Instr.mxwait h k scope).toRaw =
      ({ h.raw 0x186 with mod := (0 : BitVec 2) ++ BitVec.ofBool scope.isSome ++ Scope.code scope ++ k }) := rfl
  obtain ⟨len, sw, stall, guard, neg⟩ := h
  cases len <;> cases scope <;> simp [Letter.admits] at hw'
  all_goals
    exact fun rest => decode_encode he hw hl
      (by rw [e, parse_186 rfl]; simp (disch := omega) [-BitVec.getLsbD_eq_getElem, Hdr.raw, Raw.hdr, ext_low, ext_high, scope_code, *])
      (by rw [e]; simp [Raw.tidy, Hdr.raw, *])
      (by rw [e]; simp [Hdr.raw, Raw.hdr, *]) rest

theorem parse_187 {r : Raw} (h : r.opcode = 0x187) : parse r = (
    let k := r.mod.extractLsb' 0 4
    do
    let dst ← DrainDst.ofCode (r.mod.extractLsb' 4 2)
    some (.mxdrain r.hdr k dst (r.mod.getLsbD 6) (← optOpd (dst == .v) r.d) (← optOpd (dst != .v) r.a) (← r.srcBI))) := by
  unfold parse; rw [h]; show parseMatrix r = _; unfold parseMatrix; rw [h]; rfl

theorem Sys2Proof.Laws.RoundTrip.mxdrain (h : Hdr) (k : BitVec 4) (dst : DrainDst) (rel : Bool) (d a : Option Opd) (x : Src)
    : Statement (.mxdrain h k dst rel d a x) := by
  intro he hw hl
  have hw' : (Letter.f.admits h.len && !h.never && x.orImm h.len true && (d.isSome == (dst == .v)) && (a.isSome == (dst != .v))) = true := hw
  have e : (Instr.mxdrain h k dst rel d a x).toRaw =
      ({ (h.raw 0x187).putB x with d := optBits d, a := optBits a, mod := (0 : BitVec 3) ++ BitVec.ofBool rel ++ dst.code ++ k }) := rfl
  obtain ⟨len, sw, stall, guard, neg⟩ := h
  cases len <;> cases x <;> cases d <;> cases a <;> cases dst <;> simp [Letter.admits, Src.orImm] at hw'
  all_goals
    exact fun rest => decode_encode he hw hl
      (by rw [e, parse_187 rfl]; simp (disch := omega) [-BitVec.getLsbD_eq_getElem, Raw.putB, Hdr.raw, Raw.srcB, Raw.srcBI, Raw.hdr, optBits,
        optOpd, ext_low, ext_high, bit_low, bit_high, ofBits_bits, perm_code, drain_code, *])
      (by rw [e]; simp [Raw.tidy, Raw.putB, Hdr.raw, Perm.code, Perm.q, *])
      (by rw [e]; simp [Raw.putB, Hdr.raw, Raw.hdr, *]) rest

theorem parse_188 {r : Raw} (h : r.opcode = 0x188) : parse r = (
    let k := r.mod.extractLsb' 0 4
    some (.mxclr r.hdr k)) := by
  unfold parse; rw [h]; show parseMatrix r = _; unfold parseMatrix; rw [h]; rfl

theorem Sys2Proof.Laws.RoundTrip.mxclr (h : Hdr) (k : BitVec 4) : Statement (.mxclr h k) := by
  intro he hw hl
  have hw' : (Letter.a.admits h.len && !h.never) = true := hw
  have e : (Instr.mxclr h k).toRaw = ({ h.raw 0x188 with mod := k.zeroExtend 10 }) := rfl
  obtain ⟨len, sw, stall, guard, neg⟩ := h
  cases len <;> simp [Letter.admits] at hw'
  all_goals
    exact fun rest => decode_encode he hw hl
      (by rw [e, parse_188 rfl]; simp (disch := omega) [-BitVec.getLsbD_eq_getElem, Hdr.raw, Raw.hdr, ext_wide, *])
      (by rw [e]; simp [Raw.tidy, Hdr.raw, *])
      (by rw [e]; simp [Hdr.raw, Raw.hdr, *]) rest

theorem parse_189 {r : Raw} (h : r.opcode = 0x189) : parse r = (
    let k := r.mod.extractLsb' 0 4
    do some (.mxstat r.hdr k (← Opd.ofBits r.d))) := by
  unfold parse; rw [h]; show parseMatrix r = _; unfold parseMatrix; rw [h]; rfl

theorem Sys2Proof.Laws.RoundTrip.mxstat (h : Hdr) (k : BitVec 4) (d : Opd) : Statement (.mxstat h k d) := by
  intro he hw hl
  have hw' : (Letter.a.admits h.len && !h.never) = true := hw
  have e : (Instr.mxstat h k d).toRaw = ({ h.raw 0x189 with d := d.bits, mod := k.zeroExtend 10 }) := rfl
  obtain ⟨len, sw, stall, guard, neg⟩ := h
  cases len <;> simp [Letter.admits] at hw'
  all_goals
    exact fun rest => decode_encode he hw hl
      (by rw [e, parse_189 rfl]; simp (disch := omega) [-BitVec.getLsbD_eq_getElem, Hdr.raw, Raw.hdr, ext_wide, ofBits_bits, *])
      (by rw [e]; simp [Raw.tidy, Hdr.raw, *])
      (by rw [e]; simp [Hdr.raw, Raw.hdr, *]) rest

theorem parse_18A {r : Raw} (h : r.opcode = 0x18A) : parse r = (
    let k := r.mod.extractLsb' 0 4
    do some (.tlds r.hdr k (← Opd.ofBits r.a) (← r.srcBI))) := by
  unfold parse; rw [h]; show parseMatrix r = _; unfold parseMatrix; rw [h]; rfl

theorem Sys2Proof.Laws.RoundTrip.tlds (h : Hdr) (t : BitVec 4) (a : Opd) (x : Src) : Statement (.tlds h t a x) := by
  intro he hw hl
  have hw' : (Letter.f.admits h.len && !h.never && x.orImm h.len true) = true := hw
  have e : (Instr.tlds h t a x).toRaw = ({ (h.raw 0x18A).putB x with a := a.bits, mod := t.zeroExtend 10 }) := rfl
  obtain ⟨len, sw, stall, guard, neg⟩ := h
  cases len <;> cases x <;> simp [Letter.admits, Src.orImm] at hw'
  all_goals
    exact fun rest => decode_encode he hw hl
      (by rw [e, parse_18A rfl]; simp (disch := omega) [-BitVec.getLsbD_eq_getElem, Raw.putB, Hdr.raw, Raw.srcB, Raw.srcBI, Raw.hdr, ext_wide,
        ofBits_bits, perm_code, *])
      (by rw [e]; simp [Raw.tidy, Raw.putB, Hdr.raw, Perm.code, Perm.q, *])
      (by rw [e]; simp [Raw.putB, Hdr.raw, Raw.hdr, *]) rest

theorem parse_18B {r : Raw} (h : r.opcode = 0x18B) : parse r = (
    do some (.edgec r.hdr (← Opd.ofBits r.d) (← Opd.ofBits r.a) (← Opd.ofBits r.b))) := by
  unfold parse; rw [h]; show parseMatrix r = _; unfold parseMatrix; rw [h]; rfl

theorem Sys2Proof.Laws.RoundTrip.edgec (h : Hdr) (d a b : Opd) : Statement (.edgec h d a b) := by
  intro he hw hl
  have hw' : (Letter.d.admits h.len && !h.never) = true := hw
  have e : (Instr.edgec h d a b).toRaw = ({ h.raw 0x18B with d := d.bits, a := a.bits, b := b.bits }) := rfl
  obtain ⟨len, sw, stall, guard, neg⟩ := h
  cases len <;> simp [Letter.admits] at hw'
  all_goals
    exact fun rest => decode_encode he hw hl
      (by rw [e, parse_18B rfl]; simp (disch := omega) [-BitVec.getLsbD_eq_getElem, Hdr.raw, Raw.hdr, ofBits_bits, *])
      (by rw [e]; simp [Raw.tidy, Hdr.raw, *])
      (by rw [e]; simp [Hdr.raw, Raw.hdr, *]) rest

theorem parse_18C {r : Raw} (h : r.opcode = 0x18C) : parse r = (
    do
    some (.txw r.hdr (← TxwMode.ofCode (r.mod.extractLsb' 0 2)) (r.mod.extractLsb' 2 2) (← Opd.ofBits r.d) (← Opd.ofBits r.a) (← Opd.ofBits r.b))) := by
  unfold parse; rw [h]; show parseMatrix r = _; unfold parseMatrix; rw [h]; rfl

theorem Sys2Proof.Laws.RoundTrip.txw (h : Hdr) (mode : TxwMode) (tb : BitVec 2) (d a b : Opd) : Statement (.txw h mode tb d a b) := by
  intro he hw hl
  have hw' : (Letter.d.admits h.len && !h.never) = true := hw
  have e : (Instr.txw h mode tb d a b).toRaw =
      ({ h.raw 0x18C with d := d.bits, a := a.bits, b := b.bits, mod := (tb ++ mode.code).zeroExtend 10 }) := rfl
  obtain ⟨len, sw, stall, guard, neg⟩ := h
  cases len <;> simp [Letter.admits] at hw'
  all_goals
    exact fun rest => decode_encode he hw hl
      (by rw [e, parse_18C rfl]; simp (disch := omega) [-BitVec.getLsbD_eq_getElem, Hdr.raw, Raw.hdr, ext_low, ext_high, ext_wide, ofBits_bits,
        txw_code, *])
      (by rw [e]; simp [Raw.tidy, Hdr.raw, *])
      (by rw [e]; simp [Hdr.raw, Raw.hdr, *]) rest

theorem parse_1C0 {r : Raw} (h : r.opcode = 0x1C0) : parse r = (
    do some (.emit r.hdr (← Opd.ofBits r.a) (← Opd.ofBits r.b))) := by
  unfold parse; rw [h]; show parseSystem r = _; unfold parseSystem; rw [h]; rfl

theorem Sys2Proof.Laws.RoundTrip.emit (h : Hdr) (a b : Opd) : Statement (.emit h a b) := by
  intro he hw hl
  have hw' : (Letter.a.admits h.len && !h.never) = true := hw
  have e : (Instr.emit h a b).toRaw = ({ h.raw 0x1C0 with a := a.bits, b := b.bits }) := rfl
  obtain ⟨len, sw, stall, guard, neg⟩ := h
  cases len <;> simp [Letter.admits] at hw'
  all_goals
    exact fun rest => decode_encode he hw hl
      (by rw [e, parse_1C0 rfl]; simp (disch := omega) [-BitVec.getLsbD_eq_getElem, Hdr.raw, Raw.hdr, ofBits_bits, *])
      (by rw [e]; simp [Raw.tidy, Hdr.raw, *])
      (by rw [e]; simp [Hdr.raw, Raw.hdr, *]) rest

theorem parse_1C1 {r : Raw} (h : r.opcode = 0x1C1) : parse r = (
    do some (.tspawn r.hdr (← Opd.ofBits r.a) r.imm32)) := by
  unfold parse; rw [h]; show parseSystem r = _; unfold parseSystem; rw [h]; rfl

theorem Sys2Proof.Laws.RoundTrip.tspawn (h : Hdr) (a : Opd) (off : BitVec 32) : Statement (.tspawn h a off) := by
  intro he hw hl
  have hw' : (Letter.e.admits h.len && !h.never) = true := hw
  have e : (Instr.tspawn h a off).toRaw = ({ h.raw 0x1C1 with a := a.bits, imm := off.zeroExtend 64 }) := rfl
  obtain ⟨len, sw, stall, guard, neg⟩ := h
  cases len <;> simp [Letter.admits] at hw'
  all_goals
    exact fun rest => decode_encode he hw hl
      (by rw [e, parse_1C1 rfl]; simp (disch := omega) [-BitVec.getLsbD_eq_getElem, Hdr.raw, Raw.hdr, Raw.imm32, ext_wide, ofBits_bits, *])
      (by rw [e]; simp [Raw.tidy, Hdr.raw, *])
      (by rw [e]; simp [Hdr.raw, Raw.hdr, *]) rest

theorem parse_1C2 {r : Raw} (h : r.opcode = 0x1C2) : parse r = (
    do some (.condw r.hdr (← Opd.ofBits r.a) (← r.srcBI))) := by
  unfold parse; rw [h]; show parseSystem r = _; unfold parseSystem; rw [h]; rfl

theorem Sys2Proof.Laws.RoundTrip.condw (h : Hdr) (a : Opd) (x : Src) : Statement (.condw h a x) := by
  intro he hw hl
  have hw' : (Letter.f.admits h.len && !h.never && x.orImm h.len false) = true := hw
  have e : (Instr.condw h a x).toRaw = ({ (h.raw 0x1C2).putB x with a := a.bits }) := rfl
  obtain ⟨len, sw, stall, guard, neg⟩ := h
  cases len <;> cases x <;> simp [Letter.admits, Src.orImm] at hw'
  all_goals
    exact fun rest => decode_encode he hw hl
      (by rw [e, parse_1C2 rfl]; simp (disch := omega) [-BitVec.getLsbD_eq_getElem, Raw.putB, Hdr.raw, Raw.srcB, Raw.srcBI, Raw.hdr, ofBits_bits,
        perm_code, *])
      (by rw [e]; simp [Raw.tidy, Raw.putB, Hdr.raw, Perm.code, Perm.q, *])
      (by rw [e]; simp [Raw.putB, Hdr.raw, Raw.hdr, *]) rest

theorem parse_1C3 {r : Raw} (h : r.opcode = 0x1C3) : parse r = (
    do some (.grun r.hdr (← Opd.ofBits r.a) r.imm32)) := by
  unfold parse; rw [h]; show parseSystem r = _; unfold parseSystem; rw [h]; rfl

theorem Sys2Proof.Laws.RoundTrip.grun (h : Hdr) (a : Opd) (off : BitVec 32) : Statement (.grun h a off) := by
  intro he hw hl
  have hw' : (Letter.f.admits h.len && !h.never && offIn h.len off) = true := hw
  have e : (Instr.grun h a off).toRaw = ({ h.raw 0x1C3 with a := a.bits, imm := off.zeroExtend 64 }) := rfl
  obtain ⟨len, sw, stall, guard, neg⟩ := h
  cases len <;> simp [Letter.admits, offIn] at hw'
  all_goals
    exact fun rest => decode_encode he hw hl
      (by rw [e, parse_1C3 rfl]; simp (disch := omega) [-BitVec.getLsbD_eq_getElem, Hdr.raw, Raw.hdr, Raw.imm32, ext_wide, ofBits_bits, *])
      (by rw [e]; simp [Raw.tidy, Hdr.raw, *])
      (by rw [e]; simp [Hdr.raw, Raw.hdr, *]) rest

theorem parse_1C4 {r : Raw} (h : r.opcode = 0x1C4) : parse r = (
    do some (.rstg r.hdr (← r.ty) (← r.rop) (← r.srcA) (← r.srcB))) := by
  unfold parse; rw [h]; show parseSystem r = _; unfold parseSystem; rw [h]; rfl

theorem Sys2Proof.Laws.RoundTrip.rstg (h : Hdr) (ty : Ty) (op : ROp) (a b : Src) : Statement (.rstg h ty op a b) := by
  intro he hw hl
  have hw' : (Letter.b.admits h.len && !h.never && a.regIn h.len && b.regIn h.len) = true := hw
  have e : (Instr.rstg h ty op a b).toRaw = ({ ((h.raw 0x1C4).putA a).putB b with mod := (0 : BitVec 3) ++ op.code ++ ty.code }) := rfl
  obtain ⟨len, sw, stall, guard, neg⟩ := h
  cases len <;> cases a <;> cases b <;> simp [Letter.admits, Src.regIn] at hw'
  all_goals
    exact fun rest => decode_encode he hw hl
      (by rw [e, parse_1C4 rfl]; simp (disch := omega) [-BitVec.getLsbD_eq_getElem, Raw.putA, Raw.putB, Hdr.raw, Raw.srcA, Raw.srcB, Raw.hdr,
        Raw.ty, Raw.rop, ext_low, ext_high, ofBits_bits, perm_code, ty_code, rop_code, *])
      (by rw [e]; simp [Raw.tidy, Raw.putA, Raw.putB, Hdr.raw, Perm.code, Perm.q, *])
      (by rw [e]; simp [Raw.putA, Raw.putB, Hdr.raw, Raw.hdr, *]) rest

theorem parse_1C5 {r : Raw} (h : r.opcode = 0x1C5) : parse r = (
    do some (.rcmb r.hdr (← r.ty) (← r.rop) (← Opd.ofBits r.a) (← Opd.ofBits r.b))) := by
  unfold parse; rw [h]; show parseSystem r = _; unfold parseSystem; rw [h]; rfl

theorem Sys2Proof.Laws.RoundTrip.rcmb (h : Hdr) (ty : Ty) (op : ROp) (a b : Opd) : Statement (.rcmb h ty op a b) := by
  intro he hw hl
  have hw' : (Letter.a.admits h.len && !h.never) = true := hw
  have e : (Instr.rcmb h ty op a b).toRaw = ({ h.raw 0x1C5 with a := a.bits, b := b.bits, mod := (0 : BitVec 3) ++ op.code ++ ty.code }) := rfl
  obtain ⟨len, sw, stall, guard, neg⟩ := h
  cases len <;> simp [Letter.admits] at hw'
  all_goals
    exact fun rest => decode_encode he hw hl
      (by rw [e, parse_1C5 rfl]; simp (disch := omega) [-BitVec.getLsbD_eq_getElem, Hdr.raw, Raw.hdr, Raw.ty, Raw.rop, ext_low, ext_high,
        ofBits_bits, ty_code, rop_code, *])
      (by rw [e]; simp [Raw.tidy, Hdr.raw, *])
      (by rw [e]; simp [Hdr.raw, Raw.hdr, *]) rest

theorem parse_1C6 {r : Raw} (h : r.opcode = 0x1C6) : parse r = (
    do some (.dgstr r.hdr (← Opd.ofBits r.d))) := by
  unfold parse; rw [h]; show parseSystem r = _; unfold parseSystem; rw [h]; rfl

theorem Sys2Proof.Laws.RoundTrip.dgstr (h : Hdr) (d : Opd) : Statement (.dgstr h d) := by
  intro he hw hl
  have hw' : (Letter.a.admits h.len && !h.never) = true := hw
  have e : (Instr.dgstr h d).toRaw = ({ h.raw 0x1C6 with d := d.bits }) := rfl
  obtain ⟨len, sw, stall, guard, neg⟩ := h
  cases len <;> simp [Letter.admits] at hw'
  all_goals
    exact fun rest => decode_encode he hw hl
      (by rw [e, parse_1C6 rfl]; simp (disch := omega) [-BitVec.getLsbD_eq_getElem, Hdr.raw, Raw.hdr, ofBits_bits, *])
      (by rw [e]; simp [Raw.tidy, Hdr.raw, *])
      (by rw [e]; simp [Hdr.raw, Raw.hdr, *]) rest

theorem parse_1C7 {r : Raw} (h : r.opcode = 0x1C7) : parse r = (
    some (.trap r.hdr r.mod)) := by
  unfold parse; rw [h]; show parseSystem r = _; unfold parseSystem; rw [h]; rfl

theorem Sys2Proof.Laws.RoundTrip.trap (h : Hdr) (code : BitVec 10) : Statement (.trap h code) := by
  intro he hw hl
  have hw' : (Letter.a.admits h.len && !h.never) = true := hw
  have e : (Instr.trap h code).toRaw = ({ h.raw 0x1C7 with mod := code }) := rfl
  obtain ⟨len, sw, stall, guard, neg⟩ := h
  cases len <;> simp [Letter.admits] at hw'
  all_goals
    exact fun rest => decode_encode he hw hl
      (by rw [e, parse_1C7 rfl]; simp (disch := omega) [-BitVec.getLsbD_eq_getElem, Hdr.raw, Raw.hdr, *])
      (by rw [e]; simp [Raw.tidy, Hdr.raw, *])
      (by rw [e]; simp [Hdr.raw, Raw.hdr, *]) rest

theorem parse_1C8 {r : Raw} (h : r.opcode = 0x1C8) : parse r = (
    some (.rett r.hdr)) := by
  unfold parse; rw [h]; show parseSystem r = _; unfold parseSystem; rw [h]; rfl

theorem Sys2Proof.Laws.RoundTrip.rett (h : Hdr) : Statement (.rett h) := by
  intro he hw hl
  have hw' : (Letter.a.admits h.len && !h.never) = true := hw
  have e : (Instr.rett h).toRaw = (h.raw 0x1C8) := rfl
  obtain ⟨len, sw, stall, guard, neg⟩ := h
  cases len <;> simp [Letter.admits] at hw'
  all_goals
    exact fun rest => decode_encode he hw hl
      (by rw [e, parse_1C8 rfl]; simp (disch := omega) [-BitVec.getLsbD_eq_getElem, Hdr.raw, Raw.hdr, *])
      (by rw [e]; simp [Raw.tidy, Hdr.raw, *])
      (by rw [e]; simp [Hdr.raw, Raw.hdr, *]) rest

theorem parse_1C9 {r : Raw} (h : r.opcode = 0x1C9) : parse r = (
    some (.prdone r.hdr)) := by
  unfold parse; rw [h]; show parseSystem r = _; unfold parseSystem; rw [h]; rfl

theorem Sys2Proof.Laws.RoundTrip.prdone (h : Hdr) : Statement (.prdone h) := by
  intro he hw hl
  have hw' : (Letter.a.admits h.len && !h.never) = true := hw
  have e : (Instr.prdone h).toRaw = (h.raw 0x1C9) := rfl
  obtain ⟨len, sw, stall, guard, neg⟩ := h
  cases len <;> simp [Letter.admits] at hw'
  all_goals
    exact fun rest => decode_encode he hw hl
      (by rw [e, parse_1C9 rfl]; simp (disch := omega) [-BitVec.getLsbD_eq_getElem, Hdr.raw, Raw.hdr, *])
      (by rw [e]; simp [Raw.tidy, Hdr.raw, *])
      (by rw [e]; simp [Hdr.raw, Raw.hdr, *]) rest

theorem parse_1CA {r : Raw} (h : r.opcode = 0x1CA) : parse r = (
    do some (.csrr r.hdr (← Opd.ofBits r.d) (r.mod.extractLsb' 0 8))) := by
  unfold parse; rw [h]; show parseSystem r = _; unfold parseSystem; rw [h]; rfl

theorem Sys2Proof.Laws.RoundTrip.csrr (h : Hdr) (d : Opd) (n : BitVec 8) : Statement (.csrr h d n) := by
  intro he hw hl
  have hw' : (Letter.a.admits h.len && !h.never) = true := hw
  have e : (Instr.csrr h d n).toRaw = ({ h.raw 0x1CA with d := d.bits, mod := n.zeroExtend 10 }) := rfl
  obtain ⟨len, sw, stall, guard, neg⟩ := h
  cases len <;> simp [Letter.admits] at hw'
  all_goals
    exact fun rest => decode_encode he hw hl
      (by rw [e, parse_1CA rfl]; simp (disch := omega) [-BitVec.getLsbD_eq_getElem, Hdr.raw, Raw.hdr, ext_wide, ofBits_bits, *])
      (by rw [e]; simp [Raw.tidy, Hdr.raw, *])
      (by rw [e]; simp [Hdr.raw, Raw.hdr, *]) rest

theorem parse_1CB {r : Raw} (h : r.opcode = 0x1CB) : parse r = (
    do some (.csrw r.hdr (r.mod.extractLsb' 0 8) (← r.srcAI))) := by
  unfold parse; rw [h]; show parseSystem r = _; unfold parseSystem; rw [h]; rfl

theorem Sys2Proof.Laws.RoundTrip.csrw (h : Hdr) (n : BitVec 8) (x : Src) : Statement (.csrw h n x) := by
  intro he hw hl
  have hw' : (Letter.f.admits h.len && !h.never && x.orImm h.len false) = true := hw
  have e : (Instr.csrw h n x).toRaw = ({ (h.raw 0x1CB).putA x with mod := n.zeroExtend 10 }) := rfl
  obtain ⟨len, sw, stall, guard, neg⟩ := h
  cases len <;> cases x <;> simp [Letter.admits, Src.orImm] at hw'
  all_goals
    exact fun rest => decode_encode he hw hl
      (by rw [e, parse_1CB rfl]; simp (disch := omega) [-BitVec.getLsbD_eq_getElem, Raw.putA, Hdr.raw, Raw.srcA, Raw.srcAI, Raw.hdr, ext_wide,
        ofBits_bits, perm_code, *])
      (by rw [e]; simp [Raw.tidy, Raw.putA, Hdr.raw, Perm.code, Perm.q, *])
      (by rw [e]; simp [Raw.putA, Hdr.raw, Raw.hdr, *]) rest

theorem parse_1CC {r : Raw} (h : r.opcode = 0x1CC) : parse r = (
    do some (.clock r.hdr (r.mod.getLsbD 0) (← Opd.ofBits r.d))) := by
  unfold parse; rw [h]; show parseSystem r = _; unfold parseSystem; rw [h]; rfl

theorem Sys2Proof.Laws.RoundTrip.clock (h : Hdr) (dieClock : Bool) (d : Opd) : Statement (.clock h dieClock d) := by
  intro he hw hl
  have hw' : (Letter.a.admits h.len && !h.never) = true := hw
  have e : (Instr.clock h dieClock d).toRaw = ({ h.raw 0x1CC with d := d.bits, mod := (BitVec.ofBool dieClock).zeroExtend 10 }) := rfl
  obtain ⟨len, sw, stall, guard, neg⟩ := h
  cases len <;> simp [Letter.admits] at hw'
  all_goals
    exact fun rest => decode_encode he hw hl
      (by rw [e, parse_1CC rfl]; simp (disch := omega) [-BitVec.getLsbD_eq_getElem, Hdr.raw, Raw.hdr, ofBits_bits, *])
      (by rw [e]; simp [Raw.tidy, Hdr.raw, *])
      (by rw [e]; simp [Hdr.raw, Raw.hdr, *]) rest

theorem parse_1CD {r : Raw} (h : r.opcode = 0x1CD) : parse r = (
    do some (.featr r.hdr (r.mod.getLsbD 0) (← Opd.ofBits r.d) (← Opd.ofBits r.a))) := by
  unfold parse; rw [h]; show parseSystem r = _; unfold parseSystem; rw [h]; rfl

theorem Sys2Proof.Laws.RoundTrip.featr (h : Hdr) (hb : Bool) (d a : Opd) : Statement (.featr h hb d a) := by
  intro he hw hl
  have hw' : (Letter.a.admits h.len && !h.never) = true := hw
  have e : (Instr.featr h hb d a).toRaw = ({ h.raw 0x1CD with d := d.bits, a := a.bits, mod := (BitVec.ofBool hb).zeroExtend 10 }) := rfl
  obtain ⟨len, sw, stall, guard, neg⟩ := h
  cases len <;> simp [Letter.admits] at hw'
  all_goals
    exact fun rest => decode_encode he hw hl
      (by rw [e, parse_1CD rfl]; simp (disch := omega) [-BitVec.getLsbD_eq_getElem, Hdr.raw, Raw.hdr, ofBits_bits, *])
      (by rw [e]; simp [Raw.tidy, Hdr.raw, *])
      (by rw [e]; simp [Hdr.raw, Raw.hdr, *]) rest

theorem parse_none {r : Raw} (h : r.opcode.toNat ≥ 512) : parse r = some (.unimpDispatch r) := by
  have g : r.opcode.toNat / 64 ≥ 8 := by omega
  unfold parse
  split <;> first | rfl | omega

theorem Sys2Proof.Laws.RoundTrip.unimpDispatch (w : Raw) : Statement (.unimpDispatch w) := by
  intro he hw hl
  have hw' : (decide (w.opcode.toNat ≥ 512) && !(w.guard == 7 && w.neg)) = true := hw
  simp only [Bool.and_eq_true, decide_eq_true_eq] at hw'
  have e : (Instr.unimpDispatch w).toRaw = w := rfl
  refine fun rest => decode_encode he hw hl (by rw [e]; exact parse_none hw'.1) (by rw [e]; exact hl) (fun h => ?_) rest
  rw [e] at h
  exact absurd (show (w.guard == 7 && w.neg) = true from h) (by rw [Bool.not_eq_true]; simpa only [Bool.not_eq_true'] using hw'.2)

theorem Sys2Proof.Laws.RoundTrip.powerOnBoot (die : Nat) (o : BootOutcome) : Statement (.powerOnBoot die o) := fun h => nomatch h
theorem Sys2Proof.Laws.RoundTrip.dieReset (die : Nat) : Statement (.dieReset die) := fun h => nomatch h
theorem Sys2Proof.Laws.RoundTrip.bridgeTrained : Statement .bridgeTrained := fun h => nomatch h
theorem Sys2Proof.Laws.RoundTrip.peerAbsent (die : Nat) : Statement (.peerAbsent die) := fun h => nomatch h
theorem Sys2Proof.Laws.RoundTrip.inflightHomeAbsent (fibre index : Nat) : Statement (.inflightHomeAbsent fibre index) := fun h => nomatch h
theorem Sys2Proof.Laws.RoundTrip.responseArrival (die : Nat) (link : LinkKind) (inc : BitVec 8) (tag : Nat) (poisoned : Bool)
    (data : BitVec 128) : Statement (.responseArrival die link inc tag poisoned data) := fun h => nomatch h
theorem Sys2Proof.Laws.RoundTrip.hostApertureWrite (die : Nat) (pa : Nat) (data : List Byte) (poisoned : Bool)
    : Statement (.hostApertureWrite die pa data poisoned) := fun h => nomatch h
theorem Sys2Proof.Laws.RoundTrip.hostApertureRead (die : Nat) (pa n : Nat) : Statement (.hostApertureRead die pa n) := fun h => nomatch h
theorem Sys2Proof.Laws.RoundTrip.hostFeedWindowWrite (die : Nat) (off : Nat) (data : List Byte) (poisoned : Bool)
    : Statement (.hostFeedWindowWrite die off data poisoned) := fun h => nomatch h
theorem Sys2Proof.Laws.RoundTrip.hostFeedDoorbell (die : Nat) (window : Nat) (value : BitVec 64) (poisoned : Bool)
    : Statement (.hostFeedDoorbell die window value poisoned) := fun h => nomatch h
theorem Sys2Proof.Laws.RoundTrip.hostLinkDown (die : Nat) : Statement (.hostLinkDown die) := fun h => nomatch h
theorem Sys2Proof.Laws.RoundTrip.hostWriteAccept (die : Nat) : Statement (.hostWriteAccept die) := fun h => nomatch h
theorem Sys2Proof.Laws.RoundTrip.hostWriteAbandon (die : Nat) : Statement (.hostWriteAbandon die) := fun h => nomatch h
theorem Sys2Proof.Laws.RoundTrip.rcError (die : Nat) (port : BitVec 3) (qpn : BitVec 24) : Statement (.rcError die port qpn) := fun h => nomatch h
theorem Sys2Proof.Laws.RoundTrip.incomingRdmaWrite (die : Nat) (pa : Nat) (data : List Byte)
    : Statement (.incomingRdmaWrite die pa data) := fun h => nomatch h
theorem Sys2Proof.Laws.RoundTrip.attestRequest (die : Nat) : Statement (.attestRequest die) := fun h => nomatch h
theorem Sys2Proof.Laws.RoundTrip.irqenWrite (die : Nat) (x : BitVec 32) : Statement (.irqenWrite die x) := fun h => nomatch h
theorem Sys2Proof.Laws.RoundTrip.irqstatClear (die : Nat) (x : BitVec 32) : Statement (.irqstatClear die x) := fun h => nomatch h
theorem Sys2Proof.Laws.RoundTrip.thermRefresh (die : Nat) (temp : BitVec 8) : Statement (.thermRefresh die temp) := fun h => nomatch h
theorem Sys2Proof.Laws.RoundTrip.thermWarnWrite (die : Nat) (warn : BitVec 8) : Statement (.thermWarnWrite die warn) := fun h => nomatch h
theorem Sys2Proof.Laws.RoundTrip.peerWindowWrite (die : Nat) (entry : BitVec 12) (dword : BitVec 2) (x : BitVec 64)
    : Statement (.peerWindowWrite die entry dword x) := fun h => nomatch h
theorem Sys2Proof.Laws.RoundTrip.quarantineClear (die : Nat) (q : BitVec 6) : Statement (.quarantineClear die q) := fun h => nomatch h
theorem Sys2Proof.Laws.RoundTrip.scrub (die : Nat) (pa : Nat) : Statement (.scrub die pa) := fun h => nomatch h
theorem Sys2Proof.Laws.RoundTrip.ownchgGo : Statement .ownchgGo := fun h => nomatch h
theorem Sys2Proof.Laws.RoundTrip.ownchgComplete : Statement .ownchgComplete := fun h => nomatch h
theorem Sys2Proof.Laws.RoundTrip.tlbinvPage (die : Nat) (both : Bool) (asid : BitVec 16) (va : BitVec 56)
    : Statement (.tlbinvPage die both asid va) := fun h => nomatch h
theorem Sys2Proof.Laws.RoundTrip.tlbinvAsid (die : Nat) (both : Bool) (target : InvTarget)
    : Statement (.tlbinvAsid die both target) := fun h => nomatch h
theorem Sys2Proof.Laws.RoundTrip.tlbinvAll (die : Nat) (w : InvWrite)
    : Statement (.tlbinvAll die w) := fun h => nomatch h
theorem Sys2Proof.Laws.RoundTrip.tlbinvDone (die : Nat) : Statement (.tlbinvDone die) := fun h => nomatch h
theorem Sys2Proof.Laws.RoundTrip.fqsizeWrite (die : Nat) (x : BitVec 16) : Statement (.fqsizeWrite die x) := fun h => nomatch h
theorem Sys2Proof.Laws.RoundTrip.fqreplyRetry (die : Nat) (index : BitVec 16) : Statement (.fqreplyRetry die index) := fun h => nomatch h
theorem Sys2Proof.Laws.RoundTrip.fqreplyFail (die : Nat) (index : BitVec 16) : Statement (.fqreplyFail die index) := fun h => nomatch h
theorem Sys2Proof.Laws.RoundTrip.featreqWrite (die : Nat) (x : BitVec 512) : Statement (.featreqWrite die x) := fun h => nomatch h
theorem Sys2Proof.Laws.RoundTrip.registerWrite (die : Nat) (priv : Bool) (off : Nat) (x : RegData)
    : Statement (.registerWrite die priv off x) := fun h => nomatch h
theorem Sys2Proof.Laws.RoundTrip.walkComplete (die index : Nat) : Statement (.walkComplete die index) := fun h => nomatch h
theorem Sys2Proof.Laws.RoundTrip.faultRecordAppend (die index : Nat) : Statement (.faultRecordAppend die index) := fun h => nomatch h
theorem Sys2Proof.Laws.RoundTrip.loadComplete (fibre index : Nat) : Statement (.loadComplete fibre index) := fun h => nomatch h
theorem Sys2Proof.Laws.RoundTrip.wtRecordAtHome (die index : Nat) : Statement (.wtRecordAtHome die index) := fun h => nomatch h
theorem Sys2Proof.Laws.RoundTrip.wtAck (die index : Nat) : Statement (.wtAck die index) := fun h => nomatch h
theorem Sys2Proof.Laws.RoundTrip.remoteAtomicResponse (fibre index : Nat) : Statement (.remoteAtomicResponse fibre index) := fun h => nomatch h
theorem Sys2Proof.Laws.RoundTrip.monitorArmRegistered (die index : Nat) : Statement (.monitorArmRegistered die index) := fun h => nomatch h
theorem Sys2Proof.Laws.RoundTrip.mwaitWake (fibre : Nat) : Statement (.mwaitWake fibre) := fun h => nomatch h
theorem Sys2Proof.Laws.RoundTrip.mwaitTimeout (fibre : Nat) : Statement (.mwaitTimeout fibre) := fun h => nomatch h
theorem Sys2Proof.Laws.RoundTrip.moraineGranulePush (cluster ring granule : Nat)
    : Statement (.moraineGranulePush cluster ring granule) := fun h => nomatch h
theorem Sys2Proof.Laws.RoundTrip.moraineSlotPulled (cluster ring : Nat) : Statement (.moraineSlotPulled cluster ring) := fun h => nomatch h
theorem Sys2Proof.Laws.RoundTrip.ringTailRead (cluster ring : Nat) : Statement (.ringTailRead cluster ring) := fun h => nomatch h
theorem Sys2Proof.Laws.RoundTrip.ringError (cluster ring : Nat) : Statement (.ringError cluster ring) := fun h => nomatch h
theorem Sys2Proof.Laws.RoundTrip.ringPause (cluster ring : Nat) : Statement (.ringPause cluster ring) := fun h => nomatch h
theorem Sys2Proof.Laws.RoundTrip.copyStart (cluster : Nat) : Statement (.copyStart cluster) := fun h => nomatch h
theorem Sys2Proof.Laws.RoundTrip.copyChunk (cluster index : Nat) : Statement (.copyChunk cluster index) := fun h => nomatch h
theorem Sys2Proof.Laws.RoundTrip.copyComplete (cluster index : Nat) : Statement (.copyComplete cluster index) := fun h => nomatch h
theorem Sys2Proof.Laws.RoundTrip.copyFail (cluster index : Nat) : Statement (.copyFail cluster index) := fun h => nomatch h
theorem Sys2Proof.Laws.RoundTrip.regFillComplete (fibre : Nat) : Statement (.regFillComplete fibre) := fun h => nomatch h
theorem Sys2Proof.Laws.RoundTrip.regSpillComplete (fibre block : Nat) : Statement (.regSpillComplete fibre block) := fun h => nomatch h
theorem Sys2Proof.Laws.RoundTrip.laneQuantumExpiry (lane : Nat) : Statement (.laneQuantumExpiry lane) := fun h => nomatch h
theorem Sys2Proof.Laws.RoundTrip.passPost (cluster k : Nat) : Statement (.passPost cluster k) := fun h => nomatch h
theorem Sys2Proof.Laws.RoundTrip.passGrant (cluster : Nat) : Statement (.passGrant cluster) := fun h => nomatch h
theorem Sys2Proof.Laws.RoundTrip.passEnd (cluster : Nat) : Statement (.passEnd cluster) := fun h => nomatch h
theorem Sys2Proof.Laws.RoundTrip.drainComplete (cluster : Nat) : Statement (.drainComplete cluster) := fun h => nomatch h
theorem Sys2Proof.Laws.RoundTrip.wqryAnswer (cluster index : Nat) : Statement (.wqryAnswer cluster index) := fun h => nomatch h
theorem Sys2Proof.Laws.RoundTrip.rmtrResponse (fibre index : Nat) (ok : Bool) (data : BitVec 64)
    : Statement (.rmtrResponse fibre index ok data) := fun h => nomatch h
theorem Sys2Proof.Laws.RoundTrip.rmtwAck (die index : Nat) (ok : Bool) : Statement (.rmtwAck die index ok) := fun h => nomatch h
theorem Sys2Proof.Laws.RoundTrip.twsub (die : Nat) (node : BitVec 64) (asid : BitVec 16) : Statement (.twsub die node asid) := fun h => nomatch h
theorem Sys2Proof.Laws.RoundTrip.cohortPlace (die : Nat) : Statement (.cohortPlace die) := fun h => nomatch h
theorem Sys2Proof.Laws.RoundTrip.cohortComplete (index : Nat) : Statement (.cohortComplete index) := fun h => nomatch h
theorem Sys2Proof.Laws.RoundTrip.nodeRetire (die index : Nat) : Statement (.nodeRetire die index) := fun h => nomatch h
theorem Sys2Proof.Laws.RoundTrip.conditionNodeEval (die index : Nat) : Statement (.conditionNodeEval die index) := fun h => nomatch h
theorem Sys2Proof.Laws.RoundTrip.loopNodeRun (die index : Nat) : Statement (.loopNodeRun die index) := fun h => nomatch h
theorem Sys2Proof.Laws.RoundTrip.binTimerExpiry (die index ring : Nat) : Statement (.binTimerExpiry die index ring) := fun h => nomatch h
theorem Sys2Proof.Laws.RoundTrip.groupComplete (die index : Nat) : Statement (.groupComplete die index) := fun h => nomatch h
theorem Sys2Proof.Laws.RoundTrip.idemReexec (index : Nat) : Statement (.idemReexec index) := fun h => nomatch h
theorem Sys2Proof.Laws.RoundTrip.dgstMmSpawn (index : Nat) : Statement (.dgstMmSpawn index) := fun h => nomatch h
theorem Sys2Proof.Laws.RoundTrip.trapEntry (fibre : Nat) : Statement (.trapEntry fibre) := fun h => nomatch h
theorem Sys2Proof.Laws.RoundTrip.timerExpiry (fibre : Nat) : Statement (.timerExpiry fibre) := fun h => nomatch h
theorem Sys2Proof.Laws.RoundTrip.prectlSave (die : Nat) (w : PreWrite)
    : Statement (.prectlSave die w) := fun h => nomatch h
theorem Sys2Proof.Laws.RoundTrip.prectlMigrate (die : Nat) (cluster : BitVec 6) (score : BitVec 2) (sslot : BitVec 5)
    (tcore : BitVec 2) : Statement (.prectlMigrate die cluster score sslot tcore) := fun h => nomatch h
theorem Sys2Proof.Laws.RoundTrip.prectlRestore (die : Nat) (w : PreWrite) : Statement (.prectlRestore die w) := fun h => nomatch h
theorem Sys2Proof.Laws.RoundTrip.preemptTaken (fibre : Nat) : Statement (.preemptTaken fibre) := fun h => nomatch h
theorem Sys2Proof.Laws.RoundTrip.forcedSave (fibre : Nat) : Statement (.forcedSave fibre) := fun h => nomatch h
theorem Sys2Proof.Laws.RoundTrip.saveComplete (die : Nat) : Statement (.saveComplete die) := fun h => nomatch h
theorem Sys2Proof.Laws.RoundTrip.restoreComplete (die : Nat) : Statement (.restoreComplete die) := fun h => nomatch h
theorem Sys2Proof.Laws.RoundTrip.freezeActExit (die : Nat) : Statement (.freezeActExit die) := fun h => nomatch h
theorem Sys2Proof.Laws.RoundTrip.freezeActAbort (die : Nat) : Statement (.freezeActAbort die) := fun h => nomatch h
theorem Sys2Proof.Laws.RoundTrip.freezeActPop (die : Nat) : Statement (.freezeActPop die) := fun h => nomatch h
theorem Sys2Proof.Laws.RoundTrip.pcieLinkTrained (die : Nat) : Statement (.pcieLinkTrained die) := fun h => nomatch h
theorem Sys2Proof.Laws.RoundTrip.connectionReestablished (die : Nat) (port : BitVec 3) (qpn : BitVec 24)
    : Statement (.connectionReestablished die port qpn) := fun h => nomatch h
theorem Sys2Proof.Laws.RoundTrip.softError (site : ErrSite) (correctable : Bool) : Statement (.softError site correctable) := fun h => nomatch h
theorem Sys2Proof.Laws.RoundTrip.accessPerformedAtHome (fibre index : Nat) : Statement (.accessPerformedAtHome fibre index) := fun h => nomatch h
theorem Sys2Proof.Laws.RoundTrip.submissionStart (die : Nat) : Statement (.submissionStart die) := fun h => nomatch h
end

