-- ==== Sys2Proof/Machine/View.lean ====
section
/-! DEFINITION. What a die's registers read as: the two register views, field by field, reserved bits zero (R6, R7, R20, R30 to R38, R82, R85, R87, R88, R160, R396, R428, R438, R439, R463). -/

namespace Sys2Proof.Machine

/-- A field of a register view: the offset of its register, its lowest bit, its width and what it reads as. -/
structure ViewField where
  off : Nat
  lo : Nat
  width : Nat
  value : Nat
  deriving DecidableEq, Repr, Inhabited

/-- The registers that stand in both views: DIEINFO and DCSTAT (R31, R33). -/
def State.openFields (s : State) (die : Nat) : List ViewField :=
  let r := (s.die die).r
  [⟨0x0, 0, 1, die⟩, ⟨0x0, 1, 1, r.peer.toNat⟩, ⟨0x0, 2, 1, s.half.toNat⟩, ⟨0x0, 8, 8, r.inc.toNat⟩, ⟨0x0, 16, 8, r.pinc.toNat⟩,
   ⟨0x4, 0, 3, r.step.toNat⟩, ⟨0x4, 3, 1, r.ready.toNat⟩, ⟨0x4, 4, 1, r.halt.toNat⟩, ⟨0x4, 5, 3, r.hcause.toNat⟩, ⟨0x4, 8, 1, r.hlink.toNat⟩,
   ⟨0x4, 9, 1, r.ownbusy.toNat⟩]

/-- Counters, the context base, interrupts, temperature and TLB invalidation (R32, R34 to R36, R82). -/
def Die.controlFields (d : Die) : List ViewField :=
  let r := d.r
  [⟨0x8, 0, 32, r.stalecnt.toNat⟩, ⟨0xC, 0, 32, r.lostcnt.toNat⟩, ⟨0x10, 0, 32, r.feeddrop.toNat⟩, ⟨0x20, 20, 32, r.ctxbase.toNat / 2 ^ 20⟩,
   ⟨0x40, 0, 8, r.irqstat.toNat⟩, ⟨0x44, 0, 8, r.irqen.toNat⟩, ⟨0x48, 0, 8, r.temp.toNat⟩, ⟨0x48, 8, 8, r.warn.toNat⟩, ⟨0x48, 16, 8, r.crit.toNat⟩,
   ⟨0x48, 24, 1, r.hot.toNat⟩, ⟨0x100, 0, 2, r.invKind.toNat⟩, ⟨0x100, 2, 1, r.invBoth.toNat⟩, ⟨0x100, 3, 1, r.invDone.toNat⟩,
   ⟨0x100, 16, 16, r.invAsid.toNat⟩, ⟨0x100, 32, 56, r.invVa.toNat⟩]

/-- The fault queue, the error counters, the task walker, determinism and pre-emption (R85, R87, R88, R160, R396, R428, R439). -/
def Die.workFields (d : Die) : List ViewField :=
  let r := d.r
  [⟨0x120, 0, 52, r.fqbase.toNat⟩, ⟨0x128, 0, 16, r.fqsize.toNat⟩, ⟨0x12C, 0, 16, r.fqtail.toNat⟩, ⟨0x130, 0, 16, r.fqhead.toNat⟩,
   ⟨0x138, 0, 32, r.fqerr.toNat⟩, ⟨0x140, 0, 32, r.cecnt.toNat⟩, ⟨0x144, 0, 32, r.uecnt.toNat⟩, ⟨0x148, 0, 32, r.qovf.toNat⟩,
   ⟨0x150, 0, 32, r.rescnt.toNat⟩, ⟨0x210, 0, 32, r.twerrcnt.toNat⟩, ⟨0x218, 0, 9, d.subs.length⟩,
   ⟨0x220, 0, 32, r.dgrexcnt.toNat⟩, ⟨0x224, 0, 32, r.dgmmcnt.toNat⟩, ⟨0x300, 0, 6, r.preClu.toNat⟩, ⟨0x300, 8, 2, r.preScore.toNat⟩,
   ⟨0x300, 10, 5, r.preSslot.toNat⟩, ⟨0x300, 15, 2, r.preTcore.toNat⟩, ⟨0x300, 17, 1, r.preBusy.toNat⟩, ⟨0x300, 18, 1, r.preForced.toNat⟩,
   ⟨0x300, 19, 1, r.preRefused.toNat⟩, ⟨0x308, 0, 52, r.prearea.toNat⟩]

/-- The head record of the freeze queue (R438). -/
def Die.freezeFields (d : Die) : List ViewField :=
  match d.freeze with
  | [] => []
  | f :: _ =>
    [⟨0x320, 0, 1, 1⟩, ⟨0x320, 1, 6, f.c1.toNat⟩, ⟨0x320, 7, 6, f.c2.toNat⟩, ⟨0x320, 13, 6, f.clu.toNat⟩, ⟨0x320, 19, 2, f.core.toNat⟩,
     ⟨0x320, 21, 5, f.slot.toNat⟩, ⟨0x320, 26, 2, f.stg.toNat⟩, ⟨0x320, 32, 56, f.pc.toNat⟩]

/-- The feature registers and the base of the binding table (R463). -/
def Die.featureFields (d : Die) : List ViewField :=
  [⟨0x400, 0, 512, d.r.feathw.toNat⟩, ⟨0x440, 0, 512, d.r.featreq.toNat⟩, ⟨0x480, 0, 512, d.r.featen.toNat⟩, ⟨0x4C0, 0, 52, d.r.emubase.toNat⟩,
   ⟨0x4C8, 0, 32, d.r.featerr.toNat⟩]

/-- The tables: quarantined frames, peer windows, MSI-X and its pending bits (R35, R37, R38). DESIGN CHOICE: a word of the MSI-X table reads 0 until it is
written, while every vector is masked from reset on; the spec gives the table no content at reset. -/
def Die.tableFields (d : Die) : List ViewField :=
  d.quar.flatMap (fun e => [⟨0x800 + 8 * e.1, 0, 1, e.2.v.toNat⟩, ⟨0x800 + 8 * e.1, 16, 36, e.2.frame.toNat⟩])
    ++ d.peerWin.flatMap (fun e =>
      let a := 0x100000 + 32 * e.1
      [⟨a, 0, 64, e.2.rbase.toNat⟩, ⟨a + 8, 0, 41, e.2.len.toNat⟩, ⟨a + 16, 0, 32, e.2.rkey.toNat⟩, ⟨a + 20, 0, 24, e.2.qpn.toNat⟩,
       ⟨a + 20, 24, 3, e.2.port.toNat⟩, ⟨a + 20, 31, 1, e.2.v.toNat⟩])
    ++ d.msix.map (fun e => ⟨0x1FF0000 + 8 * e.1, 0, 64, e.2.toNat⟩)
    ++ [⟨0x1FF8000, 0, 8, d.r.msixPend.toNat⟩]

/-- The fields of a view: a halted die presents only DIEINFO and DCSTAT (R33); the unprivileged view holds no others (R31, R33). -/
def State.viewFields (s : State) (die : Nat) (priv : Bool) : List ViewField :=
  let d := s.die die
  s.openFields die ++
    if s.off die || !priv then [] else d.controlFields ++ d.workFields ++ d.freezeFields ++ d.featureFields ++ d.tableFields

/-- What `bytes` bytes of a view from an offset on read as: every bit that no field names is zero (R6, R7). No register lies across a multiple of 64 bytes. -/
def State.readView (s : State) (die : Nat) (priv : Bool) (off bytes : Nat) : Nat :=
  let base := off - off % 64
  let near := (s.viewFields die priv).filter fun f => base ≤ f.off && f.off < off + bytes
  (near.foldl (fun n f => n ||| (f.value % 2 ^ f.width) <<< (8 * (f.off - base) + f.lo)) 0 >>> (8 * (off % 64))) % 2 ^ (8 * bytes)

/-- What `n` bytes of BAR2 below the aperture read as: the reserved range reads zero, and a window has nothing that a read returns (R20, R22); the
aperture is read by HOST_APERTURE_READ. -/
def readBar2 (off n : Nat) : Option (List Byte) := if off + n ≤ 2 ^ 39 then some (List.replicate n 0) else none

end Sys2Proof.Machine
end

