-- ==== Sys2Proof/Tests/Slice0.lean ====
section
/-! SUPPORT. Tests: words the spec writes out, terms that `wf` refuses, single steps beside the spec's worked examples, and for each statement a state and operands that meet its hypotheses. -/

namespace Sys2Proof.Tests

open Sys2Proof Sys2Proof.Machine

set_option maxRecDepth 10000
set_option exponentiation.threshold 600

/-! ## Words (chapters 12 to 33: the bytes are the spec's) -/

/-- The instruction of a word written as 32-bit granules. -/
def granules (l : List Nat) : Option Instr := decodeTableWord (32 * l.length) (l.zipIdx.foldl (fun n e => n + e.1 * 2 ^ (32 * e.2)) 0)

theorem test_decode_ffma : granules [0x014811AD, 0x02202002, 0x0000C80B] =
    some (.ffma ⟨.b96, true, 5, 3, false⟩ .rn false false false (.v 10) (.reg (.v 2) (.rot 3)) (.reg (.s 4) .id) (.v 11)) := by decide
theorem test_decode_fadd : granules [0x00680081, 0x02001002, 0x00B00000] =
    some (.fadd ⟨.b96, false, 0, 1, false⟩ .rn false false (.v 3) (.reg (.v 2) .id) (.reg (.v 2) (.bfly 1))) := by decide
theorem test_decode_exit : granules [0x00005380, 0] = some (.exit ⟨.b64, false, 0, 7, false⟩) := by decide
theorem test_decode_bra : granules [0x00001102, 0, 0xFFFFFFC0, 0] = some (.bra ⟨.b128, false, 0, 2, false⟩ (-64)) := by decide
theorem test_decode_call : granules [0x00002382, 0x02000000, 0x400, 0] = some (.call ⟨.b128, false, 0, 7, false⟩ (.v 0) 8 0x400) := by decide
theorem test_decode_fbar : granules [0x00007380, 0x13000000] = some (.fbar ⟨.b64, false, 0, 7, false⟩ 0 3 1) := by decide
theorem test_decode_nop96 : granules [0xF81, 0, 0] = some (.nop ⟨.b96, false, 0, 7, true⟩) := by decide
theorem test_decode_ldg : granules [0x01020380, 0x30602802] =
    some (.ldg ⟨.b64, false, 0, 7, false⟩ ⟨some .die, .acq, false⟩ .n32 false false (.v 8) (.reg (.v 2) .id) (.reg (.s 5) .id) 0) := by decide
theorem test_decode_ldg_rmt : granules [0x01020380, 0xB0602802] =
    some (.ldg ⟨.b64, false, 0, 7, false⟩ ⟨some .die, .acq, true⟩ .n32 false false (.v 8) (.reg (.v 2) .id) (.reg (.s 5) .id) 0) := by decide
theorem test_decode_ldc : granules [0x00622802, 0x00403402, 0x100, 0] =
    some (.ldc ⟨.b128, false, 0, 0, false⟩ .n32 false false (.v 3) (.reg (.s 2) .id) (.reg (.v 6) .id) 0x100) := by decide
theorem test_decode_acopy : granules [0x80440B82, 0x00800408, 0, 0] = some (.acopy ⟨.b128, false, 0, 7, false⟩ .bar .m2s (some (.s 2)) (.s 8) none 0) := by decide
theorem test_decode_wqry : granules [0x00045380, 0x003FFC0A] = some (.wqry ⟨.b64, false, 0, 7, false⟩ (.s 10) .sz) := by decide
theorem test_decode_iadd_cc : granules [0x00860398, 0x0C401000] = some (.iadd ⟨.b64, false, 3, 7, false⟩ .n32 3 0 (.v 4) (.reg (.v 0) .id) (.reg (.v 2) .id)) := by decide
theorem test_decode_iadd_ci : granules [0x00A60380, 0x60401801] = some (.iadd ⟨.b64, false, 0, 7, false⟩ .n32 0 3 (.v 5) (.reg (.v 1) .id) (.reg (.v 3) .id)) := by decide
theorem test_decode_rot : granules [0x00667381, 0x0380F800, 0x00021800] = some (.rot ⟨.b96, false, 0, 7, false⟩ .b32 (.v 3) (.reg (.v 0) (.bfly 8)) (.reg (.v 31) .id)) := by decide
theorem test_decode_bfn3 : granules [0x00069B99, 0xB3801800, 0x40000015] =
    some (.bfn3 ⟨.b96, false, 3, 7, false⟩ 0xAC (.v 0) (.reg (.v 0) .id) (.reg (.v 3) .id) (.v 21)) := by decide
theorem test_decode_cvt : granules [0x00C8B381, 0x100B5005, 0x02000014] = some (.cvt ⟨.b96, false, 0, 7, false⟩ .rs 10 11 (.v 6) (.reg (.v 5) .id) (some (4, .v 20))) := by decide
theorem test_decode_scan : granules [0x008A1B80, 0x20000002] = some (.scan ⟨.b64, false, 0, 7, false⟩ .i32 .add true (.v 4) (.reg (.v 2) .id) none) := by decide
theorem test_decode_xch : granules [0x018A0380, 0x0380F018] = some (.xch ⟨.b64, false, 0, 7, false⟩ .b32 false (.v 12) (.reg (.v 24) .id) (.reg (.v 30) .id)) := by decide
theorem test_decode_sign : granules [0x000C2B80, 0x00C00008] = some (.sign ⟨.b64, false, 0, 7, false⟩ 3 (.v 8)) := by decide
theorem test_decode_kset : granules [0xFFEC2382, 0x0420240C, 1, 0] = some (.kset ⟨.b128, false, 0, 7, false⟩ 0 true .sz (.s 12) (.s 4) 1) := by decide
theorem test_decode_txw : granules [0x004C6381, 0x00A02000, 0] = some (.txw ⟨.b96, false, 0, 7, false⟩ .border 0 (.v 2) (.v 0) (.s 4)) := by decide
theorem test_decode_mxdrain : granules [0x000C3B80, 0x08218434] = some (.mxdrain ⟨.b64, false, 0, 7, false⟩ 0 .g false none (some (.s 52)) (.reg (.s 48) .id)) := by decide
theorem test_decode_csrr : granules [0x80CE5380, 0x01400000] = some (.csrr ⟨.b64, false, 0, 7, false⟩ (.s 6) 5) := by decide

/-! Words that a check of R239 refuses: the spec's own variants of its worked encodings. -/

theorem test_refuse_zero : granules [0, 0] = none := by decide
theorem test_refuse_ffma64 : granules [0x014811AC, 0x02202002] = none := by decide
theorem test_refuse_ffma_pcb : granules [0x014811AD, 0x02202002, 0x0010C80B] = none := by decide
theorem test_refuse_ffma_rs : granules [0x014811AD, 0x12202002, 0x0000C80B] = none := by decide
theorem test_refuse_ffma_pca : granules [0x014811AD, 0x02202002, 0x0000F80B] = none := by decide
theorem test_refuse_csrr_v : granules [0x00CE5380, 0x01400000] = none := by decide
theorem test_refuse_csrr_7 : granules [0x80CE5380, 0x01C00000] = none := by decide
theorem test_refuse_csrw_divst : granules [0x000E5B80, 0x00800400] = none := by decide
theorem test_refuse_sign_v9 : granules [0x000C2B80, 0x00C00009] = none := by decide
theorem test_refuse_sign_s8 : granules [0x000C2B80, 0x00C00408] = none := by decide
theorem test_refuse_len : decode [3, 0, 0, 0] = .error .illen := by rfl
theorem test_refuse_block : decodeAt 28 [0x80, 0x0F, 0, 0, 0, 0, 0, 0] = .error .illfb := by rfl
theorem test_never_legal : decodeTableWord 64 0xFFFFFFFFFFFFFF80 = some (.nop ⟨.b64, false, 0, 7, true⟩) := by decide
theorem test_extension : (granules [0x00100380, 0]).map (fun i => match i with | .unimpDispatch w => w.opcode | _ => 0) = some 0x200 := by decide

/-! ## Terms that `wf` refuses, one for each check -/

theorem smoke_letter_a : (Instr.brx ⟨.b96, false, 0, 7, false⟩ (.v 0)).wf = false := by decide
theorem smoke_letter_b : (Instr.ineg ⟨.b128, false, 0, 7, false⟩ .i32 (.v 0) (.reg (.v 0) .id)).wf = false := by decide
theorem smoke_letter_d : (Instr.imad ⟨.b64, false, 0, 7, false⟩ .i32 (.v 0) (.reg (.v 0) .id) (.reg (.v 0) .id) (.v 0)).wf = false := by decide
theorem smoke_letter_e : (Instr.bra ⟨.b64, false, 0, 7, false⟩ 0).wf = false := by decide
theorem smoke_letter_f : (Instr.mxcfg ⟨.b96, false, 0, 7, false⟩ (.reg (.s 0) .id)).wf = false := by decide
theorem smoke_never : (Instr.bra ⟨.b128, false, 0, 7, true⟩ 0).wf = false := by decide
theorem smoke_permuted : (Instr.iadd ⟨.b64, false, 0, 7, false⟩ .i32 0 0 (.v 0) (.reg (.v 0) (.rot 1)) (.reg (.v 0) .id)).wf = false := by decide
theorem smoke_imm_a : (Instr.iadd ⟨.b64, false, 0, 7, false⟩ .i32 0 0 (.v 0) (.imm 1) (.reg (.v 0) .id)).wf = false := by decide
theorem smoke_imm_b : (Instr.iadd ⟨.b64, false, 0, 7, false⟩ .i32 0 0 (.v 0) (.reg (.v 0) .id) (.imm 1)).wf = false := by decide
theorem smoke_imm_wide : (Instr.iadd ⟨.b128, false, 0, 7, false⟩ .i32 0 0 (.v 0) (.reg (.v 0) .id) (.imm (2 ^ 32))).wf = false := by decide
theorem smoke_offset : (Instr.ldg ⟨.b64, false, 0, 7, false⟩ ⟨none, .none, false⟩ .n32 false false (.v 0) (.reg (.v 0) .id) (.reg (.v 0) .id) 4).wf = false := by decide
theorem smoke_touch : (Instr.ldg ⟨.b64, false, 0, 7, false⟩ ⟨none, .none, false⟩ .n32 false true (.v 0) (.reg (.v 0) .id) (.reg (.v 0) .id) 0).wf = false := by decide
theorem smoke_selector : (Instr.bysel ⟨.b64, false, 0, 7, false⟩ (.v 0) (.reg (.v 0) .id) (.reg (.v 0) .id) (some (.reg (.v 0) .id))).wf = false := by decide
theorem smoke_seed : (Instr.cvt ⟨.b96, false, 0, 7, false⟩ .rs 10 11 (.v 6) (.reg (.v 5) .id) none).wf = false := by decide
theorem smoke_opcode : (Instr.unimpDispatch ((⟨.b64, false, 0, 7, false⟩ : Hdr).raw 1)).wf = false := by decide
theorem smoke_die : (Instr.dieReset 2).wf = false := by decide
theorem smoke_fibre : (Instr.mwaitWake 49152).wf = false := by decide
theorem smoke_site : (Instr.softError (.spad 96 0) false).wf = false := by decide

/-! ## Small states -/

/-- Words of vector registers: register, and its words from thread 0 on. -/
def rows (l : List (Nat × List Nat)) : List (Nat × Word) :=
  l.foldl (fun t e => e.2.zipIdx.foldl (fun t w => tput t (regKey e.1 w.2) (BitVec.ofNat 32 w.1)) t) []

/-- A fibre of eight threads at address 65536 with vector and scalar words. -/
def fibreOf (v : List (Nat × List Nat)) (s : List (Nat × Nat)) : Fibre :=
  let x := Fibre.fresh placedPos 65536
  { x with regs := { x.regs with v := rows v, s := s.map fun e => (e.1, BitVec.ofNat 32 e.2) } }

/-- That fibre as fibre 0 of the package, its page in the TLBs of its core and cluster, the eight threads issuing an instruction of eight bytes. -/
def stateOf (x : Fibre) : State :=
  { State.reset.placeWord [] with
    agenda := []
    fibres := [(0, x)]
    clusters := [(0, { Cluster.reset with tlb := [⟨0, fetchBase, 65536, placedLeaf⟩] })]
    iss := { fibre := 0, run := 0xFF, pc := 65536, op := none, len := 8, last := true, held := false } }

/-- The state after an instruction. -/
def after (i : Instr) (s : State) : Option State := match exec i s with | .next t => some t | _ => none

/-- A vector register of fibre 0 after an instruction. -/
def vec (i : Instr) (s : State) (r : Nat) : Option (List Nat) := (after i s).map fun t => (List.range 8).map fun b => (t.word 0 (.priv r) b).toNat

/-- A scalar register of fibre 0 after an instruction. -/
def scal (i : Instr) (s : State) (r : Nat) : Option Nat := (after i s).map fun t => (t.word 0 (.scal r) 0).toNat

/-- The words of thread 0 in consecutive vector registers after an instruction. -/
def column (i : Instr) (s : State) (r n : Nat) : Option (List Nat) := (after i s).map fun t => (List.range n).map fun k => (t.word 0 (.priv (r + k)) 0).toNat

/-- A predicate of fibre 0 after an instruction. -/
def preds (i : Instr) (s : State) (p : BitVec 3) : Option (List Bool) := (after i s).map fun t => (List.range 8).map fun b => t.pred 0 p b

/-- The flags of fibre 0 after an instruction. -/
def flagsOf (i : Instr) (s : State) : Option (BitVec 7) := (after i s).map fun t => (t.fib? 0).elim 0 fun x => x.regs.flags

def h64 : Hdr := ⟨.b64, false, 0, 7, false⟩
def h96 : Hdr := ⟨.b96, false, 0, 7, false⟩
def h128 : Hdr := ⟨.b128, false, 0, 7, false⟩
def vs (n : BitVec 10) : Src := .reg (.v n) .id
def ss (n : BitVec 7) : Src := .reg (.s n) .id

/-! ## Single steps: the worked examples of chapters 16 to 20 -/

def chain : State := stateOf (fibreOf [(0, [0xFFFFFFF0, 1, 0x7FFFFFFF]), (1, [1, 0xFFFFFFFF, 0]), (2, [0x20, 0xFFFFFFFF, 1]), (3, [2, 0, 0])] [])

theorem test_iadd_low : (vec (.iadd h64 .n32 3 0 (.v 4) (vs 0) (vs 2)) chain 4).map (·.take 3) = some [0x10, 0, 0x80000000] := by decide
theorem test_iadd_carry : (preds (.iadd h64 .n32 3 0 (.v 4) (vs 0) (vs 2)) chain 2).map (·.take 3) = some [true, true, false] := by decide
theorem test_isub_borrow : (preds (.isub h64 .n32 3 0 (.v 4) (vs 0) (vs 2)) chain 2).map (·.take 3) = some [false, true, false] := by decide

/-- One word of v0, v1 and v2 in thread 0. -/
def three (a b c : Nat) : State := stateOf (fibreOf [(0, [a]), (1, [b]), (2, [c])] [])
/-- The word thread 0 gets in v4. -/
def got (i : Instr) (s : State) : Option Nat := (column i s 4 1).bind List.head?

theorem test_imulh_signed : got (.imulh h64 .i32 (.v 4) (vs 0) (vs 1)) (three 0x80000000 3 0) = some 0xFFFFFFFE := by decide
theorem test_imulh_unsigned : got (.imulh h64 .n32 (.v 4) (vs 0) (vs 1)) (three 0x80000000 3 0) = some 1 := by decide
theorem test_imul : got (.imul h64 .i32 (.v 4) (vs 0) (vs 1)) (three 0x80000000 3 0) = some 0x80000000 := by decide
theorem test_iabs_min : got (.iabs h64 .i32 (.v 4) (vs 0)) (three 0x80000000 0 0) = some 0x80000000 := by decide
theorem test_isar_over : got (.isar h64 .i32 (.v 4) (vs 0) (vs 1)) (three 0x80000010 40 0) = some 0xFFFFFFFF := by decide
theorem test_rot : got (.rot h64 .b32 (.v 4) (vs 0) (vs 1)) (three 0x80000001 33 0) = some 3 := by decide
theorem test_clz : got (.clz h64 .b32 (.v 4) (vs 0)) (three 0x10000 0 0) = some 15 := by decide
theorem test_popc_pair : got (.popc h64 .n64 (.v 4) (vs 0)) (three 1 0xFFFFFFFF 0) = some 33 := by decide
theorem test_ctz_zero : got (.ctz h64 .n64 (.v 4) (vs 0)) (three 0 0 0) = some 64 := by decide
theorem test_bysel_reverse : got (.bysel h64 (.v 4) (vs 0) (vs 1) none) (three 0x44332211 0x00010203 0) = some 0x11223344 := by decide
theorem test_bysel_pool : got (.bysel h96 (.v 4) (vs 0) (vs 1) (some (vs 2))) (three 0x44332211 0x88776655 0x000F0004) = some 0x11FF1155 := by decide
theorem test_bfe_signed : got (.bfe h64 .i32 (.v 4) (vs 0) (vs 1)) (three 0xF0A0 0x0808 0) = some 0xFFFFFFF0 := by decide
theorem test_bfe_unsigned : got (.bfe h64 .n32 (.v 4) (vs 0) (vs 1)) (three 0xF0A0 0x0404 0) = some 0xA := by decide
theorem test_bfi : got (.bfi h96 (.v 4) (vs 0) (vs 1) (.v 2)) (three 5 0xFFFFFFFF 0x0304) = some 0xFFFFFFDF := by decide
theorem test_lea_signed : column (.lea h64 .i32 3 (.v 4) (vs 0) (vs 2)) (three 0xFFFFFF00 0x12 0xFFFFFFFD) 4 2 = some [0xFFFFFEE8, 0x12] := by decide
theorem test_lea_unsigned : column (.lea h64 .n32 3 (.v 4) (vs 0) (vs 2)) (three 0xFFFFFF00 0x12 0xFFFFFFFD) 4 2 = some [0xFFFFFEE8, 0x1A] := by decide
theorem test_pset_and : preds (.pset h64 0x88 3 7 7 7) (three 0 0 0) 3 = some (List.replicate 8 true) := by decide
theorem test_pset_not : preds (.pset h64 0x55 3 7 7 7) (three 0 0 0) 3 = some (List.replicate 8 false) := by decide

theorem test_ffma_exact : got (.ffma h96 .rn false false false (.v 4) (vs 0) (vs 0) (.v 1)) (three 0x3F800800 0xBF800000 0) = some 0x3A000400 := by decide
theorem test_fmul_rounds : got (.fmul h64 .rn false false (.v 4) (vs 0) (vs 0)) (three 0x3F800800 0 0) = some 0x3F801000 := by decide
theorem test_fadd_cancels : got (.fadd h64 .rn false false (.v 4) (vs 0) (vs 1)) (three 0x3F801000 0xBF800000 0) = some 0x3A000000 := by decide
theorem test_cvt_down : got (.cvt h64 .rd 5 11 (.v 4) (vs 0) none) (three 0xC0200000 0 0) = some 0xFFFFFFFD := by decide

def eight : State := stateOf (fibreOf [(2, [5, 1, 7, 9, 2, 4, 3, 6])] [])
/-- The run of the example: thread 3 is outside it. -/
def seven : State :=
  let x := fibreOf [(2, [5, 1, 7, 9, 2, 4, 3, 6])] []
  let s := stateOf { x with regs := { x.regs with p := [(0, 0x8D)] } }
  { s with iss := { s.iss with run := 0xF7 } }

theorem test_scan_exclusive : vec (.scan h64 .i32 .add true (.v 4) (vs 2) none) seven 4 = some [0, 5, 6, 0, 13, 15, 19, 22] := by decide
theorem test_scan_inclusive : vec (.scan h64 .i32 .add false (.v 5) (vs 2) none) seven 5 = some [5, 6, 13, 0, 15, 19, 22, 28] := by decide
theorem test_redx : scal (.redx h64 .i32 .add (.s 6) (vs 2) none) seven 6 = some 28 := by decide
theorem test_ballot : scal (.ballot h64 .b32 false (.s 7) 0) seven 7 = some 0x85 := by decide
theorem test_vote_some : preds (.vote h64 .some false 1 0) seven 1 = some [true, true, true, false, true, true, true, true] := by decide
theorem test_vote_most : preds (.vote h64 .most false 2 0) seven 2 = some (List.replicate 8 false) := by decide
theorem test_first : scal (.first h64 .b32 (.s 8) none) seven 8 = some 0 := by decide
theorem test_txw : column (.txw h64 .clamp 2 (.v 4) (.v 0) (.s 4)) (stateOf (fibreOf [(0, [0x3E800000]), (1, [0x3F000000])] [(4, 0x00080008), (5, 32)])) 4 7 =
    some [100, 104, 132, 136, 0x40803FFF, 0x40003F80, 0x00808000] := by decide

/-- EDGEC with O = (0, 0) and the vertices (1, 1), (5, 1) and (1, 4) in v0 to v5 (R367, R368). -/
theorem test_edgec : column (.edgec h64 (.v 8) (.v 0) .sz)
      (stateOf (fibreOf [(0, [0x3F800000]), (1, [0x3F800000]), (2, [0x40A00000]), (3, [0x3F800000]), (4, [0x3F800000]), (5, [0x40800000])] [])) 8 11 =
    some [0, 1024, 2 ^ 32 - 262144, 2 ^ 32 - 768, 2 ^ 32 - 1024, 1245184, 768, 0, 2 ^ 32 - 196608, 5, 0x35AAAAAB] := by decide

/-- The blocks of R51's and R53's examples: their elements, and their scale or header. -/
theorem test_pack_mxf4 : (let s := stateOf (fibreOf [(0, [0x3F000000, 0xBF400000, 0x40400000, 0])] [])
    ((vec (.pack h64 .rn 19 3 (.v 4) (.v 0) none) s 4).map (·.take 5), (vec (.pack h64 .rn 19 3 (.v 4) (.v 0) none) s 5).map (·.take 4))) =
    (some [2, 0xB, 7, 0, 0], some [0x7E, 0x7E, 0x7E, 0x7E]) := by decide
theorem test_pack_dbf4 : (let s := stateOf (fibreOf [(0, [0x40400000, 0xBE000000])] [])
    ((vec (.pack h64 .rn 21 1 (.v 4) (.v 0) none) s 4).map (·.take 2), (vec (.pack h64 .rn 21 1 (.v 4) (.v 0) none) s 5).map (·.take 2))) =
    (some [3, 0xE], some [0x7C80, 0x7C80]) := by decide
/-- 0.3 to E4M3, one third to BF16 (chapter 2). -/
theorem test_cvt_e4m3 : got (.cvt h64 .rn 13 11 (.v 4) (vs 0) none) (three 0x3E99999A 0 0) = some 0x2A := by decide
theorem test_cvt_bf16 : got (.cvt h64 .rn 10 11 (.v 4) (vs 0) none) (three 0x3EAAAAAB 0 0) = some 0x3EAB := by decide

/-! ## Single steps: the worked examples of chapters 3, 5, 20, 21 and 24 -/

/-- The leaf of chapter 3's walk, and the indices it splits its address into. -/
theorem test_leaf : (⟨0, 0x4567890000, 65536, 0x0000004001230087⟩ : TlbEntry).page 0x456789ABCD =
    { pa := 0x400123ABCD, ca := 0, home := 1, fmt := 0, geo := 0, w := true, x := false } := by decide
theorem test_indices : levels.map (fun e => 0x456789ABCD / 2 ^ e.1 % 2 ^ e.2) = [1, 43, 60, 9] := by decide

/-- Tile 4 of chapter 5's ring, whose window is at 0: row 2 of it is read from BASE + 0x1300 and lands at 0x1240. -/
theorem test_ring_row : (let r := { (default : Ring) with base := 0x1000, logn := 2, tw := 16, th := 4, tx := 3, ty := 2, pitch := 0x300, slotG := 64 }
    (r.rowAt 4 2, r.slotAt 4 + 2 * r.tw * 16)) = (0x1300, 0x1240) := by decide

/-- Where the fibre of chapter 24's example has its frame's STATUS, ADDR and FPC. -/
theorem test_frame_words : (let p := { placedPos with width := 16, plim := 2048 }
    [180, 182, 183, 184, 185].map p.frameAt) = [(.priv 2027, 4), (.priv 2027, 6), (.priv 2027, 7), (.priv 2027, 8), (.priv 2027, 9)] := by decide

/-- The frame of a load that faults at beat 9 (chapter 24's example): STATUS, ADDR, FPC. -/
theorem test_frame_status : (let x := fibreOf [] []
    let l := x.frame ((stateOf x).iss.req .xlFault 0x123456 9 none none)
    ((nth 0 l 180).toNat % 4096, (nth 0 l 182).toNat, (nth 0 l 184).toNat)) = (0x24B, 0x123456, 65536) := by decide

/-- Chapter 20's fibre: beat 5 has exited, beats 1, 2 and 6 stand in the else-arm, the others are parked at register 0. -/
def arms (run : BeatMask) (st : Nat → TState) (j : JReg) : State :=
  let x := fibreOf [] []
  let s := stateOf { x with
    regs := { x.regs with p := [(1, 0x46)] }
    div := { x.div with threads := (List.range 8).map fun b => { pc := 65536, op := none, st := st b, call := none }, j := j :: List.replicate 7 .reset } }
  { s with iss := { s.iss with run := run } }
def joinReg (i : Instr) (s : State) : Option JReg := ((after i s).bind (·.fib? 0)).map fun x => nth .reset x.div.j 0
def threadsOf (i : Instr) (s : State) : Option (List (Nat × TState)) := ((after i s).bind (·.fib? 0)).map fun x => x.div.threads.map fun t => (t.pc.toNat, t.st)

theorem test_join : (joinReg (.join h128 0 0x40) (arms 0xDF (fun b => if b = 5 then .exited else .ready) .reset)).map (fun j => (j.mask, j.park, j.addr.toNat, j.v)) =
    some (0xDF, 0, 65536 + 0x40, true) := by decide
theorem test_wait_releases : (let st := fun b => if b = 5 then TState.exited else if b = 1 ∨ b = 2 ∨ b = 6 then .ready else .parked
    let s := arms 0x46 st { mask := 0xDF, park := 0x99, addr := 65700, v := true, stk := false }
    ((joinReg (.wait h64 0) s).map (·.v), threadsOf (.wait h64 0) s)) =
    (some false, some ((List.range 8).map fun b => if b = 5 then (65536, .exited) else (65700, .ready))) := by decide
theorem test_exit_leaves_mask : (let st := fun b => if b = 5 then TState.exited else if b = 1 ∨ b = 2 ∨ b = 6 then .ready else .parked
    (joinReg (.exit h64) (arms 0x04 st { mask := 0xDF, park := 0x99, addr := 65700, v := true, stk := false })).map fun j => (j.mask, j.park, j.v)) =
    some (0xDB, 0x99, true) := by decide

/-- `p1? BRA`: the threads whose p1 is true go to the target, the others on. -/
theorem test_bra : threadsOf (.bra { h128 with guard := 1 } (-64)) { arms 0xFF (fun _ => .ready) .reset with iss := { fibre := 0, run := 0xFF, pc := 65536, op := none, len := 16, last := true, held := false } } =
    some ((List.range 8).map fun b => (if b = 1 ∨ b = 2 ∨ b = 6 then 65472 else 65552, .ready)) := by decide

/-- Chapter 21's CALL at 0x3000 with a slide of 64: the link, and the window. -/
theorem test_call : (let s := stateOf (fibreOf [] [])
    let t := after (.call h128 (.v 0) 8 0x400) { s with iss := { s.iss with pc := 0x3000, len := 16 } }
    (t.map fun u => ((u.word 0 (.priv 64) 7).toNat, (u.word 0 (.priv 65) 7).toNat), (t.bind (·.fib? 0)).map fun x => (x.regs.woff, (nth default x.div.threads 7).pc.toNat))) =
    (some (0x3010, 0x08000000), some (64, 0x3400)) := by decide

/-- A store to the scratchpad, and a signed byte loaded from it. -/
theorem test_sts : (let s := stateOf (fibreOf [(0, [0xAABBCCDD]), (1, [4])] [])
    (after (.sts h64 ⟨none, .none, false⟩ .n32 false (.v 0) (vs 1) (.reg .sz .id) 0)
      { s with iss := { s.iss with run := 1 }, cohorts := [(0, { (default : Cohort) with slots := [0], win := 512, z := 256 })] }).map fun t => tblBytes (t.clu 0).spad 516 4) =
    some [0xDD, 0xCC, 0xBB, 0xAA] := by decide
theorem test_lds_signed : (let s := stateOf (fibreOf [(1, [4])] [])
    column (.lds h64 ⟨none, .none, false⟩ .i8 false false (.v 4) (vs 1) (.reg .sz .id) 0)
      { s with cohorts := [(0, { (default : Cohort) with slots := [0], win := 512, z := 256 })], clusters := [(0, { s.clu 0 with spad := [(516, 0x80)] })] } 4 1) =
    some [0xFFFFFF80] := by decide
/-! ## States and operands that meet the hypotheses of the statements -/

/-- Whether nothing is owed to the fibre that issues and its words are all resident and sound. -/
def calm (s : State) (x : Fibre) : Bool :=
  x.pend.isEmpty && x.out.isEmpty && x.mid.isNone && x.regs.spilled.isEmpty && x.regs.badV.isEmpty && x.regs.badS.isEmpty && x.regs.badPath.isEmpty &&
  x.regs.badCarry.isEmpty && x.regs.aluErr.isNone && x.wait.isEmpty && x.doneAt.isNone && x.drained.isEmpty && x.levels.isEmpty && !s.crowded s.iss.fibre &&
  s.iss.limit.isNone && (s.slot (slotOfFibre s.iss.fibre)).bad.isEmpty && (s.clu (clusterOfFibre s.iss.fibre)).drains.all fun d => d.fibre != s.iss.fibre

theorem settled_of {s : State} {x : Fibre} (here : s.fib? s.iss.fibre = some x) (h : calm s x = true) : s.Settled x := by
  simp only [calm, Bool.and_eq_true, List.isEmpty_iff, Option.isNone_iff_eq_none, Bool.not_eq_true', List.all_eq_true, bne_iff_ne] at h
  obtain ⟨⟨⟨⟨⟨⟨⟨⟨⟨⟨⟨⟨⟨⟨⟨⟨h1, h2⟩, h3⟩, h4⟩, h5⟩, h6⟩, h7⟩, h8⟩, h9⟩, h10⟩, h11⟩, h12⟩, h13⟩, h14⟩, h15⟩, h16⟩, h17⟩ := h
  exact ⟨here, h1, h2, h3, h4, h5, h6, h7, h8, h9, h10, h11, h12, h13, h14, h15, h16, h17⟩

/-- v0 holds 10 to 17, v1 and v2 small counts, v4 to v15 zero; s0 an address, s2 and s3 zero, s4 to s11 small. -/
def demoX : Fibre := fibreOf [(0, [10, 11, 12, 13, 14, 15, 16, 17]), (2, [1, 2, 3])] [(0, 65536), (4, 16), (6, 1)]
def demo : State := stateOf demoX

theorem settled_demo : demo.Settled demoX := settled_of rfl (by decide)
theorem active_demo : demo.active h64 demoX ≠ 0 := by decide
theorem fit_v0 : (Opd.v 0).Fits demoX 1 := ⟨by decide, by decide⟩
theorem fit_v2 : (Opd.v 2).Fits demoX 1 := ⟨by decide, by decide⟩
theorem fit_v4 : (Opd.v 4).Fits demoX 1 := ⟨by decide, by decide⟩
theorem fit_v0p : (Opd.v 0).Fits demoX 2 := ⟨by decide, by decide⟩
theorem fit_v2p : (Opd.v 2).Fits demoX 2 := ⟨by decide, by decide⟩
theorem fit_v4p : (Opd.v 4).Fits demoX 2 := ⟨by decide, by decide⟩
theorem fit_v1023 : (Opd.v 1023).Fits demoX 1 := ⟨by decide, by decide⟩
theorem fit_s0 : (Opd.s 0).Fits demoX 2 := ⟨by decide, by decide⟩
theorem fit_s2 : (Opd.s 2).Fits demoX 1 := ⟨by decide, by decide⟩
theorem fit_s4 : (Opd.s 4).Fits demoX 1 := ⟨by decide, by decide⟩
theorem fit_s126 : (Opd.s 126).Fits demoX 2 := ⟨by decide, by decide⟩
theorem fit_sz (n : Nat) : Opd.sz.Fits demoX n := by
  exact ⟨rfl, by simp [Opd.refs]⟩

theorem witness_AddSubtract : demo.Settled demoX ∧ (Opd.v 4).Fits demoX 1 ∧ (vs 0).Fits demoX 1 ∧ (vs 2).Fits demoX 1 ∧
    (Instr.iadd h64 .n32 3 0 (.v 4) (vs 0) (vs 2)).legal = true ∧ (Instr.isub h64 .n32 0 3 (.v 4) (vs 0) (vs 2)).legal = true :=
  ⟨settled_demo, fit_v4, fit_v0, fit_v2, by decide, by decide⟩

theorem witness_ThreeSources : demo.Settled demoX ∧ (vs 0).Fits demoX 1 ∧ (vs 2).Fits demoX 1 ∧ (Opd.v 4).Fits demoX 1 ∧ (Opd.v 4).Fits demoX 2 ∧
    (Instr.iadd3 h96 .i32 (.v 4) (vs 0) (vs 2) (.v 4)).legal = true ∧ (Instr.imad h96 .i32 (.v 4) (vs 0) (vs 2) (.v 4)).legal = true ∧
    (Instr.bfn3 h96 0xFF (.v 4) (vs 0) (vs 2) (.v 4)).legal = true ∧ (Instr.bfi h96 (.v 4) (vs 0) (vs 2) (.v 4)).legal = true ∧
    (Instr.imadw h96 .i32 (.v 4) (vs 0) (vs 2) (.v 4)).legal = true :=
  ⟨settled_demo, fit_v0, fit_v2, fit_v4, fit_v4p, by decide, by decide, by decide, by decide, by decide⟩

theorem witness_TwoSources : demo.Settled demoX ∧ (Opd.v 4).Fits demoX 1 ∧ (vs 0).Fits demoX 1 ∧ (vs 2).Fits demoX 1 ∧
    (Instr.imul h64 .i32 (.v 4) (vs 0) (vs 2)).legal = true ∧ (Instr.imulh h64 .i32 (.v 4) (vs 0) (vs 2)).legal = true ∧
    (Instr.imin h64 .i32 (.v 4) (vs 0) (vs 2)).legal = true ∧ (Instr.imax h64 .i32 (.v 4) (vs 0) (vs 2)).legal = true ∧
    (Instr.land h64 .b32 (.v 4) (vs 0) (vs 2)).legal = true ∧ (Instr.lor h64 .b32 (.v 4) (vs 0) (vs 2)).legal = true ∧
    (Instr.lxor h64 .b32 (.v 4) (vs 0) (vs 2)).legal = true ∧ (Instr.isel h64 .b32 6 true (.v 4) (vs 0) (vs 2)).legal = true :=
  ⟨settled_demo, fit_v4, fit_v0, fit_v2, by decide, by decide, by decide, by decide, by decide, by decide, by decide, by decide⟩

theorem witness_ShiftsAndFields : demo.Settled demoX ∧ (vs 2).Fits demoX 1 ∧ (Opd.v 4).Fits demoX 1 ∧ (vs 0).Fits demoX 1 ∧ (Opd.v 4).Fits demoX 2 ∧ (vs 0).Fits demoX 2 ∧
    (Instr.ishl h64 .b32 (.v 4) (vs 0) (vs 2)).legal = true ∧ (Instr.ishr h64 .b32 (.v 4) (vs 0) (vs 2)).legal = true ∧
    (Instr.isar h64 .i32 (.v 4) (vs 0) (vs 2)).legal = true ∧ (Instr.rot h64 .b32 (.v 4) (vs 0) (vs 2)).legal = true ∧
    (Instr.lea h64 .i32 15 (.v 4) (vs 0) (vs 2)).legal = true ∧ (Instr.bfe h64 .i32 (.v 4) (vs 0) (vs 2)).legal = true ∧
    (Instr.bysel h64 (.v 4) (vs 0) (vs 2) none).legal = true ∧ permuted (vs 0) = false ∧ (Instr.bysel h96 (.v 4) (vs 0) (vs 2) (some (vs 0))).legal = true :=
  ⟨settled_demo, fit_v2, fit_v4, fit_v0, fit_v4p, fit_v0p, by decide, by decide, by decide, by decide, by decide, by decide, by decide, by decide, by decide⟩

theorem witness_OneSource : demo.Settled demoX ∧ (vs 0).Fits demoX 1 ∧ (Opd.v 1023).Fits demoX 1 ∧
    (Instr.ineg h64 .i32 (.v 1023) (vs 0)).legal = true ∧ (Instr.iabs h64 .i32 (.v 1023) (vs 0)).legal = true ∧ (Instr.lnot h64 .b32 (.v 1023) (vs 0)).legal = true ∧
    (Instr.brev h64 .b32 (.v 1023) (vs 0)).legal = true ∧ (Instr.mov h64 .b32 (.v 1023) (vs 0)).legal = true ∧ (Instr.movi h128 .b32 (.v 1023) 1).legal = true ∧
    (Instr.popc h64 .b32 (.v 1023) (vs 0)).legal = true ∧ (Instr.clz h64 .b32 (.v 1023) (vs 0)).legal = true ∧ (Instr.ctz h64 .b32 (.v 1023) (vs 0)).legal = true :=
  ⟨settled_demo, fit_v0, fit_v1023, by decide, by decide, by decide, by decide, by decide, by decide, by decide, by decide, by decide⟩

theorem witness_Predicates : demo.Settled demoX ∧ (vs 0).Fits demoX 1 ∧ (vs 2).Fits demoX 1 ∧ (vs 0).Fits demoX 2 ∧ (vs 2).Fits demoX 2 ∧
    (Instr.iset h64 .i32 .ge 7 (vs 0) (vs 2)).legal = true ∧ (Instr.pset h64 0x96 0 7 6 0).legal = true ∧ (Instr.fset h64 .nan 0 (vs 0) (vs 2)).legal = true ∧
    (Instr.dset h64 .num 6 (vs 0) (vs 2)).legal = true :=
  ⟨settled_demo, fit_v0, fit_v2, fit_v0p, fit_v2p, by decide, by decide, by decide, by decide⟩

theorem witness_SinglePrecision : demo.Settled demoX ∧ (Opd.v 4).Fits demoX 1 ∧ (vs 0).Fits demoX 1 ∧ (vs 2).Fits demoX 1 ∧ (Opd.s 4).Fits demoX 1 ∧
    (Instr.fadd h64 .rd true false (.v 4) (vs 0) (vs 2)).legal = true ∧ (Instr.fmul h64 .rz false true (.v 4) (vs 0) (vs 2)).legal = true ∧
    (Instr.ffma h96 .ru true true true (.v 4) (vs 0) (vs 2) (.s 4)).legal = true ∧ (Instr.fmin h64 (.v 4) (vs 0) (vs 2)).legal = true ∧
    (Instr.fmax h64 (.v 4) (vs 0) (vs 2)).legal = true :=
  ⟨settled_demo, fit_v4, fit_v0, fit_v2, fit_s4, by decide, by decide, by decide, by decide, by decide⟩

theorem witness_FloatFunctions : demo.Settled demoX ∧ (Opd.v 4).Fits demoX 1 ∧ (vs 0).Fits demoX 1 ∧ (vs 0).Fits demoX 2 ∧
    (Instr.frcp h64 .rn (.v 4) (vs 0)).legal = true ∧ (Instr.frsq h64 (.v 4) (vs 0)).legal = true ∧ (Instr.fsqrt h64 .rn (.v 4) (vs 0)).legal = true ∧
    (Instr.fex2 h64 (.v 4) (vs 0)).legal = true ∧ (Instr.flg2 h64 (.v 4) (vs 0)).legal = true ∧ (Instr.fsin h64 (.v 4) (vs 0)).legal = true ∧
    (Instr.fcos h64 (.v 4) (vs 0)).legal = true ∧ (Instr.frnd h64 .ru (.v 4) (vs 0)).legal = true ∧ (Instr.fclass h64 .f64 (.v 4) (vs 0)).legal = true :=
  ⟨settled_demo, fit_v4, fit_v0, fit_v0p, by decide, by decide, by decide, by decide, by decide, by decide, by decide, by decide, by decide⟩

theorem witness_PairsAndHalves : demo.Settled demoX ∧ (Opd.v 4).Fits demoX 2 ∧ (vs 0).Fits demoX 2 ∧ (vs 2).Fits demoX 2 ∧ (Opd.v 4).Fits demoX 1 ∧ (vs 0).Fits demoX 1 ∧
    (vs 2).Fits demoX 1 ∧ (Instr.dadd h64 .rn true false (.v 4) (vs 0) (vs 2)).legal = true ∧ (Instr.dmul h64 .rn false false (.v 4) (vs 0) (vs 2)).legal = true ∧
    (Instr.dfma h96 .rn false false true (.v 4) (vs 0) (vs 2) (.v 4)).legal = true ∧ (Instr.hadd2 h64 .f16 .rn true false (.v 4) (vs 0) (vs 2)).legal = true ∧
    (Instr.hmul2 h64 .bf16 .rn false false (.v 4) (vs 0) (vs 2)).legal = true ∧ (Instr.hfma2 h96 .bf16 .rn false false true (.v 4) (vs 0) (vs 2) (.v 4)).legal = true :=
  ⟨settled_demo, fit_v4p, fit_v0p, fit_v2p, fit_v4, fit_v0, fit_v2, by decide, by decide, by decide, by decide, by decide, by decide⟩

theorem witness_Conversions : demo.Settled demoX ∧ drawFits demoX none ∧ drawFits demoX (some (4, .v 2)) ∧ (Opd.v 4).Fits demoX 2 ∧ (vs 0).Fits demoX 2 ∧ (Opd.v 4).Fits demoX 1 ∧
    (vs 0).Fits demoX 1 ∧ (Instr.cvt h64 .rd 12 7 (.v 4) (vs 0) none).legal = true ∧ (Instr.cvt h96 .rs 10 11 (.v 4) (vs 0) (some (4, .v 2))).legal = true ∧
    (Instr.pack h96 .rs 19 31 (.v 4) (.v 0) (some (4, .v 2))).legal = true :=
  ⟨settled_demo, trivial, fit_v2p, fit_v4p, fit_v0p, fit_v4, fit_v0, by decide, by decide, by decide⟩

theorem witness_StickyFlags : demo.Settled demoX ∧ (Opd.s 4).Fits demoX 1 ∧ Opd.sz.Fits demoX 1 ∧ (Instr.fstk h64 (.s 4) .sz).legal = true :=
  ⟨settled_demo, fit_s4, fit_sz 1, by decide⟩

theorem witness_ExchangesAndVotes : demo.Settled demoX ∧ (Opd.v 4).Fits demoX 1 ∧ (Opd.v 4).Fits demoX 2 ∧ (vs 0).Fits demoX 1 ∧ (vs 2).Fits demoX 1 ∧
    (Instr.xch h64 .b32 true (.v 4) (vs 0) (vs 2)).legal = true ∧ (Instr.matchB h64 .b32 (.v 4) (vs 0)).legal = true ∧ (Instr.first h64 .b32 (.v 4) (some (vs 0))).legal = true ∧
    (Instr.first h64 .b32 (.v 4) none).legal = true ∧ (Instr.ballot h64 .b32 true (.v 4) 6).legal = true ∧ (Instr.vote h64 .most true 0 7).legal = true :=
  ⟨settled_demo, fit_v4, fit_v4p, fit_v0, fit_v2, by decide, by decide, by decide, by decide, by decide, by decide⟩

theorem witness_Folds : demo.Settled demoX ∧ (Opd.v 4).Fits demoX 1 ∧ (vs 0).Fits demoX 1 ∧ (∀ c ∈ some (Opd.s 4), c.Fits demoX 1) ∧
    (Instr.scan h64 .i32 .max true (.v 4) (vs 0) (some (.s 4))).legal = true ∧ (Instr.redx h64 .f32 .add (.v 4) (vs 0) none).legal = true :=
  ⟨settled_demo, fit_v4, fit_v0, fun _ h => by cases h; exact fit_s4, by decide, by decide⟩

theorem witness_Random : demo.Settled demoX ∧ (Opd.v 4).Fits demoX 4 ∧ (Opd.s 126).Fits demoX 2 ∧ (Opd.v 2).Fits demoX 2 ∧
    (Instr.rand h96 .x4 true (.v 4) (.s 126) (.v 2)).legal = true :=
  ⟨settled_demo, ⟨by decide, by decide⟩, fit_s126, fit_v2p, by decide⟩

/-! Control flow -/

theorem witness_Branches : demo.Settled demoX ∧ demo.active h64 demoX ≠ 0 ∧ (Opd.s 0).Fits demoX 2 ∧
    ∀ b ∈ demo.beatsOf h64 (!(Opd.s 0).perThread) demoX, (Opd.s 0).value demo demoX true b < 2 ^ 56 ∧ (Opd.s 0).value demo demoX true b % 4 = 0 :=
  ⟨settled_demo, active_demo, fit_s0, by decide⟩

theorem witness_CallsAndWindow : demo.Settled demoX ∧ demo.active h64 demoX ≠ 0 ∧ demoX.div.live &&& ~~~demo.active h64 demoX = 0 ∧ (Opd.v 0).mixes demoX.pos 2 = false ∧
    Ref.none ∉ (Opd.v 0).refs demoX.pos (demoX.regs.woff + 8 * 127) 2 ∧ demoX.regs.woff + 8 * 127 < demoX.pos.plim ∧ (Instr.call h128 (.v 0) 127 0x400).legal = true ∧
    (Opd.s 0).Fits demoX 2 ∧ (Instr.callx h64 (.v 0) (.s 0) 127).legal = true ∧
    (∀ b ∈ demo.beatsOf h64 (!(Opd.s 0).perThread) demoX, (Opd.s 0).value demo demoX true b / 2 ^ 56 = 0 ∧ (Opd.s 0).value demo demoX true b % 4 = 0) ∧
    (Opd.s 4).Fits demoX 1 ∧ (Instr.fwinGet h64 (.s 4)).legal = true ∧ (Instr.fwinSet h64 (.s 4)).legal = true ∧ (Opd.s 4).value demo demoX false 0 % 8 = 0 ∧
    (Opd.s 4).value demo demoX false 0 < demoX.pos.plim :=
  ⟨settled_demo, active_demo, by decide, by decide, by decide, by decide, by decide, fit_s0, by decide, by decide, fit_s4, by decide, by decide, by decide, by decide⟩

/-- A fibre whose calls have slid the window: a return of 127 slides. -/
def slid : Fibre := { demoX with regs := { demoX.regs with woff := 1016, s := [(0, 65536), (1, 127 * 2 ^ 24)] } }

theorem witness_return : (stateOf slid).Settled slid ∧ (Opd.s 0).Fits slid 2 ∧ 8 * 127 ≤ slid.regs.woff ∧
    ∀ b ∈ (stateOf slid).beatsOf h64 (!(Opd.s 0).perThread) slid, (Opd.s 0).value (stateOf slid) slid true b / 2 ^ 56 = 127 ∧ (Opd.s 0).value (stateOf slid) slid true b % 4 = 0 :=
  ⟨settled_of rfl (by decide), ⟨by decide, by decide⟩, by decide, by decide⟩

/-- All eight rejoin registers in use; and 56 levels less one beyond them. -/
def deep : Fibre := { demoX with pos := { placedPos with bsbase := 65536 }, div := { demoX.div with depth := 8, ovd := 55, ser := true } }

theorem witness_Joins : demo.Settled demoX ∧ demo.active h64 demoX ≠ 0 ∧ demoX.div.depth ≤ (7 : BitVec 3).toNat ∧ (nth JReg.reset demoX.div.j (7 : BitVec 3).toNat).park = 0 ∧
    demoX.div.depth < 8 ∧ ¬((nth JReg.reset demoX.div.j demoX.div.depth).v = true ∧ (nth JReg.reset demoX.div.j demoX.div.depth).stk = false) :=
  ⟨settled_demo, active_demo, by decide, by decide, by decide, by decide⟩

theorem witness_overflow : (stateOf deep).Settled deep ∧ deep.div.depth = 8 ∧ deep.div.ovd + deep.div.base < 56 ∧
    ∃ u, (stateOf deep).backWrite 0 deep (deep.levelAt deep.div.ovd) ({ mask := (stateOf deep).active h128 deep, park := 0, addr := 65536, v := true, stk := true } : JReg).levelBytes = .ok u :=
  ⟨settled_of rfl (by decide), rfl, by decide, _, rfl⟩

/-- A fibre whose rejoin register 0 holds the threads of the run, with its level 1 in use; register 3 stands beside. -/
def joined : Fibre :=
  { demoX with div := { demoX.div with
      j := [{ mask := 0xFF, park := 0, addr := 65600, v := true, stk := true }, .reset, .reset, { mask := 0xF0, park := 0, addr := 65664, v := true, stk := false }] ++ List.replicate 4 .reset
      depth := 1 } }
/-- One in which the run is half of what register 3 waits for. -/
def half : State := let s := stateOf joined; { s with iss := { s.iss with run := 0x30 } }

theorem witness_WaitsAndRejoin : (stateOf joined).Settled joined ∧ (stateOf joined).active h64 joined ≠ 0 ∧ joined.div.ovd = 0 ∧ 0 < joined.div.depth ∧
    (stateOf joined).active h64 joined &&& ~~~(nth JReg.reset joined.div.j (joined.div.depth - 1)).mask = 0 :=
  ⟨settled_of rfl (by decide), by decide, rfl, by decide, by decide⟩

theorem witness_wait_and_drop : half.Settled joined ∧ half.active h64 joined ≠ 0 ∧ joined.div.depth ≤ (3 : BitVec 3).toNat ∧
    (nth JReg.reset joined.div.j 3).v = true ∧ half.active h64 joined &&& ~~~(nth JReg.reset joined.div.j 3).mask = 0 :=
  ⟨settled_of rfl (by decide), by decide, by decide, by decide, by decide⟩

/-- Two threads: one parked, the other as given. -/
def twoThreads (st : TState) (j : JReg) : Diverge :=
  { demoX.div with threads := [{ pc := 8, op := none, st := .parked, call := none }, { pc := 8, op := none, st := st, call := none }], j := [j], depth := 0 }

theorem witness_rejoin : (let d := twoThreads .parked { mask := 3, park := 3, addr := 64, v := true, stk := false }
      let j := nth JReg.reset d.j 0
      j.v = true ∧ d.ovd = 0 ∧ d.threads.length ≤ 64 ∧ j.park ≠ 0 ∧ (j.mask &&& d.live) &&& ~~~j.park = 0) ∧
    (let d := twoThreads .ready { mask := 3, park := 1, addr := 64, v := true, stk := false }
      let j := nth JReg.reset d.j 0
      ¬(j.park ≠ 0 ∧ (j.mask &&& d.live) &&& ~~~j.park = 0) ∧ ¬(j.park = 0 ∧ j.mask &&& d.live = 0)) ∧
    (let d := twoThreads .exited { mask := 2, park := 0, addr := 64, v := true, stk := false }
      let j := nth JReg.reset d.j 0
      j.park = 0 ∧ j.mask &&& d.live = 0) := by decide

/-- Half of the fibre at a barrier whose other half has come. -/
def halfHeld : Fibre := { demoX with div := { demoX.div with threads := (List.range 8).map fun b => { pc := 65536, op := none, st := if b < 4 then .held else .ready, call := none } } }
def lastHalf : State := let s := stateOf halfHeld; { s with iss := { s.iss with run := 0xF0 } }

theorem witness_FibreBarrier : demo.Settled demoX ∧ demo.active h64 demoX ≠ 0 ∧ demoX.regs.satTrap = false ∧
    (∀ g, g < 4 → (1 : BitVec 4).getLsbD g = true → g < max 1 (demo.launchOf demoX).desc.stages) ∧ (1 : BitVec 4).getLsbD demoX.pos.stage = true ∧
    demoX.pos.stage = demo.iss.fibre % 4 ∧ demoX.div.threads.length = demoX.pos.width ∧ demoX.pos.width ≤ 64 ∧ demoX.div.heldBar = none ∧ demoX.regs.inh = false ∧
    ((demo.slot (slotOfFibre demo.iss.fibre)).bar 3).isOpen = false ∧ (heldBy demo demoX h64).live = (heldBy demo demoX h64).inState .held ∧
    (1 : BitVec 4) = BitVec.ofNat 4 (2 ^ (demo.iss.fibre % 4)) := by
  refine ⟨settled_demo, ?_⟩; decide

/-- The first half comes: the fibre has not arrived. -/
def firstHalf : State := { demo with iss := { demo.iss with run := 0x0F } }

theorem witness_barrier_not_all : firstHalf.Settled demoX ∧ firstHalf.active h64 demoX ≠ 0 ∧ ¬(heldBy firstHalf demoX h64).live = (heldBy firstHalf demoX h64).inState .held :=
  ⟨settled_of rfl (by decide), by decide, by decide⟩

/-- A launch of two stages whose other fibre has not come. -/
def twoStages : State :=
  let s := stateOf halfHeld
  { s with
    iss := { s.iss with run := 0xF0 }
    fibres := [(0, halfHeld), (1, { demoX with pos := { demoX.pos with stage := 1, fib := 1 } })]
    launches := [(0, { placedLaunch with desc := { placedLaunch.desc with stages := 2 } })]
    slots := [(0, Slot.reset.setBar 3 { Slot.reset.bar 3 with isOpen := true, mask := 3, arrived := 0 })] }

theorem witness_barrier_waits : twoStages.Settled halfHeld ∧ twoStages.active h64 halfHeld ≠ 0 ∧
    (∀ g, g < 4 → (3 : BitVec 4).getLsbD g = true → g < max 1 (twoStages.launchOf halfHeld).desc.stages) ∧
    ((twoStages.slot 0).bar 3).isOpen = true ∧ ((twoStages.slot 0).bar 3).mask = 3 ∧ ((twoStages.slot 0).bar 3).arrived.getLsbD 0 = false ∧
    (heldBy twoStages halfHeld h64).live = (heldBy twoStages halfHeld h64).inState .held ∧
    ¬∀ g, g < 4 → (3 : BitVec 4).getLsbD g = true → (((twoStages.slot 0).bar 3).arrived ||| 1).getLsbD g = true ∨ twoStages.stageGone 0 g = true := by
  refine ⟨settled_of rfl (by decide), ?_⟩; decide

theorem witness_Exits : demo.Settled demoX ∧ demo.active h64 demoX ≠ 0 ∧ demoX.div.ovd = 0 ∧ demoX.div.j = List.replicate 8 .reset ∧ demoX.div.heldBar = none :=
  ⟨settled_demo, by decide, rfl, rfl, rfl⟩

/-- Macro 5 in the control store of core 0; s4 holds 5. -/
def withMacro : State := { demo with cores := [(0, { demo.core 0 with cstore := [(5, [(Instr.nop h64).toRaw])] })] }

theorem witness_Macros : withMacro.Settled demoX ∧ withMacro.active h128 demoX ≠ 0 ∧ tget [] (withMacro.core (coreOfFibre withMacro.iss.fibre)).cstore (5 : BitVec 6).toNat ≠ [] :=
  ⟨settled_of rfl (by decide), by decide, by decide⟩

/-- One operation of a macro, as its record stands in memory: NOP. -/
def recorded : State := { demo with mem := memWrite demo.mem 65536 (encode (.nop h64) ++ [0, 0, 0, 0]) }

set_option exponentiation.threshold 600 in
theorem witness_mdef : recorded.Settled demoX ∧ recorded.active h64 demoX ≠ 0 ∧ (Opd.s 0).Fits demoX 2 ∧ (Instr.mdef h64 (.s 0) 63 1).legal = true ∧
    ∃ ops u, recorded.readMacro ((Opd.s 0).value recorded demoX true 0) (1 : BitVec 6).toNat = .ok (ops, u) :=
  ⟨settled_of rfl (by decide), by decide, fit_s0, by decide, _, _, rfl⟩

/-! Accesses to memory -/

/-- Threads 0 and 7 run. -/
def duo : State := { demo with iss := { demo.iss with run := 0x81 } }
theorem beats_duo (l : Len) : duo.beatsOf ⟨l, false, 0, 7, false⟩ false demoX = [0, 7] := by cases l <;> decide
theorem each_duo {P : Nat → Prop} (a : P 0) (b : P 7) : ∀ k ∈ [0, 7], P k := by simp [a, b]
/-- Where the address in s0:s1 lies: DRAM of die 0. -/
def spot (n : Nat) : List Seg := [{ pa := 65536, n := n, ca := 0, home := 0, host := false }]
theorem local_spot (n : Nat) : duo.local (spot n) := by intro g hg; simp only [spot, List.mem_singleton] at hg; subst hg; exact ⟨rfl, rfl⟩
def plainQ : Qual := { ord := .none, scope := none, x := false }
theorem settled_duo : duo.Settled demoX := settled_of rfl (by decide)

theorem witness_Loads : duo.Settled demoX ∧ (Opd.v 4).Fits demoX (accessRegs (accessBytes .b32 true)) ∧ (ss 0).Fits demoX 2 ∧ (ss 2).Fits demoX 1 ∧
    acquires plainQ.ord = false ∧ (Instr.ldg h128 plainQ .b32 true false (.v 4) (ss 0) (ss 2) 0).legal = true ∧
    (Instr.ldc h128 .b32 true false (.v 4) (ss 0) (ss 2) 0).legal = true ∧
    ∀ k ∈ duo.beatsOf h128 false demoX, (∃ pg, duo.openAccess clsLoad .load true true (duo.eaOf demoX (ss 0) (ss 2) 0 k) (accessBytes .b32 true) 0 = .ok (pg, spot 16, duo)) ∧
      (∃ pg, duo.openAccess clsLoad .const true true (duo.eaOf demoX (ss 0) (ss 2) 0 k) (accessBytes .b32 true) 0 = .ok (pg, spot 16, duo)) ∧ duo.local (spot 16) := by
  refine ⟨settled_duo, ⟨by decide, by decide⟩, fit_s0, fit_s2, by decide, by decide, by decide, ?_⟩
  rw [show h128 = ⟨.b128, false, 0, 7, false⟩ from rfl, beats_duo]
  exact each_duo ⟨⟨_, rfl⟩, ⟨_, rfl⟩, local_spot _⟩ ⟨⟨_, rfl⟩, ⟨_, rfl⟩, local_spot _⟩

theorem witness_touch : Opd.sz.Fits demoX (accessRegs (accessBytes .i8 false)) ∧ (Instr.ldg h128 plainQ .i8 false true .sz (ss 0) (ss 2) 0).legal = true ∧
    (Instr.ldc h128 .i8 false true .sz (ss 0) (ss 2) 0).legal = true :=
  ⟨fit_sz _, by decide, by decide⟩

/-- The page of the examples with a format of its elements; s8 on: the scales at 65600, the length and the blocks of a row. -/
def blockX (k : Nat) : Fibre := fibreOf [(2, [1, 2, 3])] [(0, 65536), (8, 65600), (10, k), (11, 1)]
def paged (fmt : Nat) (x : Fibre) : State :=
  let leaf : Dword := placedLeaf + BitVec.ofNat 64 (fmt * 256)
  let s := stateOf x
  { s with
    iss := { s.iss with run := 0x81 }
    cores := [(0, { s.core 0 with tlb := [⟨0, fetchBase, 65536, leaf⟩] })]
    clusters := [(0, { s.clu 0 with tlb := [⟨0, fetchBase, 65536, leaf⟩] })] }
/-- One part of die 0's DRAM. -/
def part (pa n : Nat) : List Seg := [{ pa := pa, n := n, ca := 0, home := 0, host := false }]
theorem local_part {s : State} (h : s.myDie = 0) (pa n : Nat) : s.local (part pa n) := by
  intro g hg; simp only [part, List.mem_singleton] at hg; subst hg; exact ⟨rfl, h.symm⟩
/-- What ElementLoads asks of the page of an address, and of an access to it. -/
def pageIs (s : State) (va fmt : Nat) : Prop := ∃ pg, s.quietPage s.iss.fibre va = (some pg, s) ∧ pg.fmt = fmt
def opensAt (s : State) (va n fmt : Nat) (l : List Seg) : Prop :=
  ∃ ps, s.openAccess clsLoad .load true true va n 0 = .ok (ps, l, s) ∧ ∀ p ∈ ps, p.fmt = fmt ∧ p.geo < 2

theorem witness_ElementLoads : (paged 10 demoX).Settled demoX ∧ (Opd.v 4).Fits demoX 2 ∧ (ss 0).Fits demoX 2 ∧ (vs 2).Fits demoX 1 ∧ acquires plainQ.ord = false ∧
    (Instr.lde h128 plainQ .f64 false (.v 4) (ss 0) (vs 2) none 0).legal = true ∧ ldeTypes 10 .f64 = true ∧ isBlock 10 = false ∧
    ∀ t ∈ (paged 10 demoX).beatsOf h128 false demoX,
      let va := 65536 + (vs 2).value (paged 10 demoX) demoX false t * 2
      (BitVec.ofNat 64 ((ss 0).value (paged 10 demoX) demoX true t) + (0 : BitVec 32).signExtend 64).toNat = 65536 ∧ pageIs (paged 10 demoX) 65536 10 ∧
        pageIs (paged 10 demoX) va 10 ∧ opensAt (paged 10 demoX) va 2 10 (part va 2) ∧ (paged 10 demoX).local (part va 2) := by
  refine ⟨settled_of rfl (by decide), fit_v4p, fit_s0, fit_v2, by decide, by decide, by decide, by decide, ?_⟩
  rw [show (paged 10 demoX).beatsOf h128 false demoX = [0, 7] from rfl]
  exact each_duo ⟨by decide, ⟨_, rfl, rfl⟩, ⟨_, rfl, rfl⟩, ⟨_, rfl, by decide⟩, local_part rfl _ _⟩ ⟨by decide, ⟨_, rfl, rfl⟩, ⟨_, rfl, rfl⟩, ⟨_, rfl, by decide⟩, local_part rfl _ _⟩

/-- A block row of eight elements of 8 bits, and one of none. -/
theorem witness_block_element : (paged 15 (blockX 8)).Settled (blockX 8) ∧ (Opd.v 4).Fits (blockX 8) 1 ∧ (ss 0).Fits (blockX 8) 2 ∧ (vs 2).Fits (blockX 8) 1 ∧
    (∀ o ∈ some (Opd.s 8), o.Fits (blockX 8) 4) ∧ (Instr.lde h128 plainQ .f32 false (.v 4) (ss 0) (vs 2) (some (.s 8)) 0).legal = true ∧ ldeTypes 15 .f32 = true ∧ isBlock 15 = true ∧
    ∀ t ∈ (paged 15 (blockX 8)).beatsOf h128 false (blockX 8),
      let s := paged 15 (blockX 8)
      let i := (vs 2).value s (blockX 8) false t
      let at_ := 65600 + i / 32 * 1
      i < (s.opWord (blockX 8) (.s 8) 2 0).toNat ∧ i / 32 < (s.opWord (blockX 8) (.s 8) 3 0).toNat ∧ pageIs s (65536 + i) 15 ∧ opensAt s (65536 + i) 1 15 (part (65536 + i) 1) ∧
        opensAt s at_ 1 15 (part at_ 1) ∧ s.local (part at_ 1) := by
  refine ⟨settled_of rfl (by decide), ⟨by decide, by decide⟩, ⟨by decide, by decide⟩, ⟨by decide, by decide⟩, fun _ h => by cases h; exact ⟨by decide, by decide⟩, by decide, by decide,
    by decide, ?_⟩
  rw [show (paged 15 (blockX 8)).beatsOf h128 false (blockX 8) = [0, 7] from rfl]
  exact each_duo ⟨by decide, by decide, ⟨_, rfl, rfl⟩, ⟨_, rfl, by decide⟩, ⟨_, rfl, by decide⟩, local_part rfl _ _⟩
    ⟨by decide, by decide, ⟨_, rfl, rfl⟩, ⟨_, rfl, by decide⟩, ⟨_, rfl, by decide⟩, local_part rfl _ _⟩

theorem witness_beyond_the_row : (paged 15 (blockX 0)).Settled (blockX 0) ∧
    ∀ t ∈ (paged 15 (blockX 0)).beatsOf h128 false (blockX 0), ((paged 15 (blockX 0)).opWord (blockX 0) (.s 8) 2 0).toNat ≤ (vs 2).value (paged 15 (blockX 0)) (blockX 0) false t :=
  ⟨settled_of rfl (by decide), by decide⟩

theorem witness_StoresAndAtomics : duo.Settled demoX ∧ (ss 0).Fits demoX 2 ∧ duo.released plainQ ∧ (Opd.v 0).Fits demoX 2 ∧ (ss 2).Fits demoX 1 ∧ (vs 0).Fits demoX 2 ∧ (Opd.v 4).Fits demoX 2 ∧
    (Instr.stg h128 plainQ .n64 false (.v 0) (ss 0) (ss 2) 0).legal = true ∧ (Instr.redg h64 plainQ .add .i64 (ss 0) (vs 0)).legal = true ∧
    (Instr.atomg h96 plainQ .cas .n64 (.v 4) (ss 0) (vs 0) (some (.v 4))).legal = true ∧
    (∀ k ∈ duo.beatsOf h96 false demoX,
      (∃ pg, duo.openAccess clsStore .store false false (duo.eaOf demoX (ss 0) (ss 2) 0 k) 8 0 = .ok (pg, spot 8, duo)) ∧
      (∃ pg, duo.openAccess clsAtomic (.red .add .i64) false false ((ss 0).value duo demoX true k) 8 8 = .ok (pg, spot 8, duo)) ∧
      (∃ pg, duo.openAccess clsAtomic (.atomic .cas .n64) false true ((ss 0).value duo demoX true k) 8 8 = .ok (pg, spot 8, duo)) ∧ duo.local (spot 8)) := by
  refine ⟨settled_duo, fit_s0, fun h => by simp [plainQ, releases] at h, fit_v0p, fit_s2, fit_v0p, fit_v4p, by decide, by decide, by decide, ?_⟩
  rw [show h96 = ⟨.b96, false, 0, 7, false⟩ from rfl, beats_duo]
  exact each_duo ⟨⟨_, rfl⟩, ⟨_, rfl⟩, ⟨_, rfl⟩, local_spot _⟩ ⟨⟨_, rfl⟩, ⟨_, rfl⟩, ⟨_, rfl⟩, local_spot _⟩

/-- An acquire of the cluster, and one with a release of nothing before it. -/
def acqQ : Qual := { ord := .acq, scope := some .clu, x := false }

theorem witness_BlockingAccesses : demo.Settled demoX ∧ (ss 0).Fits demoX 2 ∧ demo.active h128 demoX ≠ 0 ∧ (Opd.v 4).Fits demoX 1 ∧ (ss 2).Fits demoX 1 ∧ (vs 0).Fits demoX 1 ∧
    (Instr.ldg h128 acqQ .b32 false false (.v 4) (ss 0) (ss 2) 0).legal = true ∧ acqQ.acquire ≠ none ∧
    (∃ pg, demo.openAccess clsLoad .load false true (demo.eaOf demoX (ss 0) (ss 2) 0 0) 4 0 = .ok (pg, spot 4, demo)) ∧
    (Instr.atomg h96 acqQ .add .n32 (.v 4) (ss 0) (vs 0) none).legal = true ∧ demo.mayRmw acqQ ∧
    (∃ pg, demo.openAccess clsAtomic (.atomic .add .n32) false true ((ss 0).value demo demoX true 0) 4 4 = .ok (pg, spot 4, demo)) ∧ ∀ g ∈ spot 4, g.host = false :=
  ⟨settled_demo, fit_s0, by decide, fit_v4, fit_s2, fit_v0, by decide, by decide, ⟨_, rfl⟩, by decide, fun _ => rfl, ⟨_, rfl⟩, by decide⟩

/-- Window 5 of die 0 reaches 64 bytes of another package. -/
def windowed : State := { demo with dies := [(0, { Die.reset with peerWin := [(5, { rbase := 4096, len := 64, rkey := 1, qpn := 2, port := 3, v := true })] })] }

theorem witness_StagingAndRemoteReads : demo.Settled demoX ∧ demo.active h64 demoX ≠ 0 ∧ (ss 0).Fits demoX 2 ∧ (vs 0).Fits demoX 2 ∧
    (Instr.rstg h64 .i64 .max (ss 0) (vs 0)).legal = true ∧
    (∃ pg, demo.openAccess clsAtomic (.rstg .max .i64) false true ((ss 0).value demo demoX true ((demo.beatsOf h64 false demoX).headD 0) + 16 * demoX.pos.lidx) 16 16 = .ok (pg, spot 16, demo)) ∧
    ∀ g ∈ spot 16, g.host = false :=
  ⟨settled_demo, by decide, fit_s0, fit_v0p, by decide, ⟨_, rfl⟩, by decide⟩

theorem witness_rmtr : windowed.Settled demoX ∧ windowed.active h128 demoX ≠ 0 ∧ (Opd.v 4).Fits demoX 2 ∧ (Opd.v 4).Fits demoX 2 ∧
    ∃ w, windowed.remoteAt 5 ((Opd.v 4).value windowed demoX true 7 + (56 : BitVec 40).toNat) 8 = .ok w ∧ (windowed.die windowed.myDie).broken w = false :=
  ⟨settled_of rfl (by decide), by decide, fit_v4p, fit_v4p, _, rfl, by decide⟩

/-! The scratchpad -/

/-- The cohort's window is 256 bytes at 512. -/
def padState : State := { duo with cohorts := [(0, { (default : Cohort) with slots := [0], win := 512, z := 256 })] }
theorem settled_pad : padState.Settled demoX := settled_of rfl (by decide)

theorem witness_ScratchpadAccesses : padState.Settled demoX ∧ padState.mine.spadBad = [] ∧ padState.mine.spadCe = [] ∧ (vs 0).Fits demoX 1 ∧ (Opd.v 4).Fits demoX 4 ∧ (ss 2).Fits demoX 1 ∧
    padState.released plainQ ∧ (Instr.lds h128 plainQ .b32 true false (.v 4) (vs 0) (ss 2) 223).legal = true ∧
    (Instr.sts h128 plainQ .b32 true (.v 4) (vs 0) (ss 2) 223).legal = true ∧
    (∀ k ∈ padState.beatsOf h128 false demoX, inWindow (padState.winSize demoX) (padState.padOf demoX (vs 0) (ss 2) 223 k) 16 = true) ∧
    padState.padOf demoX (vs 0) (ss 2) 223 7 + 16 = padState.winSize demoX :=
  ⟨settled_pad, by decide, by decide, fit_v0, ⟨by decide, by decide⟩, fit_s2, fun h => by simp [plainQ, releases] at h, by decide, by decide, by decide, by decide⟩

theorem witness_atoms : (vs 4).Fits demoX 1 ∧ (Opd.v 4).Fits demoX 2 ∧ (vs 0).Fits demoX 2 ∧ (∀ o ∈ some (Opd.v 6), o.Fits demoX 2) ∧ plainQ.acquire = none ∧
    (Instr.atoms h96 plainQ .cas .n64 (.v 4) (vs 4) (vs 0) (some (.v 6))).legal = true ∧
    ∀ k ∈ padState.beatsOf h96 false demoX, (vs 4).value padState demoX false k % 8 = 0 ∧ inWindow (padState.winSize demoX) ((vs 4).value padState demoX false k) 8 = true :=
  ⟨fit_v4, fit_v4p, fit_v0p, fun _ h => by cases h; exact ⟨by decide, by decide⟩, by decide, by decide, by decide⟩

/-- A fibre whose v8 holds the offsets of two granules; they are full where asked. -/
def padX : Fibre := fibreOf [(8, [0, 0, 0, 0, 0, 0, 0, 240])] [(4, 16), (6, 240)]
def granular (l : List Nat) : State :=
  let s := stateOf padX
  { s with
    iss := { s.iss with run := 0x81 }
    cohorts := [(0, { (default : Cohort) with slots := [0], win := 512, z := 256 })]
    clusters := [(0, { s.clu 0 with full := l })] }

theorem settled_granular : (granular [32, 47]).Settled padX := settled_of rfl (by decide)

theorem witness_FullEmpty : (granular [32, 47]).Settled padX ∧ (granular [32, 47]).mine.spadBad = [] ∧ (granular [32, 47]).mine.spadCe = [] ∧ (granular [32, 47]).mine.waiters = [] ∧
    (vs 8).Fits padX 1 ∧ (ss 2).Fits padX 1 ∧ (Opd.v 4).Fits padX 4 ∧ (Instr.ldfe h128 true .b32 true (.v 4) (vs 8) (ss 2) 0).legal = true ∧
    (∀ k ∈ (granular [32, 47]).beatsOf h128 false padX, (granular [32, 47]).feCheck ((granular [32, 47]).padOf padX (vs 8) (ss 2) 0 k) 16 = none ∧
      (granular [32, 47]).mine.full.contains (((granular [32, 47]).winBase padX + ((granular [32, 47]).padOf padX (vs 8) (ss 2) 0 k).toNat) / 16) = true) ∧
    ∀ j ∈ (granular [32, 47]).beatsOf h128 false padX, ∀ k ∈ (granular [32, 47]).beatsOf h128 false padX,
      ((granular [32, 47]).winBase padX + ((granular [32, 47]).padOf padX (vs 8) (ss 2) 0 j).toNat) / 16 =
        ((granular [32, 47]).winBase padX + ((granular [32, 47]).padOf padX (vs 8) (ss 2) 0 k).toNat) / 16 → j = k :=
  ⟨settled_granular, by decide, by decide, by decide, ⟨by decide, by decide⟩, ⟨by decide, by decide⟩, ⟨by decide, by decide⟩, by decide, by decide, by decide⟩

theorem witness_empty_granules : (granular []).Settled padX ∧ (Instr.stfe h128 .b32 true (.v 4) (vs 8) (ss 2) 0).legal = true ∧
    ((granular []).beatsOf h128 false padX).head? = some 0 ∧ (granular []).mine.waitFault (((granular []).winBase padX + ((granular []).padOf padX (vs 8) (ss 2) 0 0).toNat) / 16) = none ∧
    ∀ k ∈ (granular []).beatsOf h128 false padX, (granular []).feCheck ((granular []).padOf padX (vs 8) (ss 2) 0 k) 16 = none ∧
      (granular []).mine.full.contains (((granular []).winBase padX + ((granular []).padOf padX (vs 8) (ss 2) 0 k).toNat) / 16) = false :=
  ⟨settled_of rfl (by decide), by decide, by decide, by decide, by decide⟩

theorem witness_feset : (Opd.v 8).Fits padX 1 ∧ (Opd.s 4).Fits padX 1 ∧
    ∀ k ∈ (granular []).beatsOf h128 (!((Opd.v 8).perThread || (Opd.s 4).perThread)) padX, (((Opd.v 8).value (granular []) padX false k : Int) + (0 : BitVec 32).toInt) % 16 = 0 ∧
      (Opd.s 4).value (granular []) padX false k % 16 = 0 ∧
      inWindow ((granular []).winSize padX) (((Opd.v 8).value (granular []) padX false k : Int) + (0 : BitVec 32).toInt) ((Opd.s 4).value (granular []) padX false k) = true :=
  ⟨⟨by decide, by decide⟩, ⟨by decide, by decide⟩, by decide⟩

/-! Hints, fences, caches, monitors -/

theorem witness_Hints : demo.Settled demoX ∧ (Opd.s 2).Fits demoX 2 ∧ (Opd.s 4).Fits demoX 1 ∧ (ss 2).Fits demoX 2 ∧ (ss 4).Fits demoX 1 ∧ acquires plainQ.ord = false ∧
    (Instr.ldg h128 plainQ .b32 true false .sz (ss 2) (ss 4) 0).legal = true ∧
    (∀ k ∈ demo.beatsOf h128 true demoX, demo.hintXl demo.iss.fibre (pageParts (demo.eaOf demoX (ss 2) (ss 4) 0 k / 128 * 128) 1) = (none, demo) ∧
      demo.hintXl demo.iss.fibre (pageParts (demo.eaOf demoX (ss 2) (ss 4) 0 k) 16) = (none, demo)) :=
  ⟨settled_demo, ⟨by decide, by decide⟩, fit_s4, ⟨by decide, by decide⟩, fit_s4, by decide, by decide, by decide⟩

theorem witness_touched : (Opd.s 0).Fits demoX 2 ∧ (Opd.s 4).Fits demoX 1 ∧ demo.beatsOf h128 (!((Opd.s 0).perThread || (Opd.s 4).perThread)) demoX = [0] ∧
    (let ea := demo.eaOf demoX (ss 0) (ss 4) 0 0
     ea = 65552 ∧ (tlbFind demo.mine.tlb (demo.asidOf demoX) ea).isSome = true ∧ (tlbFind demo.mine.tlb (demo.asidOf demoX) (ea / 128 * 128)).isSome = true) ∧
    ∃ pg u, demo.translate (clusterOfFibre demo.iss.fibre) (demo.asidOf demoX) (demo.eaOf demoX (ss 0) (ss 4) 0 0) false false = (.ok pg, u) :=
  ⟨fit_s0, fit_s4, by decide, by decide, _, _, rfl⟩

theorem owes_nothing : nothingOwed demo demoX .sys := ⟨fun _ => by decide, fun _ => ⟨by decide, by decide, by decide⟩⟩

theorem witness_FencesAndCaches : demo.Settled demoX ∧ demo.active h64 demoX ≠ 0 ∧ nothingOwed demo demoX .sys ∧ (Opd.s 0).Fits demoX 2 ∧ (Opd.s 4).Fits demoX 1 ∧ (Opd.s 2).Fits demoX 1 ∧
    (Opd.s 2).value demo demoX false 0 = 0 ∧ (Opd.s 0).value demo demoX true 0 + (Opd.s 4).value demo demoX false 0 ≤ 2 ^ 56 ∧ 0 < (Opd.s 4).value demo demoX false 0 ∧
    (∀ r ∈ (demo.die demo.myDie).wt, r.line ≠ 512) ∧
    ∃ l, demo.xlParts clsLoad ((Opd.s 0).value demo demoX true 0) (pageParts ((Opd.s 0).value demo demoX true 0) ((Opd.s 4).value demo demoX false 0)) = .ok (l, demo) ∧
      ∀ e ∈ l, demo.segThere demo.myDie (e.1.seg e.2) = true ∧ isHost e.1.pa = false ∧ lineOf e.1.pa = 512 ∧ lineOf (e.1.pa + e.2 - 1) = 512 :=
  ⟨settled_demo, by decide, owes_nothing, fit_s0, fit_s4, fit_s2, by decide, by decide, by decide, by decide, _, rfl, by decide⟩

theorem witness_OrderingFormsComplete : demo.Settled demoX ∧ demo.active h64 demoX ≠ 0 ∧ (∃ l, demo.readLevels demo.iss.fibre demoX demoX.div.ovd = .ok (l, demo)) ∧
    nothingOwed demo demoX .sys ∧ (Opd.s 0).Fits demoX 2 ∧ (Opd.s 4).Fits demoX 1 ∧ (Opd.s 0).value demo demoX true 0 + (Opd.s 4).value demo demoX false 0 ≤ 2 ^ 56 ∧
    (demo.die demo.myDie).wt = [] ∧
    ∀ e ∈ pageParts ((Opd.s 0).value demo demoX true 0) ((Opd.s 4).value demo demoX false 0),
      ∃ p, demo.lookup (coreOfFibre demo.iss.fibre) (demo.asidOf demoX) e.1 false false = .ok p ∧ p.home = demo.myDie ∧ isHost p.pa = false := by
  refine ⟨settled_demo, by decide, ⟨_, rfl⟩, owes_nothing, fit_s0, fit_s4, by decide, by decide, ?_⟩
  rw [show pageParts ((Opd.s 0).value demo demoX true 0) ((Opd.s 4).value demo demoX false 0) = [(65536, 16)] by decide]
  simp only [List.forall_mem_cons, List.not_mem_nil, false_imp_iff, implies_true, and_true]
  exact ⟨_, rfl, rfl, by decide⟩

theorem witness_icinv : ∃ page : Nat → Page,
    ∀ e ∈ pageParts ((Opd.s 0).value demo demoX true 0) ((Opd.s 4).value demo demoX false 0),
      demo.translate (clusterOfFibre demo.iss.fibre) (demo.asidOf demoX) e.1 false false = (.ok (page e.1), demo) :=
  ⟨fun va => { pa := va, ca := 0, home := 0, fmt := 0, geo := 0, w := true, x := true }, by
    rw [show pageParts ((Opd.s 0).value demo demoX true 0) ((Opd.s 4).value demo demoX false 0) = [(65536, 16)] by decide]
    simp only [List.forall_mem_cons, List.not_mem_nil, false_imp_iff, implies_true, and_true]; rfl⟩

theorem witness_Monitors : demo.Settled demoX ∧ demo.active h64 demoX ≠ 0 ∧ (ss 0).Fits demoX 2 ∧ (ss 2).Fits demoX 1 ∧ (Instr.marm h64 (ss 0) (ss 2)).legal = true ∧
    (∃ pg, demo.openAccess clsLoad .load false false (demo.eaOf demoX (ss 0) (ss 2) 0 ((demo.beatsOf h64 true demoX).headD 0)) 1 0 = .ok (pg, spot 1, demo)) ∧
    (∀ m ∈ demoX.mon, m.line ≠ lineOf 65536) ∧ demoX.mon.length < 4 ∧ (Opd.s 8).Fits demoX 1 ∧ (Opd.s 4).Fits demoX 1 ∧ (Instr.mwait h64 (.s 8) (.s 4)).legal = true ∧
    demoX.mwaitCode = none ∧ demoX.mon = [] :=
  ⟨settled_demo, by decide, fit_s0, fit_s2, by decide, ⟨_, rfl⟩, by decide, by decide, ⟨by decide, by decide⟩, fit_s4, by decide, rfl, rfl⟩

/-- A fibre that has armed a line, with an event latched or none. -/
def armed (event : Bool) : Fibre := { demoX with mon := [{ line := 512, registered := true, overflow := false }], monEvent := event }

theorem witness_armed : (∀ e, (stateOf (armed e)).Settled (armed e)) ∧ (∃ m ∈ (armed true).mon, m.line = lineOf 65536) ∧
    (stateOf (armed true)).beatsOf h64 true (armed true) = [((stateOf (armed true)).beatsOf h64 true (armed true)).headD 0] ∧
    (armed true).mon ≠ [] ∧ (armed true).monEvent = true ∧ (armed false).monEvent = false ∧ (stateOf (armed false)).monGone 0 (armed false) = false ∧
    (Opd.s 4).value (stateOf (armed false)) (armed false) false 0 ≠ 0 ∧ (Opd.s 2).value (stateOf (armed false)) (armed false) false 0 = 0 :=
  ⟨fun e => settled_of (by cases e <;> rfl) (by cases e <;> decide), by decide⟩

/-! Traps and returns -/

/-- A fibre with a handler; and in its handler, with the cause given, over a frame of zeros. -/
def handled : Fibre := { demoX with regs := { demoX.regs with tvec := 65600 } }
def inside (c : Cause) : Fibre := { handled with regs := { handled.regs with inh := true, hcause := BitVec.ofNat 6 c.code } }

theorem witness_TrapEntry : (stateOf handled).CanEnter 0 handled ∧ handled.regs.tvec ≠ 0 ∧ demo.CanEnter 0 demoX ∧ demoX.regs.tvec = 0 ∧
    (inside .user).regs.inh = true ∧ (stateOf (inside .user)).fib? 0 = some (inside .user) ∧ ((stateOf (inside .user)).die 0).freeze.length < 64 :=
  ⟨⟨rfl, rfl, by decide, rfl, by decide, by decide, by decide, rfl⟩, by decide, ⟨rfl, rfl, by decide, rfl, by decide, by decide, by decide, rfl⟩, rfl, rfl, rfl, by decide⟩

theorem witness_FramesAndReturns : (handled.pos.width = 8 ∨ handled.pos.width = 16 ∨ handled.pos.width = 32 ∨ handled.pos.width = 64) ∧ 512 / handled.pos.width ≤ handled.pos.plim ∧
    handled.div.threads.length = handled.pos.width ∧ handled.div.j.length = 8 ∧ (∀ k ∈ handled.div.threads, ∀ j, k.op = some j → j < 32) ∧ handled.regs.woff < 2 ^ 32 ∧
    handled.regs.stg.cfg &&& keepCfg = handled.regs.stg.cfg ∧ handled.regs.stg.pre &&& keepPre = handled.regs.stg.pre ∧
    handled.regs.stg.post0 &&& keepPost0 = handled.regs.stg.post0 ∧ handled.regs.stg.unf0 &&& keepUnf0 = handled.regs.stg.unf0 ∧
    handled.regs.stg.unf1 &&& keepUnf1 = handled.regs.stg.unf1 := by
  refine ⟨by decide, by decide, by decide, rfl, ?_, by decide, by decide, by decide, by decide, by decide, by decide⟩
  intro k hk j hj
  rw [show handled.div.threads = List.replicate 8 { pc := 65536, op := none, st := .ready, call := none } by decide, List.mem_replicate] at hk
  rw [hk.2] at hj; cases hj

theorem settled_inside (c : Cause) (h : c = .user ∨ c = .preempt) : (stateOf (inside c)).Settled (inside c) := by
  rcases h with rfl | rfl <;> exact settled_of rfl (by decide)

theorem witness_return_from_handler : (stateOf (inside .preempt)).active h64 (inside .preempt) ≠ 0 ∧ (inside .preempt).div.live &&& ~~~(stateOf (inside .preempt)).active h64 (inside .preempt) = 0 ∧
    (inside .preempt).regs.inh = true ∧ (inside .preempt).regs.hcause.toNat = Cause.preempt.code ∧ (inside .preempt).pre = .none ∧
    (inside .preempt).dgst = false ∧ (inside .preempt).readFrame.flag 14 = false ∧ (stateOf (inside .preempt)).frameBad 0 (inside .preempt) (inside .preempt).readFrame = false ∧
    (inside .preempt).readFrame.ovd = 0 ∧ (inside .preempt).regs.prep = false ∧ (∀ k ∈ (inside .preempt).readFrame.threads, k.st ≠ .held) ∧
    ∀ b, (((stateOf (inside .preempt)).slot 0).bar b).owed = [] := by
  refine ⟨by decide, by decide, rfl, by decide, rfl, rfl, by decide, by decide, by decide, rfl, by decide, fun b => ?_⟩
  cases b <;> rfl

/-- In a save, and outside a handler. -/
def saving : Fibre := { inside .preempt with pre := .entered }
theorem witness_prdone : (stateOf saving).Settled saving ∧ (stateOf saving).active h64 saving ≠ 0 ∧ saving.div.live &&& ~~~(stateOf saving).active h64 saving = 0 ∧ saving.regs.inh = true ∧
    saving.regs.hcause.toNat = Cause.preempt.code ∧ saving.pre ≠ .none ∧ demoX.regs.inh = false :=
  ⟨settled_of rfl (by decide), by decide, by decide, rfl, by decide, by decide, rfl⟩

/-- A binding table at 131072 on die 0: the first entry names macro 5 or a routine; macro 5 is defined. -/
def bound (e tva : Nat) : State :=
  let s := stateOf handled
  { s with
    dies := [(0, { Die.reset with r := { Die.reset.r with emubase := 131072 } })]
    mem := memWrite s.mem 131072 (leBytes 8 e ++ leBytes 8 tva)
    cores := [(0, { s.core 0 with cstore := [(5, [(Instr.nop h64).toRaw])] })] }
/-- An extension opcode that can run as a call. -/
def extension : Raw := { (Instr.nop h64).toRaw with opcode := 0x200, d := 4, a := 0, b := 2, c := 0 }

theorem witness_TrapsAndExtensions : (stateOf handled).Settled handled ∧ (stateOf handled).active h64 handled ≠ 0 ∧ (stateOf handled).CanEnter 0 handled ∧ handled.regs.tvec ≠ 0 ∧
    ((stateOf handled).die 0).r.emubase = 0 ∧ (bound 11 0).binding 0 extension = .ok (11, 0) ∧ (bound 0 65700).binding 0 extension = .ok (0, 65700) ∧
    ((bound 11 0).die 0).r.emubase ≠ 0 ∧ tget [] ((bound 11 0).core 0).cstore (11 / 2 % 64) ≠ [] ∧ wordCallable extension = true ∧
    badParam extension.d = false ∧ badParam extension.a = false ∧ badParam extension.b = false ∧ badParam extension.c = false ∧ 65700 % 2 ^ 56 ≠ 0 :=
  ⟨settled_of rfl (by decide), by decide, ⟨rfl, rfl, by decide, rfl, by decide, by decide, by decide, rfl⟩, by decide, rfl, rfl, rfl, by decide, by decide,
    by decide, by decide, by decide, by decide, by decide, by decide⟩

theorem witness_bound_settled : (bound 11 0).Settled handled ∧ (bound 0 65700).Settled handled ∧ (bound 0 65700).CanEnter 0 handled :=
  ⟨settled_of rfl (by decide), settled_of rfl (by decide), ⟨rfl, rfl, by decide, rfl, by decide, by decide, by decide, rfl⟩⟩

theorem witness_StatusRegisters : demo.Settled demoX ∧ (Opd.s 4).Fits demoX 1 ∧ (Opd.s 0).Fits demoX 2 ∧ (Opd.s 4).Fits demoX 1 ∧ (Instr.csrr h64 (.s 4) 0x4F).legal = true ∧
    (Instr.clock h64 true (.s 0)).legal = true ∧ (Instr.featr h64 true (.s 4) (.s 4)).legal = true ∧ demo.active h64 demoX ≠ 0 ∧ (ss 4).Fits demoX 1 ∧
    (Instr.csrw h64 5 (ss 4)).legal = true :=
  ⟨settled_demo, fit_s4, fit_s0, fit_s4, by decide, by decide, by decide, by decide, fit_s4, by decide⟩

/-! Tasks, staging and digests -/

/-- Its die has spawned as many tasks, and holds as many submissions, as it may. -/
def crowded : State :=
  { demo with dies := [(0, { Die.reset with spawned := 4096, subs := List.replicate 256 { node := 0, asid := 0, grun := true } })] }

theorem witness_Spawning : demo.Settled demoX ∧ demo.active h64 demoX ≠ 0 ∧ (Opd.s 0).Fits demoX 2 ∧ packageReady demo ∧ (demo.die 0).spawned < 4096 ∧ (demo.die 0).subs.length < 256 ∧
    (∃ pg, demo.openAccess clsLoad .load false true 65536 64 64 = .ok (pg, spot 64, demo)) ∧
    ∃ rec, demo.readSegs 0 (Access.make .load 65536 (spot 64) 64 .b32 .none 0) (spot 64) = (rec, demo) ∧ recordBad rec = false :=
  ⟨settled_demo, by decide, fit_s0, rfl, by decide, by decide, ⟨_, rfl⟩, _, rfl, by decide⟩

theorem witness_limits : crowded.Settled demoX ∧ 4096 ≤ (crowded.die 0).spawned ∧ 256 ≤ (crowded.die 0).subs.length :=
  ⟨settled_of rfl (by decide), by decide, by decide⟩

/-- A bin of die 0 whose block is at 65536 and whose records, of 16 bytes, are stored from 66560 on. -/
def bin : Bin :=
  { closed := false, desc := default, store := 66560, cap := 16, rsize := 16, ord := false, coal := 4, nkey := 1, timer := 0, rings := [{ next := 0, pending := 0, since := none }]
    groups := [], nextG := 0, emitted := [], td := [], regions := [] }
def emitting : State := { demo with iss := { demo.iss with run := 1 }, dies := [(0, { Die.reset with nodes := [(9, Node.make 0 65536 2 0)], bins := [(9, bin)] })] }

theorem witness_EmissionAndCondition : emitting.Settled demoX ∧ emitting.beatsOf h64 false demoX = [0] ∧ (Opd.s 0).Fits demoX 2 ∧
    (Opd.v 0).Fits demoX (emitting.emitRegs h64 (.s 0)) ∧ passesLast (.v 0) (emitting.emitRegs h64 (.s 0)) = false ∧ packageReady emitting ∧
    (∃ pg, emitting.openAccess clsLoad .load false true 65536 64 64 = .ok (pg, spot 64, emitting)) ∧ emitting.binDie (emitting.launchOf demoX).die (emitting.asidOf demoX) 65536 = 0 ∧ emitting.reaches emitting.myDie 0 = true ∧
    (∃ blk, emitting.readSegs 0 (Access.make .load 65536 (spot 64) 64 .b32 .none 0) (spot 64) = (blk, emitting) ∧
      emitting.openBin 0 0 65536 (.ofBytes blk) = (some (9, bin), emitting)) ∧
    bin.fullRing 0 = false ∧ 4 ≤ bin.rsize ∧ bin.desc.place = 0 ∧
    ∃ pg segs, emitting.openAccess clsStore .store false false (bin.store + bin.recordAt 0 (bin.ring 0).next * bin.rsize) bin.rsize 0 = .ok (pg, segs, emitting) := by
  refine ⟨settled_of rfl (by decide), by decide, fit_s0, ?_, by decide, rfl, ⟨_, rfl⟩, by decide, by decide, ⟨_, rfl, rfl⟩, by decide, by decide, by decide, _, _, rfl⟩
  rw [show emitting.emitRegs h64 (.s 0) = 4 by decide]; exact ⟨by decide, by decide⟩

theorem witness_condw : demo.Settled demoX ∧ demo.active h64 demoX ≠ 0 ∧ (Opd.s 0).Fits demoX 2 ∧ (ss 4).Fits demoX 1 ∧ (Instr.condw h64 (.s 0) (ss 4)).legal = true ∧
    (∃ pg, demo.openAccess clsStore .store false false 65536 4 4 = .ok (pg, spot 4, demo)) ∧ demo.local (spot 4) :=
  ⟨settled_demo, by decide, fit_s0, fit_s4, by decide, ⟨_, rfl⟩, local_spot _⟩

/-- s8:s9 the target 69632, s12:s13 the base 65536, s14 one slot; that slot holds the sum of 5, filled. -/
def combineX : Fibre := fibreOf [] [(8, 69632), (12, 65536), (14, 1)]
def combining : State := let s := stateOf combineX; { s with mem := memWrite s.mem 65536 (leBytes 16 (2 ^ 96 + 5)) }

theorem witness_CombineAndDigest : combining.Settled combineX ∧ combining.active h64 combineX ≠ 0 ∧ (Opd.s 8).Fits combineX 2 ∧ (Opd.s 12).Fits combineX 4 ∧
    (Opd.s 8).value combining combineX true 0 = 69632 ∧ (Opd.s 12).value combining combineX true 0 = 65536 ∧ (combining.opWord combineX (.s 12) 2 0).toNat = 1 ∧
    combining.onTheWay = false ∧ combining.memCe = [] ∧
    (∃ pt ts ps ss v e, combining.openAccess clsAtomic .load false true 69632 4 0 = .ok (pt, ts, combining) ∧ combining.openAccess clsAtomic .load false true 65536 16 0 = .ok (ps, ss, combining) ∧
      foldSlots .add .i32 (combining.homeBytes ss) 1 0 (leNat (combining.homeBytes ts), 0) = .ok (v, e)) ∧
    (Opd.s 8).Fits combineX 2 ∧ (Instr.dgstr h64 (.s 8)).legal = true ∧ combining.digestWait = .ok combining :=
  ⟨settled_of rfl (by decide), by decide, ⟨by decide, by decide⟩, ⟨by decide, by decide⟩, by decide, by decide, by decide, by decide, rfl,
    ⟨_, _, _, _, _, _, rfl, rfl, rfl⟩, ⟨by decide, by decide⟩, by decide, rfl⟩

theorem witness_no_slots : (Opd.s 0).Fits demoX 2 ∧ (demo.opWord demoX (.s 8) 2 0).toNat = 0 ∧ (Opd.s 8).value demo demoX true 0 = 0 ∧ (Opd.s 0).value demo demoX true 0 = 65536 := by
  refine ⟨fit_s0, ?_⟩; decide

/-! Copies, barriers, rings -/

/-- s0:s1 the source 65536, s2:s3 the offset 64, s4 a length of 16, s5 one row, s6 and s7 the pitches; s8 the offset 128, s10:s11 an address for a stamp, s12 the offset 64, s14 one. -/
def wideX : Fibre := fibreOf [] [(0, 65536), (2, 64), (4, 16), (5, 1), (6, 16), (7, 16), (8, 128), (10, 65544), (12, 64), (14, 1)]
/-- Its window is 256 bytes at 512; the bytes given lie in the scratchpad from 576 on. -/
def windowOf (x : Fibre) (spad : List Byte) : State :=
  let s := stateOf x
  { s with
    cohorts := [(0, { (default : Cohort) with slots := [0], win := 512, z := 256, kbase := [6] })]
    launches := [(0, { placedLaunch with desc := { placedLaunch.desc with ndist := 1 } })]
    clusters := [(0, { s.clu 0 with spad := tblWrite [] 576 spad })] }
/-- An object at 576 with the fields given. -/
def objectState (pend : Word) (partn partr : Nat) (phase : Word) : State := windowOf wideX ({ pend := pend, partn := partn, partr := partr, phase := phase, stat := 0xB70000 } : BarObj).bytes

def wide : State := windowOf wideX []
theorem settled_wide : wide.Settled wideX := settled_of rfl (by decide)
theorem fit_s0_8 : (Opd.s 0).Fits wideX 8 := ⟨by decide, by decide⟩

/-- The copy of the examples: 16 bytes of memory to the window. -/
def copied (ck : Ck) (path : CopyPath) (len : Nat) : Copy :=
  { (default : Copy) with path := path, src := 65536, dst := 64, len := len, rows := 1, srcPitch := 16, dstPitch := 16, ck := ck, winBase := 512, winSize := 256 }

theorem witness_CopyInstructions : wide.Settled wideX ∧ wide.active h128 wideX ≠ 0 ∧ (Opd.s 0).Fits wideX 8 ∧ wide.orderWait true (some .die) = .ok wide ∧
    (Instr.acopy h128 .fe .m2s none (.s 0) none 0).legal = true ∧ (copied .fe .m2s 16).refusal = none ∧ wide.mine.copies.length < 64 ∧ wide.mine.freeFail ≠ none ∧
    (Instr.acopy h128 .stamp .m2m (some (.s 10)) (.s 0) none 0).legal = true ∧ (Opd.s 10).Fits wideX 2 ∧ (Opd.s 10).value wide wideX true 0 = 65544 ∧
    (∃ p, wide.stampAt 65544 = .ok (p, wide)) ∧ (Instr.tcopy h128 .stamp (.s 10) (.s 0) none 0 0).legal = true ∧ (wide.opWord wideX (.s 0) 4 0).toNat = 16 :=
  ⟨settled_wide, by decide, fit_s0_8, rfl, by decide, by decide, by decide, by decide, by decide, ⟨by decide, by decide⟩, by decide, ⟨_, rfl⟩, by decide, by decide⟩

theorem witness_copy_to_object : (objectState 0 3 2 7).barAt 64 16 = .ok 576 ∧ (Opd.s 12).Fits wideX 1 ∧ (Opd.s 12).value (objectState 0 3 2 7) wideX false 0 = 64 ∧
    (Instr.acopy h128 .bar .m2s (some (.s 12)) (.s 0) none 0).legal = true ∧ (copied .bar .m2s 16).refusal = none :=
  ⟨rfl, ⟨by decide, by decide⟩, by decide, by decide, by decide⟩

/-- A queue with 64 copies. -/
def queueFull : State := { wide with clusters := [(0, { wide.mine with copies := List.replicate 64 default })] }
/-- A descriptor of zeros. -/
theorem witness_copy_waits_or_fails : queueFull.Settled wideX ∧ 64 ≤ queueFull.mine.copies.length ∧ (Opd.s 16).Fits wideX 8 ∧
    (Instr.acopy h128 .bar .m2m (some (.s 12)) (.s 16) none 0).legal = true ∧ (wide.opWord wideX (.s 16) 4 0).toNat = 0 ∧
    (Instr.tcopy h128 .fe .sz (.s 0) none 15 0).legal = true :=
  ⟨settled_of rfl (by decide), by decide, ⟨by decide, by decide⟩, by decide, by decide, by decide⟩

theorem witness_BarrierObjects : wide.Settled wideX ∧ wide.active h64 wideX ≠ 0 ∧ wide.mine.spadBad = [] ∧ wide.mine.spadCe = [] ∧ (Opd.s 12).Fits wideX 1 ∧ (ss 14).Fits wideX 1 ∧
    (Instr.barinit h64 (.s 12) (ss 14)).legal = true ∧ (Opd.s 12).value wide wideX false 0 = 64 ∧ 64 % 64 = 0 ∧ 64 + 64 ≤ wide.winSize wideX ∧ 576 = wide.winBase wideX + 64 ∧
    0 < (ss 14).value wide wideX false 0 ∧ (ss 14).value wide wideX false 0 < 65536 ∧ (wide.barObj 0 576).made = false ∧ (ss 13).value wide wideX false 0 = 0 :=
  ⟨settled_wide, by decide, by decide, by decide, ⟨by decide, by decide⟩, ⟨by decide, by decide⟩, by decide, by decide, by decide, by decide, by decide, by decide, by decide, by decide, by decide⟩

theorem witness_arrivals : (objectState 0 3 1 7).Settled wideX ∧ (objectState 0 3 1 7).barAt 64 16 = .ok 576 ∧ ((objectState 0 3 1 7).barObj 0 576).cont = false ∧
    (Instr.barexp h64 (.s 12) (ss 14)).legal = true ∧ (Opd.s 8).Fits wideX 1 ∧ (Instr.bararv h64 (.s 8) (.s 12) 3).legal = true ∧ wideX.regs.satTrap = false ∧ wideX.pos.det = false ∧
    (objectState 0 3 1 7).standing = none ∧ (objectState 0 3 1 7).orderWait true (some .clu) = .ok (objectState 0 3 1 7) ∧ ((objectState 0 3 1 7).barObj 0 576).partr ≠ 0 ∧
    ((objectState 5 3 0 7).barObj 0 576).partr = 0 ∧ ((objectState 0 3 1 7).barObj 0 576).ovf = false ∧ ((objectState 0 3 1 7).barObj 0 576).err = 0 ∧
    ((objectState 0 3 1 7).barObj 0 576).phase.toNat ≠ (Opd.s 14).value (objectState 0 3 1 7) wideX false 0 ∧
    ((objectState 0 3 1 1).barObj 0 576).phase.toNat = (Opd.s 14).value (objectState 0 3 1 1) wideX false 0 :=
  ⟨settled_of rfl (by decide), rfl, by decide, by decide, ⟨by decide, by decide⟩, by decide, by decide, by decide, by decide, rfl, by decide, by decide, by decide,
    by decide, by decide, by decide⟩

theorem witness_continuation : (objectState 0 3 1 7).barAt 64 64 = .ok 576 ∧ ((objectState 0 3 1 7).barObj 0 576).partr = 1 ∧ ((objectState 0 3 1 7).barObj 0 576).pend = 0 ∧
    (objectState 0 3 1 7).contDue 0 0 = false ∧ ((objectState 2 3 1 7).barObj 0 576).pend ≠ 0 ∧ wideX.div.live &&& ~~~(objectState 0 3 1 7).active h128 wideX = 0 ∧ wideX.div.ovd = 0 ∧
    wideX.div.j = List.replicate 8 .reset ∧ wideX.div.heldBar = none ∧ ∀ e ∈ (objectState 0 3 1 7).mine.conts, e.phys ≠ 576 :=
  ⟨rfl, by decide, by decide, by decide, by decide, by decide, rfl, rfl, rfl, by decide⟩

/-- s8 on: a region of one tile of one granule at 65536. -/
def ringX : Fibre := fibreOf [] [(0, 128), (8, 65536), (10, 16), (11, 65537), (12, 1), (13, 1), (16, 1)]
/-- A ring of one slot at 576; its TAIL and HEAD as given. -/
def ringOf (dir : Bool) (head tail : Nat) : Ring :=
  { (default : Ring) with sub := 0, base := 576, logn := 0, dir := dir, slotG := 1, region := 65536, pitch := 16, tw := 1, th := 1, tx := 1, ty := 1, head := head, tail := tail }
def ringState (dir : Bool) (head tail : Nat) : State :=
  let s := windowOf ringX (leBytes 4 head ++ leBytes 4 tail)
  { s with clusters := [(0, { s.mine with rings := [(7, ringOf dir head tail)] })] }
def ringBefore : State := windowOf ringX []

theorem witness_RingsAndQueries : ringBefore.Settled ringX ∧ ringBefore.active h128 ringX ≠ 0 ∧ ringBefore.mine.spadBad = [] ∧ ringBefore.mine.waiters = [] ∧ (Opd.s 0).Fits ringX 1 ∧
    (Opd.s 8).Fits ringX 6 ∧ (Opd.s 1).Fits ringX 1 ∧ (Instr.subs h128 (.s 1) (.s 0) (.s 8) 0 false).legal = true ∧
    ringBefore.subsCheck { ringOf false 0 0 with base := 640 } = .ok (0, ringBefore) ∧ ringBefore.winBase ringX + (Opd.s 0).value ringBefore ringX false 0 = 640 ∧
    ringBefore.orderWait true (some .pkg) = .ok ringBefore ∧ ringBefore.mine.rings.length < 16 :=
  ⟨settled_of rfl (by decide), by decide, by decide, by decide, ⟨by decide, by decide⟩, ⟨by decide, by decide⟩, ⟨by decide, by decide⟩, by decide, rfl, by decide, rfl,
    by decide⟩

theorem witness_ring_release : (∀ d, (ringState d 1 0).ringAt 64 = some (7, ringOf d 1 0)) ∧ (ringState false 1 0).ring? 0 7 = some (ringOf false 1 0) ∧ (ringOf false 1 0).state ≠ 3 ∧
    (ringState false 1 0).orderWait true (some .clu) = .ok (ringState false 1 0) ∧ (Instr.rrel h64 (.s 0) (ss 16)).legal = true ∧
    1 ≤ gap (ringOf false 1 0).head ((ringState false 1 0).tailOf 0 (ringOf false 1 0)) ∧ gap (ringOf false 0 0).head ((ringState false 0 0).tailOf 0 (ringOf false 0 0)) < 1 ∧
    gap ((ringState true 0 0).tailOf 0 (ringOf true 0 0)) (ringOf true 0 0).head + 1 ≤ (ringOf true 0 0).slots ∧ (ringState true 0 0).tailOf 0 (ringOf true 0 0) + 1 ≤ (ringOf true 0 0).tiles ∧
    (ringOf true 0 1).slots < gap ((ringState true 0 1).tailOf 0 (ringOf true 0 1)) (ringOf true 0 1).head + 1 :=
  ⟨fun d => by cases d <;> rfl, rfl, by decide, rfl, by decide, by decide, by decide, by decide, by decide, by decide⟩

/-- Four queries are out. -/
def asked : State := { ringBefore with clusters := [(0, { ringBefore.mine with queries := List.replicate 4 { (default : Query) with fibre := 0 } })] }

theorem witness_queries : (Opd.s 0).Fits ringX 1 ∧ (Opd.s 2).Fits ringX 1 ∧ 128 % 16 = 0 ∧ (Opd.s 0).value ringBefore ringX false 0 + 16 ≤ ringBefore.winSize ringX ∧
    (Opd.s 2).value ringBefore ringX false 0 < (ringBefore.launchOf ringX).desc.ndist ∧ ringBefore.queriesOf 0 < 4 ∧ asked.Settled ringX ∧ 4 ≤ asked.queriesOf 0 :=
  ⟨⟨by decide, by decide⟩, ⟨by decide, by decide⟩, by decide, by decide, by decide, by decide, settled_of rfl (by decide), by decide⟩

/-- The connection of the window is broken. -/
def brokenLink : State := { windowed with dies := [(0, { windowed.die 0 with rcBad := [(3, 2)] })] }

theorem witness_rmtw : windowed.Settled demoX ∧ (Opd.v 0).Fits demoX 2 ∧ (Opd.s 2).Fits demoX 2 ∧
    (∃ w, windowed.remoteAt 5 ((Opd.s 2).value windowed demoX true 7 + (56 : BitVec 40).toNat) 8 = .ok w ∧ (windowed.die 0).broken w = false ∧
      (brokenLink.die 0).broken w = true) :=
  ⟨settled_of rfl (by decide), fit_v0p, ⟨by decide, by decide⟩, _, rfl, by decide, by decide⟩

/-! The matrix engine -/

/-- An integer pass of one element a row, without post-operator steps. -/
def pass1 : Staging := { cfg := 0x85, pre := 0, post0 := 0, post1 := 0, unf0 := 0x100100000, unf1 := 1 }
def mxX : Fibre := let x := fibreOf [] [(0, 0xFF), (2, 64), (4, 127)]; { x with regs := { x.regs with stg := pass1 } }
/-- Register 0 of the fibre's cohort, number 6 of the cluster, as given. -/
def mxState (k : KReg) : State := let s := windowOf mxX []; { s with clusters := [(0, { s.mine with k := [(6, k)] })] }
def kIdle : KReg := { (default : KReg) with stg := pass1 }
def kArmed : KReg := { kIdle with state := 1, members := [(0, 0xFF)], remain := 8 }
def kDone : KReg := { kIdle with state := 5, hold := true }

theorem witness_ConvergenceRegisters : (mxState kIdle).Settled mxX ∧ (mxState kIdle).active h64 mxX ≠ 0 ∧ (ss 0).Fits mxX 2 ∧ (Instr.mxcfg h64 (ss 0)).legal = true ∧ (mxState kIdle).kAt 0 = some 6 ∧
    (mxState kIdle).mine.spadCe = [] ∧ (Opd.s 0).Fits mxX 2 ∧ (Opd.s 2).Fits mxX 1 ∧ (Instr.kset h64 0 false (.s 6) (.s 0) (.s 2) 0).legal = true ∧
    (mxState kIdle).ksetMembers ((mxState kIdle).envOf 0 mxX 0) false 0xFF 1 = .ok [(0, 0xFF)] ∧ ((mxState kIdle).kreg 0 6).state = 0 ∧ pass1.ok 0 = true ∧ pass1.rasterOk 64 = true :=
  ⟨settled_of rfl (by decide), by decide, ⟨by decide, by decide⟩, by decide, rfl, by decide, ⟨by decide, by decide⟩, ⟨by decide, by decide⟩, by decide, rfl, by decide, by decide, by decide⟩

theorem witness_kset_fibres : (Instr.kset h64 0 true (.s 6) (.s 2) (.s 2) 0).legal = true ∧ ∃ ms, (mxState kDone).ksetMembers ((mxState kDone).envOf 0 mxX 0) true 0 1 = .ok ms := ⟨by decide, _, rfl⟩

theorem witness_sign : (mxState kArmed).Settled mxX ∧ Opd.sz.mixes mxX.pos 4 = false ∧ ((mxState kArmed).kreg 0 6).state = 1 ∧ ((mxState kArmed).kreg 0 6).cohort = mxX.pos.cohort ∧
    ((mxState kArmed).kreg 0 6).stg.colsrc = false ∧ ((mxState kArmed).kreg 0 6).members = [((mxState kArmed).iss.fibre, 0xFF)] ∧
    (mxState kArmed).active h64 mxX &&& ~~~((0xFF : BeatMask) &&& ~~~maskIn ((mxState kArmed).kreg 0 6).signed 0) = 0 ∧ ((mxState kArmed).beatsOf h64 false mxX).length ≤ ((mxState kArmed).kreg 0 6).remain ∧
    mxX.pos.width ≤ 64 :=
  ⟨settled_of rfl (by decide), by decide, by decide, by decide, by decide, by decide, by decide, by decide, by decide⟩

theorem witness_mxwait : (∀ st, ((mxState { kIdle with state := st }).kreg 0 6).state = st) ∧ (mxState kDone).orderWait false (some .die) = .ok (mxState kDone) ∧ (mxState kIdle).kAt 1 = none ∧
    (Opd.v 4).Fits mxX 2 := ⟨fun _ => rfl, rfl, rfl, ⟨by decide, by decide⟩⟩

/-- Threads 7 alone drains. -/
def draining : State := let s := mxState kDone; { s with iss := { s.iss with run := 0x80 } }

theorem witness_MatrixTransfers : draining.Settled mxX ∧ draining.mine.spadBad = [] ∧ draining.mine.accCe = [] ∧ draining.active h64 mxX ≠ 0 ∧ (Src.imm 0x800000078).Fits mxX 2 ∧ 0x800000078 = 120 + 65536 * 0 + 2 ^ 24 * (1 - 1) + 2 ^ 32 * 8 ∧ 8 % (64 / 8) = 0 ∧
    (draining.kreg 0 6).state = 5 ∧ (draining.kreg 0 6).hold = true ∧ (draining.kreg 0 6).stg.drainBits 0 1 = 64 ∧
    (Instr.mxdrain h128 0 .v true (some (.v 4)) none (.imm 0x800000078)).legal = true ∧ draining.beatsOf h128 false mxX = [7] ∧ 120 + 7 < 128 ∧
    drainGroupBad mxX.pos (.v 4) 64 2 = false ∧ (Opd.v 4).Fits mxX 2 ∧ ∃ l u, draining.drainRow 0 (draining.kreg 0 6) 127 0 1 = (some l, u) := by
  refine ⟨settled_of rfl (by decide), by decide, by decide, by decide, trivial, by decide, by decide, by decide, by decide, by decide, by decide, by decide, by decide, by decide, ⟨by decide, by decide⟩, ?_⟩
  exact ⟨_, _, rfl⟩

/-- s0:s1 an address in memory; s2 an offset of the window. -/
def outX : Fibre := { mxX with regs := { mxX.regs with s := [(0, 65536), (2, 64)] } }
def drainOut : State := let s := windowOf outX []; { s with clusters := [(0, { s.mine with k := [(6, kDone)] })] }

theorem witness_drain_out : drainOut.Settled outX ∧ drainOut.active h96 outX ≠ 0 ∧ (Opd.s 2).Fits outX 1 ∧ (Opd.s 0).Fits outX 2 ∧
    (Instr.mxdrain h128 0 .s true none (some (.s 2)) (.imm 0x80000007F)).legal = true ∧ (Instr.mxdrain h128 0 .g true none (some (.s 0)) (.imm 0x80000007F)).legal = true ∧
    (Opd.s 2).value drainOut outX false 0 % 8 = 0 ∧ (Opd.s 2).value drainOut outX false 0 + 8 ≤ drainOut.winSize outX ∧ (Opd.s 0).value drainOut outX true 0 = 65536 ∧
    ∃ l u, drainOut.drainRow 0 (drainOut.kreg 0 6) 127 0 1 = (some l, u) ∧ (rowBytes 64 l).length = 8 ∧
      ∃ pg, u.openAccess clsStore .store false false 65536 (rowBytes 64 l).length 0 = .ok (pg, spot 8, u) :=
  ⟨settled_of rfl (by decide), by decide, ⟨by decide, by decide⟩, ⟨by decide, by decide⟩, by decide, by decide, by decide, by decide, by decide, _, _, rfl, rfl, _, rfl⟩

theorem witness_tlds : (Opd.s 2).Fits outX 1 ∧ (Src.imm 0x1000000107).Fits outX 2 ∧ (Instr.tlds h128 15 (.s 2) (.imm 0x1000000107)).legal = true ∧ 7 + 2 ≤ 128 ∧ 16 % 16 = 0 ∧
    (Src.imm 0x1000000107).value drainOut outX true 0 = 7 + 256 * (2 - 1) + 2 ^ 32 * 16 ∧ (Opd.s 2).value drainOut outX false 0 % 16 = 0 ∧
    (Opd.s 2).value drainOut outX false 0 + (2 - 1) * 16 + 128 ≤ drainOut.winSize outX :=
  ⟨⟨by decide, by decide⟩, trivial, by decide, by decide, by decide, by decide, by decide, by decide⟩

theorem witness_edges_and_texels : demo.Settled demoX ∧ (Opd.v 8).Fits demoX 11 ∧ (Opd.v 0).Fits demoX 6 ∧ (Opd.v 6).Fits demoX 1 ∧ (Instr.edgec h64 (.v 8) (.v 0) (.v 6)).legal = true ∧
    (Opd.v 8).Fits demoX 7 ∧ (Opd.v 0).Fits demoX 2 ∧ (Opd.s 126).Fits demoX 2 ∧ (Instr.txw h64 .clamp 3 (.v 8) (.v 0) (.s 126)).legal = true :=
  ⟨settled_demo, ⟨by decide, by decide⟩, ⟨by decide, by decide⟩, ⟨by decide, by decide⟩, by decide, ⟨by decide, by decide⟩, fit_v0p, fit_s126, by decide⟩

/-- s4:s5 a texture of 8 by 8 with a pitch of 32: it is the same at every beat. -/
def texX : Fibre := fibreOf [] [(4, 0x00080008), (5, 32)]
theorem witness_texture : ∀ k, (Opd.s 4).value (stateOf texX) texX true k = 8 + 65536 * 8 + 2 ^ 32 * 32 := fun k =>
  (show _ = (Opd.s 4).value (stateOf texX) texX true 0 from rfl).trans (by decide)

/-! Events -/

/-- Whether a walk ends so; whether an engine's access ends with a value and leaves the state. -/
def finds {α : Type} [DecidableEq α] (m : Reach α) (s : State) (x : α) : Bool :=
  match m with
  | .ok y t => decide (y = x ∧ t = s)
  | _ => false
theorem finds_eq {α : Type} [DecidableEq α] {m : Reach α} {s : State} {x : α} (h : finds m s x = true) : m = .ok x s := by
  unfold finds at h
  split at h
  · obtain ⟨rfl, rfl⟩ := of_decide_eq_true h; rfl
  · cases h

/-- The package at reset, with die 0's registers changed. -/
def dieWith (g : Die → Die) : State := { State.reset with dies := [(0, g Die.reset)] }

theorem witness_RegisterWrites : (dieWith fun d => { d with r := { d.r with halt := true } }).off 0 = true ∧ (dieWith fun d => { d with r := { d.r with halt := true } }).shut 0 = true ∧
    (dieWith fun d => { d with r := { d.r with ownbusy := true } }).shut 0 = true ∧ ({ State.reset with half := true }).shut 1 = true := by decide

theorem witness_registers : let s := dieWith fun d => { d with quar := [(63, { v := true, frame := 5 })] }
    s.shut 0 = false ∧ (s.die (otherDie 0)).boot = none ∧ tfind (s.die 0).quar (63 : BitVec 6).toNat = some { v := true, frame := 5 } ∧
    ∀ p ∈ (s.die 0).faults, p.slot ≠ some (7 : BitVec 16).toNat := by decide

/-- A table of one context, at 1 MiB, that maps the page of the examples: context 0 with its root at 2 MiB. -/
def tables : List Host.Cell :=
  [(0x100000, 0x01), (0x100002, 0x20), (0x200000, 0x01), (0x200002, 0x30), (0x300000, 0x01), (0x300001, 0x10), (0x300002, 0x30), (0x301000, 0x01), (0x301001, 0x20), (0x301002, 0x30), (0x302008, 0x0F),
    (0x30200A, 0x01)]
def mappedDie : Die := { Die.reset with r := { Die.reset.r with ctxbase := 0x100000 } }
def mapped : State := { State.reset with mem := tables, dies := [(0, mappedDie)] }
/-- Fibre 0 asleep for the walk of its page. -/
def walking : Fibre := { demoX with sleep := .walk 0 0 1 }
def oneWalk : Walk := { cluster := 0, asid := 0, page := 1, va := 65536, write := false, fetch := false, cls := 0, core := 0, waiters := [.fibre 0], stage := 2 }
def walkState : State := { mapped with fibres := [(0, walking)], dies := [(0, { mappedDie with walks := [oneWalk] })] }

theorem witness_WalksAndFaults : (walkState.die 0).walks[0]? = some oneWalk ∧ oneWalk.stage = 2 ∧ (∃ ws, walkState.walk 0 0 65536 = (ws, .leaf 65536 65536 0x1000F)) ∧
    walkState.fib? 0 = some walking ∧ walking.sleep = .walk 0 oneWalk.asid oneWalk.page :=
  ⟨rfl, rfl, ⟨_, Prod.ext rfl (by decide +kernel)⟩, rfl, rfl⟩

theorem witness_walk_waits : ({ walkState with dies := [(0, { mappedDie with walks := [{ oneWalk with stage := 1 }] })] }.die 0).walks[0]? = some { oneWalk with stage := 1 } ∧
    ({ oneWalk with stage := 1 }).stage ≠ 2 := by decide

/-- A fault of fibre 0, in slot 3 of the ring or in none; the ring has four slots and TAIL is at its last. -/
def oneFault (slot : Option Nat) : PFault :=
  { asid := 0, page := 1, va := 65540, kind := 0, cls := 0, cluster := 0, core := 0, source := 0, waiters := [.fibre 0], count := 1, slot := slot }
def faulty (slot : Option Nat) (x : Fibre) : State :=
  { State.reset with fibres := [(0, x)], dies := [(0, { Die.reset with faults := [oneFault slot], r := { Die.reset.r with fqbase := 0x400000, fqsize := 4, fqtail := 3, fqhead := 1 } })] }
def failing : Fibre := { handled with sleep := .replay 0 0 1 0, onFail := some ((stateOf handled).iss.req .xlFault 65540 0 none none) }

theorem witness_fault_record : ((faulty none failing).die 0).faults[0]? = some (oneFault none) ∧ (oneFault none).slot = none ∧ ((faulty none failing).die 0).r.fqsize ≠ 0 ∧
    0 ≠ ((faulty none failing).die 0).r.fqhead.toNat ∧ ((faulty none failing).die 0).r.fqsize.toNat ≤ ((faulty none failing).die 0).r.fqtail.toNat + 1 ∧
    ∀ q ∈ ((faulty none failing).die 0).faults, q.slot ≠ some 3 := by decide

theorem witness_fault_reply : (faulty (some 3) failing).shut 0 = false ∧
    ((faulty (some 3) failing).die 0).faults.find? (fun q => q.slot == some (3 : BitVec 16).toNat) = some (oneFault (some 3)) ∧ (oneFault (some 3)).waiters = [.fibre 0] ∧
    (faulty (some 3) failing).fib? 0 = some failing ∧ failing.sleep = .replay 0 (oneFault (some 3)).asid ((oneFault (some 3)).va / 65536) 0 ∧ (∃ r, failing.onFail = some r ∧ r.entry = none) ∧
    failing.trap = none ∧ failing.regs.tvec ≠ 0 ∧ (faulty (some 3) failing).CanEnter 0 failing :=
  ⟨rfl, rfl, rfl, rfl, rfl, ⟨_, rfl, rfl⟩, rfl, by decide, ⟨rfl, rfl, by decide, rfl, by decide, by decide, by decide, rfl⟩⟩

/-- An invalidation of a page by both dies. -/
def invalidating : State := dieWith fun d => { d with r := { d.r with invDone := false, invVa := 65536 } }
theorem witness_invalidation : (invalidating.die 0).r.invDone = false ∧ ∀ e ∈ invalidating.invDies 0, invalidating.invBusy (invalidating.die 0).r e = false := by decide

/-! Accesses performed and answered -/

/-- A fibre with one access out. -/
def waiting (kind : AccKind) (dst : Ref) (n : Nat) (block : Bool) (reply : Option (List Byte)) (host : Bool) (g : Access → Access) : Fibre :=
  let a := { Access.make kind 65536 [{ pa := if host then 2 ^ 51 else 65536, n := n, ca := 0, home := 0, host := host }] n .n32 dst (if dst = .none then 0 else if n < 4 then 1 else n / 4) with
    seq := 1, block := block, reply := reply, home := reply.isSome, data := List.replicate n 7 }
  { handled with out := [g a], sleep := if block then .reply else .awake }
def withFibre (x : Fibre) : State := { State.reset with fibres := [(0, x)] }

/-- What AccessCompletion asks of every access. -/
def lone (x : Fibre) : Bool :=
  match x.out with
  | [a] => match a.segs with
    | [g] => !a.plain && !a.rmt && a.lde.isNone && a.acq.isNone && a.waits.isEmpty && a.n == g.n && a.regs == (if a.dst = .none then 0 else if a.n < 4 then 1 else a.n / 4) && decide (a.beat < 64)
    | _ => false
  | _ => false

theorem witness_AccessCompletion : lone (waiting .load (.priv 4) 4 true none false id) = true ∧ lone (waiting .store .none 4 false none false id) = true ∧
    lone (waiting (.atomic .add .n32) (.priv 4) 4 false none false id) = true ∧ lone (waiting (.atomic .add .n32) (.priv 4) 4 true (some [1, 0, 0, 0]) false id) = true ∧
    lone (waiting .rmtr (.priv 4) 4 true none false id) = true ∧ lone (waiting .load (.priv 4) 4 true none true id) = true := by decide

theorem witness_near : isHost 65536 = false ∧ homeOf 65536 = dieOfFibre 0 ∧ State.reset.memBad = [] ∧ State.reset.memCe = [] ∧
    (∀ i, i < 16 → isHost ((65536 + i) / 128 * 128) = false ∧ homeOf ((65536 + i) / 128 * 128) = dieOfFibre 0) ∧
    ((withFibre (waiting .load (.priv 4) 4 true none false id)).die 0).quarantined 65536 = false ∧
    ((withFibre (waiting .load (.priv 4) 4 true none false id)).die 0).quarantined (65536 + 4 - 1) = false := by decide

/-- A blocked load of an absent die, with the trap it would take. -/
def stranded : Fibre :=
  { waiting .load (.priv 4) 4 true none false (fun a => { a with segs := [{ pa := 65536, n := 4, ca := 0, home := 1, host := false }] }) with
    onFail := some ((stateOf handled).iss.req .homeAbsent 65536 0 none none) }
theorem witness_absent : lone stranded = true ∧ (withFibre stranded).segThere 0 { pa := 65536, n := 4, ca := 0, home := 1, host := false } = false ∧
    (∃ r, stranded.onFail = some r ∧ r.entry = none) ∧ stranded.regs.tvec ≠ 0 ∧ (((withFibre stranded).untrack 0 1).setFib 0 { stranded with out := [] }).CanEnter 0 { stranded with out := [] } :=
  ⟨by decide, by decide, ⟨_, rfl, rfl⟩, by decide, ⟨rfl, rfl, by decide, rfl, by decide, by decide, by decide, rfl⟩⟩

/-- A read of host memory, tracked at its port. -/
def hostRead : State :=
  { withFibre (waiting .load (.priv 4) 4 true none true id) with
    dies := [(0, { Die.reset with r := { Die.reset.r with hlink := true }, tracker := [⟨.pcie, 1, 0, false, 0, 0, 2 ^ 51, [], none, 1, 0⟩] })] }
theorem witness_host_read : isHost (2 ^ 51) = true ∧ hostRead.segThere 0 { pa := 2 ^ 51, n := 4, ca := 0, home := 0, host := true } = true ∧ (hostRead.die 0).port = [] ∧
    (hostRead.die 0).tracker.find? (fun t => t.link == .pcie && t.tag == 1 && t.inc == (hostRead.die 0).r.inc) = some ⟨.pcie, 1, 0, false, 0, 0, 2 ^ 51, [], none, 1, 0⟩ := by decide

theorem witness_stale : (∀ t ∈ (State.reset.die 1).tracker, ¬(t.link = .ethernet ∧ t.tag = 9 ∧ t.inc = (State.reset.die 1).r.inc)) ∧ (3 : BitVec 8) ≠ (State.reset.die 1).r.inc ∧ 0 = (State.reset.die 1).r.inc := by decide

/-- A write-through record of line 512, on its way or at home; and one for the other die, whose incarnation has moved on. -/
def recordState (atHome : Bool) : State := dieWith fun d => { d with wt := [{ id := 1, line := 512, inc := 0, bytes := [(127, 5)], cached := true, atHome := atHome }] }
def staleRecord : State :=
  { State.reset with
    dies := [(0, { Die.reset with wt := [{ id := 1, line := 2 ^ 31, inc := 0, bytes := [(0, 5)], cached := true, atHome := false }], r := { Die.reset.r with peer := true } }),
      (1, { Die.reset with r := { Die.reset.r with pinc := 3 } })] }

theorem witness_RecordsAndMonitors : ((recordState false).die 0).wt[0]? = some { id := 1, line := 512, inc := 0, bytes := [(127, 5)], cached := true, atHome := false } ∧
    (recordState false).reaches 0 (homeOf (512 * 128)) = true ∧ (recordState false).sentBefore 0 512 1 = false ∧ (recordState false).memBad = [] ∧ (0 : BitVec 8) = ((recordState false).die (homeOf (512 * 128))).r.pinc ∧
    ((recordState true).die 0).wt[0]? = some { id := 1, line := 512, inc := 0, bytes := [(127, 5)], cached := true, atHome := true } ∧
    (∀ e ∈ (recordState true).fibres, ∀ a ∈ e.2.out, a.waits = []) := by decide

theorem witness_stale_record : homeOf (2 ^ 31 * 128) ≠ 0 ∧ staleRecord.reaches 0 (homeOf (2 ^ 31 * 128)) = true ∧ staleRecord.sentBefore 0 (2 ^ 31) 1 = false ∧
    (0 : BitVec 8) ≠ (staleRecord.die (homeOf (2 ^ 31 * 128))).r.pinc := by decide

theorem witness_port_and_tracker : let s := dieWith fun d => { d with
      port := [{ id := 1, fibre := none, pa := 2 ^ 51, data := [1] }], r := { d.r with hlink := true }, tracker := [⟨.ethernet, 0, 0, true, 3, 2, 64, [], none, 1, 0⟩] }
    (s.die 0).port = [{ id := 1, fibre := none, pa := 2 ^ 51, data := [1] }] ∧ (s.die 0).r.hlink = true ∧ isHost (2 ^ 51) = true ∧
    (s.die 0).tracker[0]? = some ⟨.ethernet, 0, 0, true, 3, 2, 64, [], none, 1, 0⟩ := by decide

/-- An arm on its way to its home; fibres asleep in MWAIT. -/
def arming : State := { withFibre { armed false with sleep := .reply } with dies := [(0, { Die.reset with arms := [{ fibre := 0, line := 512, overflow := false, live := false, inc := 0 }] })] }
def mwaiting (event : Bool) (n : Nat) : State := withFibre { armed event with sleep := .mwait n }

theorem witness_arm : (arming.die 0).arms[0]? = some { fibre := 0, line := 512, overflow := false, live := false, inc := 0 } ∧ arming.reaches (dieOfFibre 0) 0 = true ∧
    arming.fib? 0 = some { armed false with sleep := .reply } := ⟨rfl, by decide, rfl⟩

theorem witness_mwait : (mwaiting true 0).fib? 0 = some { armed true with sleep := .mwait 0 } ∧ (armed true).monEvent = true ∧ 0 ≤ (mwaiting false 0).nowOf 0 ∧
    (mwaiting false 1).nowOf 0 < 1 ∧ (mwaiting false 1).monGone 0 { armed false with sleep := .mwait 1 } = false :=
  ⟨rfl, rfl, Nat.zero_le _, by decide, by decide⟩

/-! Ports, errors, dies -/

/-- A die whose link is up; a host-feed window of a running node. -/
def linked : State :=
  dieWith fun d => { d with
    r := { d.r with hlink := true, step := 6 }
    nodes := [(4, { Node.make 0 65536 5 2 with window := some 1 })]
    feeds := [(1, { (default : Feed) with node := 4, last := 0xFFFFFFFF })] }

theorem witness_PortsAndErrors : (linked.die 0).r.hlink = true ∧ linked.shut 0 = false ∧ linked.apertureReach 0 65536 64 = true ∧ linked.memBad = [] ∧ linked.memCe = [] ∧
    tfind (linked.die 0).feeds 0 = none ∧ 0x1FF0 < 2 ^ 24 ∧ tfind (linked.die 0).feeds (0x1FF0 / 4096) = some { (default : Feed) with node := 4, last := 0xFFFFFFFF } ∧
    (default : Feed).reading = none ∧ (default : Feed).closing = false ∧
    linked.node? 0 4 = some { Node.make 0 65536 5 2 with window := some 1 } ∧ 0 % 2 ^ 32 = (0xFFFFFFFF + 1) % 2 ^ 32 ∧ (∀ e ∈ linked.fibres, ∀ a ∈ e.2.out, a.waits = []) ∧
    5 ≤ (linked.die 0).r.step.toNat ∧ linked.reaches 0 (homeOf 65536) = true ∧ linked.reaches 0 (homeOf (65536 + 64 - 1)) = true := by decide

theorem witness_broken_connection : let s := { withFibre demoX with dies := [(0, { Die.reset with tracker := [⟨.ethernet, 0, 0, true, 3, 2, 64, [], none, 1, 0⟩] })] }
    (s.die 0).tracker.filter (fun t => t.link == .ethernet && t.port == 3 && t.qpn == 2) = [⟨.ethernet, 0, 0, true, 3, 2, 64, [], none, 1, 0⟩] ∧
    (s.die 0).tracker.filter (fun t => t.link == .ethernet && t.port == 4 && t.qpn == 2) = [] ∧ s.fib? 0 = some demoX := ⟨by decide, by decide, rfl⟩

theorem witness_scrub : isDram (65663 / 128 * 128) = true ∧ homeOf (65663 / 128 * 128) = 0 ∧ (∃ b ∈ [65663], 65536 ≤ b ∧ b < 65536 + 128) ∧ (State.reset.die 0).freeQuar ≠ none := by decide

/-- Something at every place where an error can strike. -/
def strikes : State :=
  { withFibre demoX with
    slots := [(0, .reset)], cores := [(0, { Core.reset with l1 := [{ line := 512, bytes := [] }] })], clusters := [(0, { Cluster.reset with const := [{ line := 512, bytes := [] }] })]
    dies := [(0, { Die.reset with copies := [{ line := 512, epoch := 0, bytes := [], bad := false }] })] }
theorem witness_errors : strikes.fib? 0 = some demoX ∧ 4 / 8 ∉ demoX.regs.spilled ∧ (tfind strikes.slots 0).isSome = true ∧ (∃ l ∈ (strikes.core 0).l1, l.line = 512) ∧
    (∃ l ∈ (strikes.clu 0).const, l.line = 512) ∧ (∃ l ∈ (strikes.die 0).copies, l.line = 512) ∧ isDram 65536 = true ∧ 65536 ∉ strikes.memBad ∧
    strikes.demanded (lineOf 65536) = false ∧ (Opd.v 4).ref demoX.pos demoX.regs.woff 0 ≠ .none :=
  ⟨rfl, by decide, by decide, by decide, by decide, by decide, by decide, by decide, by decide, by decide⟩

theorem witness_DieLife : (State.reset.die 0).r.step = 0 ∧ State.reset.shut 0 = false ∧ (State.reset.die 0).boot = none ∧ (State.reset.die (otherDie 0)).boot = none ∧
    State.reset.off (otherDie 0) = false ∧ (State.reset.die (otherDie 0)).r.step.toNat ≤ 2 ∧ (∀ w ∈ (State.reset.die 0).wt, homeOf (w.line * 128) ≠ 0) ∧
    (State.reset.die 0).wt = [] ∧ (State.reset.die 0).dirty = [] ∧ (State.reset.die 0).port = [] ∧ State.reset.half = false := by decide

/-- One die waits at step 2 of its boot for the other. -/
def waitingBoot : State := { State.reset with dies := [(1, { Die.reset with boot := some ⟨true, true, true, true, false⟩, r := { Die.reset.r with step := 2 } })] }
theorem witness_handshake : (waitingBoot.die 0).r.step = 0 ∧ waitingBoot.shut 0 = false ∧ (waitingBoot.die 0).boot = none ∧ waitingBoot.off (otherDie 0) = false ∧
    (waitingBoot.die (otherDie 0)).boot = some ⟨true, true, true, true, false⟩ ∧ (waitingBoot.die 0).r.peer = false ∧ (waitingBoot.die (otherDie 0)).r.peer = false ∧
    ∀ e ∈ waitingBoot.fibres, e.2.out = [] := by decide

/-- Two dies with DRAM up; two that have trained, the peer lost; an ownership change in progress. -/
def bothUp (g : DieRegs → DieRegs) : State := { State.reset with dies := [(0, { Die.reset with r := g { Die.reset.r with step := 2 } }), (1, { Die.reset with r := { Die.reset.r with step := 2 } })] }
theorem witness_bridge : (∀ e, e < 2 → ((bothUp id).die e).r.peer = false ∧ (bothUp id).shut e = false ∧ ((bothUp id).die e).boot = none ∧ 2 ≤ ((bothUp id).die e).r.step.toNat) ∧
    (∀ e ∈ (bothUp id).fibres, e.2.out = []) ∧
    ((bothUp fun r => { r with peer := true, pinc := 1 }).die 0).r.peer = true ∧
    ((bothUp fun r => { r with peer := true, pinc := 1 }).die (otherDie 0)).r.inc ≠ ((bothUp fun r => { r with peer := true, pinc := 1 }).die 0).r.pinc ∧
    (bothUp fun r => { r with peer := true, pinc := 1 }).launches = [] ∧ (∀ e ∈ (bothUp fun r => { r with peer := true, pinc := 1 }).fibres, e.2.out = [] ∧ e.2.mon = []) ∧
    ((bothUp fun r => { r with peer := true }).die (otherDie 0)).r.halt = false ∧
    ((bothUp fun r => { r with peer := true }).die (otherDie 0)).r.inc = ((bothUp fun r => { r with peer := true }).die 0).r.pinc ∧
    ((bothUp fun r => { r with ownbusy := true }).die 0).r.ownbusy = true ∧ ((bothUp id).die 0).r.ownbusy = false ∧ (bothUp id).half = false := by decide

/-! Engines -/

/-- The ring of the examples as an inbound engine finds it; an outbound one with its tile finished. The tables map its page. -/
def ringIn : State := { ringState false 0 0 with mem := tables, dies := mapped.dies }
def ringOut : State := { ringState true 0 1 with mem := tables, dies := mapped.dies }

theorem witness_EngineSteps : ringIn.mine.spadBad = [] ∧ ringIn.mine.spadCe = [] ∧ ringIn.mine.waiters = [] ∧ ringIn.ring? 0 7 = some (ringOf false 0 0) ∧
    ringIn.ringRuns 0 (ringOf false 0 0) = true ∧ (ringOf false 0 0).inFlight = false ∧ ringIn.tailOf 0 (ringOf false 0 0) = 0 ∧
    gap (ringOf false 0 0).head (ringIn.tailOf 0 (ringOf false 0 0)) < (ringOf false 0 0).slots ∧ 0 < (ringOf false 0 0).slotG ∧
    (let s1 := ringIn.putRing 0 7 (ringOf false 0 0)
     s1.ringRead 0 7 (ringOf false 0 0) (pageParts ((ringOf false 0 0).rowAt 0 0) 16) = .ok (List.replicate 16 0) s1) ∧ (List.replicate 16 (0 : Byte)).length = 16 :=
  ⟨rfl, rfl, rfl, rfl, by decide, by decide, by decide, by decide, by decide, finds_eq (by decide +kernel), rfl⟩

/-- How the parts of a slot end. -/
def pulls (m : Ring × Reach Unit) (p : State → Bool) : Bool :=
  match m with
  | (_, .ok () u) => p u
  | _ => false
theorem pulls_eq {m : Ring × Reach Unit} {p : State → Bool} (h : pulls m p = true) : ∃ z u, m = (z, .ok () u) ∧ p u = true := by
  unfold pulls at h
  split at h
  · exact ⟨_, _, rfl, h⟩
  · cases h

theorem witness_pull : ringOut.ring? 0 7 = some (ringOf true 0 1) ∧ ringOut.ringRuns 0 (ringOf true 0 1) = true ∧ (ringOf true 0 1).inFlight = false ∧
    ringOut.tailOf 0 (ringOf true 0 1) = 1 ∧ (ringOf true 0 1).head ≠ 1 ∧
    ∃ z u, (ringOut.putRing 0 7 (ringOf true 0 1)).pullParts 0 7 (ringOf true 0 1) ((ringOf true 0 1).slotParts.drop (ringOf true 0 1).parts) = (z, .ok () u) ∧
      decide (u.clu 0 = (ringOut.putRing 0 7 (ringOf true 0 1)).clu 0) = true :=
  ⟨rfl, by decide, by decide, by decide, by decide, pulls_eq (by decide +kernel)⟩

theorem witness_ring_states : (ringOf false 0 0).isOpen = true ∧ ({ ringOf false 0 0 with err := 6 } : Ring).err ≠ 0 ∧ (ringOf false 0 0).state = 0 ∧ (ringOf false 0 0).inFlight = false ∧
    (ringOf false 0 0).err = 0 ∧ { ringIn with clusters := [(0, { ringIn.mine with saving := true })] }.ringPauses 0 (ringOf false 0 0) = true := by decide

/-- A queue of one copy. -/
def copying (k : Copy) : State := { wide with clusters := [(0, { wide.mine with copies := [k] })] }
def chunk : Copy := { copied .stamp .m2s 16 with id := 5, started := true, asid := 0 }

theorem witness_copies : (copying chunk).mine.copies = [] ++ chunk :: [] ∧ { chunk with started := false }.started = false ∧ (copying chunk).mine.turn = some chunk ∧ chunk.tcopy = false ∧
    chunk.path = .m2s ∧ chunk.ck ≠ .fe ∧ chunk.rows = 1 ∧ chunk.pos = 0 ∧ 0 < chunk.len ∧ chunk.len ≤ 128 - chunk.dst % 128 ∧
    ∃ data, ((copying chunk).setClu 0 { (copying chunk).mine with lastCopy := 5 }).copyRead 0 chunk chunk.src chunk.len =
      .ok data ((copying chunk).setClu 0 { (copying chunk).mine with lastCopy := 5 }) ∧ data.length = chunk.len :=
  ⟨rfl, rfl, by decide, rfl, rfl, by decide, rfl, rfl, by decide, by decide, _, rfl, rfl⟩

/-- Copies at their end: full-empty, sound or failed; with a stamp; into an object whose phase goes on. -/
theorem witness_copy_ends : (∀ e ∈ (copying chunk).fibres, e.2.sleep ≠ .copyQueue ∧ e.2.sleep ≠ .failTable) ∧
    (let k := { copied .fe .m2s 16 with id := 5, started := true, pos := 16, failIx := some 0 }
     (copying k).copySettled 0 k = true ∧ k.err = none ∧ k.total ≤ k.pos ∧ k.ck = .fe ∧ k.failIx = some 0 ∧ ({ k with err := some 3 }).err = some 3) ∧
    (let k := { copied .stamp .m2s 16 with id := 5, started := true, err := some 255, stampPa := 65544 }
     (copying k).copySettled 0 k = true ∧ 255 < 256 ∧ homeOf k.stampPa = dieOfCluster 0 ∧ isHost k.stampPa = false ∧ (copying k).memBad = []) ∧
    (let k := { copied .bar .m2s 16 with id := 5, started := true, pos := 16, target := 576 }
     let s := { objectState 9 3 1 7 with clusters := [(0, { (objectState 9 3 1 7).mine with copies := [k] })] }
     s.copySettled 0 k = true ∧ k.total ≤ k.pos ∧ (s.barObj 0 576).pend.toInt - (k.count : Int) ≥ -2 ^ 31 ∧ ¬((s.barObj 0 576).pend.toInt - (k.count : Int) = 0 ∧ (s.barObj 0 576).partr = 0)) := by decide

/-- A query of distributor 0, which has items left. -/
def query : Query := { fibre := 0, granule := 36, launch := 0, dist := 0, q := 0, lidx := 0, det := false }
def querying : State :=
  { wide with
    launches := [(0, { placedLaunch with dist := [2, 0, 0, 0], desc := { placedLaunch.desc with ndist := 1, dists := [(3, 2, 1)] } })]
    clusters := [(0, { wide.mine with queries := [query] })] }
theorem witness_answer : querying.mine.queries[0]? = some query ∧ (querying.launch? 0).isSome = true ∧ querying.reaches (dieOfCluster 0) 0 = true ∧
    querying.mine.full.contains query.granule = false ∧ query.dist < ((querying.launch? 0).getD default).dist.length := by decide

/-! Spills, lanes, passes, drains -/

/-- A fibre whose block of v8 to v15 has been written, or not, since it was last in memory; its backing store is the page of the examples. -/
def spillX (dirty : Bool) : Fibre := let x := { demoX with pos := { demoX.pos with bsbase := 65536 } }; { x with regs := { x.regs with dirty := if dirty then [5] else [], filled := [5] } }
def spillState (dirty : Bool) : State := { stateOf (spillX dirty) with iss := .idle, dies := mapped.dies }

/-- Its cohort's shared window alone fills the core's register file. -/
def crammed (s : State) : State := { s with launches := [(0, { placedLaunch with desc := { placedLaunch.desc with shn := 2 ^ 16 } })] }

theorem witness_FileAndPassSteps : (crammed (spillState false)).fib? 0 = some (spillX false) ∧ (spillX false).failure = none ∧ (crammed (spillState false)).oldest 0 5 = true ∧
    (crammed (spillState false)).fileFull (coreOfFibre 0) = true ∧ (spillX false).regs.dirty.contains 5 = false ∧ (spillState false).fileFull (coreOfFibre 0) = false ∧
    (crammed (spillState false)).oldest 0 6 = false := by
  refine ⟨rfl, rfl, ?_⟩; decide

theorem witness_spill : (crammed (spillState true)).fib? 0 = some (spillX true) ∧ (crammed (spillState true)).oldest 0 5 = true ∧
    (crammed (spillState true)).fileFull (coreOfFibre 0) = true ∧ (spillX true).regs.dirty.contains 5 = true ∧ (spillX true).blockBad 5 = 0 ∧
    ∃ u, (crammed (spillState true)).writeChunks 0 (spillX true) ((spillX true).pos.backing (8 * 5) 0) ((spillX true).blockBytes 5) (spillX true).pos.chunks = .ok u ∧
      u.fib? 0 = some (spillX true) :=
  ⟨rfl, by decide, by decide, by decide, by decide, _, rfl, rfl⟩

def fillX : Fibre := { spillX false with sleep := .fill [5], regs := { (spillX false).regs with filled := [], spilled := [5] } }
theorem witness_fill : (stateOf fillX).fib? 0 = some fillX ∧ fillX.sleep = .fill [5] ∧ fillX.rettDue = false ∧ (stateOf fillX).fillRoom 0 fillX = true ∧
    (crammed (stateOf fillX)).fillRoom 0 fillX = false ∧ ∃ u z, (stateOf fillX).fillBlocks 0 [5] = .ok u ∧ u.fib? 0 = some z :=
  ⟨rfl, rfl, rfl, by decide, by decide, _, _, rfl, rfl⟩

/-- Two fibres of lane 0, the first its holder. -/
def shared : State := { stateOf demoX with fibres := [(0, demoX), (64, { demoX with pos := { demoX.pos with fib := 1 } })], lanes := [(0, { holder := some 0, since := 0, expired := false })] }
theorem witness_lane : (shared.lane 0).holder = some 0 ∧ (∃ f ∈ fibresOfLane 0, f ≠ 0 ∧ ∃ x, shared.fib? f = some x ∧ x.ready = true) ∧ shared.nowOf 0 < (shared.lane 0).since + 256 ∧
    (shared.lane 0).since + 256 ≤ { shared with epoch := 256 }.nowOf 0 :=
  ⟨rfl, ⟨64, by decide, by decide, _, rfl, by decide⟩, by decide, by decide⟩

/-- One register of a cluster, ready to post, queued, running with its accumulator sound or not. -/
def passState (st : Nat) (bad : List Nat) : State := { State.reset with
    cohorts := [(0, { (default : Cohort) with win := 512, z := 256 })]
    clusters := [(0, { Cluster.reset with k := [(6, { kIdle with state := st })], accBad := bad })] }
theorem witness_passes : (∀ st, ((passState st []).clu 0).k = [(6, { kIdle with state := st })]) ∧ (passState 4 []).passError 0 { kIdle with state := 4 } = none ∧
    ∃ code, ({ State.reset with clusters := [(0, { Cluster.reset with k := [(6, { kIdle with state := 4, fail := 16 })] })] }).passError 0 { kIdle with state := 4, fail := 16 } = some code :=
  ⟨fun _ => rfl, rfl, _, rfl⟩

def oneDrain : Drain := { fibre := 0, step := 0, k := 6, rel := true, events := 1, regs := [(.priv 4, 7, 9), (.priv 5, 7, 8)], stores := [] }
theorem witness_drain : let s := { passState 5 [] with fibres := [(0, demoX)], clusters := [(0, { (passState 5 []).mine with drains := [oneDrain] })] }
    (s.clu 0).drains = oneDrain :: [] ∧ s.fib? 0 = some demoX ∧ (∀ a ∈ demoX.out, a.seq ∉ oneDrain.stores) ∧ (oneDrain.regs.map fun e => (e.1, e.2.1)).Nodup ∧
    ∀ e ∈ oneDrain.regs, ∃ i, e.1 = .priv i ∧ e.2.1 < 64 := by
  refine ⟨rfl, rfl, by decide, by decide, ?_⟩
  simp only [oneDrain, List.forall_mem_cons, List.not_mem_nil, false_imp_iff, implies_true, and_true]
  exact ⟨⟨4, rfl, by decide⟩, ⟨5, rfl, by decide⟩⟩

/-! The graph -/

/-- Whether a step of the walker ends with a value and leaves the state; and whether it ends with it, whatever it writes. -/
def reads {α : Type} [DecidableEq α] (m : Wk α) (s : State) (x : α) : Bool :=
  match m.exec s with
  | (.ok y, t) => decide (y = x ∧ t = s)
  | _ => false
def answers {α : Type} [DecidableEq α] (m : Wk α) (s : State) (x : α) : Bool :=
  match m.exec s with
  | (.ok y, _) => decide (y = x)
  | _ => false
theorem reads_eq {α : Type} [DecidableEq α] {m : Wk α} {s : State} {x : α} (h : reads m s x = true) : m.exec s = (.ok x, s) := by
  unfold reads at h
  split at h
  · obtain ⟨rfl, rfl⟩ := of_decide_eq_true h; assumption
  · cases h
/-- Whether it ends with such a value and leaves the state; and whether it ends so, whatever it writes, in such a state. -/
def gets {α : Type} (m : Wk α) (s : State) (p : α → Bool) : Bool :=
  match m.exec s with
  | (.ok y, t) => p y && decide (t = s)
  | _ => false
def leaves {α : Type} (m : Wk α) (s : State) (p : State → Bool) : Bool :=
  match m.exec s with
  | (.ok _, t) => p t
  | _ => false
theorem gets_eq {α : Type} {m : Wk α} {s : State} {p : α → Bool} (h : gets m s p = true) : ∃ y, m.exec s = (.ok y, s) ∧ p y = true := by
  unfold gets at h
  split at h
  · rw [Bool.and_eq_true] at h; obtain ⟨h, e⟩ := h; obtain rfl := of_decide_eq_true e; exact ⟨_, ‹_›, h⟩
  · cases h
theorem leaves_eq {α : Type} {m : Wk α} {s : State} {p : State → Bool} (h : leaves m s p = true) : ∃ y u, m.exec s = (.ok y, u) ∧ p u = true := by
  unfold leaves at h
  split at h
  · exact ⟨_, _, ‹_›, h⟩
  · cases h
theorem answers_eq {α : Type} [DecidableEq α] {m : Wk α} {s : State} {x : α} (h : answers m s x = true) : ∃ u, m.exec s = (.ok x, u) := by
  unfold answers at h
  split at h
  · obtain rfl := of_decide_eq_true h; exact ⟨_, ‹_›⟩
  · cases h

/-- The bytes of a page at 65536 beside the tables that map it, and further bytes behind the tables. -/
def graphMem (page : List Host.Cell) : State := { State.reset with mem := page ++ tables, nextId := 20 }
def graphDie (s : State) (g : Die → Die) : State := { s with dies := [(0, g mappedDie)] }
/-- A control block at 65536 of the kind given: its body is at 66048, and its successors, if it has any, are the edges to 65600 and 65664 that stand at 65792. -/
def blockAt (kind : Byte) (edges : Bool) : List Host.Cell :=
  (65536, kind) :: (if edges then [(65548, 2), (65553, 1), (65554, 1)] else []) ++ [(65561, 2), (65562, 1)] ++
    if edges then [(65792, 0x40), (65794, 1), (65824, 0x80), (65826, 1)] else []

/-- The submission of a condition node, and of a launch node whose descriptor, of one cohort of one fibre, is at 66048. -/
def descriptor : List Host.Cell := [(66050, 1), (66065, 4), (66074, 1), (66080, 1)]
def kindCells (kind : Byte) : List Host.Cell := if kind = 0 then [(65561, 2), (65562, 1)] else blockAt kind false
def submitted (kind : Byte) : State := graphDie (graphMem (kindCells kind ++ descriptor)) fun d => { d with subs := [{ node := 65536, asid := 0, grun := false }] }
def started (kind : Byte) : State := graphDie (graphMem (kindCells kind ++ descriptor)) fun d => { d with subs := [] }

/-- What a ready node's body comes to: a node of the walker, or a launch on one die. -/
def walks (e : Block × Work) : Bool := match e.2 with | .walker => true | _ => false
def launches (e : Block × Work) : Bool := match e.2 with | .launch k => k.place == 0 | _ => false
theorem walks_eq {e : Block × Work} (h : walks e = true) : ∃ b, e = (b, .walker) := by
  obtain ⟨b, w⟩ := e; unfold walks at h; split at h
  · exact ⟨b, by rename_i hw; exact congrArg _ hw⟩
  · cases h
theorem launches_eq {e : Block × Work} (h : launches e = true) : ∃ b k, e = (b, .launch k) ∧ k.place = 0 := by
  obtain ⟨b, w⟩ := e; unfold launches at h; split at h
  · rename_i k hw; exact ⟨b, k, congrArg _ hw, by simpa using h⟩
  · cases h

theorem witness_GraphSteps : (submitted 3).shut 0 = false ∧ ((submitted 3).die 0).subs = { node := 65536, asid := 0, grun := false } :: [] ∧
    (∀ e ∈ (submitted 3).fibres, e.2.sleep ≠ .grun) ∧ (submitted 3).nodeAt 0 0 65536 = none ∧ (submitted 3).nodeAt (otherDie 0) 0 65536 = none ∧
    (submitted 3).setDie 0 { (submitted 3).die 0 with subs := [], edges := ((submitted 3).die 0).edges.filter fun e => !(e.asid == 0 && e.va == 65536) } = started 3 ∧
    (∃ b, (wkBody 0 0 65536).exec (started 3) = (.ok (b, .walker), started 3)) ∧
    ∃ y u, (wkState 0 0 65536 1 none).exec (started 3) = (.ok y, u) ∧ decide (u.nextId = 20 ∧ (u.die 0).subs = []) = true := by
  refine ⟨by decide, by decide, by decide, by decide, by decide, by decide, ?_, leaves_eq (by decide +kernel)⟩
  obtain ⟨e, h, w⟩ := gets_eq (m := wkBody 0 0 65536) (s := started 3) (p := walks) (by decide +kernel)
  obtain ⟨b, rfl⟩ := walks_eq w; exact ⟨b, h⟩

theorem witness_launch : (∃ b k, (wkBody 0 0 65536).exec (started 0) = (.ok (b, .launch k), started 0) ∧ k.place = 0) ∧
    ∃ y u, (wkState 0 0 65536 2 none).exec (started 0) = (.ok y, u) ∧ decide (u.nextId = 20 ∧ (u.die 0).subs = []) = true := by
  refine ⟨?_, leaves_eq (by decide +kernel)⟩
  obtain ⟨e, h, w⟩ := gets_eq (m := wkBody 0 0 65536) (s := started 0) (p := launches) (by decide +kernel)
  obtain ⟨b, k, rfl, q⟩ := launches_eq w; exact ⟨b, k, h, q⟩

/-- A host-feed node, alone in its graph, whose body names window 7; the list of submissions may be full. -/
def feeding (n : Nat) : State :=
  graphDie (graphMem (blockAt 5 false ++ [(66048, 7)])) fun d => { d with subs := List.replicate n { node := 0, asid := 0, grun := false } }
def fed : State := (feeding 0).setDie 0 { (feeding 0).die 0 with subs := [{ node := 65536, asid := 0, grun := false }] }
def feedBody : List Byte := 7 :: List.replicate 23 0

theorem witness_submission : (feeding 0).shut 0 = false ∧ ((feeding 0).die 0).subs.length < 256 ∧ 256 ≤ ((feeding 256).die 0).subs.length ∧
    fed.graphSeen 0 0 (2 ^ 20) [65536] [] = [65536] ∧ fed.seen 0 0 65536 64 = some (memBytes fed.mem 65536 64) ∧ (Block.ofBytes (memBytes fed.mem 65536 64)).kind = 5 ∧
    (Block.ofBytes (memBytes fed.mem 65536 64)).sound = true ∧ fed.nodeAt 0 0 65536 = none ∧ fed.seen 0 0 (Block.ofBytes (memBytes fed.mem 65536 64)).body 24 = some feedBody ∧
    fieldAt feedBody 0 2 = 7 ∧ fieldAt feedBody 8 8 = 0 ∧ fieldAt feedBody 16 8 = 0 ∧ tfind ((feeding 0).die 0).feeds 7 = none := by decide +kernel

theorem witness_no_window : ∀ va ∈ (State.reset.setDie 0 { Die.reset with subs := [{ node := 65536, asid := 0, grun := false }] }).graphSeen 0 0 (2 ^ 20) [65536] [],
    (State.reset.setDie 0 { Die.reset with subs := [{ node := 65536, asid := 0, grun := false }] }).seen 0 0 va 64 = none := by decide +kernel

/-- A launch of one cohort in the queue. -/
def queued : State :=
  { graphDie State.reset (fun d => { d with queue := [{ launch := 3, index := 0, readyAt := 0, again := false, desc := none }] }) with
    launches := [(3, { placedLaunch with desc := { placedLaunch.desc with z := 16384, kcnt := 1 } })], nextId := 20 }
theorem witness_placement : (queued.die 0).queue = [{ launch := 3, index := 0, readyAt := 0, again := false, desc := none }] ∧
    (∃ l, queued.launch? 3 = some l ∧ l.desc.slots = 1 ∧ l.desc.stages = 1 ∧ (queued.clusterOrder 0 l).find? (queued.fits l.desc false) = some 0) := ⟨rfl, _, rfl, rfl, rfl, by decide⟩

/-- A cohort whose fibres are gone, of a launch with another still to end, of a bin's group, or with a digest that differs. -/
def ended (l : Launch) (c : Cohort) : State := { State.reset with launches := [(3, l)], cohorts := [(5, { c with launch := 3, slots := [0], z := 16384 })] }
def leftTwo : Launch := { placedLaunch with left := 2 }
theorem witness_cohort_ends : (ended leftTwo default).cohort? 5 = some { (default : Cohort) with launch := 3, slots := [0], z := 16384 } ∧ (ended leftTwo default).launch? 3 = some leftTwo ∧
    leftTwo.group = none ∧ (ended leftTwo default).cohortDone 5 { (default : Cohort) with launch := 3, slots := [0], z := 16384 } = true ∧ (default : Cohort).mode = .first ∧ leftTwo.desc.dgm = 0 ∧
    1 < leftTwo.left := by decide

def groupLaunch : Launch := { placedLaunch with group := some 4, node := 9, left := 1 }
def groupState : State := { ended groupLaunch default with dies := [(0, { Die.reset with nodes := [(9, Node.make 0 65536 2 2)], bins := [(9, bin)] })] }
theorem witness_group : groupLaunch.group = some 4 ∧ groupLaunch.die = 0 ∧ groupState.cohortDone 5 { (default : Cohort) with launch := 3, slots := [0], z := 16384 } = true ∧ groupLaunch.left = 1 ∧
    groupState.bin? 0 9 = some bin ∧ groupState.node? 0 9 = some (Node.make 0 65536 2 2) ∧ (Node.make 0 65536 2 2).state = 2 ∧ bin.ord = false ∧ bin.desc.place = 0 ∧ groupLaunch.desc.dgm = 0 := by decide

theorem witness_mismatch : ({ (default : Cohort) with pending := some (1, 2) }).pending.isSome = true ∧ ({ (default : Cohort) with pending := some (1, 2), mode := .again }).mode = .again ∧
    (default : Cohort).tvec0 = 0 ∧ (State.reset.clu 0).drains = [] ∧ ({ placedLaunch with desc := { placedLaunch.desc with idem := true } }).desc.idem = true := by decide

/-- Nodes of the walker: one in error, one whose work is over and that has no edges, one that evaluates and one that loops, each with two edges. -/
def nodeState (n : Node) (page : List Host.Cell) : State := graphDie (graphMem page) fun d => { d with nodes := [(7, n)] }

theorem witness_retirement : (nodeState (Node.make 0 65536 1 5) []).node? 0 7 = some (Node.make 0 65536 1 5) ∧ (Node.make 0 65536 1 5).left = 0 ∧
    (let s := nodeState (Node.make 0 65536 1 2) (blockAt 1 false)
     s.nodeDone 0 7 (Node.make 0 65536 1 2) = true ∧ (wkEdges 0 0 65536).exec s = (.ok [], s) ∧ s.retireOwed (Node.make 0 65536 1 2) [] = false ∧
     ∃ u, (wkRetire s 0 7 (Node.make 0 65536 1 2)).exec s = (.ok (), u)) :=
  ⟨rfl, rfl, by decide +kernel, reads_eq (by decide +kernel), by decide +kernel, answers_eq (by decide +kernel)⟩

/-- A condition node on two edges; a loop node whose body at 66048 has done one pass of the trip count given. Each once its state is running. -/
def branching : State := nodeState (Node.make 0 65536 3 1) (blockAt 3 true ++ [(66048, 0x40), (66049, 2), (66050, 1)])
def looping (trips : Byte) : State := nodeState (Node.make 0 65536 4 1) (blockAt 4 true ++ [(66048, trips), (66076, 1)])
def running (s : State) : State := ((wkState 0 0 65536 2 none).exec s).2
def runs (s : State) : Bool := match (wkState 0 0 65536 2 none).exec s with | (.ok (), _) => true | _ => false
theorem runs_eq {s : State} (h : runs s = true) : (wkState 0 0 65536 2 none).exec s = (.ok (), running s) := by
  unfold runs at h; unfold running; split at h
  · rename_i e; rw [e]
  · cases h
def blockOf (s : State) : Block := .ofBytes (memBytes s.mem 65536 64)
def isBlockOf (s : State) (b : Block) : Bool :=
  b.w0 == (blockOf s).w0 && b.pred == (blockOf s).pred && b.predn == (blockOf s).predn && b.nsucc == (blockOf s).nsucc && b.succ == (blockOf s).succ && b.body == (blockOf s).body &&
    b.args == (blockOf s).args && b.sound == (blockOf s).sound
theorem isBlockOf_eq {s : State} {b : Block} (h : isBlockOf s b = true) : b = blockOf s := by
  simp only [isBlockOf, Bool.and_eq_true, beq_iff_eq] at h
  cases b; cases hb : blockOf s; simp_all
theorem readsBlock {s : State} (h : gets (wkBlock 0 0 65536) s (isBlockOf s) = true) : (wkBlock 0 0 65536).exec s = (.ok (blockOf s), s) := by
  obtain ⟨y, e, p⟩ := gets_eq h; rw [e, isBlockOf_eq p]

theorem witness_condition : branching.node? 0 7 = some (Node.make 0 65536 3 1) ∧ (wkState 0 0 65536 2 none).exec branching = (.ok (), running branching) ∧
    (wkEdges 0 0 65536).exec (running branching) = (.ok [(65600, []), (65664, [])], running branching) ∧
    (running branching).retireOwed (Node.make 0 65536 3 1) [(65600, []), (65664, [])] = false ∧
    (wkBlock 0 0 65536).exec (running branching) = (.ok (blockOf (running branching)), running branching) ∧ (blockOf (running branching)).body = 66048 ∧
    (wkRead 0 0 66048 8).exec (running branching) = (.ok ([0x40, 2, 1, 0, 0, 0, 0, 0]), running branching) ∧
    (wkHome 0 0 66112 4).exec (running branching) = (.ok 0, running branching) ∧ ∃ u, (wkRetire (running branching) 0 7 (Node.make 0 65536 3 1)).exec (running branching) = (.ok (), u) :=
  ⟨rfl, runs_eq (by decide +kernel), reads_eq (by decide +kernel), by decide +kernel, readsBlock (by decide +kernel), by decide +kernel, reads_eq (by decide +kernel),
    reads_eq (by decide +kernel), answers_eq (by decide +kernel)⟩

theorem witness_loop : (wkState 0 0 65536 2 none).exec (looping 1) = (.ok (), running (looping 1)) ∧
    (wkBlock 0 0 65536).exec (running (looping 1)) = (.ok (blockOf (running (looping 1))), running (looping 1)) ∧ (blockOf (running (looping 1))).nsucc = 2 ∧
    (wkLoop 0 (Node.make 0 65536 4 1) (blockOf (running (looping 1)))).exec (running (looping 1)) = (.ok false, running (looping 1)) ∧
    ∃ z, (wkRetire (running (looping 1)) 0 7 (Node.make 0 65536 4 1)).exec (running (looping 1)) = (.ok (), z) :=
  ⟨runs_eq (by decide +kernel), readsBlock (by decide +kernel), by decide +kernel, reads_eq (by decide +kernel), answers_eq (by decide +kernel)⟩
theorem witness_loop_again : ∃ u, (wkLoop 0 (Node.make 0 65536 4 1) (blockOf (running (looping 2)))).exec (running (looping 2)) = (.ok true, u) := answers_eq (by decide +kernel)

def timed (timer : Nat) : Bin := { bin with timer := timer, rings := [{ next := 1, pending := 1, since := some 0 }] }
theorem witness_timer : ((timed 5).ring 0).since = some 0 ∧ 0 < (timed 5).rings.length ∧ (timed 5).timer ≠ 0 ∧ (timed 5).desc.det = false ∧ State.reset.dieNow 0 < 0 + (timed 5).timer ∧
    0 + (timed 5).timer ≤ { State.reset with epoch := 5 }.dieNow 0 ∧ ((timed 5).ring 0).pending ≠ 0 := by decide

/-! Pre-emption -/

/-- A fibre with a trap that waits, with a pre-emption pending, with a timer that has run out, and one that a save has asked for. -/
def trapped : Fibre := { handled with trap := some ((stateOf handled).iss.req .user 0 0 none none) }
def prepped : Fibre := { handled with regs := { handled.regs with prep := true } }
def timerX : Fibre := { handled with regs := { handled.regs with ttimer := 1, tbase := 0 } }
def wanted : Fibre := { handled with pre := .requested, preAt := 0 }

theorem witness_PreemptionSteps : (withFibre trapped).fib? 0 = some trapped ∧ trapped.frozen = false ∧ trapped.pre = .none ∧ trapped.div.live ≠ 0 ∧ (∃ q, trapped.trap = some q ∧ q.entry = none) ∧
    trapped.sleep = .awake ∧ (withFibre trapped).CanEnter 0 trapped ∧ trapped.regs.tvec ≠ 0 ∧ prepped.trap = none ∧ prepped.failure = none ∧ prepped.settleDue = false ∧ prepped.mid = none ∧ prepped.regs.prep = true ∧
    (withFibre prepped).CanEnter 0 prepped :=
  ⟨rfl, rfl, rfl, by decide, ⟨_, rfl, rfl⟩, rfl, ⟨rfl, rfl, by decide, rfl, by decide, by decide, by decide, rfl⟩, by decide, rfl, rfl, rfl, rfl, rfl,
    ⟨rfl, rfl, by decide, rfl, by decide, by decide, by decide, rfl⟩⟩

theorem witness_timers : timerX.regs.inh = false ∧ timerX.regs.ttimer ≠ 0 ∧ timerX.count ({ withFibre timerX with epoch := 1 }.nowOf 0) = 0 ∧ timerX.sleep = .awake ∧ wanted.pre = .requested ∧ wanted.trap = none ∧ wanted.mid = none ∧
    (withFibre wanted).nowOf 0 < wanted.preAt + 20000 ∧ wanted.preAt + 20000 ≤ { withFibre wanted with epoch := 20000 }.nowOf 0 := by decide

theorem witness_requests : (State.reset.die 0).r.preBusy = false ∧ State.reset.shut 0 = false ∧ ((dieWith fun d => { d with r := { d.r with preBusy := true } }).die 0).r.preBusy = true ∧
    (47 : BitVec 6).toNat < 48 ∧ 48 ≤ (48 : BitVec 6).toNat ∧ (∀ e ∈ demo.fibres, e.2.sleep = .awake) ∧ demo.fib? 0 = some demoX ∧ demoX.frozen = false ∧ State.reset.imageAt 0 = none := by
  refine ⟨rfl, rfl, rfl, by decide, by decide, by decide, rfl, rfl, by rfl⟩

/-- An image of cluster 0 whose header is in the save area at 0x400000. -/
def image : Image := { tag := List.replicate 64 1, id := 0, home := 0, clu := .reset, cohorts := [], slots := [], fibres := [], ended := [] }
def saved (req : PreReq) : State :=
  { State.reset with
    mem := memWrite [] (0x400000 + 0x162000) (leBytes 2 0x8E5A ++ leBytes 62 0 ++ image.tag)
    images := [image]
    dies := [(0, { Die.reset with req := req, r := { Die.reset.r with prearea := 0x400000 } })] }
theorem witness_images : (saved (.restore 0)).imageAt 0 = some image ∧ ((saved (.restore 0)).die 0).req = .restore 0 ∧ image.fibres = [] ∧ image.clu.rings = [] ∧ image.clu.conts = [] ∧ image.ended = [] ∧
    (∀ e ∈ (saved .none).fibres, clusterOfFibre e.1 ≠ 0) ∧ ((saved (.save 0)).die 0).req = .save 0 ∧ (saved (.save 0)).fibresOn 0 = [] ∧ ((saved (.save 0)).die 0).wt = [] ∧
    ((saved (.save 0)).clu 0).rings = [] ∧ ((saved (.save 0)).clu 0).copies = [] ∧ (saved (.save 0)).reaches 0 (homeOf ((saved (.save 0)).die 0).r.prearea.toNat) = true := by
  refine ⟨by rfl, rfl, rfl, rfl, rfl, rfl, by decide, rfl, by rfl, rfl, rfl, rfl, by decide⟩

theorem witness_migration : (demo.cohortsOn 0).find? (fun e => e.2.slots.contains 0) = some (0, { (default : Cohort) with slots := [0] }) ∧
    (∃ b rest, demo.freeSlots (demo.descOf 0) 3 = b :: rest) ∧ demo.fibresIn 0 ≠ [] := ⟨by decide, ⟨_, _, by rfl⟩, by decide⟩

/-- A frozen fibre with its record at the head of the queue; its launch's node runs. -/
def frozenState : State :=
  { stateOf { demoX with frozen := true } with
    dies := [(0, { Die.reset with freeze := [{ c1 := 1, c2 := 63, clu := 0, core := 0, slot := 0, stg := 0, pc := 65536, fibre := 0 }], nodes := [(0, Node.make 0 65536 0 2)] })] }
theorem witness_freeze : frozenState.shut 0 = false ∧ (frozenState.die 0).freeze = [{ c1 := 1, c2 := 63, clu := 0, core := 0, slot := 0, stg := 0, pc := 65536, fibre := 0 }] ∧
    (frozenState.die 0).freezeWait = [] ∧ 0 < 2 ^ 20 ∧ frozenState.fib? 0 = some { demoX with frozen := true } ∧ demoX.div.ovd = 0 ∧ demoX.div.j = List.replicate 8 .reset ∧
    frozenState.node? (frozenState.launchOf demoX).die (frozenState.launchOf demoX).node = some (Node.make 0 65536 0 2) := ⟨rfl, rfl, rfl, by decide, rfl, rfl, rfl, by decide⟩

/-! Words and the step -/

theorem witness_RoundTrip : (Instr.ffma h96 .ru true false true (.v 4) (vs 0) (vs 2) (.s 4)).encoded = true ∧ (Instr.ffma h96 .ru true false true (.v 4) (vs 0) (vs 2) (.s 4)).wf = true ∧
    (Instr.ffma h96 .ru true false true (.v 4) (vs 0) (vs 2) (.s 4)).legal = true := by decide

theorem witness_DecodeChecks : leNat [3] % 4 = 3 ∧ extension.tidy = true ∧ extension.hdr.never = false ∧ 0x200 ≤ extension.opcode.toNat ∧ 28 + extension.len.bytes > 32 ∧
    24 + extension.len.bytes ≤ 32 ∧ ({ extension with opcode := 0x1CE } : Raw).tidy = true ∧ ({ extension with opcode := 0x1FF } : Raw).opcode.toNat < 0x200 ∧
    (Instr.nop ⟨.b64, false, 0, 7, true⟩).toRaw.hdr.never = true := by decide

/-- Lane 0 offers the eight threads of fibre 0, and an IADD stands at their address. -/
def added : State := { stateOf (fibreOf [(0, [1, 2]), (2, [10, 20])] []) with agenda := [.issue 0], mem := memWrite [] 65536 (encode (.iadd h64 .n32 7 0 (.v 4) (vs 0) (vs 2))) }

/-- That fibre with a load of v0 outstanding: the IADD cannot start. -/
def owing : State :=
  let x := fibreOf [] []
  { added with fibres := [(0, { x with out := [Access.make .load 131072 [{ pa := 131072, n := 4, ca := 0, home := 0, host := false }] 4 .b32 (.priv 0) 1] })] }
/-- Five lanes of core 0 have an instruction to start. -/
def contended : State := { added with agenda := [.issue 4], fibres := (List.range 5).map fun i => (4 * i, fibreOf [] []) }

/-- Where a lane's first offer runs: the state, the issue and the fibre of a step. -/
def offered (s : State) : State := (({ s.ticked with iss := { Issue.idle with limit := none } } : State).started 0).takeLane 0 0
def issued : Issue := { fibre := 0, run := 0xFF, pc := 65536, op := none, len := 0, last := true, held := false, limit := none }

/-- An instruction of lane 0 that its fibre fetches and that starts, or cannot. -/
def Runs (s : State) (held : Bool) : Prop :=
  s.agenda = .issue 0 :: [] ∧
  (let s1 := { s.ticked with iss := { Issue.idle with limit := none } }
   s1.wins 0 = true ∧ ∃ more, s1.laneTries 0 = (0, some 0xFF) :: more) ∧
  (∃ x, (offered s).fib? 0 = some x ∧ x.div.ser = false ∧ (maskBeats x.pos.width 0xFF).headD 0 = 0 ∧ (nth default x.div.threads 0).op = none ∧
    (nth default x.div.threads 0).pc = 65536) ∧
  ∃ bytes s4 i, ({ offered s with iss := issued } : State).fetch 0 0 65536 = .bytes bytes s4 ∧ decodeAt 0 bytes = .ok i ∧
    ∃ t, exec i { s4 with iss := { issued with len := i.toRaw.len.bytes } } = .next t ∧ t.iss.held = held

theorem witness_StepRunsDecoded : laneOk 0 = true ∧ Runs added false ∧ (Instr.thermRefresh 1 5).wf = true :=
  ⟨by decide, ⟨rfl, ⟨by decide, _, by rfl⟩, ⟨_, by rfl, by rfl, by decide, by rfl, by rfl⟩, _, _, _, by rfl, by rfl, _, by rfl, by rfl⟩, by decide⟩

theorem witness_cannot_start : Runs owing true :=
  ⟨rfl, ⟨by decide, _, by rfl⟩, ⟨_, by rfl, by rfl, by decide, by rfl, by rfl⟩, _, _, _, by rfl, by rfl, _, by rfl, by rfl⟩

theorem witness_loses : laneOk 4 = true ∧ ({ contended.ticked with iss := { Issue.idle with limit := none } } : State).wins 4 = false ∧
    ({ contended.ticked with iss := { Issue.idle with limit := none } } : State).wins 3 = true := by decide +kernel

theorem witness_MemoryForm : added.memOk ∧ ∃ t, step added = .next t := ⟨by unfold State.memOk; decide, _, by rfl⟩

/-- The step runs it: v4 takes the sums of its first two threads. -/
theorem test_step_iadd : (match step added with | .next t => some ((t.word 0 (.priv 4) 0).toNat, (t.word 0 (.priv 4) 1).toNat) | _ => none) = some (11, 22) := by decide

end Sys2Proof.Tests
end

section
/-! SUPPORT. IADD and ISUB (R305): the carry in and the carry out, and how the two instructions complete. -/

namespace Sys2Proof.Machine

theorem exec_iadd (h : Hdr) (ty : Ty) (co ci : BitVec 3) (d : Opd) (a b : Src) (s : State) :
    exec (.iadd h ty co ci d a b) s = .next (s.addSub false h ty co ci d a b) := rfl

theorem exec_isub (h : Hdr) (ty : Ty) (co ci : BitVec 3) (d : Opd) (a b : Src) (s : State) :
    exec (.isub h ty co ci d a b) s = .next (s.addSub true h ty co ci d a b) := rfl

/-- The rows of the integer instructions take two permuted sources only where each is a single register (R157). -/
theorem permOk_of_legalInt {l : List Ty} {ty : Ty} {d : Opd} {a b : Src} (hl : legalInt l ty ty.regs ty.regs ty.regs d a b = true) :
    permOk a b ty.is64 = true := by
  have hw : (ty.regs == 2 || ty.regs == 2) = ty.is64 := by cases ty <;> rfl
  simp only [legalInt, hw, Bool.and_eq_true] at hl
  exact hl.2

theorem permOk_of_iadd_legal {h : Hdr} {ty : Ty} {co ci : BitVec 3} {d : Opd} {a b : Src} (hl : (Instr.iadd h ty co ci d a b).legal = true) :
    permOk a b ty.is64 = true :=
  permOk_of_legalInt (Bool.and_eq_true_iff.1 hl).1

theorem permOk_of_isub_legal {h : Hdr} {ty : Ty} {co ci : BitVec 3} {d : Opd} {a b : Src} (hl : (Instr.isub h ty co ci d a b).legal = true) :
    permOk a b ty.is64 = true :=
  permOk_of_legalInt (Bool.and_eq_true_iff.1 hl).1

/-- The carry in is 1 exactly where CI names a predicate and that predicate is true at the thread (R305, R301). -/
theorem carryIn_of_settled {s : State} {x : Fibre} (hs : s.Settled x) (ci : BitVec 3) (c : Nat) :
    carryIn x ci c = if ci ≠ 0 ∧ s.pred s.iss.fibre (ci - 1) c = true then 1 else 0 := by
  have hpred : s.pred s.iss.fibre (ci - 1) c = x.regs.pred (ci - 1) c := by simp [State.pred, hs.here]
  simp only [carryIn, hpred, Bool.toNat, Bool.cond_eq_ite, Bool.and_eq_true, bne_iff_ne]

theorem carryIn_cast_of_settled {s : State} {x : Fibre} (hs : s.Settled x) (ci : BitVec 3) (c : Nat) :
    (carryIn x ci c : Int) = if ci ≠ 0 ∧ s.pred s.iss.fibre (ci - 1) c = true then 1 else 0 := by
  rw [carryIn_of_settled hs]
  split <;> rfl

/-- A sum: its low bits, and whether it needs more of them. -/
theorem addCarry_add (w a x c : Nat) : addCarry false w a x c = ((a + x + c) % 2 ^ w, decide (2 ^ w ≤ a + x + c)) := rfl

/-- A difference: its low bits, and whether it is negative. -/
theorem addCarry_sub (w a x c : Nat) :
    addCarry true w a x c = ((((a : Int) - x - c) % (2 ^ w : Nat)).toNat, decide ((a : Int) - x - c < 0)) := by
  have hborrow : a < x + c ↔ (a : Int) - x - c < 0 := by omega
  simp only [addCarry, bitsOf, if_true, hborrow]

/-- What an instruction with a carry-out field leaves of the predicates: the one that CO names takes the carry, and CO = 0 names none. -/
theorem PutResult.carryOut {s t : State} {x y : Fibre} {h : Hdr} {d : Opd} {wide : Bool} {co : BitVec 3} {val : Nat → Nat} {out : Nat → Bool} {ev : Nat → Events}
    (r : PutResult s t x y (s.beatsOf h (!d.perThread) x) d wide (if co = 0 then none else some (co - 1)) val out ev) :
    if co = 0 then s.PredsStand t else s.Carried t x h d (co - 1) out := by
  by_cases hco : co = 0
  · rw [if_pos hco] at r ⊢
    exact r.predsStand
  · rw [if_neg hco] at r ⊢
    exact r.carried

/-- An addition or subtraction issued where nothing is owed to its fibre, by the number and the carry it makes at each thread. -/
theorem addSub_completes {s : State} {x : Fibre} (hs : s.Settled x) (sub : Bool) (h : Hdr) (ty : Ty) (co ci : BitVec 3) {d : Opd} {a b : Src}
    (hd : d.Fits x (regsOf ty.is64)) (ha : a.Fits x (regsOf ty.is64)) (hb : b.Fits x (regsOf ty.is64)) (hp : permOk a b ty.is64 = true)
    {val : Nat → Nat} {out : Nat → Bool}
    (hval : ∀ c, addCarry sub ty.width (a.value s x ty.is64 c) (b.value s x ty.is64 c) (carryIn x ci c) = (val c, out c)) :
    ∃ y, s.Stepped (s.addSub sub h ty co ci d a b) x y ∧ s.Wrote (s.addSub sub h ty co ci d a b) x h d ty.is64 val ∧ y.regs.flags = x.regs.flags ∧
      (if co = 0 then s.PredsStand (s.addSub sub h ty co ci d a b) else s.Carried (s.addSub sub h ty co ci d a b) x h d (co - 1) out) := by
  obtain ⟨y, r⟩ := addSub_settled hs sub h ty co ci hd ha hb (permOk_wide hp)
  simp only [hval] at r
  have hflags : y.regs.flags = x.regs.flags := by
    rw [r.flags, orAll_zero]
    exact BitVec.or_zero
  exact ⟨y, r.stepped, r.wrote, hflags, r.carryOut⟩

/-- Settles O7: both instructions run the shared addition, whose number and carry out are those of the sum or difference with the carry in. -/
theorem addSubtract : Obligations.AddSubtract := by
  unfold Obligations.AddSubtract
  intro s x h ty co ci d a b hs hd ha hb u v cin
  refine ⟨fun hl => ?_, fun hl => ?_⟩
  · obtain ⟨y, hy⟩ := addSub_completes hs false h ty co ci hd ha hb (permOk_of_iadd_legal hl) fun c => by
      rw [carryIn_of_settled hs, addCarry_add]
    exact ⟨_, y, exec_iadd h ty co ci d a b s, hy⟩
  · obtain ⟨y, hy⟩ := addSub_completes hs true h ty co ci hd ha hb (permOk_of_isub_legal hl) fun c => by
      rw [addCarry_sub, carryIn_cast_of_settled hs]
    exact ⟨_, y, exec_isub h ty co ci d a b s, hy⟩

end Sys2Proof.Machine
end

section
/-! SUPPORT. XCH, MATCH, FIRST, BALLOT and VOTE (R344 to R346, R350, R351): the exchange buffer holds the permuted source of every thread, and the
active threads and their predicates read alike at every beat. -/

namespace Sys2Proof.Machine

theorem exec_xch (h : Hdr) (ty : Ty) (wrap : Bool) (d : Opd) (a b : Src) (s : State) :
    exec (.xch h ty wrap d a b) s = .next (s.compute h
      { Uses.exchange d (regsOf ty.is64) (gathered a (regsOf ty.is64)) (srcGroup b 1) with b := srcPerm b 1, uni := false } fun env t rf =>
        d.putNat env rf ty.is64 t
          (let i := if wrap then b.nat env rf true false t % env.pos.width else b.nat env rf true false t
           if i < env.pos.width then env.buffered ty.is64 i else 0)) := rfl

theorem exec_matchB (h : Hdr) (ty : Ty) (d : Opd) (a : Src) (s : State) :
    exec (.matchB h ty d a) s = .next (s.compute h (.exchange d (regsOf true) (gathered a (regsOf ty.is64)) []) fun env b rf =>
      d.putNat env rf true b (maskOf (env.active.filter fun t => env.buffered ty.is64 t == env.buffered ty.is64 b)).toNat) := rfl

theorem exec_first_some (h : Hdr) (ty : Ty) (d : Opd) (a : Src) (s : State) :
    exec (.first h ty d (some a)) s = .next (s.compute h (.exchange d (regsOf ty.is64) (gathered a (regsOf ty.is64)) []) fun env b rf =>
      d.putNat env rf ty.is64 b (env.buffered ty.is64 (env.active.headD 0))) := rfl

theorem exec_first_none (h : Hdr) (ty : Ty) (d : Opd) (s : State) :
    exec (.first h ty d none) s = .next (s.compute h (.exchange d (regsOf ty.is64) none []) fun env b rf =>
      d.putNat env rf ty.is64 b (env.active.headD 0)) := rfl

theorem exec_ballot (h : Hdr) (ty : Ty) (neg : Bool) (d : Opd) (p : BitVec 3) (s : State) :
    exec (.ballot h ty neg d p) s = .next (s.compute h { Uses.exchange d (regsOf ty.is64) none [] with pr := [p] } fun env b rf =>
      d.putNat env rf ty.is64 b (maskOf (env.yes rf p neg)).toNat) := rfl

theorem exec_vote (h : Hdr) (mode : VoteMode) (neg : Bool) (p q : BitVec 3) (s : State) :
    exec (.vote h mode neg p q) s = .next (s.computeCarry h { Uses.nil with pr := [q], pw := [p], xch := true }
      (fun env rf => BitVec.ofNat 64 (voteResult mode (env.yes rf q neg).length env.active.length).toNat)
      (fun _ b a => (a.1.setPred p b (a.2 != 0), a.2)) (fun _ a => a.1)) := rfl

/-! ## What an exchange reads -/

/-- The active beats of a settled issue are those that execute per thread. -/
theorem planOf_active (s : State) (h : Hdr) (u : Uses) (x : Fibre) : (s.planOf h u x).env.active = s.beatsOf h false x := by
  have henv : (s.planOf h u x).env.active = maskBeats x.pos.width (s.active h x) := rfl
  rw [henv]
  unfold State.beatsOf
  split
  · next h0 => simp [maskBeats, beq_iff_eq.1 h0]
  · rfl

/-- The first word of a thread in the exchange buffer is that of the first gathered source. -/
theorem collect_fst {u : Uses} {o : Opd} {p : Perm} {n : Nat} (ha : u.a = some (o, p, n)) (env : Env) (rf : RF) {t : Nat} (ht : t < env.pos.width) :
    (nth (0, 0) (u.collect env rf) t).1 = permWord o env rf p 0 t := by
  cases hub : u.b with
  | none => exact (perm_word_a (ob := o) (pb := p) (nb := n) env rf ht).1 ha hub
  | some e => exact (perm_word_a (ob := e.1) (pb := e.2.1) (nb := e.2.2) env rf ht).2.2.2.2.1 ha hub

/-- The second word is the high word of a pair gathered alone. -/
theorem collect_snd_of_pair {u : Uses} {o : Opd} {p : Perm} (ha : u.a = some (o, p, 2)) (hb : u.b = none) (env : Env) (rf : RF) {t : Nat} (ht : t < env.pos.width) :
    (nth (0, 0) (u.collect env rf) t).2 = permWord o env rf p 1 t :=
  (perm_word_a (n := 2) (ob := o) (pb := p) (nb := 2) env rf ht).2.1 ha hb

/-- The second word is that of the second source where two are permuted. -/
theorem collect_snd_of_second {u : Uses} {o c : Opd} {m p : Perm} {n k : Nat} (ha : u.a = some (o, m, n)) (hb : u.b = some (c, p, k)) (env : Env) (rf : RF) {t : Nat}
    (ht : t < env.pos.width) : (nth (0, 0) (u.collect env rf) t).2 = permWord c env rf p 0 t :=
  (perm_word_a (ob := o) (pb := m) (nb := n) env rf ht).2.2.2.2.2 ha hb

/-- The exchange buffer holds at every thread the value that the gathered source had before the instruction (R156, R157). -/
theorem planOf_buffered {s : State} {x : Fibre} (h : Hdr) {u : Uses} {o : Opd} {m : Perm} {w : Bool} (ha : u.a = some (o, m, regsOf w))
    (hb : u.b = none ∨ w = false) {t : Nat} (ht : t < x.pos.width) : (s.planOf h u x).env.buffered w t = (Src.reg o m).value s x w t := by
  have hxb : (s.planOf h u x).env.xb = u.collect (s.env0 h u x) (s.rf s.iss.fibre x) := rfl
  simp only [Env.buffered, hxb, ← permuted_value h u, collect_fst ha (s.env0 h u x) (s.rf s.iss.fibre x) ht]
  cases w with
  | false => rfl
  | true => rw [collect_snd_of_pair ha (hb.resolve_right (by decide)) (s.env0 h u x) (s.rf s.iss.fibre x) ht]

/-- The single register beside a gathered source reads what it held before the instruction: in place, or permuted from the exchange buffer (R157). -/
theorem nat_beside_gathered {s : State} {x : Fibre} (h : Hdr) {u : Uses} {o : Opd} {m : Perm} {n : Nat} {b : Src} (ha : u.a = some (o, m, n))
    (hb : u.b = srcPerm b 1) {rf : RF} {D : List Ref} {P : List (BitVec 3)} {t : Nat} (ht : t ∈ s.beatsOf h u.uni x)
    (hs : SameAt (s.rf s.iss.fibre x) rf D P t) : b.nat (s.planOf h u x).env rf true false t = b.value s x false t := by
  cases b with
  | imm v => rw [imm_nat]; rfl
  | reg c p =>
    by_cases hid : p = .id
    · subst hid
      exact opd_value h u (lt64_of_beatsOf ht) hs c false
    · have hub : u.b = some (c, p, 1) := by rw [hb]; cases p <;> simp_all [srcPerm]
      have hboth : (s.planOf h u x).env.both = true := by
        have : (s.planOf h u x).env.both = (u.a.isSome && u.b.isSome) := rfl
        simp [this, ha, hub]
      have hword : (Src.reg c p).word (s.planOf h u x).env rf true 0 t = (nth (0, 0) (u.collect (s.env0 h u x) (s.rf s.iss.fibre x)) t).2 := by
        have hxb : (s.planOf h u x).env.xb = u.collect (s.env0 h u x) (s.rf s.iss.fibre x) := rfl
        rw [← hxb]
        cases p <;> simp_all [Src.word]
      have hsecond := collect_snd_of_second ha hub (s.env0 h u x) (s.rf s.iss.fibre x) (lt_width_of_beatsOf ht)
      rw [← permuted_value h u]
      simp only [Src.nat, Bool.false_eq_true, if_false, hword, hsecond]

/-- While an instruction writes no predicate, it counts at every beat the active threads whose predicate, perhaps negated, held before it. -/
theorem planOf_yes {s : State} {x : Fibre} (hs : s.Settled x) (h : Hdr) (u : Uses) {rf : RF} (p : BitVec 3) (neg : Bool)
    (hrf : ∀ t, t < 64 → rf.regs.pred p t = x.regs.pred p t) :
    (s.planOf h u x).env.yes rf p neg = (s.beatsOf h false x).filter fun t => s.pred s.iss.fibre p t != neg := by
  unfold Env.yes
  rw [planOf_active]
  refine List.filter_congr fun t ht => ?_
  have hget : rf.getPred (s.planOf h u x).env p t = rf.regs.pred p t := rfl
  have hpred : s.pred s.iss.fibre p t = x.regs.pred p t := by simp [State.pred, hs.here]
  rw [hget, hrf t (lt64_of_beatsOf ht), hpred]

/-- The lowest active thread lies below the width wherever a beat executes. -/
theorem headD_lt_width {s : State} {x : Fibre} {h : Hdr} {uni : Bool} {b : Nat} (hb : b ∈ s.beatsOf h uni x) : (s.beatsOf h false x).headD 0 < x.pos.width := by
  cases hall : s.beatsOf h false x with
  | nil => exact Nat.zero_lt_of_lt (lt_width_of_beatsOf hb)
  | cons c l =>
    have hc : c ∈ s.beatsOf h false x := by simp [hall]
    exact lt_width_of_beatsOf hc

/-! ## How an exchange completes -/

/-- The groups of an exchange fit where its destination, its gathered source and its second source do. -/
theorem fits_exchange {u : Uses} {x : Fibre} {d : Opd} {nd : Nat} {a : Option (Opd × Perm × Nat)} {b : Src} (hrd : u.rd = srcGroup b 1) (hwr : u.wr = [(d, nd)])
    (hua : u.a = a) (hub : u.b = srcPerm b 1) (hph : u.phase = []) (hd : d.Fits x nd) (ha : ∀ e ∈ a, e.1.Fits x e.2.2) (hb : b.Fits x 1) : u.Fits x := by
  intro e he
  simp only [Uses.groups, hrd, hwr, hua, hub, hph, List.append_nil, List.mem_append] at he
  rcases he with ((he | he) | he) | he
  · exact mem_srcGroup he hb
  · exact single_fits hd e he
  · cases a with
    | none => simp at he
    | some g =>
      obtain rfl : e = (g.1, g.2.2) := by simpa using he
      exact ha g rfl
  · exact mem_srcPerm he hb

/-- An instruction completes whose beats each write one number, of the operands as they were before it. -/
theorem computes_putNat {s : State} {x : Fibre} (hs : s.Settled x) {i : Instr} {h : Hdr} {u : Uses} (hf : u.Fits x) {d : Opd} {wide : Bool}
    (huni : u.uni = !d.perThread) {number : Env → Nat → RF → Nat} {val : Nat → Nat}
    (he : exec i s = .next (s.compute h u fun env b rf => d.putNat env rf wide b (number env b rf)))
    (hval : ∀ b ∈ s.beatsOf h u.uni x, ∀ rf, SameAt (s.rf s.iss.fibre x) rf (d.refs x.pos x.regs.woff (regsOf wide)) [] b →
      number (s.planOf h u x).env b rf = val b) : Computes s x i h d wide val := by
  have hput : ∃ y, PutResult s (s.compute h u fun env b rf => d.putNat env rf wide b (number env b rf)) x y (s.beatsOf h u.uni x) d wide none val
      (fun _ => false) (fun _ => 0) := by
    refine compute_put hs h hf (huni ▸ perThread_or d) (fun env b rf => ⟨_, _, _, putNat_eq _ _ _ _ _ _⟩) fun b hb rf hsame => ?_
    rw [putNat_eq, hval b hb rf hsame]
  obtain ⟨y, r⟩ := hput
  rw [huni] at r
  exact r.computes he

/-- Where no beat changes the carry, every beat meets the one it started from. -/
theorem carryAt_of_next_id {e : Nat → BeatEffect} (he : ∀ b, (e b).next = id) (c : Dword) (l : List Nat) (b : Nat) : carryAt e c l b = c := by
  unfold carryAt
  induction l.takeWhile (· != b) with
  | nil => rfl
  | cons k t ih =>
    rw [List.foldl_cons, he]
    exact ih

/-- What a beat makes of the registers that writes the answer, kept as the carry, to a predicate (R345). -/
def answerEffect (pos : Position) (woff : Nat) : BeatEffect := putEffect .sz pos woff (fun _ => 0) (· != 0) (fun _ => 0) id

/-- A beat that writes the answer to a predicate has that effect and no other. -/
theorem local_answer {before : RF} {x : Fibre} {env : Env} (hpos : env.pos = x.pos) (hwoff : env.woff = x.regs.woff) (p : BitVec 3) {b : Nat} (hb : b < 64) :
    LocalBeat before [] [p] b (fun a => (a.1.setPred p b (a.2 != 0), a.2)) (answerEffect x.pos x.regs.woff) := by
  have hform : ∀ a : RF × Dword, a.1.setPred p b (a.2 != 0) = putBeat .sz env false b (some p) 0 (a.2 != 0) 0 a.1 := fun _ => (raise_zero _).symm
  rw [← hpos, ← hwoff]
  exact local_put (d := .sz) (env := env) (wide := false) (p := some p) hb (fun a => ⟨_, _, _, _, by rw [hform]⟩) fun rf c _ => by rw [hform]; rfl

/-- An instruction that forms one answer in its read phase, and at every active beat writes it to a predicate (R345). -/
theorem answer_settled {s : State} {x : Fibre} (hs : s.Settled x) (h : Hdr) {u : Uses} (hf : u.Fits x) (huni : u.uni = false) (p : BitVec 3)
    (init : Env → RF → Dword) :
    ∃ y, PutResult s (s.computeCarry h u init (fun _ b a => (a.1.setPred p b (a.2 != 0), a.2)) (fun _ a => a.1)) x y (s.beatsOf h false x) .sz false (some p)
      (fun _ => 0) (fun _ => init (s.planOf h u x).env (s.rf s.iss.fibre x) != 0) (fun _ => 0) := by
  have hbeq : s.beatsOf h false x = s.beatsOf h u.uni x := by rw [huni]
  obtain ⟨y, rf, c, heq, hst, hregs, hslot, hd⟩ := settled_done hs h hf (init := init) (body := fun _ b a => (a.1.setPred p b (a.2 != 0), a.2))
    (D := []) (P := [p]) (e := fun _ => answerEffect x.pos x.regs.woff) (.inl (by simp))
    (fun b hb => local_answer (env := (s.planOf h u x).env) rfl rfl p (lt64_of_beatsOf hb)) fun _ b a ha => ha.setPred p b _
  rw [heq, hbeq]
  refine ⟨y, hst, ?_, ?_, ?_, ?_, ?_⟩
  · intro b _ i _ hn
    exact absurd rfl hn
  · intro r q hq _
    rw [word_of_fib hst.here hregs hslot, hd.rest r q hq (by simp), stepped_here_same hs]
  · intro k hk h7 b hb
    rw [pred_of_fib hst.here hregs, hd.pred b hb k (by simpa [eq_comm] using hk) h7, carryAt_of_next_id fun _ => rfl]
    rfl
  · intro k q hq hk
    rw [pred_of_fib hst.here hregs, hd.preds k q hq (by simpa [eq_comm] using hk)]
    simp [State.pred, hs.here, State.rf]
  · rw [hregs, hd.flags]
    exact foldl_or _ _ _

theorem perThread_of_vgroup {d : Opd} {n : Nat} (hd : d.vgroup n = true) : d.perThread = true := by
  cases d with
  | v k => rfl
  | s k => cases hd
  | sp y => cases hd
  | sz => cases hd

theorem srcPerm_eq_none {b : Src} (hb : b.permuted = false) (n : Nat) : srcPerm b n = none := by
  cases b with
  | imm v => rfl
  | reg o p => cases p <;> simp_all [Src.permuted, srcPerm]

/-- XCH writes v registers, and gathers a pair only beside a source that is not permuted (R157, R344). -/
theorem xch_legal {h : Hdr} {ty : Ty} {wrap : Bool} {d : Opd} {a b : Src} (hl : (Instr.xch h ty wrap d a b).legal = true) :
    d.perThread = true ∧ (srcPerm b 1 = none ∨ ty.is64 = false) := by
  obtain ⟨hshape, hpair⟩ := Bool.and_eq_true_iff.1 hl
  simp only [Bool.and_eq_true] at hshape
  obtain ⟨⟨⟨⟨-, hd⟩, -⟩, -⟩, -⟩ := hshape
  simp only [Bool.not_eq_true', Bool.and_eq_false_iff] at hpair
  exact ⟨perThread_of_vgroup hd, hpair.symm.imp_left fun hp => srcPerm_eq_none hp 1⟩

/-- MATCH, FIRST and BALLOT gather one source at most. -/
theorem fits_gathered {x : Fibre} {d : Opd} {nd : Nat} {a : Option (Opd × Perm × Nat)} (hd : d.Fits x nd) (ha : ∀ e ∈ a, e.1.Fits x e.2.2) (pr : List (BitVec 3)) :
    ({ Uses.exchange d nd a [] with pr := pr } : Uses).Fits x :=
  fits_exchange (b := .imm 0) rfl rfl rfl rfl rfl hd ha trivial

theorem xch_computes {s : State} {x : Fibre} (hs : s.Settled x) (h : Hdr) (ty : Ty) (wrap : Bool) {d o : Opd} {m : Perm} {b : Src} (hd : d.Fits x (regsOf ty.is64))
    (ha : o.Fits x (regsOf ty.is64)) (hb : b.Fits x 1) :
    Computes s x (.xch h ty wrap d (.reg o m) b) h d ty.is64 fun k =>
      let i := if wrap then b.value s x false k % x.pos.width else b.value s x false k
      if i < x.pos.width then (Src.reg o m).value s x ty.is64 i else 0 := by
  intro hl
  obtain ⟨hvector, halone⟩ := xch_legal hl
  refine computes_putNat hs (fits_exchange (a := some (o, m, _)) rfl rfl rfl rfl rfl hd (by simpa using ha) hb) (by simp [hvector]) (exec_xch ..) ?_ hl
  intro t ht rf hsame
  have hindex := nat_beside_gathered h (o := o) (m := m) (n := regsOf ty.is64) (b := b) rfl rfl ht hsame
  dsimp only
  rw [hindex]
  exact ite_congr rfl (fun hi => planOf_buffered h rfl halone hi) fun _ => rfl

theorem matchB_computes {s : State} {x : Fibre} (hs : s.Settled x) (h : Hdr) (ty : Ty) {d o : Opd} {m : Perm} (hd : d.Fits x 2) (ha : o.Fits x (regsOf ty.is64)) :
    Computes s x (.matchB h ty d (.reg o m)) h d true fun k =>
      (maskOf ((s.beatsOf h false x).filter fun j => (Src.reg o m).value s x ty.is64 j == (Src.reg o m).value s x ty.is64 k)).toNat := by
  refine computes_putNat hs (fits_gathered (a := some (o, m, _)) hd (by simpa using ha) []) rfl (exec_matchB ..) fun b hb rf _ => ?_
  have hread : ∀ {j uni}, j ∈ s.beatsOf h uni x →
      (s.planOf h (.exchange d 2 (some (o, m, regsOf ty.is64)) []) x).env.buffered ty.is64 j = (Src.reg o m).value s x ty.is64 j :=
    fun hj => planOf_buffered h rfl (.inl rfl) (lt_width_of_beatsOf hj)
  rw [planOf_active]
  congr 2
  refine List.filter_congr fun j hj => ?_
  have hj' := hread hj
  have hb' := hread hb
  exact hj' ▸ hb' ▸ rfl

theorem first_computes {s : State} {x : Fibre} (hs : s.Settled x) (h : Hdr) (ty : Ty) {d o : Opd} {m : Perm} (hd : d.Fits x (regsOf ty.is64))
    (ha : o.Fits x (regsOf ty.is64)) :
    Computes s x (.first h ty d (some (.reg o m))) h d ty.is64 fun _ => (Src.reg o m).value s x ty.is64 ((s.beatsOf h false x).headD 0) := by
  refine computes_putNat hs (fits_gathered (a := some (o, m, _)) hd (by simpa using ha) []) rfl (exec_first_some ..) fun b hb rf _ => ?_
  rw [planOf_active]
  exact planOf_buffered h rfl (.inl rfl) (headD_lt_width hb)

theorem first_number_computes {s : State} {x : Fibre} (hs : s.Settled x) (h : Hdr) (ty : Ty) {d : Opd} (hd : d.Fits x (regsOf ty.is64)) :
    Computes s x (.first h ty d none) h d ty.is64 fun _ => (s.beatsOf h false x).headD 0 :=
  computes_putNat hs (fits_gathered (a := none) hd (by simp) []) rfl (exec_first_none ..) fun _ _ _ _ => by rw [planOf_active]

theorem ballot_computes {s : State} {x : Fibre} (hs : s.Settled x) (h : Hdr) (ty : Ty) (neg : Bool) {d : Opd} (p : BitVec 3) (hd : d.Fits x (regsOf ty.is64)) :
    Computes s x (.ballot h ty neg d p) h d ty.is64 fun _ => (maskOf ((s.beatsOf h false x).filter fun j => s.pred s.iss.fibre p j != neg)).toNat :=
  computes_putNat hs (fits_gathered (a := none) hd (by simp) [p]) rfl (exec_ballot ..) fun _ _ _ hsame => by
    rw [planOf_yes hs h _ p neg fun t ht => hsame.pred p t ht (.inl (by simp))]

/-! ## The answer of a vote (R345) -/

theorem voteResult_every (yes n : Nat) : voteResult .every yes n = decide (yes = n) := rfl

theorem voteResult_some (yes n : Nat) : voteResult .some yes n = decide (0 < yes) := by
  rw [Bool.eq_iff_iff]
  simp [voteResult, Nat.pos_iff_ne_zero]

theorem voteResult_same (yes n : Nat) : voteResult .same yes n = decide (yes = 0 ∨ yes = n) := by
  rw [Bool.eq_iff_iff]
  simp [voteResult]

theorem voteResult_most (yes n : Nat) : voteResult .most yes n = decide (n < 2 * yes) := rfl

/-- An answer kept as a word is the answer. -/
theorem ofNat_toNat_ne_zero (b : Bool) : (BitVec.ofNat 64 b.toNat != 0) = b := by cases b <;> rfl

theorem vote_compares {s : State} {x : Fibre} (hs : s.Settled x) (h : Hdr) (mode : VoteMode) (neg : Bool) (p q : BitVec 3) {answer : Bool}
    (hanswer : voteResult mode ((s.beatsOf h false x).filter fun j => s.pred s.iss.fibre q j != neg).length (s.beatsOf h false x).length = answer) :
    Compares s x (.vote h mode neg p q) h p fun _ => (answer, 0) := by
  obtain ⟨y, r⟩ := answer_settled hs h (u := { Uses.nil with pr := [q], pw := [p], xch := true }) (by intro e he; simp [Uses.groups, Uses.nil] at he) rfl p
    fun env rf => BitVec.ofNat 64 (voteResult mode (env.yes rf q neg).length env.active.length).toNat
  simp only [ofNat_toNat_ne_zero, planOf_active, planOf_yes hs h _ (rf := s.rf s.iss.fibre x) q neg fun _ _ => rfl, hanswer] at r
  exact r.compares (value := fun _ => (answer, 0)) (exec_vote ..)

/-- Settles O18: each exchange writes one number of the gathered values, and a vote one answer of the active threads' predicates, as they stood before it. -/
theorem exchangesAndVotes : Obligations.ExchangesAndVotes := by
  unfold Obligations.ExchangesAndVotes
  refine ⟨?_, ?_⟩
  · intro s x h ty d o m hs a w n all
    exact ⟨fun hd ha wrap b hb => xch_computes hs h ty wrap hd ha hb, fun hd ha => matchB_computes hs h ty hd ha, fun hd ha => first_computes hs h ty hd ha,
      fun hd => first_number_computes hs h ty hd, fun hd neg p => ballot_computes hs h ty neg p hd⟩
  · intro s x h mode neg p q hs all yes
    refine vote_compares hs h mode neg p q ?_
    cases mode with
    | every => exact voteResult_every _ _
    | some => exact voteResult_some _ _
    | same => exact voteResult_same _ _
    | most => exact voteResult_most _ _

end Sys2Proof.Machine
end
